-- ==== Sys2Proof/Word.lean ====
section
/-!
DEFINITION. Word.lean: the plain types every rule uses (R11 to R14).
-/

namespace Sys2Proof

/-- A payload byte, a length, one byte of a caller buffer: 8 bits (R11). -/
abbrev Byte := BitVec 8

/-- A cycle value: a W_CC-bit unsigned number (R13). W_CC is a parameter (R10, D1), so the value is a natural number, and every
operation that makes one takes it modulo 2^W_CC (`wrap` in Machine/Flags.lean). Log 1. -/
abbrev Cycle := Nat

/-- `Level` of R14: the level of a line or of an output latch. -/
inductive Level where
  | low
  | high
deriving DecidableEq, Repr, Inhabited

/-- `Mode` of R14: the direction of a pin. -/
inductive Mode where
  | input
  | output
deriving DecidableEq, Repr, Inhabited

/-- `Pin` of R14: the two lines the block owns (R32). -/
inductive PinName where
  | signal
  | reset
deriving DecidableEq, Repr

/-- The interrupt-delivery state IM of R37. -/
inductive IrqMask where
  | unmasked
  | masked
deriving DecidableEq, Repr

/-- What the target does to SIGNAL at one cycle (R44). -/
inductive Drive where
  | low
  | released
deriving DecidableEq, Repr, Inhabited

end Sys2Proof
end

