-- ==== Sys2Proof/Config.lean ====
section
/-!
DEFINITION. Config.lean: the implementation parameters of R10, the constants the spec leaves OPEN, and the free values.
An opaque constant has no body: nothing in Lean can evaluate it or prove a value of it.
-/

namespace Sys2Proof

/-- The numeric error codes of R96. The values −1 to −6 are the spec's own choice (D32) and parameters of the
model: UNVERIFIED, unsafe for claims on numbers, log 3. -/
structure ErrorCodes where
  readBitTimeout : Int := -1
  invalidTargetId : Int := -2
  parity : Int := -3
  nack : Int := -4
  syncTimeout1 : Int := -5
  syncTimeout2 : Int := -6
deriving DecidableEq, Repr

/-- The implementation parameters of R10: what a model of the block takes as arguments. Fields without a default
are OPEN in R10; the defaults are the values R10 gives. Times are cycles unless the comment says microseconds. -/
structure Params where
  /-- W_CC, the width of the cycle counter in bits (D1). UNVERIFIED, log 1. -/
  wCc : Nat := 32
  /-- CYCLES_PER_US (D2). -/
  cyclesPerUs : Nat
  /-- T_PERIOD, the bit period (D3). -/
  tPeriod : Nat
  /-- T_SHORT, the short period (D3). -/
  tShort : Nat
  /-- T_HALF, the delay from a detected falling edge to its sample (D3, I16; log 20). -/
  tHalf : Nat := tPeriod / 2
  /-- T_RX_OFFSET, the inter-bit offset on receive (D4). -/
  tRxOffset : Nat
  /-- T_SETUP, the setup margin before a host frame (D5). -/
  tSetup : Nat
  /-- TIMEOUT, the poll budget of one bit reception, in iterations (R38, D6). -/
  timeout : Nat
  /-- ENTRY_TIMEOUT_A, the poll budget of WAIT_FALL (D27). -/
  entryTimeoutA : Nat
  /-- ENTRY_TIMEOUT_B, the poll budget of WAIT_RISE (D27). -/
  entryTimeoutB : Nat
  /-- T_SETTLE, the SETTLE dead time (D28). -/
  tSettle : Nat
  /-- T_RISE, the window after a release in which a read is any value (D33). -/
  tRise : Nat
  /-- EPS_CRIT, the largest lateness of a scheduled transition inside a critical section (D34). -/
  epsCrit : Nat
  /-- POLL_MIN, the least cycles of one poll iteration (D7). -/
  pollMin : Nat := 1
  /-- T_ENTRY_LOW in microseconds (§4.5). -/
  tEntryLowUs : Nat := 16
  /-- N_TOGGLE_1K (§4.5). -/
  nToggle1k : Nat := 4
  /-- N_TOGGLE_2K (§4.5). -/
  nToggle2k : Nat := 4
  /-- T_TOGGLE_1K in microseconds (D24). -/
  tToggle1kUs : Nat := 500
  /-- T_TOGGLE_2K in microseconds (D24). -/
  tToggle2kUs : Nat := 250
  /-- CMD_SRST (D12). -/
  cmdSrst : BitVec 3 := 0b000#3
  /-- CMD_ROTF (D12). -/
  cmdRotf : BitVec 3 := 0b001#3
  /-- CMD_WOTF (D12). -/
  cmdWotf : BitVec 3 := 0b010#3
  /-- HOST_START, the start bit of a host frame (D10). -/
  hostStart : Bool := false
  /-- TARGET_START, the start bit of a target frame (D11). -/
  targetStart : Bool := true
  /-- ACK_LEVEL, the sampled level that means ACK (D9). -/
  ackLevel : Level := .high
  /-- RESET_RELEASE, the `reset` mode that tri-states RESET (§8). -/
  resetRelease : Byte := 0xFF#8
  /-- ERR_* (D32). -/
  errors : ErrorCodes := {}
deriving DecidableEq, Repr

/-- Free value behind CYCLES_PER_US (OPEN, D2). -/
opaque Config.rawCyclesPerUs : Nat
/-- Free value behind T_PERIOD (OPEN, D3). -/
opaque Config.rawTPeriod : Nat
/-- Free value behind T_SHORT (OPEN, D3). -/
opaque Config.rawTShort : Nat
/-- Free value behind T_RX_OFFSET (OPEN, D4). -/
opaque Config.rawTRxOffset : Nat
/-- Free value behind T_SETUP (OPEN, D5). -/
opaque Config.rawTSetup : Nat
/-- TIMEOUT (OPEN, D6): a count of iterations. -/
opaque Config.timeout : Nat
/-- ENTRY_TIMEOUT_A (OPEN, D27): a count of iterations. -/
opaque Config.entryTimeoutA : Nat
/-- ENTRY_TIMEOUT_B (OPEN, D27): a count of iterations. -/
opaque Config.entryTimeoutB : Nat
/-- Free value behind T_SETTLE (OPEN, D28). -/
opaque Config.rawTSettle : Nat
/-- Free value behind T_RISE (OPEN, D33). -/
opaque Config.rawTRise : Nat
/-- Free value behind EPS_CRIT (OPEN, D34). -/
opaque Config.rawEpsCrit : Nat

/-- The target's drive on SIGNAL at a cycle, where nothing fixes it: a free input over time (R44, D38). -/
opaque Config.targetDrive : Nat → Drive

/-- The n-th draw, where nothing fixes it: cycles of other firmware, lateness, poll cost, or a level (I4 to I6,
I17). -/
opaque Config.freeDraw : Nat → Nat

/-- The answer of the numeric projection to an entry duration of 2^(W_CC−1) or more, where it has no meaning (R179, R228,
I18). Log 23. -/
opaque Config.longDuration : Nat → Nat

/-- Every timing parameter is below 2^(W_CC−2) cycles (R227; R10 asks for 2^(W_CC−1)), with R10's W_CC. -/
abbrev Config.cycleBound : Nat := 2 ^ 30

/-- CYCLES_PER_US: OPEN, and small enough that the longest interval of the entry sequence, 500 µs, is below the bound
(R10, R227). -/
def Config.cyclesPerUs : Nat := Config.rawCyclesPerUs % (Config.cycleBound / 500)

/-- T_PERIOD: OPEN, within R10's limits (it must leave room for 0 < T_SHORT and 2·T_SHORT < T_PERIOD). -/
def Config.tPeriod : Nat := 3 + Config.rawTPeriod % (Config.cycleBound - 3)

/-- T_SHORT: OPEN, within R10's limits 0 < T_SHORT and 2·T_SHORT < T_PERIOD. -/
def Config.tShort : Nat := 1 + Config.rawTShort % ((Config.tPeriod - 1) / 2)

/-- T_RX_OFFSET: OPEN, within D4's requirement T_PERIOD − T_SHORT ≤ T_RX_OFFSET < T_PERIOD (R10, R225). -/
def Config.tRxOffset : Nat := Config.tPeriod - Config.tShort + Config.rawTRxOffset % Config.tShort

/-- The parameters of the machine after power-on: R10's values, and a free value, inside the limits of R10, R225 and R227, for
each that R10 leaves OPEN. Log 2. -/
def Config.params : Params where
  cyclesPerUs := Config.cyclesPerUs
  tPeriod := Config.tPeriod
  tShort := Config.tShort
  tRxOffset := Config.tRxOffset
  tSetup := Config.rawTSetup % Config.cycleBound
  timeout := Config.timeout
  entryTimeoutA := Config.entryTimeoutA
  entryTimeoutB := Config.entryTimeoutB
  tSettle := Config.rawTSettle % Config.cycleBound
  tRise := Config.rawTRise % Config.cycleBound
  epsCrit := Config.rawEpsCrit % Config.cycleBound

end Sys2Proof
end

