-- ==== Sys2Proof/Syntax.lean ====
section
/-!
DEFINITION. Syntax.lean: the operations of R3, one constructor per row of spec/opcode_table.json, with the operands of
R92 and of files 40 to 44.
-/

namespace Sys2Proof

/-- A caller buffer: `size` bytes of caller memory from address `base` on (R60). An access is an index into it. -/
structure Buffer where
  base : Nat
  size : Nat
deriving DecidableEq, Repr

/-- The nineteen operations of the block (R3, R93). -/
inductive Instr where
  /-- Selector 0x00, R186: one-time startup. -/
  | init
  /-- Selector 0x01, R185: drive or release the target's reset line. -/
  | reset (mode : Byte)
  /-- Selector 0x02, R175: the entry handshake. -/
  | swimEntry
  /-- Selector 0x03, R161: soft reset of the target. -/
  | srst
  /-- Selector 0x04, R159: read-on-the-fly. -/
  | rotf (lenAndAddr dest : Buffer)
  /-- Selector 0x05, R160: write-on-the-fly. -/
  | wotf (data : Buffer)
  /-- Selector 0x06, R155: a command frame and its payload. -/
  | sendCommand (cmd : Byte) (len : Nat) (data : Buffer)
  /-- Selector 0x10, R110: read the cycle counter. -/
  | now
  /-- Selector 0x11, R111: wait for a cycle. -/
  | waitUntil (target : Cycle)
  /-- Selector 0x12, R115: mask interrupt delivery. -/
  | enterCritical
  /-- Selector 0x13, R116: restore interrupt delivery. -/
  | leaveCritical (saved : IrqMask)
  /-- Selector 0x20, R125: drive one bit. -/
  | sendBit (start : Cycle) (prevZero b : Bool)
  /-- Selector 0x21, R126: close a host frame. -/
  | finishFrame (lastStart : Cycle)
  /-- Selector 0x22, R128: receive one bit; out_start is the state's `cursor`. -/
  | receiveBit
  /-- Selector 0x30, R140: send one host frame and receive its ACK. -/
  | sendByte (cursor : Cycle) (data : BitVec 16) (n : Nat)
  /-- Selector 0x31, R146: receive one target frame and send its ACK. -/
  | receiveByte
  /-- Selector 0x40, R87: the wire transaction SRST. -/
  | wireSrst
  /-- Selector 0x41, R87: the wire transaction ROTF. -/
  | wireRotf (lenAndAddr dest : Buffer)
  /-- Selector 0x42, R87: the wire transaction WOTF. -/
  | wireWotf (data : Buffer)
deriving DecidableEq, Repr

end Sys2Proof
end

