-- ==== Sys2Proof/WellFormed.lean ====
section
/-!
DEFINITION. WellFormed.lean: which operands an operation may have (R91, R94, I8), and which of them a call message can
carry (log 12).
-/

namespace Sys2Proof

/-- A buffer lies inside the model's 32-bit caller memory. The pointer width is in no source (R60): DESIGN CHOICE,
log 12 and 13. -/
def Buffer.wellFormed (b : Buffer) : Bool :=
  decide (b.base < 2 ^ 32) && decide (b.size < 2 ^ 32) && decide (b.base + b.size ≤ 2 ^ 32)

/-- A command id is 3 bits (R86); "An id of 8 or more has no meaning in this spec" (R94). -/
def commandIdOk (cmd : Byte) : Bool := decide (cmd.toNat < 8)

/-- A frame has 4 or 9 bits (R91, R140). -/
def frameLengthOk (n : Nat) : Bool := n == 4 || n == 9

/-- A payload length that a call message can carry (log 12); R92 bounds it by nothing. -/
def payloadLengthOk (len : Nat) : Bool := decide (len < 2 ^ 32)

/-- A cycle value that a call message can carry (log 12). An operation reads it modulo 2^W_CC (R13). -/
def cycleOk (c : Cycle) : Bool := decide (c < 2 ^ 64)

/-- The operands are ones the spec gives a meaning and a call message can carry. -/
def Instr.wellFormed : Instr → Bool
  | .init => true
  | .reset _ => true
  | .swimEntry => true
  | .srst => true
  | .rotf lenAndAddr dest => lenAndAddr.wellFormed && dest.wellFormed
  | .wotf data => data.wellFormed
  | .sendCommand cmd len data => commandIdOk cmd && payloadLengthOk len && data.wellFormed
  | .now => true
  | .waitUntil target => cycleOk target
  | .enterCritical => true
  | .leaveCritical _ => true
  | .sendBit start _ _ => cycleOk start
  | .finishFrame lastStart => cycleOk lastStart
  | .receiveBit => true
  | .sendByte cursor _ n => cycleOk cursor && frameLengthOk n
  | .receiveByte => true
  | .wireSrst => true
  | .wireRotf lenAndAddr dest => lenAndAddr.wellFormed && dest.wellFormed
  | .wireWotf data => data.wellFormed

end Sys2Proof
end

