-- ==== Sys2Proof/Decode.lean ====
section
/-!
DEFINITION. Decode.lean: a call message to an operation, and back. The selector is the spec's (R93, D35). The layout of
the operands after it is the model's own, since the spec gives operands no bits: DESIGN CHOICE, log 12. A message is the
selector byte and then the operands in the order of R92:

* a cycle is 8 bytes, most significant first, which carries every value of a counter of up to 64 bits;
* a base address or a payload length is 4 bytes, most significant first;
* a buffer is its base and then its size less 4, modulo 2^32 (so that zeros name a 4-byte buffer, which holds a
  descriptor);
* a mode, a command id is 1 byte; a flag, a bit or an interrupt-mask state is 1 byte, 0 or 1;
* the frame value of `send_byte` is 2 bytes, most significant first, and its length n is 1 byte holding n less 4.

Bytes after the last operand belong to no operand and are given back.
-/

namespace Sys2Proof

/-- Why a call message names no operation (R94: "refused by a model"). -/
inductive DecodeError where
  /-- The message has no selector. -/
  | empty
  /-- The message ends before its last operand. -/
  | truncated
  /-- A selector that is not in opcode_table.json (I8). -/
  | unknownSelector (selector : Byte)
  /-- A command id of 8 or more (R94, I8). -/
  | commandId (cmd : Byte)
  /-- A frame length other than 4 or 9 (R91, I8). -/
  | frameLength (n : Nat)
  /-- A buffer that runs past the end of caller memory. -/
  | bufferRange (buffer : Buffer)
  /-- A flag, bit or mask operand that is neither 0 nor 1. -/
  | flagOperand (value : Byte)
deriving DecidableEq, Repr

/-- The selector of each operation (opcode_table.json, R93). -/
def selector : Instr → Byte
  | .init => 0x00#8
  | .reset _ => 0x01#8
  | .swimEntry => 0x02#8
  | .srst => 0x03#8
  | .rotf _ _ => 0x04#8
  | .wotf _ => 0x05#8
  | .sendCommand _ _ _ => 0x06#8
  | .now => 0x10#8
  | .waitUntil _ => 0x11#8
  | .enterCritical => 0x12#8
  | .leaveCritical _ => 0x13#8
  | .sendBit _ _ _ => 0x20#8
  | .finishFrame _ => 0x21#8
  | .receiveBit => 0x22#8
  | .sendByte _ _ _ => 0x30#8
  | .receiveByte => 0x31#8
  | .wireSrst => 0x40#8
  | .wireRotf _ _ => 0x41#8
  | .wireWotf _ => 0x42#8

/-- One byte of a message. -/
def takeByte : List Byte → Except DecodeError (Byte × List Byte)
  | a :: rest => .ok (a, rest)
  | [] => .error .truncated

/-- Four bytes of a message, most significant first. -/
def takeWord : List Byte → Except DecodeError (BitVec 32 × List Byte)
  | a :: b :: c :: d :: rest => .ok (a ++ b ++ c ++ d, rest)
  | _ => .error .truncated

/-- A cycle: eight bytes of a message, most significant first. -/
def takeCycle : List Byte → Except DecodeError (Cycle × List Byte)
  | a :: b :: c :: d :: e :: f :: g :: h :: rest => .ok ((a ++ b ++ c ++ d ++ e ++ f ++ g ++ h).toNat, rest)
  | _ => .error .truncated

/-- Two bytes of a message, most significant first. -/
def takeHalf : List Byte → Except DecodeError (BitVec 16 × List Byte)
  | a :: b :: rest => .ok (a ++ b, rest)
  | _ => .error .truncated

/-- A flag or a bit. -/
def takeFlag (m : List Byte) : Except DecodeError (Bool × List Byte) :=
  match takeByte m with
  | .ok (v, rest) =>
    if v = 0#8 then .ok (false, rest) else if v = 1#8 then .ok (true, rest) else .error (.flagOperand v)
  | .error e => .error e

/-- A saved interrupt-mask state (R116): 0 is UNMASKED, 1 is MASKED. -/
def takeMask (m : List Byte) : Except DecodeError (IrqMask × List Byte) :=
  match takeFlag m with
  | .ok (v, rest) => .ok (if v then .masked else .unmasked, rest)
  | .error e => .error e

/-- A caller buffer. -/
def takeBuffer (m : List Byte) : Except DecodeError (Buffer × List Byte) :=
  match takeWord m with
  | .ok (base, rest) =>
    match takeWord rest with
    | .ok (size, rest) =>
      let b : Buffer := { base := base.toNat, size := (size + 4#32).toNat }
      if b.wellFormed then .ok (b, rest) else .error (.bufferRange b)
    | .error e => .error e
  | .error e => .error e

/-- A command id, refused from 8 on (R94). -/
def takeCommandId (m : List Byte) : Except DecodeError (Byte × List Byte) :=
  match takeByte m with
  | .ok (cmd, rest) => if commandIdOk cmd then .ok (cmd, rest) else .error (.commandId cmd)
  | .error e => .error e

/-- A frame length, refused unless it is 4 or 9 (R91). -/
def takeFrameLength (m : List Byte) : Except DecodeError (Nat × List Byte) :=
  match takeByte m with
  | .ok (v, rest) => if frameLengthOk (v.toNat + 4) then .ok (v.toNat + 4, rest) else .error (.frameLength (v.toNat + 4))
  | .error e => .error e

/-- The operands of the operation with the given selector. -/
def decodeOperands (sel : Byte) (m : List Byte) : Except DecodeError (Instr × List Byte) :=
  match sel.toNat with
  | 0x00 => .ok (.init, m)
  | 0x01 => do
    let (mode, m) ← takeByte m
    .ok (.reset mode, m)
  | 0x02 => .ok (.swimEntry, m)
  | 0x03 => .ok (.srst, m)
  | 0x04 => do
    let (lenAndAddr, m) ← takeBuffer m
    let (dest, m) ← takeBuffer m
    .ok (.rotf lenAndAddr dest, m)
  | 0x05 => do
    let (data, m) ← takeBuffer m
    .ok (.wotf data, m)
  | 0x06 => do
    let (cmd, m) ← takeCommandId m
    let (len, m) ← takeWord m
    let (data, m) ← takeBuffer m
    .ok (.sendCommand cmd len.toNat data, m)
  | 0x10 => .ok (.now, m)
  | 0x11 => do
    let (target, m) ← takeCycle m
    .ok (.waitUntil target, m)
  | 0x12 => .ok (.enterCritical, m)
  | 0x13 => do
    let (saved, m) ← takeMask m
    .ok (.leaveCritical saved, m)
  | 0x20 => do
    let (start, m) ← takeCycle m
    let (prevZero, m) ← takeFlag m
    let (b, m) ← takeFlag m
    .ok (.sendBit start prevZero b, m)
  | 0x21 => do
    let (lastStart, m) ← takeCycle m
    .ok (.finishFrame lastStart, m)
  | 0x22 => .ok (.receiveBit, m)
  | 0x30 => do
    let (cursor, m) ← takeCycle m
    let (data, m) ← takeHalf m
    let (n, m) ← takeFrameLength m
    .ok (.sendByte cursor data n, m)
  | 0x31 => .ok (.receiveByte, m)
  | 0x40 => .ok (.wireSrst, m)
  | 0x41 => do
    let (lenAndAddr, m) ← takeBuffer m
    let (dest, m) ← takeBuffer m
    .ok (.wireRotf lenAndAddr dest, m)
  | 0x42 => do
    let (data, m) ← takeBuffer m
    .ok (.wireWotf data, m)
  | _ => .error (.unknownSelector sel)

/-- The operation a call message names, and the bytes after its operands. -/
def decode : List Byte → Except DecodeError (Instr × List Byte)
  | [] => .error .empty
  | sel :: m => decodeOperands sel m

/-- Four bytes, most significant first. -/
def putWord (w : BitVec 32) : List Byte :=
  [w.extractLsb' 24 8, w.extractLsb' 16 8, w.extractLsb' 8 8, w.extractLsb' 0 8]

/-- A cycle: eight bytes, most significant first. -/
def putCycle (c : Cycle) : List Byte :=
  (List.range 8).map fun k => BitVec.ofNat 8 (c / 2 ^ (8 * (7 - k)))

/-- Two bytes, most significant first. -/
def putHalf (w : BitVec 16) : List Byte := [w.extractLsb' 8 8, w.extractLsb' 0 8]

/-- A flag or a bit. -/
def putFlag (b : Bool) : List Byte := [if b then 1#8 else 0#8]

/-- A saved interrupt-mask state. -/
def putMask (s : IrqMask) : List Byte := putFlag (s == .masked)

/-- A caller buffer. -/
def putBuffer (b : Buffer) : List Byte := putWord (BitVec.ofNat 32 b.base) ++ putWord (BitVec.ofNat 32 b.size - 4#32)

/-- The operands of an operation, in the order of R92. -/
def encodeOperands : Instr → List Byte
  | .init => []
  | .reset mode => [mode]
  | .swimEntry => []
  | .srst => []
  | .rotf lenAndAddr dest => putBuffer lenAndAddr ++ putBuffer dest
  | .wotf data => putBuffer data
  | .sendCommand cmd len data => [cmd] ++ putWord (BitVec.ofNat 32 len) ++ putBuffer data
  | .now => []
  | .waitUntil target => putCycle target
  | .enterCritical => []
  | .leaveCritical saved => putMask saved
  | .sendBit start prevZero b => putCycle start ++ putFlag prevZero ++ putFlag b
  | .finishFrame lastStart => putCycle lastStart
  | .receiveBit => []
  | .sendByte cursor data n => putCycle cursor ++ putHalf data ++ [BitVec.ofNat 8 (n - 4)]
  | .receiveByte => []
  | .wireSrst => []
  | .wireRotf lenAndAddr dest => putBuffer lenAndAddr ++ putBuffer dest
  | .wireWotf data => putBuffer data

/-- The call message of a well-formed operation. -/
def encode (i : Instr) : List Byte := selector i :: encodeOperands i

/-- The longest call message, in bytes: `rotf` with its selector and two buffers. -/
def longestMessage : Nat := 17

/-- The bytes of a message whose first nbits bits are w, bit 0 the least significant bit of the first byte, and zeros
from there up to the longest message. -/
def tableMessage (nbits w : Nat) : List Byte :=
  (List.range longestMessage).map fun k => BitVec.ofNat 8 ((w % 2 ^ nbits) >>> (8 * k))

/-- The operation the decoder reads from a row's bits (fixed name of the host). -/
def decodeTableWord (nbits w : Nat) : Option Instr :=
  match decode (tableMessage nbits w) with
  | .ok (i, _) => some i
  | .error _ => none

end Sys2Proof
end

