-- ==== Sys2Proof/Machine/State.lean ====
section
/-!
DEFINITION. State.lean: every piece of state the spec gives the block (R30, R39 to R42), its caller memory (R60), its
environment as data (R44), the errors and replies of its operations (R14, R197), the reasons a step can stop, and the
state after power-on (R47).
-/

namespace Sys2Proof.Machine

open Sys2Proof

/-- One GPIO line's direction and output latch (R32). -/
structure Pin where
  mode : Mode
  latch : Level
deriving DecidableEq, Repr

/-- The four writes of R33. -/
inductive PinAction where
  | setHigh
  | setLow
  | setOutput
  | setInput
deriving DecidableEq, Repr

/-- What an event does (R16). -/
inductive Action where
  /-- A pin write (R33). -/
  | pin (p : PinName) (a : PinAction)
  /-- A read of SIGNAL that saw this level (R35). -/
  | read (level : Level)
  /-- `irq_mask` (R37). -/
  | irqMask
  /-- `irq_restore` of this state (R37). -/
  | irqRestore (im : IrqMask)
  /-- `wdt_service` (R176). -/
  | watchdog
deriving DecidableEq, Repr

/-- An event of R16. The cycle is counted without wrapping; its W_CC-bit value is its remainder (log 18). -/
structure Event where
  cycle : Nat
  action : Action
deriving DecidableEq, Repr

/-- The error kinds of R197. -/
inductive Error where
  /-- No LOW seen in TIMEOUT poll iterations; at command level an ACK bit that never started. -/
  | readBitTimeout
  /-- No LOW seen for bit i of a target frame: 0 start, 1 to 8 data d7 to d0, 9 parity. -/
  | rxByteTimeout (i : Fin 10)
  /-- The start bit of a target frame is not TARGET_START. -/
  | invalidTargetId
  /-- The parity of a target frame is odd. -/
  | parityError
  /-- The ACK bit of the command frame is not ACK_LEVEL. -/
  | nack
  /-- WAIT_FALL saw no LOW. -/
  | syncTimeout1
  /-- WAIT_RISE saw no HIGH. -/
  | syncTimeout2
deriving DecidableEq, Repr

/-- What an operation returns (R14, R92, R95). -/
inductive Reply where
  /-- An operation with no result. -/
  | none
  /-- `Ok(0)`. -/
  | ok
  /-- `Ok(duration)` of `swim_entry`, in cycles. -/
  | duration (cycles : Nat)
  /-- `Ok(v)` of `receive_byte`. -/
  | byte (v : Byte)
  /-- `Ok(level, t)` of `receive_bit`; `Ok(ack_level, ack_start)` of `send_byte`. -/
  | bit (level : Level) (start : Cycle)
  /-- The cycle of `now`. -/
  | cycle (c : Cycle)
  /-- The saved state of `enter_critical`. -/
  | saved (im : IrqMask)
  /-- `Err(e)`. -/
  | error (e : Error)
deriving DecidableEq, Repr

/-- Caller memory: its bytes by address, addresses strictly rising, no entry equal to what an unlisted address reads
as. -/
abbrev Memory := List Host.Cell

/-- The registers of a frame in progress (R40, R42, and the locals of R146). -/
structure FrameRegs where
  /-- The bit index: k of a host frame, i of a target frame. -/
  bit : Nat := 0
  /-- `prev_zero`: the bit sent last was 0. -/
  prevZero : Bool := false
  /-- The parity accumulator p. -/
  parity : Bool := false
  /-- s: the detected edge of the target frame's last bit. -/
  start : Cycle := 0
  /-- v: the data bits received so far. -/
  value : Byte := 0#8
  /-- q: the received parity bit. -/
  last : Bool := false
deriving DecidableEq, Repr

/-- The positions of the entry sequencer (R41). -/
inductive EntryPos where
  | idle
  | driveLow
  | pulseTrain (k : Nat)
  | releaseToInput
  | waitFall
  | waitRise
  | settle
  | done
  | failSyncTimeout1
  | failSyncTimeout2
deriving DecidableEq, Repr

/-- The entry sequencer: its position and the locals of R175. -/
structure EntryRegs where
  pos : EntryPos := .idle
  /-- t: the cycle the next event of the train is scheduled at. -/
  next : Cycle := 0
  level : Level := .low
  /-- s: the interrupt-mask state saved at RELEASE_TO_INPUT. -/
  saved : IrqMask := .unmasked
  /-- tf: the detected fall. -/
  fall : Cycle := 0
  /-- tr: the detected rise. -/
  rise : Cycle := 0
deriving DecidableEq, Repr

/-- The positions of the command sequencer (R42); `idle` is that no command runs. -/
inductive CommandPos where
  | idle
  | cmdFrame
  | payload (i : Nat)
  | rx (j : Nat)
deriving DecidableEq, Repr

/-- The command sequencer: its position and the locals of R155, R159 to R161. -/
structure CommandRegs where
  pos : CommandPos := .idle
  /-- cmd: the command id. -/
  cmd : BitVec 3 := 0#3
  /-- len: the payload's byte count. -/
  len : Nat := 0
  data : Buffer := { base := 0, size := 0 }
  /-- L: the receptions that follow the payload; 0 but for a read. -/
  rxLen : Nat := 0
  dest : Buffer := { base := 0, size := 0 }
  /-- s: the interrupt-mask state to restore at the end, where the operation entered a critical section. -/
  saved : Option IrqMask := .none
  /-- as: the detected start of the last ACK bit. -/
  ackStart : Cycle := 0
deriving DecidableEq, Repr

/-- The target's drive on SIGNAL over time (R44): an input of the model. Log 5. -/
inductive Target where
  /-- Nothing fixes it: the opaque constant `Config.targetDrive`. -/
  | free
  /-- LOW in each listed interval [a, b), released elsewhere ("a scripted sequence of levels/times"). -/
  | scripted (lows : List (Nat × Nat))
  /-- As `scripted` on [0, period), and the same again in every period. -/
  | repeating (period : Nat) (lows : List (Nat × Nat))
deriving DecidableEq, Repr

/-- Where the draws of time and levels come from (I4, I5, I6, I17). Log 6. -/
inductive Timing where
  /-- Nothing fixes them: the opaque constant `Config.freeDraw`. -/
  | free
  /-- The listed draws in order, then zeros. With no draw listed this is HARNESS (R117). -/
  | scripted (draws : List Nat)
deriving DecidableEq, Repr

/-- The block, its caller memory, its environment as data, and what it has put out. -/
structure State where
  /-- SIGNAL (R32). -/
  signal : Pin
  /-- RESET (R32). -/
  resetPin : Pin
  /-- The cycle counter with its wraps counted too: CC is its remainder by 2^W_CC (`State.cc`, R36). -/
  time : Nat
  /-- IM (R37). -/
  im : IrqMask
  /-- TIMEOUT (R38) and the other parameters of R10. No operation writes them. -/
  params : Params
  /-- Caller memory (R60). -/
  mem : Memory
  /-- The cursor of the caller of `receive_bit`: its operand out_start (R39, R128). Log 17. -/
  cursor : Cycle
  /-- The frame in progress (R40, R42). -/
  frame : FrameRegs
  /-- The entry sequencer (R41). -/
  entry : EntryRegs
  /-- The command sequencer (R42). -/
  command : CommandRegs
  /-- What the last operation returned to its caller (R14, R211). Log 17. -/
  result : Option Reply
  /-- The dispatcher's calls that the block has not taken yet (R211). Log 11. -/
  calls : List (List Byte)
  /-- The events of R16, newest first. -/
  trace : List Event
  /-- The cycle at which the host last let SIGNAL go from pulled LOW (R35, R46 d); cycle 0 from power-on on (log 9). -/
  releasedAt : Option Nat
  /-- The target's drive on SIGNAL (R44). -/
  target : Target
  /-- The draws to come. -/
  timing : Timing
  /-- How many draws were taken from `Config.freeDraw`: the next one's number. The MODEL's own field. -/
  drawn : Nat
deriving DecidableEq, Repr

/-- Why the machine stops. -/
inductive Fault where
  /-- Raised by a read of a caller buffer at an index past its end: "an access past a buffer has no meaning in this
  spec and a model makes it stuck" (R232, I7). Safe: the hardware goes on. -/
  | readPastBuffer
  /-- Raised by `rotf` and ROTF, writing a received byte past the end of `dest` (R232, I7). Safe: the hardware goes
  on. -/
  | writePastBuffer
deriving DecidableEq, Repr

/-- Why the machine gives an input no meaning. -/
inductive Refusal where
  /-- Raised by an arm of exec whose operation has no meaning in this model yet. Safe. -/
  | notModelled (mnemonic : String)
  /-- Raised by step on a call message that names no operation (R94, I8: refuse). Safe. -/
  | undecodable (why : DecodeError)
  /-- Raised by `send_command` with an id of 8 or more: "a model refuses it" (R94). Safe. -/
  | commandId (cmd : Byte)
  /-- Raised by `send_byte` with n other than 4 and 9: "refused by a model" (R94). Safe. -/
  | frameLength (n : Nat)
deriving DecidableEq, Repr

/-- The machine at power-on (R47, R220). The two latches, the counter and the caller's cursor are given no value by the
spec: DESIGN CHOICE, unsafe, log 4. Nor does it say whether the line is still rising at power-on (R46 d): a release at cycle 0
is taken, so that reads in the first T_RISE cycles see either level: DESIGN CHOICE, safe, log 9. The environment is free: log 5
and 6. -/
def State.reset : State where
  signal := { mode := .input, latch := .low }
  resetPin := { mode := .input, latch := .low }
  time := 0
  im := .unmasked
  params := Config.params
  mem := []
  cursor := 0
  frame := {}
  entry := {}
  command := {}
  result := .none
  calls := []
  trace := []
  releasedAt := some 0
  target := .free
  timing := .free
  drawn := 0

end Sys2Proof.Machine
end

