-- ==== Sys2Proof/Machine/Flags.lean ====
section
/-!
DEFINITION. Flags.lean: cycle arithmetic (R13, R114), parity (R84), the bit a level stands for (R81, R146), the
acknowledgement bit (R85) and the numeric error codes (R95, R96).
-/

namespace Sys2Proof.Machine

open Sys2Proof

/-- A count of cycles as a cycle value: its remainder modulo 2^W_CC (R13). -/
def wrap (p : Params) (n : Nat) : Cycle := n % 2 ^ p.wCc

/-- `t ⊕ d` of R13. -/
def plus (p : Params) (t : Cycle) (d : Nat) : Cycle := wrap p (t + d)

/-- `t ⊖ d` of R13. -/
def minus (p : Params) (t : Cycle) (d : Nat) : Cycle := (((t : Int) - d) % 2 ^ p.wCc).toNat

/-- `sdiff(a, b)` of R13: the signed reading of (a − b) mod 2^W_CC. -/
def sdiff (p : Params) (a b : Cycle) : Int := ((a : Int) - b).bmod (2 ^ p.wCc)

/-- "a is at or after b" of R13. -/
def atOrAfter (p : Params) (a b : Cycle) : Bool := decide (0 ≤ sdiff p a b)

/-- `later(a, b)` of R114. -/
def later (p : Params) (a b : Cycle) : Cycle := if atOrAfter p a b then a else b

/-- `cyc(x)` of R175: microseconds in cycles. -/
def cyc (p : Params) (us : Nat) : Nat := us * p.cyclesPerUs

/-- `bit(level)` of R146: HIGH is 1, LOW is 0 (R81). -/
def bitOf (l : Level) : Bool := l == .high

/-- Parity of a host frame (R84): the XOR of the n low bits of v. -/
def frameParity (v : BitVec 16) : Nat → Bool
  | 0 => false
  | m + 1 => (v.getLsbD m).xor (frameParity v m)

/-- The host's acknowledgement bit (R85, R146): the bit that stands for ACK_LEVEL after a byte whose parity checks, the
other one after a byte whose parity fails. DEDUCED for an ACK_LEVEL other than the default: log 16. -/
def ackBit (p : Params) (bad : Bool) : Bool := (bitOf p.ackLevel).xor bad

/-- The numeric code of an error (R96). -/
def Error.code (c : ErrorCodes) : Error → Int
  | .readBitTimeout => c.readBitTimeout
  | .rxByteTimeout i => -((i.val : Int) + 20)
  | .invalidTargetId => c.invalidTargetId
  | .parityError => c.parity
  | .nack => c.nack
  | .syncTimeout1 => c.syncTimeout1
  | .syncTimeout2 => c.syncTimeout2

/-- The numeric projection of an entry duration (R95, R179, R228): the duration below 2^(W_CC−1). Above, the projection has no
meaning (I18) and is read as no non-negative number: a free negative one. DEDUCED, log 23. -/
def durationCode (p : Params) (cycles : Nat) : Int :=
  if cycles < 2 ^ (p.wCc - 1) then cycles else -(Config.longDuration cycles + 1)

/-- The integer the dispatcher forwards for a reply of an entry point (R95, R96): 0 or a payload on success, the
error's code on failure; none for the replies of internal operations that are no integer. -/
def Reply.code (p : Params) : Reply → Option Int
  | .ok => some 0
  | .duration d => some (durationCode p d)
  | .byte v => some v.toNat
  | .error e => some (e.code p.errors)
  | .none => Option.none
  | .bit _ _ => Option.none
  | .cycle _ => Option.none
  | .saved _ => Option.none

end Sys2Proof.Machine
end

