-- ==== Sys2Proof/Machine/Memory.lean ====
section
/-!
DEFINITION. Memory.lean: reading and writing one byte of caller memory (R60, R66, R68), and the canonical form.
-/

namespace Sys2Proof.Machine

open Sys2Proof

/-- What an address that is not listed reads as. The spec gives caller memory no contents at power-on: DESIGN CHOICE,
unsafe, log 13. -/
def Memory.unlisted : Byte := 0x00#8

/-- The byte at an address. -/
def Memory.read (a : Nat) : Memory → Byte
  | [] => Memory.unlisted
  | (b, v) :: rest => if a = b then v else Memory.read a rest

/-- Memory without an entry at an address. -/
def Memory.erase (a : Nat) : Memory → Memory
  | [] => []
  | (b, v) :: rest => if a = b then rest else (b, v) :: Memory.erase a rest

/-- Memory with an entry at an address, in its place. -/
def Memory.insert (a : Nat) (w : Byte) : Memory → Memory
  | [] => [(a, w)]
  | (b, v) :: rest =>
    if a < b then (a, w) :: (b, v) :: rest
    else if a = b then (a, w) :: rest
    else (b, v) :: Memory.insert a w rest

/-- Memory after one byte is stored. Storing what an unlisted address reads as removes the entry. -/
def Memory.write (a : Nat) (w : Byte) (m : Memory) : Memory :=
  if w = Memory.unlisted then Memory.erase a m else Memory.insert a w m

/-- The canonical form: addresses strictly rising, no entry equal to what an unlisted address reads as. -/
abbrev Memory.wf (m : Memory) : Prop :=
  m.Pairwise (fun c d => c.1 < d.1) ∧ ∀ c ∈ m, c.2 ≠ Memory.unlisted

end Sys2Proof.Machine
end

