-- ==== Sys2Proof/Machine/Operands.lean ====
section
/-!
DEFINITION. Operands.lean: the operand forms: bytes of a caller buffer by index (R60), the length-and-address descriptor
(R64, R88, R89), the dispatcher's command buffer (R61), and the values of host frames (R90).
-/

namespace Sys2Proof.Machine

open Sys2Proof

/-- `MemRead(b + i, 1)` of R15: none past the end of the buffer (R232). -/
def readBuffer (b : Buffer) (i : Nat) (m : Memory) : Option Byte :=
  if i < b.size then some (Memory.read (b.base + i) m) else none

/-- `MemWrite(b + i, 1, v)` of R15: none past the end of the buffer (R232). -/
def writeBuffer (b : Buffer) (i : Nat) (v : Byte) (m : Memory) : Option Memory :=
  if i < b.size then some (Memory.write (b.base + i) v m) else none

/-- `header(len, addr)` of R89: the four descriptor bytes, the address big-endian. -/
def header (len : Byte) (addr : BitVec 24) : List Byte :=
  [len, addr.extractLsb' 16 8, addr.extractLsb' 8 8, addr.extractLsb' 0 8]

/-- `decode(d)` of R89, R64: the length and the address of four descriptor bytes. -/
def decodeHeader (d0 d1 d2 d3 : Byte) : Byte × BitVec 24 := (d0, d1 ++ d2 ++ d3)

/-- The bytes of the dispatcher's command buffer that `rotf` gets as its descriptor: offsets 1 to 4 (R61). -/
def descriptorOf (cb : Buffer) : Buffer := { base := cb.base + 1, size := 4 }

/-- The bytes of the dispatcher's command buffer that `wotf` gets: from offset 1 on (R61). -/
def writeBufferOf (cb : Buffer) : Buffer := { base := cb.base + 1, size := cb.size - 1 }

/-- The value of a command frame (R90): the start bit above the 3-bit id. -/
def commandFrameValue (p : Params) (cmd : BitVec 3) : BitVec 16 :=
  BitVec.setWidth 16 (BitVec.ofBool p.hostStart ++ cmd)

/-- The value of a host byte frame (R90): the start bit above the 8 data bits. -/
def byteFrameValue (p : Params) (b : Byte) : BitVec 16 :=
  BitVec.setWidth 16 (BitVec.ofBool p.hostStart ++ b)

/-- The value after one more data bit of a target frame (R90, R146): `(v << 1) | b`. -/
def shiftIn (v : Byte) (b : Bool) : Byte := (v <<< 1) ||| BitVec.setWidth 8 (BitVec.ofBool b)

end Sys2Proof.Machine
end

