-- ==== Sys2Proof/Machine/Ops.lean ====
section
/-!
DEFINITION. Ops.lean: the pseudocode primitives of R15 with the time they take, the line (R34, R35), the wait (R111,
R112), the poll (R127), and the one end of an operation, with or without an error (R195, R200).

Time. Between any two primitives other firmware or the block's own work may take any number of cycles (R36, D39):
`elapse`, a draw; so too before the first `now()` of a wait. Inside a critical section the draw leaves a schedule that is still
to be used inside the window of R113 and R227. A primitive that follows a wait happens at the cycle `waitUntil` ends at; its
lateness is drawn there (R112). Log 6 to 8.
-/

namespace Sys2Proof.Machine

open Sys2Proof

/-- `now()` of R110: the cycle counter, W_CC bits of the time (R36). -/
def State.cc (s : State) : Cycle := wrap s.params s.time

/-- The events so far, oldest first (R16). -/
def State.events (s : State) : List Event := s.trace.reverse

/-- Time passes. -/
def State.advance (n : Nat) (s : State) : State := { s with time := s.time + n }

/-- One event of R16, at the current cycle. -/
def State.log (a : Action) (s : State) : State := { s with trace := { cycle := s.time, action := a } :: s.trace }

/-- IM is written (R37). -/
def State.setIm (im : IrqMask) (s : State) : State := { s with im := im }

/-- The frame's registers are written (R40, R42). -/
def State.setFrame (f : FrameRegs) (s : State) : State := { s with frame := f }

/-- The entry sequencer's registers are written (R41). -/
def State.setEntry (e : EntryRegs) (s : State) : State := { s with entry := e }

/-- The command sequencer's registers are written (R42). -/
def State.setCommand (c : CommandRegs) (s : State) : State := { s with command := c }

/-- Caller memory is written (R60). -/
def State.setMem (m : Memory) (s : State) : State := { s with mem := m }

/-- The caller's cursor is written (R39, R128). -/
def State.setCursor (c : Cycle) (s : State) : State := { s with cursor := c }

/-- The queue of waiting calls is written (R211). -/
def State.setCalls (q : List (List Byte)) (s : State) : State := { s with calls := q }

/-- No reply stands: an operation runs. -/
def State.clearReply (s : State) : State := { s with result := none }

/-- The value of the next draw (I4, I5, I6, I17). -/
def drawValue (s : State) : Nat :=
  match s.timing with
  | .free => Config.freeDraw s.drawn
  | .scripted [] => 0
  | .scripted (d :: _) => d

/-- The state once a draw is taken. -/
def State.drawOne (s : State) : State :=
  match s.timing with
  | .free => { s with drawn := s.drawn + 1 }
  | .scripted ds => { s with timing := .scripted ds.tail }

/-- The cycles that can pass until a schedule lies 2^(W_CC−2) cycles in the past: the latest that a wait for it may begin (R113,
R227). -/
def room (due : Cycle) (s : State) : Nat := (2 ^ (s.params.wCc - 2) - sdiff s.params s.cc due).toNat

/-- A draw of cycles between two primitives. Where a schedule is still to be used, inside a critical section it is at most the
schedule's room: EPS_CRIT keeps old cursors inside the window there, and outside an interruption of any length can break it
(R227, log 8). -/
def workDraw (due : Option Cycle) (s : State) : Nat :=
  match due with
  | none => drawValue s
  | some c => if s.im = .masked then drawValue s % (room c s + 1) else drawValue s

/-- Other firmware and the block's own work between two primitives (R36, D39): any number of cycles, as far as the schedule that
is still to be used, if there is one, leaves room for them (`workDraw`). -/
def State.elapse (s : State) (due : Option Cycle := none) : State := s.drawOne.advance (workDraw due s)

/-- A pin of the block by name. -/
def State.pin (p : PinName) (s : State) : Pin :=
  match p with
  | .signal => s.signal
  | .reset => s.resetPin

/-- One write of R33. -/
def Pin.write (a : PinAction) (p : Pin) : Pin :=
  match a with
  | .setHigh => { p with latch := .high }
  | .setLow => { p with latch := .low }
  | .setOutput => { p with mode := .output }
  | .setInput => { p with mode := .input }

/-- The host pulls SIGNAL LOW exactly when the pin is OUTPUT with its latch LOW (R34). -/
def Pin.pulls (p : Pin) : Bool := p.mode == .output && p.latch == .low

/-- What the block drives RESET to: its latch when OUTPUT, nothing when INPUT (tri-state, R34). -/
def State.resetLine (s : State) : Option Level :=
  match s.resetPin.mode with
  | .output => some s.resetPin.latch
  | .input => none

/-- `pin_set_*(p)` at the current cycle: one write and one event (R33, R16). A write that lets SIGNAL go from pulled LOW
is remembered for the line's rise (R35). -/
def State.pinWrite (p : PinName) (a : PinAction) (s : State) : State :=
  match p with
  | .signal =>
    State.log (.pin .signal a)
      { s with
        signal := s.signal.write a
        releasedAt := if s.signal.pulls && !(s.signal.write a).pulls then some s.time else s.releasedAt }
  | .reset => State.log (.pin .reset a) { s with resetPin := s.resetPin.write a }

/-- `pin_set_*(p)` as the next primitive, ahead of the use of a schedule if there is one. -/
def State.pinSet (p : PinName) (a : PinAction) (s : State) (due : Option Cycle := none) : State :=
  (s.elapse due).pinWrite p a

/-- The target drives SIGNAL LOW at a cycle (R44). -/
def targetLow (tgt : Target) (t : Nat) : Bool :=
  match tgt with
  | .free => Config.targetDrive t == .low
  | .scripted lows => lows.any fun ab => decide (ab.1 ≤ t) && decide (t < ab.2)
  | .repeating period lows => lows.any fun ab => decide (ab.1 ≤ t % period) && decide (t % period < ab.2)

/-- Somebody pulls SIGNAL LOW now: the line is wired-AND (R35). -/
def State.linePulled (s : State) : Bool := s.signal.pulls || targetLow s.target s.time

/-- The line may still be rising: it went from pulled LOW to released less than T_RISE cycles ago, by the host or by the
target (R35). Log 9. -/
def State.lineRising (s : State) : Bool :=
  (match s.releasedAt with
   | some r => decide (r ≤ s.time) && decide (s.time < r + s.params.tRise)
   | none => false) ||
  (List.range s.params.tRise).any fun u => decide (u + 1 ≤ s.time) && targetLow s.target (s.time - (u + 1))

/-- The level a read of SIGNAL sees now (R35): LOW when pulled, any level while the line may still be rising, else
HIGH. -/
def State.lineLevel (s : State) : Level :=
  if s.linePulled then .low
  else if s.lineRising then (if drawValue s % 2 = 0 then .low else .high)
  else .high

/-- `pin_read(SIGNAL)` at the current cycle: the state after it, with its event (R15, R16). The level is
`State.lineLevel`. -/
def State.pinRead (s : State) : State :=
  State.log (.read s.lineLevel) (if !s.linePulled && s.lineRising then s.drawOne else s)

/-- A draw of lateness from the current cycle on, for a primitive scheduled at a cycle: where R112's bound holds, no more than
what is left of EPS_CRIT; else any number (R112), inside a critical section as far as R227 leaves room (`workDraw`). -/
def latenessDraw (target : Cycle) (bounded : Bool) (s : State) : Nat :=
  if bounded then drawValue s % (s.params.epsCrit - (sdiff s.params s.cc target).toNat + 1) else workDraw (some target) s

/-- The cycles that pass before the next primitive after a wait, from the current cycle on: a draw that leaves that primitive at
or after the target (R112). -/
def lateness (target : Cycle) (bounded : Bool) (s : State) : Nat :=
  if atOrAfter s.params (s.advance (latenessDraw target bounded s)).cc target then latenessDraw target bounded s else 0

/-- Time passes up to the next primitive after a wait for a cycle (R112). -/
def State.late (target : Cycle) (bounded : Bool) (s : State) : State :=
  s.drawOne.advance (lateness target bounded s)

/-- R112's upper bound holds for a wait that begins now, at its first `now()`: IM is MASKED and the target is still to come. -/
def State.inTime (target : Cycle) (s : State) : Bool := s.im == .masked && !atOrAfter s.params s.cc target

/-- The spin of `wait_until(target)` (R111): time moves on to the target, unless it is already at or after it. -/
def State.reach (target : Cycle) (s : State) : State :=
  if atOrAfter s.params s.cc target then s else s.advance (minus s.params target s.cc)

/-- `wait_until(target)` of R111 up to the cycle of the primitive after it (R112): the cycles up to the wait's first `now()`,
where the wait begins (R36, R227, log 8); the spin; and then the lateness. It never times out. -/
def State.waitUntil (target : Cycle) (s : State) : State :=
  ((s.elapse (some target)).reach target).late target ((s.elapse (some target)).inTime target)

/-- A pin transition scheduled at a cycle: `wait_until(t); pin_set_*(p)` (R17). -/
def State.schedule (t : Cycle) (a : PinAction) (s : State) : State := (s.waitUntil t).pinWrite .signal a

/-- The time one poll iteration takes when it does not end the poll: POLL_MIN and any number of cycles more (D7). -/
def State.pollCost (s : State) : State := s.drawOne.advance (s.params.pollMin + drawValue s)

/-- `poll(want, budget)` of R127: at most budget reads; the cycle `now()` gives right after the read that saw the level
(D8), or none for Timeout. -/
def poll (want : Level) : Nat → State → Option Cycle × State
  | 0, s => (none, s)
  | k + 1, s =>
    if s.lineLevel = want then (some s.pinRead.elapse.cc, s.pinRead.elapse) else poll want k s.pinRead.pollCost

/-- `irq_mask()` at the current cycle: IM becomes MASKED (R37). -/
def State.mask (s : State) : State := (s.setIm .masked).log .irqMask

/-- `enter_critical()` of R115: IM becomes MASKED. The saved state is IM before it. -/
def State.enterCritical (s : State) : State := s.elapse.mask

/-- `leave_critical(saved)` of R116: IM becomes the saved state. -/
def State.leaveCritical (saved : IrqMask) (s : State) (due : Option Cycle := none) : State :=
  ((s.elapse due).setIm saved).log (.irqRestore saved)

/-- `wdt_service()` of R176: no block state and no pin changes; any number of cycles, masked or not (log 8). -/
def State.wdtService (s : State) : State := (s.elapse.log .watchdog).elapse

/-- An operation returns this to its caller. -/
def State.reply (r : Reply) (s : State) : State := { s with result := some r }

/-- The end of an operation (R195, R200): where it entered a critical section IM is restored to the saved state, and the
caller gets the reply, a success or an error. Nothing is undone: pins, memory and events stay as they are. -/
def State.exit (saved : Option IrqMask) (r : Reply) (s : State) : State :=
  match saved with
  | some im => (s.leaveCritical im).reply r
  | none => s.reply r

/-- The errors of R197, taken: the one way an operation fails. `State.exit` with `Err(e)`. -/
def State.fail (saved : Option IrqMask) (e : Error) (s : State) : State := s.exit saved (.error e)

end Sys2Proof.Machine
end

