-- ==== Sys2Proof/Machine/Bits.lean ====
section
/-!
DEFINITION. Bits.lean: layer 2, the pulse-width bit encoder and decoder (41_bit_transport.md), and the internal operations
`send_bit`, `finish_frame` and `receive_bit`.
-/

namespace Sys2Proof.Machine

open Sys2Proof

/-- `send_bit(start, prev_zero, b)` of R125. -/
def State.sendBit (start : Cycle) (prevZero b : Bool) (s : State) : State :=
  let s1 := if prevZero then s.schedule (minus s.params start s.params.tShort) .setHigh else s
  let s2 := s1.schedule start .setLow
  if b then s2.schedule (plus s2.params start s2.params.tShort) .setHigh else s2

/-- `finish_frame(last_start)` of R126. -/
def State.finishFrame (lastStart : Cycle) (s : State) : State :=
  s.schedule (plus s.params lastStart (s.params.tPeriod - s.params.tShort)) .setHigh

/-- `receive_bit` of R128, from the cycle of its first read on: the level and the detected edge, or none for
`ReadBitTimeout`. -/
def receiveBit (s : State) : Option (Level × Cycle) × State :=
  let r := poll .low s.params.timeout s
  match r.1 with
  | none => (none, r.2)
  | some t =>
    let w := r.2.waitUntil (plus r.2.params t r.2.params.tHalf)
    (some (w.lineLevel, t), w.pinRead)

/-- Selector 0x20: `send_bit` (R125). It runs whatever SIGNAL's mode is (log 21). -/
def execSendBit (start : Cycle) (prevZero b : Bool) (s : State) : Host.Outcome State Fault Refusal :=
  .next ((s.sendBit start prevZero b).reply .none)

/-- Selector 0x21: `finish_frame` (R126). It runs whatever SIGNAL's mode is (log 21). -/
def execFinishFrame (lastStart : Cycle) (s : State) : Host.Outcome State Fault Refusal :=
  .next ((s.finishFrame lastStart).reply .none)

/-- Selector 0x22: `receive_bit` (R128). The caller's cursor is written on success only. -/
def execReceiveBit (s : State) : Host.Outcome State Fault Refusal :=
  let r := receiveBit s.elapse
  .next (match r.1 with
    | none => r.2.fail none .readBitTimeout
    | some (level, t) => (r.2.setCursor t).exit none (.bit level t))

end Sys2Proof.Machine
end

