-- ==== Sys2Proof/Machine/Bytes.lean ====
section
/-!
DEFINITION. Bytes.lean: layer 3, the SWIM byte-frame transceiver (42_byte_framing.md), and the internal operations
`send_byte` and `receive_byte`.
-/

namespace Sys2Proof.Machine

open Sys2Proof

/-- One bit of a host frame (the loop body of R140): bit k starts at cursor ⊕ k·T_PERIOD. -/
def State.sendFrameBit (cursor : Cycle) (b : Bool) (s : State) : State :=
  let s1 := s.sendBit (plus s.params cursor (s.frame.bit * s.params.tPeriod)) s.frame.prevZero b
  s1.setFrame { s1.frame with bit := s1.frame.bit + 1, prevZero := !b, parity := s1.frame.parity.xor b }

/-- Bits m−1 down to 0 of a host frame (R83, R140): most significant first. -/
def sendFrameBits (cursor : Cycle) (v : BitVec 16) : Nat → State → State
  | 0, s => s
  | m + 1, s => sendFrameBits cursor v m (s.sendFrameBit cursor (v.getLsbD m))

/-- A host frame up to the pin's turn to INPUT (R140): release, drive, the n bits, the parity bit, `finish_frame`. -/
def State.sendFrame (cursor : Cycle) (v : BitVec 16) (n : Nat) (s : State) : State :=
  let s1 := (s.pinSet .signal .setHigh (some cursor)).pinSet .signal .setOutput (some cursor)
  let s2 := sendFrameBits cursor v n (s1.setFrame {})
  let ps := plus s2.params cursor (n * s2.params.tPeriod)
  let s3 := (s2.sendBit ps s2.frame.prevZero s2.frame.parity).finishFrame ps
  (s3.pinSet .signal .setInput).setFrame {}

/-- `send_byte(cursor, data, n)` of R140: the ACK bit's level and start, or none for `ReadBitTimeout`. -/
def sendByte (cursor : Cycle) (v : BitVec 16) (n : Nat) (s : State) : Option (Level × Cycle) × State :=
  receiveBit (s.sendFrame cursor v n).elapse

/-- The frame's registers after data bit or parity bit i of a target frame (R146). -/
def FrameRegs.take (level : Level) (t : Cycle) (f : FrameRegs) : FrameRegs :=
  if f.bit ≤ 8 then
    { f with
      bit := f.bit + 1
      start := t
      value := shiftIn f.value (bitOf level)
      parity := f.parity.xor (bitOf level) }
  else { f with bit := f.bit + 1, start := t, last := bitOf level }

/-- The next m receptions of a target frame (R146), each polled from s ⊕ T_RX_OFFSET: the index of the one that timed
out, or none. -/
def receiveFrameBits : Nat → State → Option (Fin 10) × State
  | 0, s => (none, s)
  | m + 1, s =>
    let r := receiveBit (s.waitUntil (plus s.params s.frame.start s.params.tRxOffset))
    match r.1 with
    | none => (some (Fin.ofNat 10 r.2.frame.bit), r.2)
    | some (level, t) => receiveFrameBits m (r.2.setFrame (r.2.frame.take level t))

/-- The parity bit's natural end (R146). -/
def parityEnd (s : State) : Cycle := plus s.params s.frame.start s.params.tPeriod

/-- The machine at the `now()` that schedules the host's ACK bit (R146), the parity bit's natural end still to be used. -/
def State.atAck (s : State) : State := s.elapse (some (parityEnd s))

/-- The start of the host's ACK bit (R146): the later of the parity bit's natural end and now with the setup margin. -/
def ackStartOf (s : State) : Cycle := later s.params (parityEnd s) (plus s.params s.atAck.cc s.params.tSetup)

/-- The host's ACK bit after a target frame (R146). -/
def State.sendAck (bad : Bool) (s : State) : State :=
  let a := ackStartOf s
  let s1 := (s.atAck.pinSet .signal .setHigh (some a)).pinSet .signal .setOutput (some a)
  let s2 := (s1.sendBit a false (ackBit s1.params bad)).finishFrame a
  s2.pinSet .signal .setInput

/-- `receive_byte()` of R146, from the cycle of its first read on: the byte or the error. -/
def receiveByte (s : State) : Except Error Byte × State :=
  let r := receiveBit s
  match r.1 with
  | none => (.error (.rxByteTimeout 0), r.2)
  | some (level, t) =>
    if bitOf level ≠ r.2.params.targetStart then (.error .invalidTargetId, r.2)
    else
      let q := receiveFrameBits 9 (r.2.setFrame { bit := 1, start := t })
      match q.1 with
      | some i => (.error (.rxByteTimeout i), q.2.setFrame {})
      | none =>
        let bad := q.2.frame.parity.xor q.2.frame.last
        let a := (q.2.sendAck bad).setFrame {}
        (if bad then .error .parityError else .ok q.2.frame.value, a)

/-- Selector 0x30: `send_byte` (R140). A length other than 4 and 9 is refused (R94). -/
def execSendByte (cursor : Cycle) (data : BitVec 16) (n : Nat) (s : State) : Host.Outcome State Fault Refusal :=
  if frameLengthOk n then
    let r := sendByte cursor data n s
    .next (match r.1 with
      | none => r.2.fail none .readBitTimeout
      | some (level, t) => r.2.exit none (.bit level t))
  else .refused (.frameLength n)

/-- Selector 0x31: `receive_byte` (R146). -/
def execReceiveByte (s : State) : Host.Outcome State Fault Refusal :=
  let r := receiveByte s.elapse
  .next (match r.1 with
    | .error e => r.2.fail none e
    | .ok v => r.2.exit none (.byte v))

end Sys2Proof.Machine
end

