-- ==== Sys2Proof/Machine/Commands.lean ====
section
/-!
DEFINITION. Commands.lean: layer 4, the SWIM command sequencer (43_command_protocol.md): `send_command`, the entry points
`rotf`, `wotf` and `srst`, and the wire transactions SRST, ROTF and WOTF of R87.

One run of the sequencer goes on to the operation's end, or up to a payload byte that was answered by NACK: there it stands
at PAYLOAD(i) and the machine's next step sends byte i again, so that the retry without end of R156 is an infinite run.
Log 10.
-/

namespace Sys2Proof.Machine

open Sys2Proof

/-- How a run of the command sequencer ends. -/
inductive Ending where
  /-- The operation returned. -/
  | finished
  /-- Payload byte i was answered by NACK and is to be sent again (R156). -/
  | resend
  /-- An access past a caller buffer (R232). -/
  | stuck (why : Fault)
deriving DecidableEq, Repr

/-- The end of a command operation (R162, R200): the critical section is left where one was entered, the caller gets
the reply, and no position survives (R49). -/
def State.endCommand (r : Reply) (s : State) : State := (s.exit s.command.saved r).setCommand {}

/-- A command operation fails with an error of R155 or R159. -/
def State.failCommand (e : Error) (s : State) : State := (s.fail s.command.saved e).setCommand {}

/-- The sequencer stands at a payload byte, with the start of the last ACK bit (R42, R157). -/
def State.atPayload (i : Nat) (ackStart : Cycle) (s : State) : State :=
  s.setCommand { s.command with pos := .payload i, ackStart := ackStart }

/-- The sequencer stands at a reception (R42). -/
def State.atRx (j : Nat) (s : State) : State := s.setCommand { s.command with pos := .rx j }

/-- The last m receptions of a read (R159): each byte goes to `dest` before the next reception begins (D43); the first
error ends the operation. -/
def rxPhase : Nat → State → State × Ending
  | 0, s => (s.endCommand .ok, .finished)
  | m + 1, s =>
    let j := s.command.rxLen - (m + 1)
    let r := receiveByte (s.atRx j).elapse
    match r.1 with
    | .error e => (r.2.failCommand e, .finished)
    | .ok v =>
      match writeBuffer r.2.command.dest j v r.2.mem with
      | none => (r.2, .stuck .writePastBuffer)
      | some mem => rxPhase m (r.2.setMem mem)

/-- The natural end of the last ACK bit (R157). -/
def ackEnd (s : State) : Cycle := plus s.params s.command.ackStart s.params.tPeriod

/-- The machine at the `now()` that schedules the frame of payload byte i (R157), the last ACK bit's natural end still to be
used. -/
def State.beforePayload (i : Nat) (s : State) : State := (s.atPayload i s.command.ackStart).elapse (some (ackEnd s))

/-- Byte i of the payload is sent, its frame scheduled by R157. -/
def sendPayload (i : Nat) (b : Byte) (s : State) : Option (Level × Cycle) × State :=
  let s1 := s.beforePayload i
  let c := later s1.params (ackEnd s1) (plus s1.params s1.cc s1.params.tSetup)
  sendByte c (byteFrameValue s1.params b) 9 s1

/-- The last m payload bytes of a command (R155): ACK advances, NACK sends the byte again (R156), a timeout ends the
operation. -/
def payloadPhase : Nat → State → State × Ending
  | 0, s => rxPhase s.command.rxLen s
  | m + 1, s =>
    let i := s.command.len - (m + 1)
    match readBuffer s.command.data i s.mem with
    | none => (s, .stuck .readPastBuffer)
    | some b =>
      let r := sendPayload i b s
      match r.1 with
      | none => (r.2.failCommand .readBitTimeout, .finished)
      | some (level, ackStart) =>
        if level = r.2.params.ackLevel then payloadPhase m (r.2.atPayload (i + 1) ackStart)
        else (r.2.atPayload i ackStart, .resend)

/-- The command frame of R155, and on its ACK the payload. -/
def commandPhase (s : State) : State × Ending :=
  let s1 := s.elapse
  let r := sendByte (plus s1.params s1.cc s1.params.tSetup) (commandFrameValue s1.params s1.command.cmd) 4 s1
  match r.1 with
  | none => (r.2.failCommand .readBitTimeout, .finished)
  | some (level, ackStart) =>
    if level = r.2.params.ackLevel then payloadPhase r.2.command.len (r.2.atPayload 0 ackStart)
    else (r.2.failCommand .nack, .finished)

/-- The sequencer runs on from where it stands (R42). -/
def runCommand (s : State) : State × Ending :=
  match s.command.pos with
  | .idle => (s, .finished)
  | .cmdFrame => commandPhase s
  | .payload i => payloadPhase (s.command.len - i) s
  | .rx j => rxPhase (s.command.rxLen - j) s

/-- Every index the sequencer can reach lies inside its buffer (R232). -/
def CommandRegs.fits (c : CommandRegs) : Bool := decide (c.len ≤ c.data.size) && decide (c.rxLen ≤ c.dest.size)

/-- The outcome of a run: stuck at an access past a buffer. Where every index lies inside its buffer no access can be
past it, and the next state is the run's (`settle_eq` in Laws/Commands.lean). -/
def settle (fits : Bool) (r : State × Ending) : Host.Outcome State Fault Refusal :=
  if fits then .next r.1
  else
    match r.2 with
    | .finished => .next r.1
    | .resend => .next r.1
    | .stuck why => .fault why

/-- A transaction begins: the sequencer's registers are loaded, no reply stands, and it runs (R155). -/
def transact (c : CommandRegs) (s : State) : Host.Outcome State Fault Refusal :=
  settle c.fits (runCommand (s.setCommand c).clearReply)

/-- The transaction that stands in the state runs on (the step after a NACK, R156). -/
def resumeCommand (s : State) : Host.Outcome State Fault Refusal := settle s.command.fits (runCommand s)

/-- What `send_command` loads (R155). It enters no critical section (D20). -/
def sendCommandRegs (cmd : BitVec 3) (len : Nat) (data : Buffer) (saved : Option IrqMask) : CommandRegs :=
  { pos := .cmdFrame, cmd := cmd, len := len, data := data, saved := saved }

/-- The wire transaction ROTF of R87: the command frame, the four bytes of the descriptor, then `len` receptions, `len`
being the descriptor's first byte (R90, R159). -/
def readTransaction (d dest : Buffer) (saved : Option IrqMask) (s : State) : Host.Outcome State Fault Refusal :=
  match readBuffer d 0 s.mem with
  | none => .fault .readPastBuffer
  | some len =>
    transact { sendCommandRegs s.params.cmdRotf 4 d saved with rxLen := len.toNat, dest := dest } s

/-- The wire transaction WOTF of R87: the command frame, then the 4 + `len` bytes of the buffer, `len` being its first
byte (R90, R160). -/
def writeTransaction (data : Buffer) (saved : Option IrqMask) (s : State) : Host.Outcome State Fault Refusal :=
  match readBuffer data 0 s.mem with
  | none => .fault .readPastBuffer
  | some len => transact (sendCommandRegs s.params.cmdWotf (4 + len.toNat) data saved) s

/-- The wire transaction SRST of R87: the command frame alone (R161). -/
def resetTransaction (saved : Option IrqMask) (s : State) : Host.Outcome State Fault Refusal :=
  transact (sendCommandRegs s.params.cmdSrst 0 { base := 0, size := 0 } saved) s

/-- Selector 0x06: `send_command(cmd, len, data)` (R155). The id is not checked against the three known ones; an id of 8
or more is refused (R94). -/
def execSendCommand (cmd : Byte) (len : Nat) (data : Buffer) (s : State) : Host.Outcome State Fault Refusal :=
  if commandIdOk cmd then transact (sendCommandRegs (cmd.setWidth 3) len data none) s
  else .refused (.commandId cmd)

/-- Selector 0x03: `srst()` (R161): the wire transaction SRST inside a critical section. -/
def execSrst (s : State) : Host.Outcome State Fault Refusal := resetTransaction (some s.im) s.enterCritical

/-- Selector 0x04: `rotf(len_and_addr, dest)` (R159): the wire transaction ROTF inside a critical section. -/
def execRotf (lenAndAddr dest : Buffer) (s : State) : Host.Outcome State Fault Refusal :=
  readTransaction lenAndAddr dest (some s.im) s.enterCritical

/-- Selector 0x05: `wotf(data)` (R160): the wire transaction WOTF inside a critical section. -/
def execWotf (data : Buffer) (s : State) : Host.Outcome State Fault Refusal :=
  writeTransaction data (some s.im) s.enterCritical

/-- Selector 0x40: the wire transaction SRST (R87), with no critical section. Log 15. -/
def execWireSrst (s : State) : Host.Outcome State Fault Refusal := resetTransaction none s

/-- Selector 0x41: the wire transaction ROTF (R87), with no critical section. Log 15. -/
def execWireRotf (lenAndAddr dest : Buffer) (s : State) : Host.Outcome State Fault Refusal :=
  readTransaction lenAndAddr dest none s

/-- Selector 0x42: the wire transaction WOTF (R87), with no critical section. Log 15. -/
def execWireWotf (data : Buffer) (s : State) : Host.Outcome State Fault Refusal := writeTransaction data none s

end Sys2Proof.Machine
end

