-- ==== Sys2Proof/Machine/Entry.lean ====
section
/-!
DEFINITION. Entry.lean: layer 5, the entry handshake state machine and the target's reset line (44_entry_reset.md).
-/

namespace Sys2Proof.Machine

open Sys2Proof

/-- N_TOGGLE_1K + N_TOGGLE_2K: the toggles of the pulse train. -/
def toggles (p : Params) : Nat := p.nToggle1k + p.nToggle2k

/-- The interval after toggle k (R175, D24): d_k of R177. -/
def toggleInterval (p : Params) (k : Nat) : Nat :=
  if k ≤ p.nToggle1k then cyc p p.tToggle1kUs else cyc p p.tToggle2kUs

/-- The position after toggle k (0: after DRIVE_LOW). -/
def afterToggle (p : Params) (k : Nat) : EntryPos :=
  if k < toggles p then .pulseTrain (k + 1) else .releaseToInput

/-- DRIVE_LOW (R175, D42): latch LOW, then OUTPUT; the first toggle T_ENTRY_LOW after the `now()` that follows. -/
def State.entryDriveLow (s : State) : State :=
  let s1 := ((s.pinSet .signal .setLow).pinSet .signal .setOutput).elapse
  s1.setEntry
    { s1.entry with
      pos := afterToggle s1.params 0
      next := plus s1.params s1.cc (cyc s1.params s1.params.tEntryLowUs)
      level := .low }

/-- PULSE_TRAIN(k) (R175, R177): toggle k at its cycle, then one watchdog service (R176). -/
def State.entryToggle (k : Nat) (s : State) : State :=
  let high := s.entry.level == .low
  let s1 := (s.schedule s.entry.next (if high then .setHigh else .setLow)).wdtService
  s1.setEntry
    { s1.entry with
      pos := afterToggle s1.params k
      next := plus s1.params s1.entry.next (toggleInterval s1.params k)
      level := if high then .high else .low }

/-- RELEASE_TO_INPUT (R175, R178): at the train's end IM is masked and SIGNAL turns INPUT. Both come after the wait for the
release's cycle, and R112's bounds hold for both. -/
def State.entryRelease (s : State) : State :=
  let s1 := s.waitUntil s.entry.next
  let s2 := (s1.mask.late s.entry.next ((s.elapse (some s.entry.next)).inTime s.entry.next)).pinWrite .signal .setInput
  s2.setEntry { s2.entry with pos := .waitFall, saved := s1.im }

/-- WAIT_FALL (R175): LOW within ENTRY_TIMEOUT_A reads. -/
def State.entryFall (s : State) : State :=
  let r := poll .low s.params.entryTimeoutA s.elapse
  match r.1 with
  | none => r.2.setEntry { r.2.entry with pos := .failSyncTimeout1 }
  | some t => r.2.setEntry { r.2.entry with pos := .waitRise, fall := t }

/-- WAIT_RISE (R175): HIGH within ENTRY_TIMEOUT_B reads; then the critical section is left. -/
def State.entryRise (s : State) : State :=
  let r := poll .high s.params.entryTimeoutB s.elapse
  match r.1 with
  | none => r.2.setEntry { r.2.entry with pos := .failSyncTimeout2 }
  | some t =>
    let s1 := r.2.leaveCritical r.2.entry.saved (some (plus r.2.params t r.2.params.tSettle))
    s1.setEntry { s1.entry with pos := .settle, rise := t }

/-- SETTLE (R175, D28): wait until T_SETTLE after the rise. -/
def State.entrySettle (s : State) : State :=
  let s1 := s.waitUntil (plus s.params s.entry.rise s.params.tSettle)
  s1.setEntry { s1.entry with pos := .done }

/-- The measured duration tr ⊖ tf (R179), in cycles. -/
def entryDuration (p : Params) (e : EntryRegs) : Nat := minus p e.rise e.fall

/-- One transition of the entry sequencer (R41, R175). DONE returns the duration; the failure exits restore IM and return
their error; no position survives (R49). -/
def State.entryStep (s : State) : State :=
  match s.entry.pos with
  | .idle => s
  | .driveLow => s.entryDriveLow
  | .pulseTrain k => s.entryToggle k
  | .releaseToInput => s.entryRelease
  | .waitFall => s.entryFall
  | .waitRise => s.entryRise
  | .settle => s.entrySettle
  | .done => (s.exit none (.duration (entryDuration s.params s.entry))).setEntry {}
  | .failSyncTimeout1 => (s.fail (some s.entry.saved) .syncTimeout1).setEntry {}
  | .failSyncTimeout2 => (s.fail (some s.entry.saved) .syncTimeout2).setEntry {}

/-- At most n transitions of the entry sequencer, to its end. -/
def runEntry : Nat → State → State
  | 0, s => s
  | n + 1, s => if s.entry.pos = .idle then s else runEntry n s.entryStep

/-- The transitions from DRIVE_LOW to the end: one for each toggle, and DRIVE_LOW, RELEASE_TO_INPUT, WAIT_FALL, WAIT_RISE,
SETTLE and DONE. -/
def entryLength (p : Params) : Nat := toggles p + 6

/-- The entry sequencer runs on from where it stands. -/
def resumeEntry (s : State) : Host.Outcome State Fault Refusal := .next (runEntry (entryLength s.params) s)

/-- Selector 0x02: `swim_entry()` (R175): IDLE to DRIVE_LOW, and on to DONE or a failure exit. -/
def execSwimEntry (s : State) : Host.Outcome State Fault Refusal :=
  .next (runEntry (entryLength s.params) (s.setEntry { pos := .driveLow }).clearReply)

/-- Selector 0x01: `reset(mode)` (R185): release, assert or deassert; the latch is written before the direction. -/
def execReset (mode : Byte) (s : State) : Host.Outcome State Fault Refusal :=
  .next (State.reply .none
    (if mode = s.params.resetRelease then s.pinSet .reset .setInput
     else if mode ≠ 0#8 then (s.pinSet .reset .setLow).pinSet .reset .setOutput
     else (s.pinSet .reset .setHigh).pinSet .reset .setOutput))

/-- Selector 0x00: `init()` (R186): RESET latch HIGH, then OUTPUT. -/
def execInit (s : State) : Host.Outcome State Fault Refusal :=
  .next (State.reply .none ((s.pinSet .reset .setHigh).pinSet .reset .setOutput))

end Sys2Proof.Machine
end

