-- ==== Sys2Proof/Machine/Timing.lean ====
section
/-!
DEFINITION. Timing.lean: layer 1, the cycle-timing primitives as operations (40_timing_primitives.md).
-/

namespace Sys2Proof.Machine

open Sys2Proof

/-- Selector 0x10: `now()` (R110). -/
def execNow (s : State) : Host.Outcome State Fault Refusal := .next (s.elapse.reply (.cycle s.elapse.cc))

/-- Selector 0x11: `wait_until(target)` (R111). -/
def execWaitUntil (target : Cycle) (s : State) : Host.Outcome State Fault Refusal :=
  .next ((s.waitUntil target).reply .none)

/-- Selector 0x12: `enter_critical()` (R115). -/
def execEnterCritical (s : State) : Host.Outcome State Fault Refusal := .next (s.enterCritical.reply (.saved s.im))

/-- Selector 0x13: `leave_critical(s)` (R116). -/
def execLeaveCritical (saved : IrqMask) (s : State) : Host.Outcome State Fault Refusal :=
  .next ((s.leaveCritical saved).reply .none)

end Sys2Proof.Machine
end

