-- ==== Sys2Proof/Machine/Dispatch.lean ====
section
/-!
DEFINITION. Dispatch.lean: every operation's meaning, one arm each.
-/

namespace Sys2Proof.Machine

open Sys2Proof

def exec (i : Instr) (s : State) : Host.Outcome State Fault Refusal :=
  match i with
  | .init => Sys2Proof.Machine.execInit s
  | .reset mode => Sys2Proof.Machine.execReset mode s
  | .swimEntry => Sys2Proof.Machine.execSwimEntry s
  | .srst => Sys2Proof.Machine.execSrst s
  | .rotf lenAndAddr dest => Sys2Proof.Machine.execRotf lenAndAddr dest s
  | .wotf data => Sys2Proof.Machine.execWotf data s
  | .sendCommand cmd len data => Sys2Proof.Machine.execSendCommand cmd len data s
  | .now => Sys2Proof.Machine.execNow s
  | .waitUntil target => Sys2Proof.Machine.execWaitUntil target s
  | .enterCritical => Sys2Proof.Machine.execEnterCritical s
  | .leaveCritical saved => Sys2Proof.Machine.execLeaveCritical saved s
  | .sendBit start prevZero b => Sys2Proof.Machine.execSendBit start prevZero b s
  | .finishFrame lastStart => Sys2Proof.Machine.execFinishFrame lastStart s
  | .receiveBit => Sys2Proof.Machine.execReceiveBit s
  | .sendByte cursor data n => Sys2Proof.Machine.execSendByte cursor data n s
  | .receiveByte => Sys2Proof.Machine.execReceiveByte s
  | .wireSrst => Sys2Proof.Machine.execWireSrst s
  | .wireRotf lenAndAddr dest => Sys2Proof.Machine.execWireRotf lenAndAddr dest s
  | .wireWotf data => Sys2Proof.Machine.execWireWotf data s

end Sys2Proof.Machine
end

