-- ==== Sys2Proof/Machine/Calls.lean ====
section
/-!
DEFINITION. Calls.lean: how the block takes its next operation (R211): the dispatcher's first waiting call. The block has
no instruction stream (R3, R67): log 11.
-/

namespace Sys2Proof.Machine

open Sys2Proof

/-- No call waits: the block does nothing and time passes (R36). -/
def State.wait (s : State) : State := s.elapse

/-- The dispatcher's first waiting call is taken and run, or refused where it names no operation (R94). -/
def takeCall (s : State) : Host.Outcome State Fault Refusal :=
  match s.calls with
  | [] => .next s.wait
  | message :: waiting =>
    match decode message with
    | .ok (i, _) => exec i (s.setCalls waiting)
    | .error why => .refused (.undecodable why)

/-- A call message waits first, and no operation is in progress. -/
def State.withCall (message : List Byte) (s : State) : State :=
  ((s.setCalls (message :: s.calls)).setCommand {}).setEntry {}

end Sys2Proof.Machine
end

