-- ==== Sys2Proof/Machine/Step.lean ====
section
/-!
DEFINITION. Step.lean: one step of the machine: the operation in progress goes on, or the next call is taken.
-/

namespace Sys2Proof.Machine

open Sys2Proof

/-- One step. A command that stands at a payload byte after a NACK goes on (R156, R163: nothing cancels it); otherwise the
dispatcher's next call runs. -/
def step (s : State) : Host.Outcome State Fault Refusal :=
  if s.command.pos ≠ .idle then resumeCommand s
  else if s.entry.pos ≠ .idle then resumeEntry s
  else takeCall s

/-- The state whose next step takes the call message with the given bits (fixed name of the host). Log 11. -/
def State.withFetchWord (s : State) (nbits w : Nat) : State := s.withCall (tableMessage nbits w)

end Sys2Proof.Machine
end

