-- ==== Sys2Proof/Safety.lean ====
section
/-!
DEFINITION. Safety.lean: the terms statements use: limits on the parameters, the reference timing, what an operation on the
wire leaves alone, the invariant of the machine between steps, and the wire as the spec draws it.
-/

namespace Sys2Proof

/-- The limits the spec sets on the parameters: 0 < T_SHORT, 2·T_SHORT < T_PERIOD, every timing parameter below 2^(W_CC−2)
(R227, inside R10's 2^(W_CC−1)), and the window of T_RX_OFFSET (D4, R225). -/
structure Params.Valid (p : Params) : Prop where
  short_pos : 0 < p.tShort
  short_lt : 2 * p.tShort < p.tPeriod
  rx_ge : p.tPeriod - p.tShort ≤ p.tRxOffset
  rx_lt : p.tRxOffset < p.tPeriod
  cyclesPerUs_lt : p.cyclesPerUs < 2 ^ (p.wCc - 2)
  period_lt : p.tPeriod < 2 ^ (p.wCc - 2)
  half_lt : p.tHalf < 2 ^ (p.wCc - 2)
  setup_lt : p.tSetup < 2 ^ (p.wCc - 2)
  entryLow_lt : p.tEntryLowUs * p.cyclesPerUs < 2 ^ (p.wCc - 2)
  toggle1k_lt : p.tToggle1kUs * p.cyclesPerUs < 2 ^ (p.wCc - 2)
  toggle2k_lt : p.tToggle2kUs * p.cyclesPerUs < 2 ^ (p.wCc - 2)
  settle_lt : p.tSettle < 2 ^ (p.wCc - 2)
  rise_lt : p.tRise < 2 ^ (p.wCc - 2)
  eps_lt : p.epsCrit < 2 ^ (p.wCc - 2)
  pollMin_lt : p.pollMin < 2 ^ (p.wCc - 2)

/-- Parameters for which a frame stays inside the counter's window (R113, R227), with the sample in the window of R81, the receive
offset in that of R225, a poll budget that outlasts the gap between two bits of a target frame, and an ideal line. The setup
margin can be as short or as long as the window allows. -/
structure Params.Ideal (p : Params) : Prop where
  short_pos : 0 < p.tShort
  short_lt : 2 * p.tShort < p.tPeriod
  half_ge : p.tShort ≤ p.tHalf
  half_lt : p.tHalf < p.tPeriod - p.tShort
  period_lt : 32 * p.tPeriod < 2 ^ (p.wCc - 1)
  rx_ge : p.tPeriod - p.tShort ≤ p.tRxOffset
  rx_lt : p.tRxOffset < p.tPeriod
  setup_lt : p.tSetup < 2 ^ (p.wCc - 1)
  timeout_lt : 32 * p.timeout < 2 ^ (p.wCc - 1)
  timeout_gt : p.tPeriod - p.tRxOffset < p.timeout
  rise : p.tRise = 0
  pollMin : p.pollMin = 1

end Sys2Proof

namespace Sys2Proof.Machine

open Sys2Proof

/-- HARNESS timing (R117): no draw adds a cycle, a poll iteration takes POLL_MIN = 1 cycle, the line is ideal. -/
structure State.Harness (s : State) : Prop where
  timing : s.timing = .scripted []
  rise : s.params.tRise = 0
  pollMin : s.params.pollMin = 1

/-- From s to t the machine runs forward (R71): time does not run back, no event is lost, and the new events are in order
and lie between the two times. -/
def Forward (s t : State) : Prop :=
  s.time ≤ t.time ∧
    ∃ ev : List Event, t.trace = ev ++ s.trace ∧ ev.Pairwise (fun newer older => older.cycle ≤ newer.cycle) ∧
      ∀ e ∈ ev, s.time ≤ e.cycle ∧ e.cycle ≤ t.time

/-- What an operation on SIGNAL leaves alone: everything but SIGNAL, the time, the events, the line's last release, the
draws and the registers of the frame. -/
structure WireOnly (s t : State) : Prop where
  resetPin : t.resetPin = s.resetPin
  im : t.im = s.im
  params : t.params = s.params
  mem : t.mem = s.mem
  cursor : t.cursor = s.cursor
  entry : t.entry = s.entry
  command : t.command = s.command
  result : t.result = s.result
  calls : t.calls = s.calls
  target : t.target = s.target
  forward : Forward s t

/-- What a pin write leaves alone (R33): everything but the pins, the events and the line's last release. -/
structure PinsOnly (s t : State) : Prop where
  time : t.time = s.time
  im : t.im = s.im
  params : t.params = s.params
  mem : t.mem = s.mem
  cursor : t.cursor = s.cursor
  frame : t.frame = s.frame
  entry : t.entry = s.entry
  command : t.command = s.command
  result : t.result = s.result
  calls : t.calls = s.calls
  target : t.target = s.target
  timing : t.timing = s.timing
  drawn : t.drawn = s.drawn

/-- The frame of an operation that leaves SIGNAL, IM, memory, the sequencers and the other inputs alone: only RESET, the
reply, time, events and draws may differ. -/
structure ResetOnly (s t : State) : Prop where
  signal : t.signal = s.signal
  releasedAt : t.releasedAt = s.releasedAt
  im : t.im = s.im
  params : t.params = s.params
  mem : t.mem = s.mem
  cursor : t.cursor = s.cursor
  frame : t.frame = s.frame
  entry : t.entry = s.entry
  command : t.command = s.command
  calls : t.calls = s.calls
  target : t.target = s.target
  forward : Forward s t

/-- The frame of an operation that moves no pin: only IM, the reply, time, events and draws may differ. -/
structure NoPins (s t : State) : Prop where
  signal : t.signal = s.signal
  resetPin : t.resetPin = s.resetPin
  releasedAt : t.releasedAt = s.releasedAt
  params : t.params = s.params
  mem : t.mem = s.mem
  cursor : t.cursor = s.cursor
  frame : t.frame = s.frame
  entry : t.entry = s.entry
  command : t.command = s.command
  calls : t.calls = s.calls
  target : t.target = s.target
  forward : Forward s t

/-- What a command operation leaves alone when it has returned: RESET, the parameters, the caller's cursor, the entry
sequencer, the waiting calls, the target; and IM is as the caller left it. -/
structure CommandFrame (s t : State) : Prop where
  resetPin : t.resetPin = s.resetPin
  params : t.params = s.params
  cursor : t.cursor = s.cursor
  entry : t.entry = s.entry
  calls : t.calls = s.calls
  target : t.target = s.target
  forward : Forward s t

/-- The events of t that are not yet events of s, oldest first. -/
def newEvents (s t : State) : List Event := (t.trace.take (t.trace.length - s.trace.length)).reverse

/-- An event that is no read. -/
def Event.notRead (e : Event) : Bool :=
  match e.action with
  | .read _ => false
  | _ => true

/-- The new events but for the reads, as the spec's vectors list them. -/
def newWrites (s t : State) : List Event := (newEvents s t).filter Event.notRead

/-- What the new events but for the reads do. -/
def newActions (s t : State) : List Action := (newWrites s t).map Event.action

/-- How many of the new events are reads of SIGNAL. -/
def newReads (s t : State) : Nat := ((newEvents s t).filter fun e => !e.notRead).length

/-- The events run forward: none is later than an event after it, and none lies in the future (R71). -/
def State.Ordered (s : State) : Prop :=
  s.trace.Pairwise (fun newer older => older.cycle ≤ newer.cycle) ∧ ∀ e ∈ s.trace, e.cycle ≤ s.time

/-- What holds between any two steps. -/
structure State.Inv (s : State) : Prop where
  /-- Caller memory is in its canonical form. -/
  memory : Memory.wf s.mem
  /-- No flag of a frame outlives its operation (R40, R49). -/
  frame : s.frame = {}
  /-- No position of the entry sequencer survives (R49). -/
  entry : s.entry = {}
  /-- SIGNAL is INPUT whenever the block produces no bit (R43, R234). -/
  signal : s.signal.mode = .input
  /-- Events are in order (R71). -/
  ordered : s.Ordered
  /-- A command that has returned leaves nothing behind (R49). -/
  idle : s.command.pos = .idle → s.command = {}
  /-- A command in progress stands at a payload byte between steps: log 10. -/
  position : s.command.pos = .idle ∨ ∃ i, i < s.command.len ∧ s.command.pos = .payload i
  /-- A critical section that was entered is not left before the command ends (R162). -/
  critical : s.command.saved ≠ none → s.im = .masked

/-- An event on SIGNAL. -/
def signalEvent (a : PinAction) (cycle : Nat) : Event := { cycle := cycle, action := .pin .signal a }

/-- The writes of one bit that starts at a cycle (R125): the end of a 0 before it, its falling edge, and the rise of
a 1. -/
def bitWaveform (p : Params) (start : Nat) (prevZero b : Bool) : List Event :=
  (if prevZero then [signalEvent .setHigh (start - p.tShort)] else []) ++
    signalEvent .setLow start :: (if b then [signalEvent .setHigh (start + p.tShort)] else [])

/-- The writes of bits m−1 down to 0 of v, the first of them starting at a cycle (R83). -/
def bitsWaveform (p : Params) (v : BitVec 16) : Nat → Nat → Bool → List Event
  | 0, _, _ => []
  | m + 1, start, prevZero =>
    bitWaveform p start prevZero (v.getLsbD m) ++ bitsWaveform p v m (start + p.tPeriod) (!v.getLsbD m)

/-- The writes of a host frame of n bits that starts at a cycle (R83, R140): the n bits, the parity bit, and the rise
T_SHORT before the parity bit's end. -/
def frameWaveform (p : Params) (v : BitVec 16) (n start : Nat) : List Event :=
  bitsWaveform p v n start false ++
    bitWaveform p (start + n * p.tPeriod) (!v.getLsbD 0) (frameParity v n) ++
    [signalEvent .setHigh (start + n * p.tPeriod + (p.tPeriod - p.tShort))]

/-- A write an operation makes, and the cycle it is scheduled at, where it is scheduled at one (R17), with the parameters that say
how wide cycles are. -/
structure Planned where
  notBefore : Option (Params × Cycle)
  action : Action
deriving DecidableEq, Repr

/-- An event carries a planned write out: what it does, and not before its cycle (R17, R72). -/
def Planned.met (p : Planned) (e : Event) : Prop :=
  e.action = p.action ∧ ∀ q c, p.notBefore = some (q, c) → atOrAfter q (wrap q e.cycle) c = true

/-- The new events but for the reads are these writes, in order, none before its cycle. -/
def Follows (plan : List Planned) (s t : State) : Prop := List.Forall₂ Planned.met plan (newWrites s t)

/-- A write of SIGNAL scheduled at a cycle. -/
def scheduled (p : Params) (a : PinAction) (c : Cycle) : Planned := { notBefore := some (p, c), action := .pin .signal a }

/-- An action with no schedule: the next step of the operation. -/
def unscheduled (a : Action) : Planned := { notBefore := none, action := a }

/-- The writes of `send_bit` (R125). -/
def bitPlan (p : Params) (start : Cycle) (prevZero b : Bool) : List Planned :=
  (if prevZero then [scheduled p .setHigh (minus p start p.tShort)] else []) ++
    scheduled p .setLow start :: (if b then [scheduled p .setHigh (plus p start p.tShort)] else [])

/-- The writes of bits m−1 down to 0 of v, the first of them bit k of the frame at a cursor (R140). -/
def bitsPlan (p : Params) (v : BitVec 16) (cursor : Cycle) : Nat → Nat → Bool → List Planned
  | 0, _, _ => []
  | m + 1, k, prevZero =>
    bitPlan p (plus p cursor (k * p.tPeriod)) prevZero (v.getLsbD m) ++ bitsPlan p v cursor m (k + 1) (!v.getLsbD m)

/-- The writes of `send_byte` (R140): release, drive, the n bits, the parity bit, `finish_frame`, INPUT. -/
def framePlan (p : Params) (v : BitVec 16) (n : Nat) (cursor : Cycle) : List Planned :=
  [unscheduled (.pin .signal .setHigh), unscheduled (.pin .signal .setOutput)] ++ bitsPlan p v cursor n 0 false ++
    bitPlan p (plus p cursor (n * p.tPeriod)) (!v.getLsbD 0) (frameParity v n) ++
    [scheduled p .setHigh (plus p (plus p cursor (n * p.tPeriod)) (p.tPeriod - p.tShort)),
      unscheduled (.pin .signal .setInput)]

/-- The writes of the host's ACK bit with its start at a cycle (R146). -/
def ackPlan (p : Params) (start : Cycle) (b : Bool) : List Planned :=
  [unscheduled (.pin .signal .setHigh), unscheduled (.pin .signal .setOutput)] ++ bitPlan p start false b ++
    [scheduled p .setHigh (plus p start (p.tPeriod - p.tShort)), unscheduled (.pin .signal .setInput)]

/-- The writes of m toggles from toggle k on (R175, R177): each at its cycle and followed by a watchdog service (R176). -/
def trainPlan (p : Params) : Nat → Nat → Cycle → Bool → List Planned
  | 0, _, _, _ => []
  | m + 1, k, t, high =>
    [scheduled p (if high then .setHigh else .setLow) t, unscheduled .watchdog] ++
      trainPlan p m (k + 1) (plus p t (toggleInterval p k)) (!high)

/-- What `swim_entry` leaves alone (R50, R175): everything but SIGNAL, the reply, time, events and draws; IM is as the caller
left it. -/
structure EntryFrame (s t : State) : Prop where
  resetPin : t.resetPin = s.resetPin
  im : t.im = s.im
  params : t.params = s.params
  mem : t.mem = s.mem
  cursor : t.cursor = s.cursor
  frame : t.frame = s.frame
  command : t.command = s.command
  calls : t.calls = s.calls
  target : t.target = s.target
  forward : Forward s t

/-- The cycle toggle k of the train is scheduled at (R177): t0 + cyc(16) + Σ_{j<k} d_j, for k from 1 on. One past the last
toggle it is the release's. -/
def toggleCycle (p : Params) (t0 k : Nat) : Nat :=
  t0 + cyc p p.tEntryLowUs + ((List.range (k - 1)).map fun j => toggleInterval p (j + 1)).sum

/-- The cycle of the release (R177). -/
def releaseCycle (p : Params) (t0 : Nat) : Nat := toggleCycle p t0 (toggles p + 1)

/-- The writes of `swim_entry` (R175, R177, R178), t0 being the cycle of the `now()` after DRIVE_LOW and im the mask the caller
left: the train, and at its end the mask and the release, neither before the release's cycle. -/
def entryPlan (p : Params) (t0 : Cycle) (im : IrqMask) : List Planned :=
  [unscheduled (.pin .signal .setLow), unscheduled (.pin .signal .setOutput)] ++
    trainPlan p (toggles p) 1 (plus p t0 (cyc p p.tEntryLowUs)) true ++
    [{ notBefore := some (p, plus p t0 (releaseCycle p 0)), action := .irqMask },
      scheduled p .setInput (plus p t0 (releaseCycle p 0)), unscheduled (.irqRestore im)]

/-- The events of m toggles from toggle k on, each at its cycle (R177): odd ones rise. -/
def trainWaveform (p : Params) (t0 k m : Nat) : List Event :=
  (List.range' k m).flatMap fun j =>
    [signalEvent (if j % 2 = 1 then .setHigh else .setLow) (toggleCycle p t0 j),
      { cycle := toggleCycle p t0 j, action := .watchdog }]

/-- The events of `swim_entry` begun at t0 and whose measurement window is left at a cycle (R175, R177, R178). -/
def entryWaveform (p : Params) (t0 left : Nat) (im : IrqMask) : List Event :=
  [signalEvent .setLow t0, signalEvent .setOutput t0] ++ trainWaveform p t0 1 (toggles p) ++
    [{ cycle := releaseCycle p t0, action := .irqMask }, signalEvent .setInput (releaseCycle p t0),
      { cycle := left, action := .irqRestore im }]

/-- The bits of a byte, most significant first. -/
def byteBits (v : Byte) : List Bool :=
  [v.getLsbD 7, v.getLsbD 6, v.getLsbD 5, v.getLsbD 4, v.getLsbD 3, v.getLsbD 2, v.getLsbD 1, v.getLsbD 0]

/-- The XOR of the bits of a byte (R84). -/
def byteParity (v : Byte) : Bool := (byteBits v).foldl Bool.xor false

/-- The bits of a target frame (R83): the start bit, the data bits, a parity bit. -/
def targetFrame (p : Params) (v : Byte) (parity : Bool) : List Bool := p.targetStart :: (byteBits v ++ [parity])

/-- What the reads of one reception say (R127, R128): TIMEOUT reads that saw HIGH and no edge; or an edge, read LOW within the
budget, and a sample of this level at or after the edge ⊕ T_HALF. The edge's cycle is that of a `now()` between the two (D8). -/
def Reception (p : Params) (ev : List Event) : Option (Level × Cycle) → Prop
  | none => ev.length = p.timeout ∧ ∀ e ∈ ev, e.action = .read .high
  | some (level, c) => ∃ (before : List Event) (edge sample : Event) (n : Nat), ev = before ++ [edge, sample] ∧
      before.length < p.timeout ∧ (∀ e ∈ before, e.action = .read .high) ∧ edge.action = .read .low ∧
      sample.action = .read level ∧ edge.cycle ≤ n ∧ n ≤ sample.cycle ∧ c = wrap p n ∧
      0 ≤ sdiff p (wrap p sample.cycle) (plus p c p.tHalf)

/-- What the reads of one poll say (R127): `budget` reads, and none saw the level; or fewer that did not and then one that saw it,
no later than the cycle n of the `now()` after it (D8). -/
def Polled (want : Level) (budget : Nat) (ev : List Event) : Option Nat → Prop
  | none => ev.length = budget ∧ ∀ e ∈ ev, ∃ l, l ≠ want ∧ e.action = .read l
  | some n => ∃ (missed : List Event) (seen : Event), ev = missed ++ [seen] ∧ missed.length < budget ∧
      (∀ e ∈ missed, ∃ l, l ≠ want ∧ e.action = .read l) ∧ seen.action = .read want ∧ seen.cycle ≤ n

/-- The answer of the measurement window of `swim_entry` with its reads (R175, R179, R180): the reads of WAIT_FALL, of WAIT_RISE,
and the restored mask at `left`; the operation ends at `finish`.

* no LOW in ENTRY_TIMEOUT_A reads: `SyncTimeout1`, and nothing more is read;
* LOW within that budget, and no HIGH in ENTRY_TIMEOUT_B reads after it: `SyncTimeout2`;
* both: `Ok(tr ⊖ tf)`, tf and tr the cycles of a `now()` at or after the read that saw the level and before what follows, and the
  end at or after tr ⊕ T_SETTLE.

A failure ends at the restored mask: it skips SETTLE. -/
def EntryAnswered (p : Params) (fall rise : List Event) (left finish : Nat) (r : Reply) : Prop :=
  (r = .error .syncTimeout1 ∧ Polled .low p.entryTimeoutA fall none ∧ rise = [] ∧ finish = left) ∨
    ∃ tf, Polled .low p.entryTimeoutA fall (some tf) ∧ (∀ e ∈ rise, tf ≤ e.cycle) ∧ tf ≤ left ∧
      ((r = .error .syncTimeout2 ∧ Polled .high p.entryTimeoutB rise none ∧ finish = left) ∨
        ∃ tr, Polled .high p.entryTimeoutB rise (some tr) ∧ tf ≤ tr ∧ tr ≤ left ∧
          r = .duration (minus p (wrap p tr) (wrap p tf)) ∧ left ≤ finish ∧
          0 ≤ sdiff p (wrap p finish) (plus p (wrap p tr) p.tSettle))

/-- Every event of `swim_entry` with its answer (R175, R180): writes that end with SIGNAL's release, the reads of the measurement
window after it, and the restored mask. -/
def EntryRead (p : Params) (im : IrqMask) (finish : Nat) (r : Reply) (ev : List Event) : Prop :=
  ∃ (writes fall rise : List Event) (release last : Event), ev = writes ++ [release] ++ fall ++ rise ++ [last] ∧
    (∀ e ∈ writes, e.notRead = true) ∧ release.action = .pin .signal .setInput ∧ last.action = .irqRestore im ∧
    EntryAnswered p fall rise last.cycle finish r

/-- The events of a host frame of n bits whose first bit is scheduled at a cycle, and of the reception of its ACK bit (R140). -/
def FrameSent (p : Params) (v : BitVec 16) (n : Nat) (start : Cycle) (answer : Option (Level × Cycle)) (ev : List Event) : Prop :=
  ∃ writes reads, ev = writes ++ reads ∧ List.Forall₂ Planned.met (framePlan p v n start) writes ∧ Reception p reads answer

/-- A reception inside a target frame: its first read is at or after the edge before it ⊕ T_RX_OFFSET (R147). -/
def SpacedFrom (p : Params) (edge : Option Cycle) (ev : List Event) : Prop :=
  ∀ c, edge = some c → ∀ e ∈ ev.head?, 0 ≤ sdiff p (wrap p e.cycle) (plus p c p.tRxOffset)

/-- The events of consecutive receptions of a target frame that each succeed, with their samples and edges (R146). -/
def BitsRead (p : Params) : Option Cycle → List (Level × Cycle) → List Event → Prop
  | _, [], ev => ev = []
  | edge, b :: bits, ev => ∃ mine rest, ev = mine ++ rest ∧ SpacedFrom p edge mine ∧ Reception p mine (some b) ∧
      BitsRead p (some b.2) bits rest

/-- The edge of the last of these bits, or else of the bit before them. -/
def lastEdge : Option Cycle → List (Level × Cycle) → Option Cycle
  | edge, [] => edge
  | _, b :: bits => lastEdge (some b.2) bits

/-- The events of one `receive_byte` with its answer (R146, R197):

* i bits were read, the first of them TARGET_START, and the reception of bit i timed out: `RxByteTimeout(i)`;
* the first bit was not TARGET_START: `InvalidTargetId`;
* ten bits were read, TARGET_START, the data bits of v and a parity bit q: v where the parity checks, `ParityError` where it does
  not, after the host's ACK bit, which starts at the later of the parity bit's natural end and a `now()` after its sample with the
  setup margin. -/
def ByteReceived (p : Params) (r : Except Error Byte) (ev : List Event) : Prop :=
  ∃ (bits : List (Level × Cycle)) (got rest : List Event), ev = got ++ rest ∧ BitsRead p none bits got ∧
    ((∃ i : Fin 10, r = .error (.rxByteTimeout i) ∧ bits.length = i.val ∧
        (∀ b ∈ bits.head?, bitOf b.1 = p.targetStart) ∧ SpacedFrom p (lastEdge none bits) rest ∧ Reception p rest none) ∨
      (∃ b, bits = [b] ∧ bitOf b.1 ≠ p.targetStart ∧ r = .error .invalidTargetId ∧ rest = []) ∨
      ∃ (v : Byte) (q : Bool) (c : Cycle) (n : Nat), bits.map (fun b => bitOf b.1) = targetFrame p v q ∧
        lastEdge none bits = some c ∧ r = (if byteParity v = q then .ok v else .error .parityError) ∧
        (∀ e ∈ got, e.cycle ≤ n) ∧ (∀ e ∈ rest, n ≤ e.cycle) ∧
        List.Forall₂ Planned.met
          (ackPlan p (later p (plus p c p.tPeriod) (plus p (wrap p n) p.tSetup)) (ackBit p ((byteParity v).xor q))) rest)

/-- The events of receptions that each give a byte (R159). -/
def BytesReceived (p : Params) : List Byte → List Event → Prop
  | [], ev => ev = []
  | v :: vs, ev => ∃ mine rest, ev = mine ++ rest ∧ ByteReceived p (.ok v) mine ∧ BytesReceived p vs rest

/-- The events of a payload byte's frame after an ACK bit that started at a: its first bit is scheduled at the later of that bit's
natural end and a `now()` with the setup margin (R155, R157), the `now()` from cycle `since` on, before the frame. -/
def PayloadFrame (p : Params) (b : Byte) (a : Cycle) (since : Nat) (answer : Option (Level × Cycle)) (ev : List Event) : Prop :=
  ∃ n, since ≤ n ∧ (∀ e ∈ ev, n ≤ e.cycle) ∧
    FrameSent p (byteFrameValue p b) 9 (later p (plus p a p.tPeriod) (plus p (wrap p n) p.tSetup)) answer ev

/-- The events of k payload frames, of payload bytes i, i + 1, …, each sent once and acknowledged (R155); the last ACK bit started
at a', and none of the events is later than `since'`. -/
def PayloadAcked (p : Params) (mem : Memory) (data : Buffer) : Nat → Nat → Cycle → Nat → Cycle → Nat → List Event → Prop
  | _, 0, a, since, a', since', ev => ev = [] ∧ a' = a ∧ since' = since
  | i, k + 1, a, since, a', since', ev => ∃ mine rest b m, ev = mine ++ rest ∧
      PayloadFrame p (Memory.read (data.base + i) mem) a since (some (p.ackLevel, b)) mine ∧ (∀ e ∈ mine, e.cycle ≤ m) ∧
      PayloadAcked p mem data (i + 1) k b m a' since' rest

/-- What the writes of a bit do. -/
def bitActions (prevZero b : Bool) : List Action :=
  (if prevZero then [.pin .signal .setHigh] else []) ++
    .pin .signal .setLow :: (if b then [.pin .signal .setHigh] else [])

/-- What the writes of bits m−1 down to 0 of v do. -/
def bitsActions (v : BitVec 16) : Nat → Bool → List Action
  | 0, _ => []
  | m + 1, prevZero => bitActions prevZero (v.getLsbD m) ++ bitsActions v m (!v.getLsbD m)

/-- What the writes of `send_byte` do (R140): release, drive, the bits most significant first, the parity bit,
`finish_frame`, INPUT. -/
def frameActions (v : BitVec 16) (n : Nat) : List Action :=
  [.pin .signal .setHigh, .pin .signal .setOutput] ++ bitsActions v n false ++
    bitActions (!v.getLsbD 0) (frameParity v n) ++ [.pin .signal .setHigh, .pin .signal .setInput]

/-- What the writes of the host's ACK bit do (R146). -/
def ackActions (b : Bool) : List Action :=
  [.pin .signal .setHigh, .pin .signal .setOutput] ++ bitActions false b ++
    [.pin .signal .setHigh, .pin .signal .setInput]

/-- The writes of the end of an operation (R200): the restored mask, where a critical section was entered. -/
def exitActions (saved : Option IrqMask) : List Action :=
  match saved with
  | some im => [.irqRestore im]
  | none => []

/-- The writes of k payload frames, of payload bytes i, i + 1, … in buffer order (R65, R155). -/
def payloadActions (p : Params) (mem : Memory) (data : Buffer) (i : Nat) : Nat → List Action
  | 0 => []
  | k + 1 =>
    frameActions (byteFrameValue p (Memory.read (data.base + i) mem)) 9 ++ payloadActions p mem data (i + 1) k

/-- The writes of the host's ACK bits after k good target frames (R146, R159). -/
def acksActions (p : Params) : Nat → List Action
  | 0 => []
  | k + 1 => ackActions (ackBit p false) ++ acksActions p k

/-- Memory after these bytes are stored from an address on: they are there, and every other byte is as before. -/
def Stored (m m' : Memory) (a : Nat) (vs : List Byte) : Prop :=
  ∀ b, Memory.read b m' = if a ≤ b ∧ b < a + vs.length then vs.getD (b - a) 0#8 else Memory.read b m

/-- A command operation with the registers c has returned (R162, R200): IM is restored where it was saved, which is all its last
events do, no register survives, and the reply stands. -/
def Returned (s t : State) (c : CommandRegs) (r : Reply) (last : List Event) : Prop :=
  t.command = {} ∧ t.im = c.saved.getD s.im ∧ t.result = some r ∧ last.map Event.action = exitActions c.saved

/-- How a run of the command sequencer with the registers c ends, after payload byte j − 1, whose ACK bit started at a, with these
events, none before `since` (R155, R156, R159):

* byte j was answered by NACK: the sequencer stands at it, nothing is restored and nothing is returned;
* the ACK of byte j timed out: `ReadBitTimeout`;
* every byte was acknowledged and `rxLen` bytes were received and stored in `dest` in order: `Ok(0)`;
* every byte was acknowledged and a reception failed: its error, with the bytes received before it in `dest`. -/
def RunEnds (s t : State) (c : CommandRegs) (j : Nat) (a : Cycle) (since : Nat) (ev : List Event) : Prop :=
  (j < c.len ∧
      ((∃ level b, level ≠ s.params.ackLevel ∧
          PayloadFrame s.params (Memory.read (c.data.base + j) s.mem) a since (some (level, b)) ev ∧
          t.command = { c with pos := .payload j, ackStart := b } ∧ t.im = s.im ∧ t.result = s.result ∧ t.mem = s.mem) ∨
        ∃ frame last, ev = frame ++ last ∧
          PayloadFrame s.params (Memory.read (c.data.base + j) s.mem) a since none frame ∧
          Returned s t c (.error .readBitTimeout) last ∧ t.mem = s.mem)) ∨
    (j = c.len ∧ ∃ (vs : List Byte) (got failed last : List Event), ev = got ++ failed ++ last ∧
      BytesReceived s.params vs got ∧ Stored s.mem t.mem c.dest.base vs ∧
      ((vs.length = c.rxLen ∧ failed = [] ∧ Returned s t c .ok last) ∨
        ∃ e : Error, vs.length < c.rxLen ∧ ByteReceived s.params (.error e) failed ∧ Returned s t c (.error e) last))

/-- How a run of the command sequencer can go on from payload byte i, with the registers c and after these events, the ACK bit
before byte i started at a (R155, R156): k bytes from byte i on are sent, each once, in buffer order, and acknowledged; and then it
ends (`RunEnds`). -/
def RunsOn (s t : State) (c : CommandRegs) (before : List Event) (a : Cycle) (since i : Nat) : Prop :=
  ∃ (k : Nat) (acked rest : List Event) (b : Cycle) (m : Nat), newEvents s t = before ++ acked ++ rest ∧
    PayloadAcked s.params s.mem c.data i k a since b m acked ∧ RunEnds s t c (i + k) b m rest

/-- What a command can do from its command frame on (R155, R157, R158), with the registers c: the command frame is sent once, at a
`now()` with the setup margin; its ACK times out or is no ACK, which ends the operation; or the payload follows. -/
def CommandRuns (s t : State) (c : CommandRegs) : Prop :=
  ∃ (frame rest : List Event) (n m : Nat) (answer : Option (Level × Cycle)), newEvents s t = frame ++ rest ∧ s.time ≤ n ∧
    (∀ e ∈ frame, n ≤ e.cycle ∧ e.cycle ≤ m) ∧
    FrameSent s.params (commandFrameValue s.params c.cmd) 4 (plus s.params (wrap s.params n) s.params.tSetup) answer frame ∧
    ((answer = none ∧ Returned s t c (.error .readBitTimeout) rest ∧ t.mem = s.mem) ∨
      (∃ level a, answer = some (level, a) ∧ level ≠ s.params.ackLevel ∧ Returned s t c (.error .nack) rest ∧ t.mem = s.mem) ∨
      ∃ a, answer = some (s.params.ackLevel, a) ∧ RunsOn s t c frame a m 0)

/-- An operation begun at s by i stands at t after its first step and n steps that resume it, each at a payload byte answered by
NACK (R156, log 10). -/
def OperationReaches (i : Instr) (s : State) : Nat → State → Prop
  | 0, t => exec i s = .next t
  | n + 1, t => ∃ u, OperationReaches i s n u ∧ u.command.pos ≠ .idle ∧ step u = .next t

/-- SIGNAL as a host frame leaves it (R140): INPUT with its latch HIGH. -/
def releasedPin : Pin := { mode := .input, latch := .high }

/-- The state of an entry point at the point where its wire transaction stands at w (R98, R162): the critical section is left
when the transaction has returned, and still held while a payload byte is to be sent again. -/
def insideCritical (saved : IrqMask) (w : State) : State :=
  if w.command.pos = .idle then w.leaveCritical saved else w.setCommand { w.command with saved := some saved }

/-- The target drives LOW at t, as a bit b that starts at a cycle (R80): LOW for T_SHORT, or for T_PERIOD − T_SHORT. -/
def bitLow (p : Params) (b : Bool) (start t : Nat) : Prop :=
  start ≤ t ∧ t < start + (if b then p.tShort else p.tPeriod - p.tShort)

/-- The target drives LOW at t, as the bits of a frame whose first bit starts at a cycle (R80, R83). -/
def bitsLow (p : Params) (bits : List Bool) (start t : Nat) : Prop :=
  ∃ k b, bits[k]? = some b ∧ bitLow p b (start + k * p.tPeriod) t

/-- The cycles from the start of the bit that was sampled last (a target's ACK or parity bit) to the start of the host's next bit,
when `now()` is read at the sample (R146, R157): to that bit's natural end, or by T_HALF and the setup margin, whichever is
later. -/
def turnaround (p : Params) : Nat := max p.tPeriod (p.tHalf + p.tSetup)

/-- The cycles from one frame's first bit to the first bit of the next, when the bit the other end answers with starts `delay`
cycles after the frame (R146, R157, R235). -/
def byteFrameSpan (p : Params) (delay : Nat) : Nat := turnaround p + (10 * p.tPeriod - p.tShort) + delay

/-- The cycle at which a host frame of n bits that starts at c is over and SIGNAL turns INPUT (R141, R235). -/
def frameEnd (p : Params) (n c : Nat) : Nat := c + n * p.tPeriod + (p.tPeriod - p.tShort)

/-- The writes of `send_byte` that starts at cycle τ with the frame's first bit at c (R140). -/
def sendByteWrites (p : Params) (v : BitVec 16) (n τ c : Nat) : List Event :=
  signalEvent .setHigh τ :: signalEvent .setOutput τ ::
    (frameWaveform p v n c ++ [signalEvent .setInput (frameEnd p n c)])

/-- The writes of the host's ACK bit, sent from cycle τ on with the bit's start at a (R146). -/
def ackWrites (p : Params) (b : Bool) (τ a : Nat) : List Event :=
  signalEvent .setHigh τ :: signalEvent .setOutput τ ::
    (bitWaveform p a false b ++
      [signalEvent .setHigh (a + (p.tPeriod - p.tShort)), signalEvent .setInput (a + (p.tPeriod - p.tShort))])

/-- The writes of m payload frames, of payload bytes i, i + 1, …: the ACK bit before the first starts at a, each frame starts a
turnaround after the ACK bit before it (R157) and each ACK bit comes a span after the one before it. -/
def payloadWaveform (p : Params) (mem : Memory) (data : Buffer) (span : Nat) : Nat → Nat → Nat → List Event
  | _, _, 0 => []
  | a, i, m + 1 =>
    sendByteWrites p (byteFrameValue p (Memory.read (data.base + i) mem)) 9 (a + p.tHalf) (a + turnaround p) ++
      payloadWaveform p mem data span (a + span) (i + 1) m

/-- The target answers ACK n times: it drives LOW as ACK bits (R85) that start at e, e + span, … . -/
def acksLow (p : Params) (span e n t : Nat) : Prop := ∃ j, j < n ∧ bitLow p (bitOf p.ackLevel) (e + j * span) t

/-- The target sends these bytes: it drives LOW as target frames with good parity (R83, R84) that start at f, f + span, … . -/
def framesLow (p : Params) (span f : Nat) (vs : List Byte) (t : Nat) : Prop :=
  ∃ j v, vs[j]? = some v ∧ bitsLow p (targetFrame p v (byteParity v)) (f + j * span) t

/-- A read against a well-behaved target under HARNESS timing (R159): ACK is HIGH, the descriptor d holds its four bytes, each host
frame's ACK starts `delay` cycles after it, and after the last ACK's sample the target sends these bytes, the first at f, each frame
`gap` cycles after the host's ACK bit before it; it drives nothing else. -/
structure ReadScenario (s : State) (d : Buffer) (vs : List Byte) (delay gap f : Nat) : Prop where
  harness : s.Harness
  ideal : s.params.Ideal
  ack : s.params.ackLevel = .high
  descriptor : 4 ≤ d.size
  delay_lt : delay < s.params.timeout
  gap_lt : gap < s.params.timeout
  first_gt : frameEnd s.params 4 (s.time + s.params.tSetup) + delay + 4 * byteFrameSpan s.params delay + s.params.tHalf < f
  first_lt : f < frameEnd s.params 4 (s.time + s.params.tSetup) + delay + 4 * byteFrameSpan s.params delay + s.params.tHalf +
    s.params.timeout
  drive : ∀ t, frameEnd s.params 4 (s.time + s.params.tSetup) ≤ t → t < f + vs.length * byteFrameSpan s.params gap →
    (targetLow s.target t = true ↔
      acksLow s.params (byteFrameSpan s.params delay) (frameEnd s.params 4 (s.time + s.params.tSetup) + delay) 5 t ∨
        framesLow s.params (byteFrameSpan s.params gap) f vs t)

end Sys2Proof.Machine
end

