-- ==== Sys2Proof/Certificates/Slice0/Obligations.lean ====
section
/-!
DEFINITION. Obligations.lean: the statements for the provers. Each docstring names the rule of spec/ that it formalises. A
statement that speaks of `State.Harness` is about the reference timing of R117; every other one holds of every timing and of every
target. "log n" is notes/assumptions/n.md.
-/

open Sys2Proof Sys2Proof.Machine

/-! ### Call messages -/

/-- The decoder gives back every well-formed operation from its message, with every operand at every value, and the bytes after
it. The message layout is the model's (log 12), the selectors are the spec's (R93). -/
def Obligations.DecodeInvertsEncode : Prop :=
  ∀ (i : Instr) (rest : List Byte), i.wellFormed = true → decode (encode i ++ rest) = .ok (i, rest)

/-- Whatever the decoder accepts is a well-formed operation, and the bytes it read are that operation's message: no two messages
name one operation, and no operand byte is ignored. -/
def Obligations.EncodeInvertsDecode : Prop :=
  ∀ (m rest : List Byte) (i : Instr), decode m = .ok (i, rest) → i.wellFormed = true ∧ m = encode i ++ rest

/-- Messages written out byte by byte from the selectors of R93 and the layout of log 12. -/
def Obligations.WrittenMessagesDecode : Prop :=
  decode [0x00#8] = .ok (.init, []) ∧
    decode [0x01#8, 0xFF#8] = .ok (.reset 0xFF#8, []) ∧
    decode [0x02#8] = .ok (.swimEntry, []) ∧
    decode [0x03#8] = .ok (.srst, []) ∧
    decode [0x06#8, 0x02#8, 0#8, 0#8, 1#8, 2#8, 0#8, 1#8, 0#8, 0#8, 0#8, 0#8, 1#8, 0#8] =
      .ok (.sendCommand 0x02#8 0x102 { base := 0x10000, size := 0x104 }, []) ∧
    decode [0x11#8, 0x01#8, 0x23#8, 0x45#8, 0x67#8, 0x89#8, 0xAB#8, 0xCD#8, 0xEF#8] =
      .ok (.waitUntil 0x0123456789ABCDEF, []) ∧
    decode [0x13#8, 1#8] = .ok (.leaveCritical .masked, []) ∧
    decode [0x20#8, 0#8, 0#8, 0#8, 0#8, 0#8, 0#8, 3#8, 0xE8#8, 1#8, 0#8] = .ok (.sendBit 1000 true false, []) ∧
    decode [0x30#8, 0#8, 0#8, 0#8, 0#8, 0#8, 0#8, 3#8, 0xE8#8, 0#8, 0xA5#8, 5#8] =
      .ok (.sendByte 1000 0xA5#16 9, []) ∧
    decode [0x40#8] = .ok (.wireSrst, [])

/-- R91, R94, I8: what has no meaning is refused: a selector that no operation has, by the decoder and by a step that takes such
a call; `send_byte` with another length than 4 and 9; `send_command` with an id of 8 or more. -/
def Obligations.MeaninglessCallsRefused : Prop :=
  (∀ (sel : Byte) (m : List Byte), (∀ i, selector i ≠ sel) →
    decode (sel :: m) = .error (.unknownSelector sel) ∧
      ∀ (s : State) (q : List (List Byte)), s.command.pos = .idle → s.entry.pos = .idle → s.calls = (sel :: m) :: q →
        step s = .refused (.undecodable (.unknownSelector sel))) ∧
    (∀ (cursor : Cycle) (v : BitVec 16) (n : Nat) (s : State), n ≠ 4 → n ≠ 9 →
      exec (.sendByte cursor v n) s = .refused (.frameLength n)) ∧
    ∀ (cmd : Byte) (len : Nat) (data : Buffer) (s : State), 8 ≤ cmd.toNat →
      exec (.sendCommand cmd len data) s = .refused (.commandId cmd)

/-- R64: what the four bytes of a descriptor say. -/
def Obligations.DescriptorIsBigEndian : Prop :=
  ∀ d0 d1 d2 d3 : Byte, (decodeHeader d0 d1 d2 d3).1 = d0 ∧
    (decodeHeader d0 d1 d2 d3).2.toNat = d1.toNat * 2 ^ 16 + d2.toNat * 2 ^ 8 + d3.toNat

/-- R89, which the spec derives from R88: the descriptor's four bytes, and the round trip. -/
def Obligations.HeaderRoundTrip : Prop :=
  ∀ (len : Byte) (addr : BitVec 24),
    header len addr =
        [len, BitVec.ofNat 8 (addr.toNat / 2 ^ 16), BitVec.ofNat 8 (addr.toNat / 2 ^ 8), BitVec.ofNat 8 addr.toNat] ∧
      ∃ d0 d1 d2 d3, header len addr = [d0, d1, d2, d3] ∧ decodeHeader d0 d1 d2 d3 = (len, addr)

/-- R84, the host's side: the parity of a frame is the XOR of its n bits, and for a byte frame with HOST_START 0 the XOR of the
data bits. -/
def Obligations.HostFrameParity : Prop :=
  (∀ (v : BitVec 16) (n : Nat),
      frameParity v n = ((List.range n).map fun k => v.getLsbD k).foldl Bool.xor false) ∧
    ∀ (p : Params) (b : Byte), frameParity (byteFrameValue p b) 9 = p.hostStart.xor (byteParity b)

/-- R61: the descriptor that `rotf` gets from the dispatcher's command buffer is its bytes 1 to 4, the buffer of `wotf` is the
bytes from 1 on, and a command buffer of 260 bytes holds every access of either. -/
def Obligations.CommandBufferHoldsEveryAccess : Prop :=
  ∀ (cb : Buffer) (m : Memory), 260 ≤ cb.size →
    (∀ i, i < 4 → readBuffer (descriptorOf cb) i m = readBuffer cb (i + 1) m) ∧
      (∀ i, i + 1 < cb.size → readBuffer (writeBufferOf cb) i m = readBuffer cb (i + 1) m) ∧
      4 + (Memory.read (writeBufferOf cb).base m).toNat ≤ (writeBufferOf cb).size

/-! ### Cycles and time -/

/-- R13: `⊕`, `⊖`, `sdiff` and "at or after", for every W_CC. -/
def Obligations.CycleArithmetic : Prop :=
  ∀ p : Params,
    (∀ (t : Cycle) (d : Nat), plus p t d = (t + d) % 2 ^ p.wCc ∧ (minus p t d : Int) = ((t : Int) - d) % 2 ^ p.wCc ∧
        plus p t d < 2 ^ p.wCc ∧ minus p t d < 2 ^ p.wCc) ∧
      ∀ a b : Cycle, -2 ^ (p.wCc - 1) ≤ sdiff p a b ∧ sdiff p a b ≤ 2 ^ (p.wCc - 1) - 1 ∧
        (sdiff p a b - ((a : Int) - b)) % 2 ^ p.wCc = 0 ∧ (atOrAfter p a b = true ↔ 0 ≤ sdiff p a b)

/-- R114: `later`, on every pair by its comparison, and inside the window the later one. -/
def Obligations.LaterChoosesTheLater : Prop :=
  ∀ p : Params, (∀ a b : Cycle, later p a b = if 0 ≤ sdiff p a b then a else b) ∧ (∀ a : Cycle, later p a a = a) ∧
    ∀ x y : Nat, x < y + 2 ^ (p.wCc - 1) → y < x + 2 ^ (p.wCc - 1) →
      later p (wrap p x) (wrap p y) = wrap p (max x y)

/-- R110: `now` returns the counter, which wraps, and writes nothing. -/
def Obligations.NowReturnsTheCounter : Prop :=
  ∀ s : State, ∃ t, exec .now s = .next t ∧ t.result = some (.cycle t.cc) ∧ NoPins s t ∧ t.im = s.im ∧
    t.trace = s.trace ∧ (s.Harness → t.time = s.time) ∧
    (∀ d, d < 2 ^ s.params.wCc → minus s.params (t.advance d).cc t.cc = d) ∧
    (t.cc = 2 ^ s.params.wCc - 1 → (t.advance 1).cc = 0)

/-- R111: `wait_until` ends at or after its target, at once when it already is, and otherwise not before the counter has moved on
to it; it writes nothing. Under HARNESS timing it ends there. -/
def Obligations.WaitUntilReachesItsTarget : Prop :=
  ∀ (c : Cycle) (s : State), ∃ t, exec (.waitUntil c) s = .next t ∧ t.result = some .none ∧ NoPins s t ∧ t.im = s.im ∧
    t.trace = s.trace ∧ 0 ≤ sdiff s.params t.cc c ∧
    s.time + (if 0 ≤ sdiff s.params s.cc c then 0 else minus s.params c s.cc) ≤ t.time ∧
    (s.Harness → t.time = s.time + if 0 ≤ sdiff s.params s.cc c then 0 else minus s.params c s.cc)

/-- R112: a scheduled transition is one write, at a cycle at or after its schedule; masked, and its wait begun before it, at most
EPS_CRIT after; and each lateness these bounds leave is some draw's. The wait begins at its first `now()`. R227: unmasked, any
number of cycles can pass before that; masked, a schedule that is not more than 2^(W_CC−2) cycles in the past (R113) is not more
than that in the past after the work before its next use, nor at the transition; that this is what EPS_CRIT keeps is the model's
reading (log 8). That the same bounds hold for the mask and for the release that both follow the last wait of the
entry sequence (R175, R178) is the model's reading (log 7): R112 names pin transitions, and one after a wait. -/
def Obligations.ScheduledTransitionLateness : Prop :=
  ∀ (c : Cycle) (a : PinAction) (s : State), s.params.epsCrit < 2 ^ (s.params.wCc - 1) →
    (∃ k, newWrites s (s.schedule c a) = [signalEvent a k] ∧ k = (s.schedule c a).time ∧
        0 ≤ sdiff s.params (wrap s.params k) c ∧
        (s.im = .masked → sdiff s.params (s.elapse (some c)).cc c < 0 → sdiff s.params (wrap s.params k) c ≤ s.params.epsCrit) ∧
        (s.im = .masked → sdiff s.params s.cc c ≤ 2 ^ (s.params.wCc - 2) →
          sdiff s.params (s.elapse (some c)).cc c ≤ 2 ^ (s.params.wCc - 2) ∧
            (s.params.epsCrit ≤ 2 ^ (s.params.wCc - 2) → sdiff s.params (wrap s.params k) c ≤ 2 ^ (s.params.wCc - 2)))) ∧
      (s.im = .unmasked → ∀ n, ∃ ds, (({ s with timing := .scripted ds } : State).elapse (some c)).time = s.time + n) ∧
      (∀ n : Nat, n < 2 ^ (s.params.wCc - 1) → sdiff s.params s.cc c < 0 → (s.im = .masked → n ≤ s.params.epsCrit) →
        ∃ ds, sdiff s.params (({ s with timing := .scripted ds } : State).schedule c a).cc c = n) ∧
      ∃ m k, newWrites s s.entryRelease = [{ cycle := m, action := .irqMask }, signalEvent .setInput k] ∧
        0 ≤ sdiff s.params (wrap s.params m) s.entry.next ∧ 0 ≤ sdiff s.params (wrap s.params k) s.entry.next ∧
        (s.im = .masked → sdiff s.params (s.elapse (some s.entry.next)).cc s.entry.next < 0 →
          sdiff s.params (wrap s.params m) s.entry.next ≤ s.params.epsCrit ∧
            sdiff s.params (wrap s.params k) s.entry.next ≤ s.params.epsCrit)

/-- R115: `enter_critical` returns IM and masks. -/
def Obligations.EnterCriticalMasks : Prop :=
  ∀ s : State, ∃ t, exec .enterCritical s = .next t ∧ t.result = some (.saved s.im) ∧ t.im = .masked ∧ NoPins s t ∧
    newActions s t = [.irqMask]

/-- R116: `leave_critical` sets IM to the saved state, MASKED or UNMASKED. -/
def Obligations.LeaveCriticalRestores : Prop :=
  ∀ (saved : IrqMask) (s : State), ∃ t, exec (.leaveCritical saved) s = .next t ∧ t.result = some .none ∧ t.im = saved ∧
    NoPins s t ∧ newActions s t = [.irqRestore saved]

/-- R115, R116: critical sections nest. -/
def Obligations.CriticalSectionsNest : Prop :=
  ∀ s : State, ∃ a b c d im1 im2, exec .enterCritical s = .next a ∧ a.result = some (.saved im1) ∧
    exec .enterCritical a = .next b ∧ b.result = some (.saved im2) ∧
    exec (.leaveCritical im2) b = .next c ∧ exec (.leaveCritical im1) c = .next d ∧
    a.im = .masked ∧ b.im = .masked ∧ c.im = .masked ∧ d.im = s.im

/-! ### Pins and the line -/

/-- R33: one pin write is one event at the current cycle, and changes the one bit it names and nothing else but the line's last
release. A latch write while the pin is INPUT changes the level of neither line. R33 says nothing of a release; that the line's
last release (R35) is now, exactly when the write lets SIGNAL go from pulled LOW, also while the target still pulls it, is the
model's reading (log 9). -/
def Obligations.PinWritesAreAtomic : Prop :=
  ∀ (p : PinName) (a : PinAction) (s : State),
    (s.pinWrite p a).pin p = (match a with
      | .setHigh => { s.pin p with latch := .high }
      | .setLow => { s.pin p with latch := .low }
      | .setOutput => { s.pin p with mode := .output }
      | .setInput => { s.pin p with mode := .input }) ∧
    (∀ q, q ≠ p → (s.pinWrite p a).pin q = s.pin q) ∧ (s.pinWrite p a).time = s.time ∧
    (s.pinWrite p a).trace = { cycle := s.time, action := .pin p a } :: s.trace ∧ PinsOnly s (s.pinWrite p a) ∧
    (s.signal.pulls = true → (s.pinWrite p a).signal.pulls = false → (s.pinWrite p a).releasedAt = some s.time) ∧
    (¬(s.signal.pulls = true ∧ (s.pinWrite p a).signal.pulls = false) → (s.pinWrite p a).releasedAt = s.releasedAt) ∧
    ((s.pin p).mode = .input → (a = .setHigh ∨ a = .setLow) →
      (s.pinWrite p a).lineLevel = s.lineLevel ∧ (s.pinWrite p a).resetLine = s.resetLine)

/-- R34, R35: the host pulls SIGNAL exactly when OUTPUT and LOW; the line is LOW when host or target pulls; otherwise HIGH, but
for a read less than T_RISE cycles after a release by host or target, which can see either level; RESET is at its latch when
OUTPUT and let go when INPUT. How the window after a release is taken is the model's reading (log 9). -/
def Obligations.LineLevel : Prop :=
  ∀ s : State, (s.signal.pulls = true ↔ s.signal.mode = .output ∧ s.signal.latch = .low) ∧
    ((s.signal.pulls = true ∨ targetLow s.target s.time = true) → s.lineLevel = .low) ∧
    (s.signal.pulls = false → targetLow s.target s.time = false →
      (¬((∃ r, s.releasedAt = some r ∧ r ≤ s.time ∧ s.time < r + s.params.tRise) ∨
          ∃ r, r + 1 ≤ s.time ∧ s.time < r + 1 + s.params.tRise ∧ targetLow s.target r = true) →
        s.lineLevel = .high) ∧
      (((∃ r, s.releasedAt = some r ∧ r ≤ s.time ∧ s.time < r + s.params.tRise) ∨
          ∃ r, r + 1 ≤ s.time ∧ s.time < r + 1 + s.params.tRise ∧ targetLow s.target r = true) →
        ∀ l, ∃ ds, ({ s with timing := .scripted ds } : State).lineLevel = l)) ∧
    s.pinRead.trace = { cycle := s.time, action := .read s.lineLevel } :: s.trace ∧
    (s.resetPin.mode = .output → s.resetLine = some s.resetPin.latch) ∧ (s.resetPin.mode = .input → s.resetLine = none)

/-! ### Bits -/

/-- R127: a poll is at most `budget` reads, each at least POLL_MIN cycles after the one before; it ends at the first read that
sees the level, and times out when none of `budget` reads does; a budget of 0 ends it at once. It moves nothing but time. -/
def Obligations.PollReadsTheLevel : Prop :=
  ∀ (want : Level) (budget : Nat) (s : State),
    WireOnly s (poll want budget s).2 ∧ (poll want budget s).2.signal = s.signal ∧
      (poll want budget s).2.frame = s.frame ∧ (poll want budget s).2.releasedAt = s.releasedAt ∧
      (newEvents s (poll want budget s).2).Pairwise (fun a b => a.cycle + s.params.pollMin ≤ b.cycle) ∧
      (budget = 0 → poll want budget s = (none, s)) ∧
      ((poll want budget s).1 = none → (newEvents s (poll want budget s).2).length = budget ∧
        ∀ e ∈ newEvents s (poll want budget s).2, ∃ l, l ≠ want ∧ e.action = .read l) ∧
      ∀ c, (poll want budget s).1 = some c → c = (poll want budget s).2.cc ∧
        ∃ (missed : List Event) (k : Nat), newEvents s (poll want budget s).2 = missed ++ [{ cycle := k, action := .read want }] ∧
          missed.length < budget ∧ ∀ e ∈ missed, ∃ l, l ≠ want ∧ e.action = .read l

/-- R128: `receive_bit` ends with the sampled level and the edge's cycle, which it also writes to the caller's cursor; or with
`ReadBitTimeout` after TIMEOUT reads that saw HIGH, the cursor as it was. Its events are the reads of that reception
(`Reception`): the edge's cycle is that of a `now()` from the read that saw LOW on, and the sample is the last read, at or after
the edge ⊕ T_HALF. It moves no pin. (The caller's cursor is a register of the model: log 17.) -/
def Obligations.ReceiveBitResult : Prop :=
  ∀ s : State, ∃ t, exec .receiveBit s = .next t ∧ NoPins (s.setCursor t.cursor) t ∧ t.im = s.im ∧
    ((t.result = some (.error .readBitTimeout) ∧ t.cursor = s.cursor ∧ Reception s.params (newEvents s t) none) ∨
      ∃ level : Level, t.result = some (.bit level t.cursor) ∧
        Reception s.params (newEvents s t) (some (level, t.cursor)))

/-- R81 under HARNESS timing: the receiver of one target bit whose edge comes at e reads it right exactly inside the window, and
with T_HALF = T_PERIOD div 2 both values are read right exactly when 2·T_SHORT < T_PERIOD. -/
def Obligations.ReceiveBitDecodes : Prop :=
  (∀ (s : State) (b : Bool) (e : Nat), s.Harness → s.signal.pulls = false → 0 < s.params.tShort →
      s.params.tShort < s.params.tPeriod → s.params.tHalf < 2 ^ (s.params.wCc - 1) → s.time ≤ e →
      e < s.time + s.params.timeout →
      (∀ t, s.time ≤ t → (targetLow s.target t = true ↔ bitLow s.params b e t)) →
      ∃ t level, exec .receiveBit s = .next t ∧ t.result = some (.bit level (wrap s.params e)) ∧
        t.cursor = wrap s.params e ∧ t.time = e + s.params.tHalf ∧
        (bitOf level = b ↔
          if b then s.params.tShort ≤ s.params.tHalf else s.params.tHalf < s.params.tPeriod - s.params.tShort)) ∧
    ∀ p : Params, p.tHalf = p.tPeriod / 2 →
      ((p.tShort ≤ p.tHalf ∧ p.tHalf < p.tPeriod - p.tShort) ↔ 2 * p.tShort < p.tPeriod)

/-- R128 under HARNESS timing: with no LOW in TIMEOUT reads the operation ends after TIMEOUT cycles with `ReadBitTimeout` and
leaves the caller's cursor; with TIMEOUT 0 it ends so at once. -/
def Obligations.ReceiveBitTimesOut : Prop :=
  ∀ s : State, s.Harness → s.signal.pulls = false →
    (∀ t, s.time ≤ t → t < s.time + s.params.timeout → targetLow s.target t = false) →
    ∃ t, exec .receiveBit s = .next t ∧ t.result = some (.error .readBitTimeout) ∧ t.cursor = s.cursor ∧
      t.time = s.time + s.params.timeout ∧ newReads s t = s.params.timeout ∧ t.signal = s.signal

/-- R125: the writes of `send_bit` in order, none before its cycle, whatever SIGNAL's mode is (log 21); the latch it leaves; and
nothing else changes. -/
def Obligations.SendBitWrites : Prop :=
  ∀ (start : Cycle) (prevZero b : Bool) (s : State), ∃ t, exec (.sendBit start prevZero b) s = .next t ∧
    Follows (bitPlan s.params start prevZero b) s t ∧
    t.signal = { s.signal with latch := if b then .high else .low } ∧ t.frame = s.frame ∧ WireOnly (s.reply .none) t

/-- R80, R125 under HARNESS timing: each edge of the bit is at its cycle. -/
def Obligations.SendBitWaveform : Prop :=
  ∀ (s : State) (start : Nat) (prevZero b : Bool), s.Harness → s.params.tShort < 2 ^ (s.params.wCc - 1) →
    s.time + (if prevZero then s.params.tShort else 0) ≤ start → start < s.time + 2 ^ (s.params.wCc - 1) →
    ∃ t, exec (.sendBit (wrap s.params start) prevZero b) s = .next t ∧
      newWrites s t = bitWaveform s.params start prevZero b ∧ t.time = start + if b then s.params.tShort else 0

/-- R126: `finish_frame` raises SIGNAL's latch, at or after its cycle, whatever SIGNAL's mode is (log 21), and changes nothing
else; under HARNESS timing it ends there. -/
def Obligations.FinishFrameRaises : Prop :=
  ∀ (last : Cycle) (s : State), ∃ t, exec (.finishFrame last) s = .next t ∧
    Follows [scheduled s.params .setHigh (plus s.params last (s.params.tPeriod - s.params.tShort))] s t ∧
    t.signal = { s.signal with latch := .high } ∧ t.frame = s.frame ∧ WireOnly (s.reply .none) t ∧
    0 ≤ sdiff s.params t.cc (plus s.params last (s.params.tPeriod - s.params.tShort)) ∧
    (s.Harness → sdiff s.params s.cc (plus s.params last (s.params.tPeriod - s.params.tShort)) ≤ 0 →
      t.cc = plus s.params last (s.params.tPeriod - s.params.tShort))

/-! ### Bytes -/

/-- R140: `send_byte` with n of 4 or 9 makes the writes of its frame, none before its cycle, leaves SIGNAL INPUT with its latch
HIGH, and then makes the reads of one reception (`Reception`), whose sample and edge it returns as the ACK bit, or
`ReadBitTimeout`. Nothing else changes, and no flag of the frame is left. -/
def Obligations.SendByteWrites : Prop :=
  ∀ (cursor : Cycle) (v : BitVec 16) (n : Nat) (s : State), n = 4 ∨ n = 9 →
    ∃ t r answer ack, exec (.sendByte cursor v n) s = .next t ∧ t.result = some r ∧
      newEvents s t = newWrites s t ++ answer ∧ Reception s.params answer ack ∧
      (ack = none ∧ r = .error .readBitTimeout ∨ ∃ level start, ack = some (level, start) ∧ r = .bit level start) ∧
      Follows (framePlan s.params v n cursor) s t ∧ t.signal = releasedPin ∧ t.frame = {} ∧ WireOnly (s.reply r) t

/-- R140, R141 under HARNESS timing: every edge of the frame is at its cycle, the host drives up to
cursor + (n + 1)·T_PERIOD − T_SHORT, and the ACK bit b that the target starts d cycles later is what is returned. -/
def Obligations.SendByteWaveform : Prop :=
  ∀ (s : State) (c d n : Nat) (v : BitVec 16) (b : Bool), s.Harness → n = 4 ∨ n = 9 → 0 < s.params.tShort →
    2 * s.params.tShort < s.params.tPeriod → s.params.tShort ≤ s.params.tHalf →
    s.params.tHalf < s.params.tPeriod - s.params.tShort → 2 * s.params.tPeriod < 2 ^ (s.params.wCc - 1) →
    s.time ≤ c → c < s.time + 2 ^ (s.params.wCc - 1) → d < s.params.timeout →
    (∀ t, frameEnd s.params n c ≤ t → t ≤ frameEnd s.params n c + d + s.params.tHalf →
      (targetLow s.target t = true ↔ bitLow s.params b (frameEnd s.params n c + d) t)) →
    ∃ t level, exec (.sendByte (wrap s.params c) v n) s = .next t ∧ bitOf level = b ∧
      t.result = some (.bit level (wrap s.params (frameEnd s.params n c + d))) ∧
      newWrites s t = sendByteWrites s.params v n s.time c ∧ t.time = frameEnd s.params n c + d + s.params.tHalf

/-- R140 under HARNESS timing: a target that does not answer gives `ReadBitTimeout`, TIMEOUT cycles after the frame, which was
sent whole. -/
def Obligations.SendByteUnanswered : Prop :=
  ∀ (s : State) (c n : Nat) (v : BitVec 16), s.Harness → n = 4 ∨ n = 9 → 0 < s.params.tShort →
    2 * s.params.tShort < s.params.tPeriod → 2 * s.params.tPeriod < 2 ^ (s.params.wCc - 1) → s.time ≤ c →
    c < s.time + 2 ^ (s.params.wCc - 1) →
    (∀ t, frameEnd s.params n c ≤ t → t < frameEnd s.params n c + s.params.timeout → targetLow s.target t = false) →
    ∃ t, exec (.sendByte (wrap s.params c) v n) s = .next t ∧ t.result = some (.error .readBitTimeout) ∧
      newWrites s t = sendByteWrites s.params v n s.time c ∧ t.time = frameEnd s.params n c + s.params.timeout ∧
      t.signal = releasedPin

/-- R146: the events of `receive_byte` and its answer (`ByteReceived`): consecutive receptions, each from the edge before it
⊕ T_RX_OFFSET on; `RxByteTimeout(i)` when i of them succeeded and the next timed out; `InvalidTargetId` for a first sample that is
not TARGET_START; else the byte of the eight data samples, or `ParityError` when the tenth is not their parity, after the host's
ACK or NACK bit at its cycle of R146. After a timeout or `InvalidTargetId` nothing has been sent, and SIGNAL is as it was.
Nothing else changes, and no flag of the frame is left. (For an ACK_LEVEL other than HIGH the host's bits are the model's: log 16.
The `now()` that R146 reads for the ACK comes a draw of cycles after the sample: log 8.) -/
def Obligations.ReceiveByteResult : Prop :=
  ∀ s : State, ∃ (t : State) (r : Except Error Byte), exec .receiveByte s = .next t ∧
    ByteReceived s.params r (newEvents s t) ∧
    t.result = some (match r with | .ok v => .byte v | .error e => .error e) ∧
    WireOnly (s.reply (match r with | .ok v => .byte v | .error e => .error e)) t ∧ (s.frame = {} → t.frame = {}) ∧
    ((((∃ v, r = .ok v) ∨ r = .error .parityError) ∧ t.signal = releasedPin) ∨
      (((∃ i, r = .error (.rxByteTimeout i)) ∨ r = .error .invalidTargetId) ∧ newWrites s t = [] ∧ t.signal = s.signal))

/-- R84, R146 under HARNESS timing: of a target frame with data byte v and parity bit q that starts at f, the byte is returned when
the XOR of its bits is q, and `ParityError` otherwise; the host's ACK or NACK bit (log 16) starts a bit period after the parity
bit, or by T_SETUP after the parity bit's sample where that is later (`turnaround`). -/
def Obligations.ReceiveByteFrame : Prop :=
  ∀ (s : State) (f : Nat) (v : Byte) (q : Bool), s.Harness → s.params.Ideal → s.signal.pulls = false → s.time ≤ f →
    f < s.time + s.params.timeout → (∀ t, s.time ≤ t → t < f → targetLow s.target t = false) →
    (∀ t, f ≤ t → t < f + 10 * s.params.tPeriod →
      (targetLow s.target t = true ↔ bitsLow s.params (targetFrame s.params v q) f t)) →
    ∃ t, exec .receiveByte s = .next t ∧
      t.result = some (if byteParity v = q then .byte v else .error .parityError) ∧
      newWrites s t =
        ackWrites s.params (ackBit s.params ((byteParity v).xor q)) (f + 9 * s.params.tPeriod + s.params.tHalf)
          (f + 9 * s.params.tPeriod + max s.params.tPeriod (s.params.tHalf + s.params.tSetup)) ∧
      t.time = f + 9 * s.params.tPeriod + max s.params.tPeriod (s.params.tHalf + s.params.tSetup) +
        (s.params.tPeriod - s.params.tShort) ∧
      t.signal = releasedPin

/-- R146 under HARNESS timing: with no edge in TIMEOUT reads, `RxByteTimeout(0)`; with a start bit other than TARGET_START,
`InvalidTargetId` right after its sample; either way nothing is sent. -/
def Obligations.ReceiveByteNoFrame : Prop :=
  ∀ s : State, s.Harness → s.signal.pulls = false → 0 < s.params.tShort → s.params.tShort ≤ s.params.tHalf →
    s.params.tHalf < s.params.tPeriod - s.params.tShort → s.params.tPeriod < 2 ^ (s.params.wCc - 1) →
    ((∀ t, s.time ≤ t → t < s.time + s.params.timeout → targetLow s.target t = false) →
      ∃ t, exec .receiveByte s = .next t ∧ t.result = some (.error (.rxByteTimeout 0)) ∧
        t.time = s.time + s.params.timeout ∧ newWrites s t = [] ∧ t.signal = s.signal) ∧
    ∀ f, s.time ≤ f → f < s.time + s.params.timeout →
      (∀ t, s.time ≤ t → t ≤ f + s.params.tHalf →
        (targetLow s.target t = true ↔ bitLow s.params (!s.params.targetStart) f t)) →
      ∃ t, exec .receiveByte s = .next t ∧ t.result = some (.error .invalidTargetId) ∧
        t.time = f + s.params.tHalf ∧ newWrites s t = [] ∧ t.signal = s.signal

/-! ### Commands -/

/-- R155, R158: `send_command` with a 3-bit id and a buffer that holds its payload sends the command frame once and then the
payload bytes in buffer order (`CommandRuns`), each frame scheduled by R157, to its end or to a payload byte answered by NACK (log
10); it never masks, and no memory changes. (A `now()` comes a draw of cycles after the event before it: log 8.) -/
def Obligations.SendCommandRuns : Prop :=
  ∀ (cmd : Byte) (len : Nat) (data : Buffer) (s : State), cmd.toNat < 8 → len ≤ data.size → Memory.wf s.mem →
    ∃ t, exec (.sendCommand cmd len data) s = .next t ∧ CommandFrame s t ∧ t.mem = s.mem ∧ t.im = s.im ∧
      t.signal = releasedPin ∧ (s.frame = {} → t.frame = {}) ∧
      CommandRuns s.clearReply t (sendCommandRegs (cmd.setWidth 3) len data none)

/-- R161 and R87's SRST: one command frame with CMD_SRST; `srst` does it between `enter_critical` and `leave_critical`, on every
exit; SRST does it alone (log 15). -/
def Obligations.SoftResetRuns : Prop :=
  ∀ s : State,
    (∃ t, exec .srst s = .next t ∧ CommandFrame s t ∧ t.mem = s.mem ∧ t.im = s.im ∧ t.signal = releasedPin ∧
        t.command = {} ∧ (s.frame = {} → t.frame = {}) ∧
        (t.result = some .ok ∨ t.result = some (.error .readBitTimeout) ∨ t.result = some (.error .nack)) ∧
        newActions s t =
          [.irqMask] ++ frameActions (commandFrameValue s.params s.params.cmdSrst) 4 ++ [.irqRestore s.im]) ∧
      ∃ t, exec .wireSrst s = .next t ∧ CommandFrame s t ∧ t.mem = s.mem ∧ t.im = s.im ∧ t.signal = releasedPin ∧
        t.command = {} ∧ (s.frame = {} → t.frame = {}) ∧
        (t.result = some .ok ∨ t.result = some (.error .readBitTimeout) ∨ t.result = some (.error .nack)) ∧
        newActions s t = frameActions (commandFrameValue s.params s.params.cmdSrst) 4

/-- R160 and R87's WOTF: `wotf` masks and then sends the command frame with CMD_WOTF and the 4 + L bytes of the buffer, L its first
byte, to its end or to a payload byte answered by NACK, where the step ends (log 10); WOTF does so without masking (log 15). The
buffer holds them. No memory changes. -/
def Obligations.WriteOnTheFlyRuns : Prop :=
  ∀ (data : Buffer) (s : State), Memory.wf s.mem → 4 + (Memory.read data.base s.mem).toNat ≤ data.size →
    (∃ t, exec (.wotf data) s = .next t ∧ CommandFrame s t ∧ t.mem = s.mem ∧ t.signal = releasedPin ∧
        (s.frame = {} → t.frame = {}) ∧ newActions s t = .irqMask :: newActions s.enterCritical t ∧
        CommandRuns s.enterCritical.clearReply t
          (sendCommandRegs s.params.cmdWotf (4 + (Memory.read data.base s.mem).toNat) data (some s.im))) ∧
      ∃ t, exec (.wireWotf data) s = .next t ∧ CommandFrame s t ∧ t.mem = s.mem ∧ t.im = s.im ∧
        t.signal = releasedPin ∧ (s.frame = {} → t.frame = {}) ∧
        CommandRuns s.clearReply t
          (sendCommandRegs s.params.cmdWotf (4 + (Memory.read data.base s.mem).toNat) data none)

/-- R159 and R87's ROTF: `rotf` masks, sends the command frame with CMD_ROTF and the descriptor's four bytes, and then makes L
receptions, L the descriptor's first byte, each stored before the next, up to the first error; or the step ends at a payload
byte answered by NACK (log 10). ROTF does so without masking (log 15). The bytes stored are those of the samples that were read,
on an error too (`CommandRuns`, `BytesReceived`), and only the first L bytes of `dest` can change. (For an ACK_LEVEL other than
HIGH the host's ACK and NACK bits are the model's: log 16.) -/
def Obligations.ReadOnTheFlyRuns : Prop :=
  ∀ (d dest : Buffer) (s : State), Memory.wf s.mem → 4 ≤ d.size → (Memory.read d.base s.mem).toNat ≤ dest.size →
    (∃ t, exec (.rotf d dest) s = .next t ∧ CommandFrame s t ∧ t.signal = releasedPin ∧
        (s.frame = {} → t.frame = {}) ∧ newActions s t = .irqMask :: newActions s.enterCritical t ∧
        (∀ a, (a < dest.base ∨ dest.base + (Memory.read d.base s.mem).toNat ≤ a) →
          Memory.read a t.mem = Memory.read a s.mem) ∧
        CommandRuns s.enterCritical.clearReply t
          { sendCommandRegs s.params.cmdRotf 4 d (some s.im) with
            rxLen := (Memory.read d.base s.mem).toNat, dest := dest }) ∧
      ∃ t, exec (.wireRotf d dest) s = .next t ∧ CommandFrame s t ∧ t.im = s.im ∧ t.signal = releasedPin ∧
        (s.frame = {} → t.frame = {}) ∧
        (∀ a, (a < dest.base ∨ dest.base + (Memory.read d.base s.mem).toNat ≤ a) →
          Memory.read a t.mem = Memory.read a s.mem) ∧
        CommandRuns s.clearReply t
          { sendCommandRegs s.params.cmdRotf 4 d none with
            rxLen := (Memory.read d.base s.mem).toNat, dest := dest }

/-- R232, D37, I7: an access past a caller buffer is stuck: a fault of the model (log 14). So is the read of the first byte of an
empty buffer; the read of payload byte i of a buffer of i bytes or fewer, where the sequencer stands at that byte (log 10); the
store of a byte that was received good past the end of `dest`, under HARNESS timing: in a run of `rotf` or ROTF (log 15) against a
target that acknowledges the five host frames and sends one good frame more than `dest` holds, and where the sequencer stands at
that reception. No operation whose payload or received bytes do not fit their buffer ever returns `Ok`, nor does it when it goes on
after a NACK. -/
def Obligations.AccessPastBufferIsStuck : Prop :=
  (∀ (d dest : Buffer) (s : State), d.size = 0 →
      exec (.rotf d dest) s = .fault .readPastBuffer ∧ exec (.wireRotf d dest) s = .fault .readPastBuffer ∧
        exec (.wotf d) s = .fault .readPastBuffer ∧ exec (.wireWotf d) s = .fault .readPastBuffer) ∧
    (∀ (s : State) (i : Nat), s.command.pos = .payload i → i < s.command.len → s.command.data.size ≤ i →
      step s = .fault .readPastBuffer) ∧
    (∀ (s : State) (d dest : Buffer) (vs : List Byte) (delay gap f : Nat),
      ReadScenario s d vs delay gap f → dest.size + 1 = vs.length → vs.length ≤ (Memory.read d.base s.mem).toNat →
      exec (.rotf d dest) s = .fault .writePastBuffer ∧ exec (.wireRotf d dest) s = .fault .writePastBuffer) ∧
    (∀ (s : State) (j f : Nat) (v : Byte), s.command.pos = .rx j → j < s.command.rxLen → s.command.dest.size ≤ j →
      s.Harness → s.params.Ideal → s.signal.pulls = false → s.time ≤ f → f < s.time + s.params.timeout →
      (∀ t, s.time ≤ t → t < f + 10 * s.params.tPeriod →
        (targetLow s.target t = true ↔ bitsLow s.params (targetFrame s.params v (byteParity v)) f t)) →
      step s = .fault .writePastBuffer) ∧
    (∀ (i : Instr) (s t : State) (d dest : Buffer) (cmd : Byte) (len : Nat),
      (i = .sendCommand cmd len d ∧ d.size < len) ∨
          ((i = .wotf d ∨ i = .wireWotf d) ∧ d.size < 4 + (Memory.read d.base s.mem).toNat) ∨
          ((i = .rotf d dest ∨ i = .wireRotf d dest) ∧
            (d.size < 4 ∨ dest.size < (Memory.read d.base s.mem).toNat)) →
      exec i s = .next t → t.result ≠ some .ok) ∧
    ∀ (s t : State) (i : Nat), s.command.pos = .payload i → s.result ≠ some .ok →
      (i < s.command.len ∧ s.command.data.size < s.command.len) ∨ s.command.dest.size < s.command.rxLen →
      step s = .next t → t.result ≠ some .ok

/-- R156: from a payload byte i that was answered by NACK the next step sends byte i again, with the same value, scheduled from the
start of that NACK bit (R157), and goes on as the sequencer does (`RunsOn`): it does not advance. That a step ends at such a byte
is the model's choice (log 10). (For an ACK_LEVEL other than HIGH the host's ACK and NACK bits of the receptions that may follow
are the model's: log 16.) -/
def Obligations.NackedByteIsSentAgain : Prop :=
  ∀ (s : State) (i : Nat), s.command.pos = .payload i → i < s.command.len → s.command.len ≤ s.command.data.size →
    s.command.rxLen ≤ s.command.dest.size → Memory.wf s.mem →
    ∃ t, step s = .next t ∧ CommandFrame s t ∧ t.signal = releasedPin ∧ (s.frame = {} → t.frame = {}) ∧
      RunsOn s t s.command [] s.command.ackStart s.time i

/-- R98, R162: an entry point is its wire transaction (log 15) between `enter_critical` and `leave_critical`, held over a step that
ends at a payload byte answered by NACK (log 10), and the wire transactions SRST and WOTF are `send_command` with their
operands. -/
def Obligations.EntryPointsAreBracketedTransactions : Prop :=
  (∀ (s : State) (d dest : Buffer) (e w : Instr),
      ((e, w) = (.srst, .wireSrst) ∨ (e, w) = (.rotf d dest, .wireRotf d dest) ∨ (e, w) = (.wotf d, .wireWotf d)) →
      exec e s = (match exec w s.enterCritical with
        | .next t => .next (insideCritical s.im t)
        | .fault f => .fault f
        | .refused r => .refused r)) ∧
    (∀ s : State, exec .wireSrst s = exec (.sendCommand (s.params.cmdSrst.setWidth 8) 0 { base := 0, size := 0 }) s) ∧
    (∀ (s : State) (data : Buffer), 0 < data.size →
      exec (.wireWotf data) s =
        exec (.sendCommand (s.params.cmdWotf.setWidth 8) (4 + (Memory.read data.base s.mem).toNat) data) s) ∧
    ∀ (s : State) (saved : IrqMask), s.command.saved = none → s.command.pos ≠ .idle →
      step (s.setCommand { s.command with saved := some saved }) = (match step s with
        | .next t => .next (insideCritical saved t)
        | .fault f => .fault f
        | .refused r => .refused r)

/-- R158 under HARNESS timing: against a target that starts an ACK bit d cycles after each host frame, `send_command` sends exactly
1 + len frames, each at the cycle of R157, a payload frame a bit period after the ACK bit before it or by T_SETUP after that bit's
sample (`turnaround`), and returns `Ok(0)`. -/
def Obligations.SendCommandAcknowledged : Prop :=
  ∀ (s : State) (cmd : Byte) (len d : Nat) (data : Buffer), s.Harness → s.params.Ideal → cmd.toNat < 8 →
    len ≤ data.size → d < s.params.timeout →
    (∀ t, frameEnd s.params 4 (s.time + s.params.tSetup) ≤ t →
      t ≤ frameEnd s.params 4 (s.time + s.params.tSetup) + d + len * byteFrameSpan s.params d + s.params.tHalf →
      (targetLow s.target t = true ↔
        acksLow s.params (byteFrameSpan s.params d) (frameEnd s.params 4 (s.time + s.params.tSetup) + d) (len + 1) t)) →
    ∃ t, exec (.sendCommand cmd len data) s = .next t ∧ t.result = some .ok ∧ t.command = {} ∧ t.im = s.im ∧
      t.mem = s.mem ∧
      newWrites s t =
        sendByteWrites s.params (commandFrameValue s.params (cmd.setWidth 3)) 4 s.time (s.time + s.params.tSetup) ++
          payloadWaveform s.params s.mem data (byteFrameSpan s.params d)
            (frameEnd s.params 4 (s.time + s.params.tSetup) + d) 0 len ∧
      t.time = frameEnd s.params 4 (s.time + s.params.tSetup) + d + len * byteFrameSpan s.params d + s.params.tHalf

/-- R155 under HARNESS timing: a target that answers NACK to the command frame ends `send_command` with `Nack` right after the
sample; no payload byte is sent, whatever the payload. -/
def Obligations.CommandFrameNacked : Prop :=
  ∀ (s : State) (cmd : Byte) (len d : Nat) (data : Buffer), s.Harness → s.params.Ideal → cmd.toNat < 8 →
    d < s.params.timeout →
    (∀ t, frameEnd s.params 4 (s.time + s.params.tSetup) ≤ t →
      t ≤ frameEnd s.params 4 (s.time + s.params.tSetup) + d + s.params.tHalf →
      (targetLow s.target t = true ↔
        bitLow s.params (!bitOf s.params.ackLevel) (frameEnd s.params 4 (s.time + s.params.tSetup) + d) t)) →
    ∃ t, exec (.sendCommand cmd len data) s = .next t ∧ t.result = some (.error .nack) ∧ t.command = {} ∧ t.im = s.im ∧
      t.mem = s.mem ∧
      newWrites s t =
        sendByteWrites s.params (commandFrameValue s.params (cmd.setWidth 3)) 4 s.time (s.time + s.params.tSetup) ∧
      t.time = frameEnd s.params 4 (s.time + s.params.tSetup) + d + s.params.tHalf

/-- R159 under HARNESS timing: against a target that acknowledges the five host frames and then sends L frames with good parity, the
first at f, `rotf` stores exactly the bytes sent, in order, restores IM and returns `Ok(0)`. ACK is HIGH, so that the line is
HIGH again when the first reception begins (R226). -/
def Obligations.ReadOnTheFlyReceives : Prop :=
  ∀ (s : State) (d dest : Buffer) (vs : List Byte) (delay gap f : Nat), ReadScenario s d vs delay gap f → Memory.wf s.mem →
    (Memory.read d.base s.mem).toNat = vs.length → vs.length ≤ dest.size →
    ∃ t, exec (.rotf d dest) s = .next t ∧ t.result = some .ok ∧ t.command = {} ∧ t.im = s.im ∧
      Stored s.mem t.mem dest.base vs ∧
      newActions s t =
        [.irqMask] ++ frameActions (commandFrameValue s.params s.params.cmdRotf) 4 ++
          payloadActions s.params s.mem d 0 4 ++ acksActions s.params vs.length ++ [.irqRestore s.im]

/-- R156, I10 under HARNESS timing: against a target that answers NACK to every payload frame the machine still stands at the same
byte after any number of steps, has sent it once a step (log 10), and IM is as it was: the run never ends. -/
def Obligations.NackForeverNeverEnds : Prop :=
  ∀ (s : State) (i a d : Nat), s.Harness → s.params.Ideal → s.command.pos = .payload i → i < s.command.len →
    s.command.len ≤ s.command.data.size → s.command.rxLen ≤ s.command.dest.size →
    s.command.ackStart = wrap s.params a → s.time = a + s.params.tHalf → d < s.params.timeout →
    (∀ t, a + s.params.tPeriod ≤ t →
      (targetLow s.target t = true ↔
        ∃ j, bitLow s.params (!bitOf s.params.ackLevel) (a + (j + 1) * byteFrameSpan s.params d) t)) →
    ∀ n, ∃ run : Nat → State, run 0 = s ∧
      ∀ k, k < n → step (run k) = .next (run (k + 1)) ∧ (run (k + 1)).command.pos = .payload i ∧
        (run (k + 1)).im = s.im ∧
        newActions (run k) (run (k + 1)) =
          frameActions (byteFrameValue s.params (Memory.read (s.command.data.base + i) s.mem)) 9

/-- R222: against a target that never drives, on a line with no rise time, every command ends with `ReadBitTimeout` from the ACK of
its command frame, over every timing: that frame is all it sends, inside a critical section for `srst`, `rotf` and `wotf` and
without one otherwise (log 15 for the wire commands), and the mask is as the caller left it. No byte of a payload is read then, but
for the length byte that `rotf` and `wotf` begin with, and so the buffers need hold no more than that. -/
def Obligations.SilentTargetTimesOut : Prop :=
  ∀ (i : Instr) (s : State) (d dest : Buffer) (cmd : Byte) (len : Nat) (id : BitVec 3) (masks : Bool),
    s.params.tRise = 0 → (∀ t, targetLow s.target t = false) →
    (((i, id, masks) = (.srst, s.params.cmdSrst, true) ∨ (i, id, masks) = (.wireSrst, s.params.cmdSrst, false)) ∨
      (0 < d.size ∧
        ((i, id, masks) = (.rotf d dest, s.params.cmdRotf, true) ∨ (i, id, masks) = (.wireRotf d dest, s.params.cmdRotf, false) ∨
          (i, id, masks) = (.wotf d, s.params.cmdWotf, true) ∨ (i, id, masks) = (.wireWotf d, s.params.cmdWotf, false))) ∨
      (cmd.toNat < 8 ∧ (i, id, masks) = (.sendCommand cmd len d, cmd.setWidth 3, false))) →
    ∃ t, exec i s = .next t ∧ t.result = some (.error .readBitTimeout) ∧ t.command = {} ∧ t.im = s.im ∧ t.mem = s.mem ∧
      newActions s t =
        (if masks then [.irqMask] else []) ++ frameActions (commandFrameValue s.params id) 4 ++
          (if masks then [.irqRestore s.im] else [])

/-! ### Entry and reset -/

/-- R175, R178, R180: `swim_entry` makes the writes of its state machine, none before its cycle: the train, and then one mask, the
release and one restore of the caller's mask, on every exit. The schedule starts at a `now()` from the cycle at which DRIVE_LOW
turned SIGNAL to OUTPUT on, before the train's first toggle. It leaves SIGNAL INPUT with the latch of the train's last toggle.
Its answer is that of its reads (`EntryRead`), which all come after the release: `SyncTimeout1` exactly when ENTRY_TIMEOUT_A reads
saw no LOW; `SyncTimeout2` exactly when a LOW was read within that budget and ENTRY_TIMEOUT_B reads after it saw no HIGH; and else
`Ok(tr ⊖ tf)` with tf and tr the cycles of a `now()` at or after the two reads, after SETTLE. Nothing else changes. -/
def Obligations.SwimEntryRuns : Prop :=
  ∀ s : State, ∃ t, exec .swimEntry s = .next t ∧ EntryFrame s t ∧
    (∃ (low out : Event) (rest : List Event) (n : Nat), newWrites s t = low :: out :: rest ∧ out.cycle ≤ n ∧
      (∀ e ∈ rest, n ≤ e.cycle) ∧ Follows (entryPlan s.params (wrap s.params n) s.im) s t) ∧
    t.entry = {} ∧ t.signal = { mode := .input, latch := if toggles s.params % 2 = 0 then .low else .high } ∧
    (∀ d, t.result = some (.duration d) → d < 2 ^ s.params.wCc) ∧
    ∃ r, t.result = some r ∧ EntryRead s.params s.im t.time r (newEvents s t)

/-- R177, R179, R180 under HARNESS timing: with an answer that falls at f and rises at r, each inside its budget, every event is at
the cycle of R177, the result is `Ok(r − f)`, and the operation ends T_SETTLE after the rise. -/
def Obligations.SwimEntryMeasures : Prop :=
  ∀ (s : State) (f r : Nat), s.Harness → cyc s.params s.params.tEntryLowUs < 2 ^ (s.params.wCc - 1) →
    cyc s.params s.params.tToggle1kUs < 2 ^ (s.params.wCc - 1) → cyc s.params s.params.tToggle2kUs < 2 ^ (s.params.wCc - 1) →
    s.params.tSettle < 2 ^ (s.params.wCc - 1) → releaseCycle s.params s.time ≤ f →
    f < releaseCycle s.params s.time + s.params.entryTimeoutA → f < r → r < f + s.params.entryTimeoutB →
    r < f + 2 ^ s.params.wCc →
    (∀ t, releaseCycle s.params s.time ≤ t → t ≤ r → (targetLow s.target t = true ↔ f ≤ t ∧ t < r)) →
    ∃ t, exec .swimEntry s = .next t ∧ t.result = some (.duration (r - f)) ∧ t.time = r + s.params.tSettle ∧
      newWrites s t = entryWaveform s.params s.time r s.im ∧ t.im = s.im

/-- R180, R200 under HARNESS timing: with no fall in ENTRY_TIMEOUT_A reads, `SyncTimeout1`; with a fall and no rise in
ENTRY_TIMEOUT_B reads, `SyncTimeout2`; the mask is restored, and there is no SETTLE. -/
def Obligations.SwimEntryTimesOut : Prop :=
  ∀ s : State, s.Harness → cyc s.params s.params.tEntryLowUs < 2 ^ (s.params.wCc - 1) →
    cyc s.params s.params.tToggle1kUs < 2 ^ (s.params.wCc - 1) → cyc s.params s.params.tToggle2kUs < 2 ^ (s.params.wCc - 1) →
    ((∀ t, releaseCycle s.params s.time ≤ t → t < releaseCycle s.params s.time + s.params.entryTimeoutA →
        targetLow s.target t = false) →
      ∃ t, exec .swimEntry s = .next t ∧ t.result = some (.error .syncTimeout1) ∧ t.im = s.im ∧
        t.time = releaseCycle s.params s.time + s.params.entryTimeoutA ∧
        newWrites s t =
          entryWaveform s.params s.time (releaseCycle s.params s.time + s.params.entryTimeoutA) s.im) ∧
    ∀ f, releaseCycle s.params s.time ≤ f → f < releaseCycle s.params s.time + s.params.entryTimeoutA →
      (∀ t, releaseCycle s.params s.time ≤ t → t < f + max 1 s.params.entryTimeoutB →
        (targetLow s.target t = true ↔ f ≤ t)) →
      ∃ t, exec .swimEntry s = .next t ∧ t.result = some (.error .syncTimeout2) ∧ t.im = s.im ∧
        t.time = f + s.params.entryTimeoutB ∧
        newWrites s t = entryWaveform s.params s.time (f + s.params.entryTimeoutB) s.im

/-- R177: the schedule of the train in closed form, and with R10's counts and intervals the release 3016 µs after t0. R176: the
watchdog service in each interval moves no pin and writes no state of the block; it is one event, and takes any number of cycles,
whatever IM is. -/
def Obligations.PulseTrainSchedule : Prop :=
  (∀ (p : Params) (t0 : Cycle),
      trainPlan p (toggles p) 1 (plus p t0 (cyc p p.tEntryLowUs)) true =
        (List.range (toggles p)).flatMap fun j =>
          [scheduled p (if j % 2 = 0 then .setHigh else .setLow)
              (plus p t0 (cyc p p.tEntryLowUs + ((List.range j).map fun i => toggleInterval p (i + 1)).sum)),
            unscheduled .watchdog]) ∧
    (∀ (p : Params) (t0 : Nat), p.tEntryLowUs = 16 → p.nToggle1k = 4 → p.nToggle2k = 4 → p.tToggle1kUs = 500 →
      p.tToggle2kUs = 250 →
      (List.range' 1 8).map (toggleCycle p t0) =
          [16, 516, 1016, 1516, 2016, 2266, 2516, 2766].map (fun us => t0 + cyc p us) ∧
        releaseCycle p t0 = t0 + cyc p 3016) ∧
    ∀ s : State, NoPins s s.wdtService ∧ s.wdtService.im = s.im ∧ s.wdtService.result = s.result ∧
      newActions s s.wdtService = [.watchdog] ∧
      ∀ n, ∃ ds, (({ s with timing := .scripted ds } : State).wdtService).time = s.time + n

/-- R185: the three meanings of `reset(mode)`, the latch written before the direction, and nothing else. -/
def Obligations.ResetModes : Prop :=
  ∀ (mode : Byte) (s : State), ∃ t, exec (.reset mode) s = .next t ∧ t.result = some .none ∧ ResetOnly s t ∧
    (if mode = s.params.resetRelease then
      t.resetPin = { s.resetPin with mode := .input } ∧ newActions s t = [.pin .reset .setInput]
    else if mode ≠ 0#8 then
      t.resetPin = { mode := .output, latch := .low } ∧
        newActions s t = [.pin .reset .setLow, .pin .reset .setOutput]
    else
      t.resetPin = { mode := .output, latch := .high } ∧
        newActions s t = [.pin .reset .setHigh, .pin .reset .setOutput])

/-- R186: `init` leaves RESET OUTPUT HIGH, the latch written first, and touches nothing else; it is `reset(0)`. -/
def Obligations.InitDrivesReset : Prop :=
  ∀ s : State, ∃ t, exec .init s = .next t ∧ t.result = some .none ∧ ResetOnly s t ∧
    t.resetPin = { mode := .output, latch := .high } ∧
    newActions s t = [.pin .reset .setHigh, .pin .reset .setOutput] ∧
    (s.params.resetRelease ≠ 0#8 → exec (.reset 0#8) s = exec .init s)

/-! ### The machine -/

/-- A step takes the first waiting call and runs the operation it names, when none is in progress. The queue of calls is the
model's (log 11). -/
def Obligations.StepRunsTheDecodedCall : Prop :=
  ∀ (s : State) (m rest : List Byte) (q : List (List Byte)) (i : Instr), s.command.pos = .idle → s.entry.pos = .idle →
    s.calls = m :: q → decode m = .ok (i, rest) → i.wellFormed = true → step s = exec i (s.setCalls q)

/-- With no call waiting and no operation in progress a step only lets time pass (log 11). -/
def Obligations.IdleStepOnlyWaits : Prop :=
  ∀ s : State, s.command.pos = .idle → s.entry.pos = .idle → s.calls = [] →
    ∃ t, step s = .next t ∧ NoPins s t ∧ t.im = s.im ∧ t.trace = s.trace ∧ t.result = s.result

/-- Every step keeps the machine's invariant (R40, R43, R49, R71, R162). That a command in progress stands at a payload byte between
steps is the model's step (log 10), and that memory is in its canonical form its representation of memory (log 13). -/
def Obligations.StepKeepsInvariant : Prop := ∀ s t : State, s.Inv → step s = .next t → t.Inv

/-- The state after power-on meets the invariant. -/
def Obligations.ResetMeetsInvariant : Prop := State.reset.Inv

/-- R47, R220: the power-on values the spec gives, and the limits of R10, R225 and R227 on the parameters (log 2); then `init`
leaves RESET OUTPUT HIGH. -/
def Obligations.PowerOnState : Prop :=
  State.reset.signal.mode = .input ∧ State.reset.resetPin.mode = .input ∧ State.reset.im = .unmasked ∧
    State.reset.params = Config.params ∧ Config.params.Valid ∧ State.reset.frame = {} ∧ State.reset.entry.pos = .idle ∧
    State.reset.command.pos = .idle ∧ State.reset.result = none ∧ State.reset.trace = [] ∧
    ∃ t, exec .init State.reset = .next t ∧ t.resetPin = { mode := .output, latch := .high } ∧
      t.signal = State.reset.signal ∧ t.im = .unmasked ∧ t.params = Config.params

/-- R38, R50: no step writes TIMEOUT or any other parameter, nor the target's drive. -/
def Obligations.ParametersNeverChange : Prop :=
  ∀ s t : State, step s = .next t → t.params = s.params ∧ t.target = s.target

/-- R50: only `reset` and `init` write RESET: no other operation does, over all the steps it takes (log 10), nor does a step that
resumes one. -/
def Obligations.OnlyResetAndInitWriteReset : Prop :=
  (∀ (i : Instr) (s t : State) (n : Nat), i ≠ .init → (∀ mode, i ≠ .reset mode) → OperationReaches i s n t →
      t.resetPin = s.resetPin) ∧
    ∀ s t : State, s.command.pos ≠ .idle → step s = .next t → t.resetPin = s.resetPin

/-- R50, R200, R205: but for `enter_critical` and `leave_critical`, an operation that has returned leaves IM as its caller had
it, over all the steps it takes (log 10). A step that resumes a command restores the mask the command saved, if it saved one, when
the command returns, and keeps IM and the saved mask when it does not. -/
def Obligations.OperationsRestoreTheMask : Prop :=
  (∀ (i : Instr) (s t : State) (n : Nat), i ≠ .enterCritical → (∀ im, i ≠ .leaveCritical im) → s.command.pos = .idle →
      OperationReaches i s n t → t.command.pos = .idle → t.im = s.im) ∧
    ∀ s t : State, s.command.pos ≠ .idle → step s = .next t →
      (t.command.pos = .idle → t.im = s.command.saved.getD s.im) ∧
        (t.command.pos ≠ .idle → t.im = s.im ∧ t.command.saved = s.command.saved)

/-- R60, R65: only `rotf` and ROTF write caller memory: no other operation does, over all the steps it takes (log 10). A step that
resumes a command with nothing to receive writes none, and one that resumes a read writes no byte outside its destination. -/
def Obligations.OnlyReadsWriteMemory : Prop :=
  (∀ (i : Instr) (s t : State), (∀ d dest, i ≠ .rotf d dest) → (∀ d dest, i ≠ .wireRotf d dest) → exec i s = .next t →
      t.mem = s.mem) ∧
    (∀ (i : Instr) (s t : State) (n : Nat), (∀ d dest, i ≠ .rotf d dest) → (∀ d dest, i ≠ .wireRotf d dest) →
      s.command.pos = .idle → OperationReaches i s n t → t.mem = s.mem) ∧
    ∀ s t : State, s.command.pos ≠ .idle → step s = .next t →
      (s.command.rxLen = 0 → t.mem = s.mem) ∧
        (Memory.wf s.mem → ∀ a, (a < s.command.dest.base ∨ s.command.dest.base + s.command.rxLen ≤ a) →
          Memory.read a t.mem = Memory.read a s.mem)

/-- R71: in every step time does not run back, no event is lost, and the new events come in order. -/
def Obligations.StepsRunForward : Prop := ∀ s t : State, step s = .next t → Forward s t

/-- R96: the numeric codes, and that no two errors share one. R95, R179: the integer the dispatcher gets for a reply is 0 for `Ok`,
a byte's value, a duration itself where it is below 2^(W_CC−1), and an error's code; and with the default codes it is negative
exactly for the errors. -/
def Obligations.ErrorCodesAreDistinct : Prop :=
  Error.code {} .readBitTimeout = -1 ∧ Error.code {} .invalidTargetId = -2 ∧ Error.code {} .parityError = -3 ∧
    Error.code {} .nack = -4 ∧ Error.code {} .syncTimeout1 = -5 ∧ Error.code {} .syncTimeout2 = -6 ∧
    (∀ (c : ErrorCodes) (i : Fin 10), Error.code c (.rxByteTimeout i) = -((i.val : Int) + 20)) ∧
    (∀ e f : Error, Error.code {} e = Error.code {} f → e = f) ∧ (∀ e : Error, Error.code {} e < 0) ∧
    (∀ p : Params, Reply.code p .ok = some 0 ∧ (∀ v : Byte, Reply.code p (.byte v) = some v.toNat) ∧
      (∀ d, d < 2 ^ (p.wCc - 1) → Reply.code p (.duration d) = some d) ∧
      ∀ e : Error, Reply.code p (.error e) = some (e.code p.errors)) ∧
    ∀ (p : Params) (r : Reply) (n : Int), p.errors = {} → Reply.code p r = some n →
      (∀ d, r = .duration d → d < 2 ^ (p.wCc - 1)) → (n < 0 ↔ ∃ e, r = .error e)
end

