-- ==== Sys2Proof/Laws/State.lean ====
section
/-!
SUPPORT. Laws/State.lean: what each update of the state leaves alone and what it sets, one lemma per field, so that no later
proof unfolds a record update.
-/

namespace Sys2Proof.Machine

open Sys2Proof

/-! ### Time, events and draws -/

@[simp] theorem State.advance_signal (n : Nat) (s : State) : (s.advance n).signal = s.signal := rfl
@[simp] theorem State.advance_resetPin (n : Nat) (s : State) : (s.advance n).resetPin = s.resetPin := rfl
@[simp] theorem State.advance_im (n : Nat) (s : State) : (s.advance n).im = s.im := rfl
@[simp] theorem State.advance_params (n : Nat) (s : State) : (s.advance n).params = s.params := rfl
@[simp] theorem State.advance_mem (n : Nat) (s : State) : (s.advance n).mem = s.mem := rfl
@[simp] theorem State.advance_cursor (n : Nat) (s : State) : (s.advance n).cursor = s.cursor := rfl
@[simp] theorem State.advance_frame (n : Nat) (s : State) : (s.advance n).frame = s.frame := rfl
@[simp] theorem State.advance_entry (n : Nat) (s : State) : (s.advance n).entry = s.entry := rfl
@[simp] theorem State.advance_command (n : Nat) (s : State) : (s.advance n).command = s.command := rfl
@[simp] theorem State.advance_result (n : Nat) (s : State) : (s.advance n).result = s.result := rfl
@[simp] theorem State.advance_calls (n : Nat) (s : State) : (s.advance n).calls = s.calls := rfl
@[simp] theorem State.advance_trace (n : Nat) (s : State) : (s.advance n).trace = s.trace := rfl
@[simp] theorem State.advance_releasedAt (n : Nat) (s : State) : (s.advance n).releasedAt = s.releasedAt := rfl
@[simp] theorem State.advance_target (n : Nat) (s : State) : (s.advance n).target = s.target := rfl
@[simp] theorem State.advance_timing (n : Nat) (s : State) : (s.advance n).timing = s.timing := rfl
@[simp] theorem State.advance_drawn (n : Nat) (s : State) : (s.advance n).drawn = s.drawn := rfl

@[simp] theorem State.advance_time (n : Nat) (s : State) : (s.advance n).time = s.time + n := rfl

@[simp] theorem State.log_signal (a : Action) (s : State) : (s.log a).signal = s.signal := rfl
@[simp] theorem State.log_resetPin (a : Action) (s : State) : (s.log a).resetPin = s.resetPin := rfl
@[simp] theorem State.log_time (a : Action) (s : State) : (s.log a).time = s.time := rfl
@[simp] theorem State.log_im (a : Action) (s : State) : (s.log a).im = s.im := rfl
@[simp] theorem State.log_params (a : Action) (s : State) : (s.log a).params = s.params := rfl
@[simp] theorem State.log_mem (a : Action) (s : State) : (s.log a).mem = s.mem := rfl
@[simp] theorem State.log_cursor (a : Action) (s : State) : (s.log a).cursor = s.cursor := rfl
@[simp] theorem State.log_frame (a : Action) (s : State) : (s.log a).frame = s.frame := rfl
@[simp] theorem State.log_entry (a : Action) (s : State) : (s.log a).entry = s.entry := rfl
@[simp] theorem State.log_command (a : Action) (s : State) : (s.log a).command = s.command := rfl
@[simp] theorem State.log_result (a : Action) (s : State) : (s.log a).result = s.result := rfl
@[simp] theorem State.log_calls (a : Action) (s : State) : (s.log a).calls = s.calls := rfl
@[simp] theorem State.log_releasedAt (a : Action) (s : State) : (s.log a).releasedAt = s.releasedAt := rfl
@[simp] theorem State.log_target (a : Action) (s : State) : (s.log a).target = s.target := rfl
@[simp] theorem State.log_timing (a : Action) (s : State) : (s.log a).timing = s.timing := rfl
@[simp] theorem State.log_drawn (a : Action) (s : State) : (s.log a).drawn = s.drawn := rfl

@[simp] theorem State.log_trace (a : Action) (s : State) :
    (s.log a).trace = { cycle := s.time, action := a } :: s.trace := rfl

@[simp] theorem State.setIm_signal (x : IrqMask) (s : State) : (s.setIm x).signal = s.signal := rfl
@[simp] theorem State.setIm_resetPin (x : IrqMask) (s : State) : (s.setIm x).resetPin = s.resetPin := rfl
@[simp] theorem State.setIm_time (x : IrqMask) (s : State) : (s.setIm x).time = s.time := rfl
@[simp] theorem State.setIm_params (x : IrqMask) (s : State) : (s.setIm x).params = s.params := rfl
@[simp] theorem State.setIm_mem (x : IrqMask) (s : State) : (s.setIm x).mem = s.mem := rfl
@[simp] theorem State.setIm_cursor (x : IrqMask) (s : State) : (s.setIm x).cursor = s.cursor := rfl
@[simp] theorem State.setIm_frame (x : IrqMask) (s : State) : (s.setIm x).frame = s.frame := rfl
@[simp] theorem State.setIm_entry (x : IrqMask) (s : State) : (s.setIm x).entry = s.entry := rfl
@[simp] theorem State.setIm_command (x : IrqMask) (s : State) : (s.setIm x).command = s.command := rfl
@[simp] theorem State.setIm_result (x : IrqMask) (s : State) : (s.setIm x).result = s.result := rfl
@[simp] theorem State.setIm_calls (x : IrqMask) (s : State) : (s.setIm x).calls = s.calls := rfl
@[simp] theorem State.setIm_trace (x : IrqMask) (s : State) : (s.setIm x).trace = s.trace := rfl
@[simp] theorem State.setIm_releasedAt (x : IrqMask) (s : State) : (s.setIm x).releasedAt = s.releasedAt := rfl
@[simp] theorem State.setIm_target (x : IrqMask) (s : State) : (s.setIm x).target = s.target := rfl
@[simp] theorem State.setIm_timing (x : IrqMask) (s : State) : (s.setIm x).timing = s.timing := rfl
@[simp] theorem State.setIm_drawn (x : IrqMask) (s : State) : (s.setIm x).drawn = s.drawn := rfl

@[simp] theorem State.setIm_im (x : IrqMask) (s : State) : (s.setIm x).im = x := rfl

@[simp] theorem State.setFrame_signal (x : FrameRegs) (s : State) : (s.setFrame x).signal = s.signal := rfl
@[simp] theorem State.setFrame_resetPin (x : FrameRegs) (s : State) : (s.setFrame x).resetPin = s.resetPin := rfl
@[simp] theorem State.setFrame_time (x : FrameRegs) (s : State) : (s.setFrame x).time = s.time := rfl
@[simp] theorem State.setFrame_im (x : FrameRegs) (s : State) : (s.setFrame x).im = s.im := rfl
@[simp] theorem State.setFrame_params (x : FrameRegs) (s : State) : (s.setFrame x).params = s.params := rfl
@[simp] theorem State.setFrame_mem (x : FrameRegs) (s : State) : (s.setFrame x).mem = s.mem := rfl
@[simp] theorem State.setFrame_cursor (x : FrameRegs) (s : State) : (s.setFrame x).cursor = s.cursor := rfl
@[simp] theorem State.setFrame_entry (x : FrameRegs) (s : State) : (s.setFrame x).entry = s.entry := rfl
@[simp] theorem State.setFrame_command (x : FrameRegs) (s : State) : (s.setFrame x).command = s.command := rfl
@[simp] theorem State.setFrame_result (x : FrameRegs) (s : State) : (s.setFrame x).result = s.result := rfl
@[simp] theorem State.setFrame_calls (x : FrameRegs) (s : State) : (s.setFrame x).calls = s.calls := rfl
@[simp] theorem State.setFrame_trace (x : FrameRegs) (s : State) : (s.setFrame x).trace = s.trace := rfl
@[simp] theorem State.setFrame_releasedAt (x : FrameRegs) (s : State) : (s.setFrame x).releasedAt = s.releasedAt := rfl
@[simp] theorem State.setFrame_target (x : FrameRegs) (s : State) : (s.setFrame x).target = s.target := rfl
@[simp] theorem State.setFrame_timing (x : FrameRegs) (s : State) : (s.setFrame x).timing = s.timing := rfl
@[simp] theorem State.setFrame_drawn (x : FrameRegs) (s : State) : (s.setFrame x).drawn = s.drawn := rfl

@[simp] theorem State.setFrame_frame (x : FrameRegs) (s : State) : (s.setFrame x).frame = x := rfl

@[simp] theorem State.setEntry_signal (x : EntryRegs) (s : State) : (s.setEntry x).signal = s.signal := rfl
@[simp] theorem State.setEntry_resetPin (x : EntryRegs) (s : State) : (s.setEntry x).resetPin = s.resetPin := rfl
@[simp] theorem State.setEntry_time (x : EntryRegs) (s : State) : (s.setEntry x).time = s.time := rfl
@[simp] theorem State.setEntry_im (x : EntryRegs) (s : State) : (s.setEntry x).im = s.im := rfl
@[simp] theorem State.setEntry_params (x : EntryRegs) (s : State) : (s.setEntry x).params = s.params := rfl
@[simp] theorem State.setEntry_mem (x : EntryRegs) (s : State) : (s.setEntry x).mem = s.mem := rfl
@[simp] theorem State.setEntry_cursor (x : EntryRegs) (s : State) : (s.setEntry x).cursor = s.cursor := rfl
@[simp] theorem State.setEntry_frame (x : EntryRegs) (s : State) : (s.setEntry x).frame = s.frame := rfl
@[simp] theorem State.setEntry_command (x : EntryRegs) (s : State) : (s.setEntry x).command = s.command := rfl
@[simp] theorem State.setEntry_result (x : EntryRegs) (s : State) : (s.setEntry x).result = s.result := rfl
@[simp] theorem State.setEntry_calls (x : EntryRegs) (s : State) : (s.setEntry x).calls = s.calls := rfl
@[simp] theorem State.setEntry_trace (x : EntryRegs) (s : State) : (s.setEntry x).trace = s.trace := rfl
@[simp] theorem State.setEntry_releasedAt (x : EntryRegs) (s : State) : (s.setEntry x).releasedAt = s.releasedAt := rfl
@[simp] theorem State.setEntry_target (x : EntryRegs) (s : State) : (s.setEntry x).target = s.target := rfl
@[simp] theorem State.setEntry_timing (x : EntryRegs) (s : State) : (s.setEntry x).timing = s.timing := rfl
@[simp] theorem State.setEntry_drawn (x : EntryRegs) (s : State) : (s.setEntry x).drawn = s.drawn := rfl

@[simp] theorem State.setEntry_entry (x : EntryRegs) (s : State) : (s.setEntry x).entry = x := rfl

@[simp] theorem State.setCommand_signal (x : CommandRegs) (s : State) : (s.setCommand x).signal = s.signal := rfl
@[simp] theorem State.setCommand_resetPin (x : CommandRegs) (s : State) : (s.setCommand x).resetPin = s.resetPin := rfl
@[simp] theorem State.setCommand_time (x : CommandRegs) (s : State) : (s.setCommand x).time = s.time := rfl
@[simp] theorem State.setCommand_im (x : CommandRegs) (s : State) : (s.setCommand x).im = s.im := rfl
@[simp] theorem State.setCommand_params (x : CommandRegs) (s : State) : (s.setCommand x).params = s.params := rfl
@[simp] theorem State.setCommand_mem (x : CommandRegs) (s : State) : (s.setCommand x).mem = s.mem := rfl
@[simp] theorem State.setCommand_cursor (x : CommandRegs) (s : State) : (s.setCommand x).cursor = s.cursor := rfl
@[simp] theorem State.setCommand_frame (x : CommandRegs) (s : State) : (s.setCommand x).frame = s.frame := rfl
@[simp] theorem State.setCommand_entry (x : CommandRegs) (s : State) : (s.setCommand x).entry = s.entry := rfl
@[simp] theorem State.setCommand_result (x : CommandRegs) (s : State) : (s.setCommand x).result = s.result := rfl
@[simp] theorem State.setCommand_calls (x : CommandRegs) (s : State) : (s.setCommand x).calls = s.calls := rfl
@[simp] theorem State.setCommand_trace (x : CommandRegs) (s : State) : (s.setCommand x).trace = s.trace := rfl
@[simp] theorem State.setCommand_releasedAt (x : CommandRegs) (s : State) : (s.setCommand x).releasedAt = s.releasedAt := rfl
@[simp] theorem State.setCommand_target (x : CommandRegs) (s : State) : (s.setCommand x).target = s.target := rfl
@[simp] theorem State.setCommand_timing (x : CommandRegs) (s : State) : (s.setCommand x).timing = s.timing := rfl
@[simp] theorem State.setCommand_drawn (x : CommandRegs) (s : State) : (s.setCommand x).drawn = s.drawn := rfl

@[simp] theorem State.setCommand_command (x : CommandRegs) (s : State) : (s.setCommand x).command = x := rfl

@[simp] theorem State.setMem_signal (x : Memory) (s : State) : (s.setMem x).signal = s.signal := rfl
@[simp] theorem State.setMem_resetPin (x : Memory) (s : State) : (s.setMem x).resetPin = s.resetPin := rfl
@[simp] theorem State.setMem_time (x : Memory) (s : State) : (s.setMem x).time = s.time := rfl
@[simp] theorem State.setMem_im (x : Memory) (s : State) : (s.setMem x).im = s.im := rfl
@[simp] theorem State.setMem_params (x : Memory) (s : State) : (s.setMem x).params = s.params := rfl
@[simp] theorem State.setMem_cursor (x : Memory) (s : State) : (s.setMem x).cursor = s.cursor := rfl
@[simp] theorem State.setMem_frame (x : Memory) (s : State) : (s.setMem x).frame = s.frame := rfl
@[simp] theorem State.setMem_entry (x : Memory) (s : State) : (s.setMem x).entry = s.entry := rfl
@[simp] theorem State.setMem_command (x : Memory) (s : State) : (s.setMem x).command = s.command := rfl
@[simp] theorem State.setMem_result (x : Memory) (s : State) : (s.setMem x).result = s.result := rfl
@[simp] theorem State.setMem_calls (x : Memory) (s : State) : (s.setMem x).calls = s.calls := rfl
@[simp] theorem State.setMem_trace (x : Memory) (s : State) : (s.setMem x).trace = s.trace := rfl
@[simp] theorem State.setMem_releasedAt (x : Memory) (s : State) : (s.setMem x).releasedAt = s.releasedAt := rfl
@[simp] theorem State.setMem_target (x : Memory) (s : State) : (s.setMem x).target = s.target := rfl
@[simp] theorem State.setMem_timing (x : Memory) (s : State) : (s.setMem x).timing = s.timing := rfl
@[simp] theorem State.setMem_drawn (x : Memory) (s : State) : (s.setMem x).drawn = s.drawn := rfl

@[simp] theorem State.setMem_mem (x : Memory) (s : State) : (s.setMem x).mem = x := rfl

@[simp] theorem State.setCursor_signal (x : Cycle) (s : State) : (s.setCursor x).signal = s.signal := rfl
@[simp] theorem State.setCursor_resetPin (x : Cycle) (s : State) : (s.setCursor x).resetPin = s.resetPin := rfl
@[simp] theorem State.setCursor_time (x : Cycle) (s : State) : (s.setCursor x).time = s.time := rfl
@[simp] theorem State.setCursor_im (x : Cycle) (s : State) : (s.setCursor x).im = s.im := rfl
@[simp] theorem State.setCursor_params (x : Cycle) (s : State) : (s.setCursor x).params = s.params := rfl
@[simp] theorem State.setCursor_mem (x : Cycle) (s : State) : (s.setCursor x).mem = s.mem := rfl
@[simp] theorem State.setCursor_frame (x : Cycle) (s : State) : (s.setCursor x).frame = s.frame := rfl
@[simp] theorem State.setCursor_entry (x : Cycle) (s : State) : (s.setCursor x).entry = s.entry := rfl
@[simp] theorem State.setCursor_command (x : Cycle) (s : State) : (s.setCursor x).command = s.command := rfl
@[simp] theorem State.setCursor_result (x : Cycle) (s : State) : (s.setCursor x).result = s.result := rfl
@[simp] theorem State.setCursor_calls (x : Cycle) (s : State) : (s.setCursor x).calls = s.calls := rfl
@[simp] theorem State.setCursor_trace (x : Cycle) (s : State) : (s.setCursor x).trace = s.trace := rfl
@[simp] theorem State.setCursor_releasedAt (x : Cycle) (s : State) : (s.setCursor x).releasedAt = s.releasedAt := rfl
@[simp] theorem State.setCursor_target (x : Cycle) (s : State) : (s.setCursor x).target = s.target := rfl
@[simp] theorem State.setCursor_timing (x : Cycle) (s : State) : (s.setCursor x).timing = s.timing := rfl
@[simp] theorem State.setCursor_drawn (x : Cycle) (s : State) : (s.setCursor x).drawn = s.drawn := rfl

@[simp] theorem State.setCursor_cursor (x : Cycle) (s : State) : (s.setCursor x).cursor = x := rfl

@[simp] theorem State.setCalls_signal (x : List (List Byte)) (s : State) : (s.setCalls x).signal = s.signal := rfl
@[simp] theorem State.setCalls_resetPin (x : List (List Byte)) (s : State) : (s.setCalls x).resetPin = s.resetPin := rfl
@[simp] theorem State.setCalls_time (x : List (List Byte)) (s : State) : (s.setCalls x).time = s.time := rfl
@[simp] theorem State.setCalls_im (x : List (List Byte)) (s : State) : (s.setCalls x).im = s.im := rfl
@[simp] theorem State.setCalls_params (x : List (List Byte)) (s : State) : (s.setCalls x).params = s.params := rfl
@[simp] theorem State.setCalls_mem (x : List (List Byte)) (s : State) : (s.setCalls x).mem = s.mem := rfl
@[simp] theorem State.setCalls_cursor (x : List (List Byte)) (s : State) : (s.setCalls x).cursor = s.cursor := rfl
@[simp] theorem State.setCalls_frame (x : List (List Byte)) (s : State) : (s.setCalls x).frame = s.frame := rfl
@[simp] theorem State.setCalls_entry (x : List (List Byte)) (s : State) : (s.setCalls x).entry = s.entry := rfl
@[simp] theorem State.setCalls_command (x : List (List Byte)) (s : State) : (s.setCalls x).command = s.command := rfl
@[simp] theorem State.setCalls_result (x : List (List Byte)) (s : State) : (s.setCalls x).result = s.result := rfl
@[simp] theorem State.setCalls_trace (x : List (List Byte)) (s : State) : (s.setCalls x).trace = s.trace := rfl
@[simp] theorem State.setCalls_releasedAt (x : List (List Byte)) (s : State) : (s.setCalls x).releasedAt = s.releasedAt := rfl
@[simp] theorem State.setCalls_target (x : List (List Byte)) (s : State) : (s.setCalls x).target = s.target := rfl
@[simp] theorem State.setCalls_timing (x : List (List Byte)) (s : State) : (s.setCalls x).timing = s.timing := rfl
@[simp] theorem State.setCalls_drawn (x : List (List Byte)) (s : State) : (s.setCalls x).drawn = s.drawn := rfl

@[simp] theorem State.setCalls_calls (x : List (List Byte)) (s : State) : (s.setCalls x).calls = x := rfl

@[simp] theorem State.clearReply_signal (s : State) : (s.clearReply).signal = s.signal := rfl
@[simp] theorem State.clearReply_resetPin (s : State) : (s.clearReply).resetPin = s.resetPin := rfl
@[simp] theorem State.clearReply_time (s : State) : (s.clearReply).time = s.time := rfl
@[simp] theorem State.clearReply_im (s : State) : (s.clearReply).im = s.im := rfl
@[simp] theorem State.clearReply_params (s : State) : (s.clearReply).params = s.params := rfl
@[simp] theorem State.clearReply_mem (s : State) : (s.clearReply).mem = s.mem := rfl
@[simp] theorem State.clearReply_cursor (s : State) : (s.clearReply).cursor = s.cursor := rfl
@[simp] theorem State.clearReply_frame (s : State) : (s.clearReply).frame = s.frame := rfl
@[simp] theorem State.clearReply_entry (s : State) : (s.clearReply).entry = s.entry := rfl
@[simp] theorem State.clearReply_command (s : State) : (s.clearReply).command = s.command := rfl
@[simp] theorem State.clearReply_calls (s : State) : (s.clearReply).calls = s.calls := rfl
@[simp] theorem State.clearReply_trace (s : State) : (s.clearReply).trace = s.trace := rfl
@[simp] theorem State.clearReply_releasedAt (s : State) : (s.clearReply).releasedAt = s.releasedAt := rfl
@[simp] theorem State.clearReply_target (s : State) : (s.clearReply).target = s.target := rfl
@[simp] theorem State.clearReply_timing (s : State) : (s.clearReply).timing = s.timing := rfl
@[simp] theorem State.clearReply_drawn (s : State) : (s.clearReply).drawn = s.drawn := rfl

@[simp] theorem State.clearReply_result (s : State) : s.clearReply.result = none := rfl

@[simp] theorem State.drawOne_signal (s : State) : (s.drawOne).signal = s.signal := by
  unfold State.drawOne; split <;> rfl
@[simp] theorem State.drawOne_resetPin (s : State) : (s.drawOne).resetPin = s.resetPin := by
  unfold State.drawOne; split <;> rfl
@[simp] theorem State.drawOne_time (s : State) : (s.drawOne).time = s.time := by
  unfold State.drawOne; split <;> rfl
@[simp] theorem State.drawOne_im (s : State) : (s.drawOne).im = s.im := by
  unfold State.drawOne; split <;> rfl
@[simp] theorem State.drawOne_params (s : State) : (s.drawOne).params = s.params := by
  unfold State.drawOne; split <;> rfl
@[simp] theorem State.drawOne_mem (s : State) : (s.drawOne).mem = s.mem := by
  unfold State.drawOne; split <;> rfl
@[simp] theorem State.drawOne_cursor (s : State) : (s.drawOne).cursor = s.cursor := by
  unfold State.drawOne; split <;> rfl
@[simp] theorem State.drawOne_frame (s : State) : (s.drawOne).frame = s.frame := by
  unfold State.drawOne; split <;> rfl
@[simp] theorem State.drawOne_entry (s : State) : (s.drawOne).entry = s.entry := by
  unfold State.drawOne; split <;> rfl
@[simp] theorem State.drawOne_command (s : State) : (s.drawOne).command = s.command := by
  unfold State.drawOne; split <;> rfl
@[simp] theorem State.drawOne_result (s : State) : (s.drawOne).result = s.result := by
  unfold State.drawOne; split <;> rfl
@[simp] theorem State.drawOne_calls (s : State) : (s.drawOne).calls = s.calls := by
  unfold State.drawOne; split <;> rfl
@[simp] theorem State.drawOne_trace (s : State) : (s.drawOne).trace = s.trace := by
  unfold State.drawOne; split <;> rfl
@[simp] theorem State.drawOne_releasedAt (s : State) : (s.drawOne).releasedAt = s.releasedAt := by
  unfold State.drawOne; split <;> rfl
@[simp] theorem State.drawOne_target (s : State) : (s.drawOne).target = s.target := by
  unfold State.drawOne; split <;> rfl

@[simp] theorem State.elapse_signal (due : Option Cycle) (s : State) : (s.elapse due).signal = s.signal := by
  simp [State.elapse]
@[simp] theorem State.elapse_resetPin (due : Option Cycle) (s : State) : (s.elapse due).resetPin = s.resetPin := by
  simp [State.elapse]
@[simp] theorem State.elapse_im (due : Option Cycle) (s : State) : (s.elapse due).im = s.im := by
  simp [State.elapse]
@[simp] theorem State.elapse_params (due : Option Cycle) (s : State) : (s.elapse due).params = s.params := by
  simp [State.elapse]
@[simp] theorem State.elapse_mem (due : Option Cycle) (s : State) : (s.elapse due).mem = s.mem := by
  simp [State.elapse]
@[simp] theorem State.elapse_cursor (due : Option Cycle) (s : State) : (s.elapse due).cursor = s.cursor := by
  simp [State.elapse]
@[simp] theorem State.elapse_frame (due : Option Cycle) (s : State) : (s.elapse due).frame = s.frame := by
  simp [State.elapse]
@[simp] theorem State.elapse_entry (due : Option Cycle) (s : State) : (s.elapse due).entry = s.entry := by
  simp [State.elapse]
@[simp] theorem State.elapse_command (due : Option Cycle) (s : State) : (s.elapse due).command = s.command := by
  simp [State.elapse]
@[simp] theorem State.elapse_result (due : Option Cycle) (s : State) : (s.elapse due).result = s.result := by
  simp [State.elapse]
@[simp] theorem State.elapse_calls (due : Option Cycle) (s : State) : (s.elapse due).calls = s.calls := by
  simp [State.elapse]
@[simp] theorem State.elapse_trace (due : Option Cycle) (s : State) : (s.elapse due).trace = s.trace := by
  simp [State.elapse]
@[simp] theorem State.elapse_releasedAt (due : Option Cycle) (s : State) : (s.elapse due).releasedAt = s.releasedAt := by
  simp [State.elapse]
@[simp] theorem State.elapse_target (due : Option Cycle) (s : State) : (s.elapse due).target = s.target := by
  simp [State.elapse]

@[simp] theorem State.elapse_time (due : Option Cycle) (s : State) : (s.elapse due).time = s.time + workDraw due s := by
  simp [State.elapse]

@[simp] theorem State.reply_signal (r : Reply) (s : State) : (s.reply r).signal = s.signal := rfl
@[simp] theorem State.reply_resetPin (r : Reply) (s : State) : (s.reply r).resetPin = s.resetPin := rfl
@[simp] theorem State.reply_time (r : Reply) (s : State) : (s.reply r).time = s.time := rfl
@[simp] theorem State.reply_im (r : Reply) (s : State) : (s.reply r).im = s.im := rfl
@[simp] theorem State.reply_params (r : Reply) (s : State) : (s.reply r).params = s.params := rfl
@[simp] theorem State.reply_mem (r : Reply) (s : State) : (s.reply r).mem = s.mem := rfl
@[simp] theorem State.reply_cursor (r : Reply) (s : State) : (s.reply r).cursor = s.cursor := rfl
@[simp] theorem State.reply_frame (r : Reply) (s : State) : (s.reply r).frame = s.frame := rfl
@[simp] theorem State.reply_entry (r : Reply) (s : State) : (s.reply r).entry = s.entry := rfl
@[simp] theorem State.reply_command (r : Reply) (s : State) : (s.reply r).command = s.command := rfl
@[simp] theorem State.reply_calls (r : Reply) (s : State) : (s.reply r).calls = s.calls := rfl
@[simp] theorem State.reply_trace (r : Reply) (s : State) : (s.reply r).trace = s.trace := rfl
@[simp] theorem State.reply_releasedAt (r : Reply) (s : State) : (s.reply r).releasedAt = s.releasedAt := rfl
@[simp] theorem State.reply_target (r : Reply) (s : State) : (s.reply r).target = s.target := rfl
@[simp] theorem State.reply_timing (r : Reply) (s : State) : (s.reply r).timing = s.timing := rfl
@[simp] theorem State.reply_drawn (r : Reply) (s : State) : (s.reply r).drawn = s.drawn := rfl

@[simp] theorem State.reply_result (r : Reply) (s : State) : (s.reply r).result = some r := rfl

/-! ### Pins -/

@[simp] theorem State.pinWrite_signal_resetPin (a : PinAction) (s : State) : (s.pinWrite .signal a).resetPin = s.resetPin := rfl
@[simp] theorem State.pinWrite_signal_time (a : PinAction) (s : State) : (s.pinWrite .signal a).time = s.time := rfl
@[simp] theorem State.pinWrite_signal_im (a : PinAction) (s : State) : (s.pinWrite .signal a).im = s.im := rfl
@[simp] theorem State.pinWrite_signal_params (a : PinAction) (s : State) : (s.pinWrite .signal a).params = s.params := rfl
@[simp] theorem State.pinWrite_signal_mem (a : PinAction) (s : State) : (s.pinWrite .signal a).mem = s.mem := rfl
@[simp] theorem State.pinWrite_signal_cursor (a : PinAction) (s : State) : (s.pinWrite .signal a).cursor = s.cursor := rfl
@[simp] theorem State.pinWrite_signal_frame (a : PinAction) (s : State) : (s.pinWrite .signal a).frame = s.frame := rfl
@[simp] theorem State.pinWrite_signal_entry (a : PinAction) (s : State) : (s.pinWrite .signal a).entry = s.entry := rfl
@[simp] theorem State.pinWrite_signal_command (a : PinAction) (s : State) : (s.pinWrite .signal a).command = s.command := rfl
@[simp] theorem State.pinWrite_signal_result (a : PinAction) (s : State) : (s.pinWrite .signal a).result = s.result := rfl
@[simp] theorem State.pinWrite_signal_calls (a : PinAction) (s : State) : (s.pinWrite .signal a).calls = s.calls := rfl
@[simp] theorem State.pinWrite_signal_target (a : PinAction) (s : State) : (s.pinWrite .signal a).target = s.target := rfl
@[simp] theorem State.pinWrite_signal_timing (a : PinAction) (s : State) : (s.pinWrite .signal a).timing = s.timing := rfl
@[simp] theorem State.pinWrite_signal_drawn (a : PinAction) (s : State) : (s.pinWrite .signal a).drawn = s.drawn := rfl

@[simp] theorem State.pinWrite_signal_signal (a : PinAction) (s : State) :
    (s.pinWrite .signal a).signal = s.signal.write a := rfl

@[simp] theorem State.pinWrite_signal_trace (a : PinAction) (s : State) :
    (s.pinWrite .signal a).trace = { cycle := s.time, action := .pin .signal a } :: s.trace := rfl

@[simp] theorem State.pinWrite_reset_signal (a : PinAction) (s : State) : (s.pinWrite .reset a).signal = s.signal := rfl
@[simp] theorem State.pinWrite_reset_time (a : PinAction) (s : State) : (s.pinWrite .reset a).time = s.time := rfl
@[simp] theorem State.pinWrite_reset_im (a : PinAction) (s : State) : (s.pinWrite .reset a).im = s.im := rfl
@[simp] theorem State.pinWrite_reset_params (a : PinAction) (s : State) : (s.pinWrite .reset a).params = s.params := rfl
@[simp] theorem State.pinWrite_reset_mem (a : PinAction) (s : State) : (s.pinWrite .reset a).mem = s.mem := rfl
@[simp] theorem State.pinWrite_reset_cursor (a : PinAction) (s : State) : (s.pinWrite .reset a).cursor = s.cursor := rfl
@[simp] theorem State.pinWrite_reset_frame (a : PinAction) (s : State) : (s.pinWrite .reset a).frame = s.frame := rfl
@[simp] theorem State.pinWrite_reset_entry (a : PinAction) (s : State) : (s.pinWrite .reset a).entry = s.entry := rfl
@[simp] theorem State.pinWrite_reset_command (a : PinAction) (s : State) : (s.pinWrite .reset a).command = s.command := rfl
@[simp] theorem State.pinWrite_reset_result (a : PinAction) (s : State) : (s.pinWrite .reset a).result = s.result := rfl
@[simp] theorem State.pinWrite_reset_calls (a : PinAction) (s : State) : (s.pinWrite .reset a).calls = s.calls := rfl
@[simp] theorem State.pinWrite_reset_releasedAt (a : PinAction) (s : State) : (s.pinWrite .reset a).releasedAt = s.releasedAt := rfl
@[simp] theorem State.pinWrite_reset_target (a : PinAction) (s : State) : (s.pinWrite .reset a).target = s.target := rfl
@[simp] theorem State.pinWrite_reset_timing (a : PinAction) (s : State) : (s.pinWrite .reset a).timing = s.timing := rfl
@[simp] theorem State.pinWrite_reset_drawn (a : PinAction) (s : State) : (s.pinWrite .reset a).drawn = s.drawn := rfl

@[simp] theorem State.pinWrite_reset_resetPin (a : PinAction) (s : State) :
    (s.pinWrite .reset a).resetPin = s.resetPin.write a := rfl

@[simp] theorem State.pinWrite_reset_trace (a : PinAction) (s : State) :
    (s.pinWrite .reset a).trace = { cycle := s.time, action := .pin .reset a } :: s.trace := rfl

@[simp] theorem State.pinSet_reset_signal (a : PinAction) (due : Option Cycle) (s : State) :
    (s.pinSet .reset a due).signal = s.signal := by
  simp [State.pinSet]
@[simp] theorem State.pinSet_reset_im (a : PinAction) (due : Option Cycle) (s : State) : (s.pinSet .reset a due).im = s.im := by
  simp [State.pinSet]
@[simp] theorem State.pinSet_reset_params (a : PinAction) (due : Option Cycle) (s : State) :
    (s.pinSet .reset a due).params = s.params := by
  simp [State.pinSet]
@[simp] theorem State.pinSet_reset_mem (a : PinAction) (due : Option Cycle) (s : State) : (s.pinSet .reset a due).mem = s.mem := by
  simp [State.pinSet]
@[simp] theorem State.pinSet_reset_cursor (a : PinAction) (due : Option Cycle) (s : State) :
    (s.pinSet .reset a due).cursor = s.cursor := by
  simp [State.pinSet]
@[simp] theorem State.pinSet_reset_frame (a : PinAction) (due : Option Cycle) (s : State) :
    (s.pinSet .reset a due).frame = s.frame := by
  simp [State.pinSet]
@[simp] theorem State.pinSet_reset_entry (a : PinAction) (due : Option Cycle) (s : State) :
    (s.pinSet .reset a due).entry = s.entry := by
  simp [State.pinSet]
@[simp] theorem State.pinSet_reset_command (a : PinAction) (due : Option Cycle) (s : State) :
    (s.pinSet .reset a due).command = s.command := by
  simp [State.pinSet]
@[simp] theorem State.pinSet_reset_result (a : PinAction) (due : Option Cycle) (s : State) :
    (s.pinSet .reset a due).result = s.result := by
  simp [State.pinSet]
@[simp] theorem State.pinSet_reset_calls (a : PinAction) (due : Option Cycle) (s : State) :
    (s.pinSet .reset a due).calls = s.calls := by
  simp [State.pinSet]
@[simp] theorem State.pinSet_reset_releasedAt (a : PinAction) (due : Option Cycle) (s : State) :
    (s.pinSet .reset a due).releasedAt = s.releasedAt := by
  simp [State.pinSet]
@[simp] theorem State.pinSet_reset_target (a : PinAction) (due : Option Cycle) (s : State) :
    (s.pinSet .reset a due).target = s.target := by
  simp [State.pinSet]

@[simp] theorem State.pinSet_reset_resetPin (a : PinAction) (due : Option Cycle) (s : State) :
    (s.pinSet .reset a due).resetPin = s.resetPin.write a := by
  simp [State.pinSet]

@[simp] theorem State.pinSet_signal_resetPin (a : PinAction) (due : Option Cycle) (s : State) :
    (s.pinSet .signal a due).resetPin = s.resetPin := by
  simp [State.pinSet]
@[simp] theorem State.pinSet_signal_im (a : PinAction) (due : Option Cycle) (s : State) : (s.pinSet .signal a due).im = s.im := by
  simp [State.pinSet]
@[simp] theorem State.pinSet_signal_params (a : PinAction) (due : Option Cycle) (s : State) :
    (s.pinSet .signal a due).params = s.params := by
  simp [State.pinSet]
@[simp] theorem State.pinSet_signal_mem (a : PinAction) (due : Option Cycle) (s : State) :
    (s.pinSet .signal a due).mem = s.mem := by
  simp [State.pinSet]
@[simp] theorem State.pinSet_signal_cursor (a : PinAction) (due : Option Cycle) (s : State) :
    (s.pinSet .signal a due).cursor = s.cursor := by
  simp [State.pinSet]
@[simp] theorem State.pinSet_signal_frame (a : PinAction) (due : Option Cycle) (s : State) :
    (s.pinSet .signal a due).frame = s.frame := by
  simp [State.pinSet]
@[simp] theorem State.pinSet_signal_entry (a : PinAction) (due : Option Cycle) (s : State) :
    (s.pinSet .signal a due).entry = s.entry := by
  simp [State.pinSet]
@[simp] theorem State.pinSet_signal_command (a : PinAction) (due : Option Cycle) (s : State) :
    (s.pinSet .signal a due).command = s.command := by
  simp [State.pinSet]
@[simp] theorem State.pinSet_signal_result (a : PinAction) (due : Option Cycle) (s : State) :
    (s.pinSet .signal a due).result = s.result := by
  simp [State.pinSet]
@[simp] theorem State.pinSet_signal_calls (a : PinAction) (due : Option Cycle) (s : State) :
    (s.pinSet .signal a due).calls = s.calls := by
  simp [State.pinSet]
@[simp] theorem State.pinSet_signal_target (a : PinAction) (due : Option Cycle) (s : State) :
    (s.pinSet .signal a due).target = s.target := by
  simp [State.pinSet]

@[simp] theorem State.pinSet_signal_signal (a : PinAction) (due : Option Cycle) (s : State) :
    (s.pinSet .signal a due).signal = s.signal.write a := by
  simp [State.pinSet]

@[simp] theorem Pin.write_setHigh_latch (p : Pin) : (p.write .setHigh).latch = .high := rfl
@[simp] theorem Pin.write_setHigh_mode (p : Pin) : (p.write .setHigh).mode = p.mode := rfl
@[simp] theorem Pin.write_setLow_latch (p : Pin) : (p.write .setLow).latch = .low := rfl
@[simp] theorem Pin.write_setLow_mode (p : Pin) : (p.write .setLow).mode = p.mode := rfl
@[simp] theorem Pin.write_setOutput_latch (p : Pin) : (p.write .setOutput).latch = p.latch := rfl
@[simp] theorem Pin.write_setOutput_mode (p : Pin) : (p.write .setOutput).mode = .output := rfl
@[simp] theorem Pin.write_setInput_latch (p : Pin) : (p.write .setInput).latch = p.latch := rfl
@[simp] theorem Pin.write_setInput_mode (p : Pin) : (p.write .setInput).mode = .input := rfl

/-! ### Interrupt mask and watchdog -/

@[simp] theorem State.mask_signal (s : State) : (s.mask).signal = s.signal := rfl
@[simp] theorem State.mask_resetPin (s : State) : (s.mask).resetPin = s.resetPin := rfl
@[simp] theorem State.mask_time (s : State) : (s.mask).time = s.time := rfl
@[simp] theorem State.mask_params (s : State) : (s.mask).params = s.params := rfl
@[simp] theorem State.mask_mem (s : State) : (s.mask).mem = s.mem := rfl
@[simp] theorem State.mask_cursor (s : State) : (s.mask).cursor = s.cursor := rfl
@[simp] theorem State.mask_frame (s : State) : (s.mask).frame = s.frame := rfl
@[simp] theorem State.mask_entry (s : State) : (s.mask).entry = s.entry := rfl
@[simp] theorem State.mask_command (s : State) : (s.mask).command = s.command := rfl
@[simp] theorem State.mask_result (s : State) : (s.mask).result = s.result := rfl
@[simp] theorem State.mask_calls (s : State) : (s.mask).calls = s.calls := rfl
@[simp] theorem State.mask_releasedAt (s : State) : (s.mask).releasedAt = s.releasedAt := rfl
@[simp] theorem State.mask_target (s : State) : (s.mask).target = s.target := rfl
@[simp] theorem State.mask_timing (s : State) : (s.mask).timing = s.timing := rfl
@[simp] theorem State.mask_drawn (s : State) : (s.mask).drawn = s.drawn := rfl

@[simp] theorem State.mask_im (s : State) : s.mask.im = .masked := rfl
@[simp] theorem State.mask_trace (s : State) :
    s.mask.trace = { cycle := s.time, action := .irqMask } :: s.trace := rfl

@[simp] theorem State.enterCritical_signal (s : State) : (s.enterCritical).signal = s.signal := by
  simp [State.enterCritical]
@[simp] theorem State.enterCritical_resetPin (s : State) : (s.enterCritical).resetPin = s.resetPin := by
  simp [State.enterCritical]
@[simp] theorem State.enterCritical_params (s : State) : (s.enterCritical).params = s.params := by
  simp [State.enterCritical]
@[simp] theorem State.enterCritical_mem (s : State) : (s.enterCritical).mem = s.mem := by
  simp [State.enterCritical]
@[simp] theorem State.enterCritical_cursor (s : State) : (s.enterCritical).cursor = s.cursor := by
  simp [State.enterCritical]
@[simp] theorem State.enterCritical_frame (s : State) : (s.enterCritical).frame = s.frame := by
  simp [State.enterCritical]
@[simp] theorem State.enterCritical_entry (s : State) : (s.enterCritical).entry = s.entry := by
  simp [State.enterCritical]
@[simp] theorem State.enterCritical_command (s : State) : (s.enterCritical).command = s.command := by
  simp [State.enterCritical]
@[simp] theorem State.enterCritical_result (s : State) : (s.enterCritical).result = s.result := by
  simp [State.enterCritical]
@[simp] theorem State.enterCritical_calls (s : State) : (s.enterCritical).calls = s.calls := by
  simp [State.enterCritical]
@[simp] theorem State.enterCritical_releasedAt (s : State) : (s.enterCritical).releasedAt = s.releasedAt := by
  simp [State.enterCritical]
@[simp] theorem State.enterCritical_target (s : State) : (s.enterCritical).target = s.target := by
  simp [State.enterCritical]

@[simp] theorem State.enterCritical_im (s : State) : s.enterCritical.im = .masked := rfl
@[simp] theorem State.enterCritical_time (s : State) : s.enterCritical.time = s.elapse.time := rfl
@[simp] theorem State.enterCritical_trace (s : State) :
    s.enterCritical.trace = { cycle := s.elapse.time, action := .irqMask } :: s.trace := by
  simp [State.enterCritical]

@[simp] theorem State.leaveCritical_signal (v : IrqMask) (due : Option Cycle) (s : State) :
    (s.leaveCritical v due).signal = s.signal := by
  simp [State.leaveCritical]
@[simp] theorem State.leaveCritical_resetPin (v : IrqMask) (due : Option Cycle) (s : State) :
    (s.leaveCritical v due).resetPin = s.resetPin := by
  simp [State.leaveCritical]
@[simp] theorem State.leaveCritical_params (v : IrqMask) (due : Option Cycle) (s : State) :
    (s.leaveCritical v due).params = s.params := by
  simp [State.leaveCritical]
@[simp] theorem State.leaveCritical_mem (v : IrqMask) (due : Option Cycle) (s : State) : (s.leaveCritical v due).mem = s.mem := by
  simp [State.leaveCritical]
@[simp] theorem State.leaveCritical_cursor (v : IrqMask) (due : Option Cycle) (s : State) :
    (s.leaveCritical v due).cursor = s.cursor := by
  simp [State.leaveCritical]
@[simp] theorem State.leaveCritical_frame (v : IrqMask) (due : Option Cycle) (s : State) :
    (s.leaveCritical v due).frame = s.frame := by
  simp [State.leaveCritical]
@[simp] theorem State.leaveCritical_entry (v : IrqMask) (due : Option Cycle) (s : State) :
    (s.leaveCritical v due).entry = s.entry := by
  simp [State.leaveCritical]
@[simp] theorem State.leaveCritical_command (v : IrqMask) (due : Option Cycle) (s : State) :
    (s.leaveCritical v due).command = s.command := by
  simp [State.leaveCritical]
@[simp] theorem State.leaveCritical_result (v : IrqMask) (due : Option Cycle) (s : State) :
    (s.leaveCritical v due).result = s.result := by
  simp [State.leaveCritical]
@[simp] theorem State.leaveCritical_calls (v : IrqMask) (due : Option Cycle) (s : State) :
    (s.leaveCritical v due).calls = s.calls := by
  simp [State.leaveCritical]
@[simp] theorem State.leaveCritical_releasedAt (v : IrqMask) (due : Option Cycle) (s : State) :
    (s.leaveCritical v due).releasedAt = s.releasedAt := by
  simp [State.leaveCritical]
@[simp] theorem State.leaveCritical_target (v : IrqMask) (due : Option Cycle) (s : State) :
    (s.leaveCritical v due).target = s.target := by
  simp [State.leaveCritical]

@[simp] theorem State.leaveCritical_im (v : IrqMask) (due : Option Cycle) (s : State) : (s.leaveCritical v due).im = v := rfl
@[simp] theorem State.leaveCritical_time (v : IrqMask) (due : Option Cycle) (s : State) :
    (s.leaveCritical v due).time = (s.elapse due).time := rfl
@[simp] theorem State.leaveCritical_trace (v : IrqMask) (due : Option Cycle) (s : State) :
    (s.leaveCritical v due).trace = { cycle := (s.elapse due).time, action := .irqRestore v } :: s.trace := by
  simp [State.leaveCritical]

@[simp] theorem State.wdtService_signal (s : State) : s.wdtService.signal = s.signal := by
  simp [State.wdtService]
@[simp] theorem State.wdtService_resetPin (s : State) : s.wdtService.resetPin = s.resetPin := by
  simp [State.wdtService]
@[simp] theorem State.wdtService_im (s : State) : s.wdtService.im = s.im := by
  simp [State.wdtService]
@[simp] theorem State.wdtService_params (s : State) : s.wdtService.params = s.params := by
  simp [State.wdtService]
@[simp] theorem State.wdtService_mem (s : State) : s.wdtService.mem = s.mem := by
  simp [State.wdtService]
@[simp] theorem State.wdtService_cursor (s : State) : s.wdtService.cursor = s.cursor := by
  simp [State.wdtService]
@[simp] theorem State.wdtService_frame (s : State) : s.wdtService.frame = s.frame := by
  simp [State.wdtService]
@[simp] theorem State.wdtService_entry (s : State) : s.wdtService.entry = s.entry := by
  simp [State.wdtService]
@[simp] theorem State.wdtService_command (s : State) : s.wdtService.command = s.command := by
  simp [State.wdtService]
@[simp] theorem State.wdtService_result (s : State) : s.wdtService.result = s.result := by
  simp [State.wdtService]
@[simp] theorem State.wdtService_calls (s : State) : s.wdtService.calls = s.calls := by
  simp [State.wdtService]
@[simp] theorem State.wdtService_releasedAt (s : State) : s.wdtService.releasedAt = s.releasedAt := by
  simp [State.wdtService]
@[simp] theorem State.wdtService_target (s : State) : s.wdtService.target = s.target := by
  simp [State.wdtService]

/-! ### Reads and waits -/

@[simp] theorem State.pinRead_signal (s : State) : (s.pinRead).signal = s.signal := by
  unfold State.pinRead; split <;> simp
@[simp] theorem State.pinRead_resetPin (s : State) : (s.pinRead).resetPin = s.resetPin := by
  unfold State.pinRead; split <;> simp
@[simp] theorem State.pinRead_time (s : State) : (s.pinRead).time = s.time := by
  unfold State.pinRead; split <;> simp
@[simp] theorem State.pinRead_im (s : State) : (s.pinRead).im = s.im := by
  unfold State.pinRead; split <;> simp
@[simp] theorem State.pinRead_params (s : State) : (s.pinRead).params = s.params := by
  unfold State.pinRead; split <;> simp
@[simp] theorem State.pinRead_mem (s : State) : (s.pinRead).mem = s.mem := by
  unfold State.pinRead; split <;> simp
@[simp] theorem State.pinRead_cursor (s : State) : (s.pinRead).cursor = s.cursor := by
  unfold State.pinRead; split <;> simp
@[simp] theorem State.pinRead_frame (s : State) : (s.pinRead).frame = s.frame := by
  unfold State.pinRead; split <;> simp
@[simp] theorem State.pinRead_entry (s : State) : (s.pinRead).entry = s.entry := by
  unfold State.pinRead; split <;> simp
@[simp] theorem State.pinRead_command (s : State) : (s.pinRead).command = s.command := by
  unfold State.pinRead; split <;> simp
@[simp] theorem State.pinRead_result (s : State) : (s.pinRead).result = s.result := by
  unfold State.pinRead; split <;> simp
@[simp] theorem State.pinRead_calls (s : State) : (s.pinRead).calls = s.calls := by
  unfold State.pinRead; split <;> simp
@[simp] theorem State.pinRead_releasedAt (s : State) : (s.pinRead).releasedAt = s.releasedAt := by
  unfold State.pinRead; split <;> simp
@[simp] theorem State.pinRead_target (s : State) : (s.pinRead).target = s.target := by
  unfold State.pinRead; split <;> simp

@[simp] theorem State.pinRead_trace (s : State) :
    s.pinRead.trace = { cycle := s.time, action := .read s.lineLevel } :: s.trace := by
  unfold State.pinRead; split <;> simp

@[simp] theorem State.pollCost_signal (s : State) : (s.pollCost).signal = s.signal := by
  simp [State.pollCost]
@[simp] theorem State.pollCost_resetPin (s : State) : (s.pollCost).resetPin = s.resetPin := by
  simp [State.pollCost]
@[simp] theorem State.pollCost_im (s : State) : (s.pollCost).im = s.im := by
  simp [State.pollCost]
@[simp] theorem State.pollCost_params (s : State) : (s.pollCost).params = s.params := by
  simp [State.pollCost]
@[simp] theorem State.pollCost_mem (s : State) : (s.pollCost).mem = s.mem := by
  simp [State.pollCost]
@[simp] theorem State.pollCost_cursor (s : State) : (s.pollCost).cursor = s.cursor := by
  simp [State.pollCost]
@[simp] theorem State.pollCost_frame (s : State) : (s.pollCost).frame = s.frame := by
  simp [State.pollCost]
@[simp] theorem State.pollCost_entry (s : State) : (s.pollCost).entry = s.entry := by
  simp [State.pollCost]
@[simp] theorem State.pollCost_command (s : State) : (s.pollCost).command = s.command := by
  simp [State.pollCost]
@[simp] theorem State.pollCost_result (s : State) : (s.pollCost).result = s.result := by
  simp [State.pollCost]
@[simp] theorem State.pollCost_calls (s : State) : (s.pollCost).calls = s.calls := by
  simp [State.pollCost]
@[simp] theorem State.pollCost_trace (s : State) : (s.pollCost).trace = s.trace := by
  simp [State.pollCost]
@[simp] theorem State.pollCost_releasedAt (s : State) : (s.pollCost).releasedAt = s.releasedAt := by
  simp [State.pollCost]
@[simp] theorem State.pollCost_target (s : State) : (s.pollCost).target = s.target := by
  simp [State.pollCost]

@[simp] theorem State.pollCost_time (s : State) : s.pollCost.time = s.time + (s.params.pollMin + drawValue s) := by
  simp [State.pollCost]

@[simp] theorem State.reach_signal (c : Cycle) (s : State) : (s.reach c).signal = s.signal := by
  unfold State.reach; split <;> rfl
@[simp] theorem State.reach_resetPin (c : Cycle) (s : State) : (s.reach c).resetPin = s.resetPin := by
  unfold State.reach; split <;> rfl
@[simp] theorem State.reach_im (c : Cycle) (s : State) : (s.reach c).im = s.im := by
  unfold State.reach; split <;> rfl
@[simp] theorem State.reach_params (c : Cycle) (s : State) : (s.reach c).params = s.params := by
  unfold State.reach; split <;> rfl
@[simp] theorem State.reach_mem (c : Cycle) (s : State) : (s.reach c).mem = s.mem := by
  unfold State.reach; split <;> rfl
@[simp] theorem State.reach_cursor (c : Cycle) (s : State) : (s.reach c).cursor = s.cursor := by
  unfold State.reach; split <;> rfl
@[simp] theorem State.reach_frame (c : Cycle) (s : State) : (s.reach c).frame = s.frame := by
  unfold State.reach; split <;> rfl
@[simp] theorem State.reach_entry (c : Cycle) (s : State) : (s.reach c).entry = s.entry := by
  unfold State.reach; split <;> rfl
@[simp] theorem State.reach_command (c : Cycle) (s : State) : (s.reach c).command = s.command := by
  unfold State.reach; split <;> rfl
@[simp] theorem State.reach_result (c : Cycle) (s : State) : (s.reach c).result = s.result := by
  unfold State.reach; split <;> rfl
@[simp] theorem State.reach_calls (c : Cycle) (s : State) : (s.reach c).calls = s.calls := by
  unfold State.reach; split <;> rfl
@[simp] theorem State.reach_trace (c : Cycle) (s : State) : (s.reach c).trace = s.trace := by
  unfold State.reach; split <;> rfl
@[simp] theorem State.reach_releasedAt (c : Cycle) (s : State) : (s.reach c).releasedAt = s.releasedAt := by
  unfold State.reach; split <;> rfl
@[simp] theorem State.reach_target (c : Cycle) (s : State) : (s.reach c).target = s.target := by
  unfold State.reach; split <;> rfl
@[simp] theorem State.reach_timing (c : Cycle) (s : State) : (s.reach c).timing = s.timing := by
  unfold State.reach; split <;> rfl
@[simp] theorem State.reach_drawn (c : Cycle) (s : State) : (s.reach c).drawn = s.drawn := by
  unfold State.reach; split <;> rfl

@[simp] theorem State.late_signal (c : Cycle) (b : Bool) (s : State) : (s.late c b).signal = s.signal := by
  simp [State.late]
@[simp] theorem State.late_resetPin (c : Cycle) (b : Bool) (s : State) : (s.late c b).resetPin = s.resetPin := by
  simp [State.late]
@[simp] theorem State.late_im (c : Cycle) (b : Bool) (s : State) : (s.late c b).im = s.im := by
  simp [State.late]
@[simp] theorem State.late_params (c : Cycle) (b : Bool) (s : State) : (s.late c b).params = s.params := by
  simp [State.late]
@[simp] theorem State.late_mem (c : Cycle) (b : Bool) (s : State) : (s.late c b).mem = s.mem := by
  simp [State.late]
@[simp] theorem State.late_cursor (c : Cycle) (b : Bool) (s : State) : (s.late c b).cursor = s.cursor := by
  simp [State.late]
@[simp] theorem State.late_frame (c : Cycle) (b : Bool) (s : State) : (s.late c b).frame = s.frame := by
  simp [State.late]
@[simp] theorem State.late_entry (c : Cycle) (b : Bool) (s : State) : (s.late c b).entry = s.entry := by
  simp [State.late]
@[simp] theorem State.late_command (c : Cycle) (b : Bool) (s : State) : (s.late c b).command = s.command := by
  simp [State.late]
@[simp] theorem State.late_result (c : Cycle) (b : Bool) (s : State) : (s.late c b).result = s.result := by
  simp [State.late]
@[simp] theorem State.late_calls (c : Cycle) (b : Bool) (s : State) : (s.late c b).calls = s.calls := by
  simp [State.late]
@[simp] theorem State.late_trace (c : Cycle) (b : Bool) (s : State) : (s.late c b).trace = s.trace := by
  simp [State.late]
@[simp] theorem State.late_releasedAt (c : Cycle) (b : Bool) (s : State) : (s.late c b).releasedAt = s.releasedAt := by
  simp [State.late]
@[simp] theorem State.late_target (c : Cycle) (b : Bool) (s : State) : (s.late c b).target = s.target := by
  simp [State.late]

@[simp] theorem State.late_time (c : Cycle) (b : Bool) (s : State) :
    (s.late c b).time = s.time + lateness c b s := by
  simp [State.late]

@[simp] theorem State.waitUntil_signal (c : Cycle) (s : State) : (s.waitUntil c).signal = s.signal := by
  simp [State.waitUntil]
@[simp] theorem State.waitUntil_resetPin (c : Cycle) (s : State) : (s.waitUntil c).resetPin = s.resetPin := by
  simp [State.waitUntil]
@[simp] theorem State.waitUntil_im (c : Cycle) (s : State) : (s.waitUntil c).im = s.im := by
  simp [State.waitUntil]
@[simp] theorem State.waitUntil_params (c : Cycle) (s : State) : (s.waitUntil c).params = s.params := by
  simp [State.waitUntil]
@[simp] theorem State.waitUntil_mem (c : Cycle) (s : State) : (s.waitUntil c).mem = s.mem := by
  simp [State.waitUntil]
@[simp] theorem State.waitUntil_cursor (c : Cycle) (s : State) : (s.waitUntil c).cursor = s.cursor := by
  simp [State.waitUntil]
@[simp] theorem State.waitUntil_frame (c : Cycle) (s : State) : (s.waitUntil c).frame = s.frame := by
  simp [State.waitUntil]
@[simp] theorem State.waitUntil_entry (c : Cycle) (s : State) : (s.waitUntil c).entry = s.entry := by
  simp [State.waitUntil]
@[simp] theorem State.waitUntil_command (c : Cycle) (s : State) : (s.waitUntil c).command = s.command := by
  simp [State.waitUntil]
@[simp] theorem State.waitUntil_result (c : Cycle) (s : State) : (s.waitUntil c).result = s.result := by
  simp [State.waitUntil]
@[simp] theorem State.waitUntil_calls (c : Cycle) (s : State) : (s.waitUntil c).calls = s.calls := by
  simp [State.waitUntil]
@[simp] theorem State.waitUntil_trace (c : Cycle) (s : State) : (s.waitUntil c).trace = s.trace := by
  simp [State.waitUntil]
@[simp] theorem State.waitUntil_releasedAt (c : Cycle) (s : State) : (s.waitUntil c).releasedAt = s.releasedAt := by
  simp [State.waitUntil]
@[simp] theorem State.waitUntil_target (c : Cycle) (s : State) : (s.waitUntil c).target = s.target := by
  simp [State.waitUntil]

@[simp] theorem State.schedule_resetPin (c : Cycle) (a : PinAction) (s : State) : (s.schedule c a).resetPin = s.resetPin := by
  simp [State.schedule]
@[simp] theorem State.schedule_im (c : Cycle) (a : PinAction) (s : State) : (s.schedule c a).im = s.im := by
  simp [State.schedule]
@[simp] theorem State.schedule_params (c : Cycle) (a : PinAction) (s : State) : (s.schedule c a).params = s.params := by
  simp [State.schedule]
@[simp] theorem State.schedule_mem (c : Cycle) (a : PinAction) (s : State) : (s.schedule c a).mem = s.mem := by
  simp [State.schedule]
@[simp] theorem State.schedule_cursor (c : Cycle) (a : PinAction) (s : State) : (s.schedule c a).cursor = s.cursor := by
  simp [State.schedule]
@[simp] theorem State.schedule_frame (c : Cycle) (a : PinAction) (s : State) : (s.schedule c a).frame = s.frame := by
  simp [State.schedule]
@[simp] theorem State.schedule_entry (c : Cycle) (a : PinAction) (s : State) : (s.schedule c a).entry = s.entry := by
  simp [State.schedule]
@[simp] theorem State.schedule_command (c : Cycle) (a : PinAction) (s : State) : (s.schedule c a).command = s.command := by
  simp [State.schedule]
@[simp] theorem State.schedule_result (c : Cycle) (a : PinAction) (s : State) : (s.schedule c a).result = s.result := by
  simp [State.schedule]
@[simp] theorem State.schedule_calls (c : Cycle) (a : PinAction) (s : State) : (s.schedule c a).calls = s.calls := by
  simp [State.schedule]
@[simp] theorem State.schedule_target (c : Cycle) (a : PinAction) (s : State) : (s.schedule c a).target = s.target := by
  simp [State.schedule]

@[simp] theorem State.schedule_signal (c : Cycle) (a : PinAction) (s : State) :
    (s.schedule c a).signal = s.signal.write a := by
  simp [State.schedule]

@[simp] theorem State.schedule_trace (c : Cycle) (a : PinAction) (s : State) :
    (s.schedule c a).trace = { cycle := (s.waitUntil c).time, action := .pin .signal a } :: s.trace := by
  simp [State.schedule]

@[simp] theorem State.atPayload_signal (i : Nat) (c : Cycle) (s : State) : (s.atPayload i c).signal = s.signal := rfl
@[simp] theorem State.atPayload_resetPin (i : Nat) (c : Cycle) (s : State) : (s.atPayload i c).resetPin = s.resetPin := rfl
@[simp] theorem State.atPayload_time (i : Nat) (c : Cycle) (s : State) : (s.atPayload i c).time = s.time := rfl
@[simp] theorem State.atPayload_im (i : Nat) (c : Cycle) (s : State) : (s.atPayload i c).im = s.im := rfl
@[simp] theorem State.atPayload_params (i : Nat) (c : Cycle) (s : State) : (s.atPayload i c).params = s.params := rfl
@[simp] theorem State.atPayload_mem (i : Nat) (c : Cycle) (s : State) : (s.atPayload i c).mem = s.mem := rfl
@[simp] theorem State.atPayload_cursor (i : Nat) (c : Cycle) (s : State) : (s.atPayload i c).cursor = s.cursor := rfl
@[simp] theorem State.atPayload_frame (i : Nat) (c : Cycle) (s : State) : (s.atPayload i c).frame = s.frame := rfl
@[simp] theorem State.atPayload_entry (i : Nat) (c : Cycle) (s : State) : (s.atPayload i c).entry = s.entry := rfl
@[simp] theorem State.atPayload_result (i : Nat) (c : Cycle) (s : State) : (s.atPayload i c).result = s.result := rfl
@[simp] theorem State.atPayload_calls (i : Nat) (c : Cycle) (s : State) : (s.atPayload i c).calls = s.calls := rfl
@[simp] theorem State.atPayload_trace (i : Nat) (c : Cycle) (s : State) : (s.atPayload i c).trace = s.trace := rfl
@[simp] theorem State.atPayload_releasedAt (i : Nat) (c : Cycle) (s : State) : (s.atPayload i c).releasedAt = s.releasedAt := rfl
@[simp] theorem State.atPayload_target (i : Nat) (c : Cycle) (s : State) : (s.atPayload i c).target = s.target := rfl
@[simp] theorem State.atPayload_timing (i : Nat) (c : Cycle) (s : State) : (s.atPayload i c).timing = s.timing := rfl
@[simp] theorem State.atPayload_drawn (i : Nat) (c : Cycle) (s : State) : (s.atPayload i c).drawn = s.drawn := rfl

@[simp] theorem State.atRx_signal (j : Nat) (s : State) : (s.atRx j).signal = s.signal := rfl
@[simp] theorem State.atRx_resetPin (j : Nat) (s : State) : (s.atRx j).resetPin = s.resetPin := rfl
@[simp] theorem State.atRx_time (j : Nat) (s : State) : (s.atRx j).time = s.time := rfl
@[simp] theorem State.atRx_im (j : Nat) (s : State) : (s.atRx j).im = s.im := rfl
@[simp] theorem State.atRx_params (j : Nat) (s : State) : (s.atRx j).params = s.params := rfl
@[simp] theorem State.atRx_mem (j : Nat) (s : State) : (s.atRx j).mem = s.mem := rfl
@[simp] theorem State.atRx_cursor (j : Nat) (s : State) : (s.atRx j).cursor = s.cursor := rfl
@[simp] theorem State.atRx_frame (j : Nat) (s : State) : (s.atRx j).frame = s.frame := rfl
@[simp] theorem State.atRx_entry (j : Nat) (s : State) : (s.atRx j).entry = s.entry := rfl
@[simp] theorem State.atRx_result (j : Nat) (s : State) : (s.atRx j).result = s.result := rfl
@[simp] theorem State.atRx_calls (j : Nat) (s : State) : (s.atRx j).calls = s.calls := rfl
@[simp] theorem State.atRx_trace (j : Nat) (s : State) : (s.atRx j).trace = s.trace := rfl
@[simp] theorem State.atRx_releasedAt (j : Nat) (s : State) : (s.atRx j).releasedAt = s.releasedAt := rfl
@[simp] theorem State.atRx_target (j : Nat) (s : State) : (s.atRx j).target = s.target := rfl
@[simp] theorem State.atRx_timing (j : Nat) (s : State) : (s.atRx j).timing = s.timing := rfl
@[simp] theorem State.atRx_drawn (j : Nat) (s : State) : (s.atRx j).drawn = s.drawn := rfl

@[simp] theorem State.atPayload_command (i : Nat) (c : Cycle) (s : State) :
    (s.atPayload i c).command = { s.command with pos := .payload i, ackStart := c } := rfl
@[simp] theorem State.atRx_command (j : Nat) (s : State) :
    (s.atRx j).command = { s.command with pos := .rx j } := rfl

end Sys2Proof.Machine
end

