-- ==== Sys2Proof/Laws/Memory.lean ====
section
/-!
SUPPORT. Laws/Memory.lean: the laws of caller memory: what a read gives after a write, and that a write keeps the canonical
form.
-/

namespace Sys2Proof.Machine

open Sys2Proof

theorem Memory.read_of_lt {a : Nat} {m : Memory} (h : ∀ c ∈ m, a < c.1) : Memory.read a m = Memory.unlisted := by
  induction m with
  | nil => rfl
  | cons c m ih =>
    obtain ⟨b, v⟩ := c
    have hb : a < b := h (b, v) (by simp)
    have ih' := ih fun c hc => h c (by simp [hc])
    simp [Memory.read, hb.ne, ih']

theorem Memory.erase_subset {a : Nat} {m : Memory} {c : Host.Cell} (h : c ∈ Memory.erase a m) : c ∈ m := by
  induction m with
  | nil => simp [Memory.erase] at h
  | cons d m ih =>
    obtain ⟨b, v⟩ := d
    unfold Memory.erase at h
    split at h
    · exact List.mem_cons_of_mem _ h
    · rcases List.mem_cons.1 h with h | h
      · exact h ▸ List.mem_cons_self
      · exact List.mem_cons_of_mem _ (ih h)

theorem Memory.mem_insert {a : Nat} {w : Byte} {m : Memory} {c : Host.Cell} (h : c ∈ Memory.insert a w m) :
    c = (a, w) ∨ c ∈ m := by
  induction m with
  | nil => simpa [Memory.insert] using h
  | cons d m ih =>
    obtain ⟨b, v⟩ := d
    unfold Memory.insert at h
    split at h
    · rcases List.mem_cons.1 h with h | h
      · exact .inl h
      · exact .inr h
    · split at h
      · rcases List.mem_cons.1 h with h | h
        · exact .inl h
        · exact .inr (List.mem_cons_of_mem _ h)
      · rcases List.mem_cons.1 h with h | h
        · exact .inr (h ▸ List.mem_cons_self)
        · rcases ih h with h | h
          · exact .inl h
          · exact .inr (List.mem_cons_of_mem _ h)

theorem Memory.erase_wf {a : Nat} {m : Memory} (h : Memory.wf m) : Memory.wf (Memory.erase a m) := by
  refine ⟨?_, fun c hc => h.2 c (Memory.erase_subset hc)⟩
  obtain ⟨hp, -⟩ := h
  induction m with
  | nil => exact hp
  | cons d m ih =>
    obtain ⟨b, v⟩ := d
    rw [List.pairwise_cons] at hp
    unfold Memory.erase
    split
    · exact hp.2
    · exact List.pairwise_cons.2 ⟨fun c hc => hp.1 c (Memory.erase_subset hc), ih hp.2⟩

theorem Memory.insert_wf {a : Nat} {w : Byte} {m : Memory} (hw : w ≠ Memory.unlisted) (h : Memory.wf m) :
    Memory.wf (Memory.insert a w m) := by
  refine ⟨?_, fun c hc => ?_⟩
  · obtain ⟨hp, -⟩ := h
    induction m with
    | nil => simp [Memory.insert]
    | cons d m ih =>
      obtain ⟨b, v⟩ := d
      have hp' := hp
      rw [List.pairwise_cons] at hp
      unfold Memory.insert
      split
      · rename_i hab
        refine List.pairwise_cons.2 ⟨fun c hc => ?_, hp'⟩
        rcases List.mem_cons.1 hc with hc | hc
        · exact hc ▸ hab
        · exact Nat.lt_trans hab (hp.1 c hc)
      · split
        · rename_i hab
          exact List.pairwise_cons.2 ⟨fun c hc => hab ▸ hp.1 c hc, hp.2⟩
        · refine List.pairwise_cons.2 ⟨fun c hc => ?_, ih hp.2⟩
          rcases Memory.mem_insert hc with hc | hc
          · subst hc; show b < a; omega
          · exact hp.1 c hc
  · rcases Memory.mem_insert hc with hc | hc
    · exact hc ▸ hw
    · exact h.2 c hc

/-- Every write keeps the canonical form. -/
theorem Memory.write_wf {a : Nat} {w : Byte} {m : Memory} (h : Memory.wf m) : Memory.wf (Memory.write a w m) := by
  unfold Memory.write
  split
  · exact Memory.erase_wf h
  · exact Memory.insert_wf ‹_› h

theorem Memory.read_insert (a b : Nat) (w : Byte) (m : Memory) :
    Memory.read b (Memory.insert a w m) = if b = a then w else Memory.read b m := by
  induction m with
  | nil => simp [Memory.insert, Memory.read]
  | cons d m ih =>
    obtain ⟨c, v⟩ := d
    unfold Memory.insert
    split
    · simp [Memory.read]
    · split
      · subst_vars; simp only [Memory.read]; split <;> simp_all
      · simp only [Memory.read, ih]
        split
        · split <;> first | rfl | omega
        · rfl

theorem Memory.read_erase {a b : Nat} {m : Memory} (h : Memory.wf m) :
    Memory.read b (Memory.erase a m) = if b = a then Memory.unlisted else Memory.read b m := by
  obtain ⟨hp, -⟩ := h
  induction m with
  | nil => simp [Memory.erase, Memory.read]
  | cons d m ih =>
    obtain ⟨c, v⟩ := d
    rw [List.pairwise_cons] at hp
    unfold Memory.erase
    split
    · subst_vars
      by_cases hb : b = c
      · subst hb; simpa [Memory.read] using Memory.read_of_lt hp.1
      · simp [Memory.read, hb]
    · simp only [Memory.read, ih hp.2]
      split
      · split <;> first | rfl | omega
      · rfl

/-- A read after a write: the byte written at its address, and every other byte as before. -/
theorem Memory.read_write {a b : Nat} {w : Byte} {m : Memory} (h : Memory.wf m) :
    Memory.read b (Memory.write a w m) = if b = a then w else Memory.read b m := by
  unfold Memory.write
  split
  · subst_vars; exact Memory.read_erase h
  · exact Memory.read_insert a b w m

/-- What a write to a caller buffer can do: the index lies inside the buffer and one byte is stored. -/
theorem writeBuffer_cases {b : Buffer} {i : Nat} {v : Byte} {m m' : Memory} (h : writeBuffer b i v m = some m') :
    i < b.size ∧ m' = Memory.write (b.base + i) v m := by
  unfold writeBuffer at h
  split at h
  · exact ⟨‹_›, (Option.some.inj h).symm⟩
  · cases h

/-- What a read of a caller buffer can give: the index lies inside the buffer and the byte stands at its address. -/
theorem readBuffer_cases {b : Buffer} {i : Nat} {v : Byte} {m : Memory} (h : readBuffer b i m = some v) :
    i < b.size ∧ v = Memory.read (b.base + i) m := by
  unfold readBuffer at h
  split at h
  · exact ⟨‹_›, (Option.some.inj h).symm⟩
  · cases h

theorem readBuffer_of_lt {b : Buffer} {i : Nat} {m : Memory} (h : i < b.size) :
    readBuffer b i m = some (Memory.read (b.base + i) m) := if_pos h

theorem writeBuffer_of_lt {b : Buffer} {i : Nat} {v : Byte} {m : Memory} (h : i < b.size) :
    writeBuffer b i v m = some (Memory.write (b.base + i) v m) := if_pos h

end Sys2Proof.Machine
end

