-- ==== Sys2Proof/Laws/Wire.lean ====
section
/-!
SUPPORT. Laws/Wire.lean: what the operations on SIGNAL leave alone, one lemma for each shared operation, over every timing.
-/

namespace Sys2Proof.Machine

open Sys2Proof

namespace Forward

theorem refl (s : State) : Forward s s := ⟨Nat.le_refl _, [], by simp⟩

/-- Time passes and nothing is recorded. -/
theorem of_time {s t : State} (h : s.time ≤ t.time) (g : t.trace = s.trace) : Forward s t :=
  ⟨h, [], by simp [g]⟩

/-- One event is recorded at the current cycle. -/
theorem of_event {s t : State} {e : Event} (h : t.time = s.time) (he : e.cycle = s.time) (g : t.trace = e :: s.trace) :
    Forward s t :=
  ⟨by omega, [e], by simp [g], by simp, by simp; omega⟩

theorem trans {s t u : State} (h : Forward s t) (g : Forward t u) : Forward s u := by
  obtain ⟨h1, ev, h2, h3, h4⟩ := h
  obtain ⟨g1, ew, g2, g3, g4⟩ := g
  refine ⟨h1.trans g1, ew ++ ev, by simp [g2, h2], ?_, ?_⟩
  · refine List.pairwise_append.2 ⟨g3, h3, fun a ha b hb => ?_⟩
    exact (h4 b hb).2.trans (g4 a ha).1
  · intro e he
    rcases List.mem_append.1 he with he | he
    · exact ⟨h1.trans (g4 e he).1, (g4 e he).2⟩
    · exact ⟨(h4 e he).1, (h4 e he).2.trans g1⟩

theorem time {s t : State} (h : Forward s t) : s.time ≤ t.time := h.1

theorem suffix {s t : State} (h : Forward s t) : s.trace <:+ t.trace := by
  obtain ⟨-, ev, h2, -⟩ := h
  exact ⟨ev, h2.symm⟩

/-- Running forward keeps the events in order (R71). -/
theorem ordered {s t : State} (h : Forward s t) (hs : s.Ordered) : t.Ordered := by
  obtain ⟨h1, ev, h2, h3, h4⟩ := h
  obtain ⟨o1, o2⟩ := hs
  unfold State.Ordered
  rw [h2]
  refine ⟨List.pairwise_append.2 ⟨h3, o1, fun a ha b hb => (o2 b hb).trans (h4 a ha).1⟩, ?_⟩
  intro e he
  rcases List.mem_append.1 he with he | he
  · exact (h4 e he).2
  · exact (o2 e he).trans h1

end Forward

theorem elapse_forward (s : State) (due : Option Cycle := none) : Forward s (s.elapse due) := .of_time (by simp) (by simp)

namespace WireOnly

theorem refl (s : State) : WireOnly s s := by constructor <;> first | rfl | exact Forward.refl s

theorem trans {s t u : State} (h : WireOnly s t) (g : WireOnly t u) : WireOnly s u where
  resetPin := g.resetPin.trans h.resetPin
  im := g.im.trans h.im
  params := g.params.trans h.params
  mem := g.mem.trans h.mem
  cursor := g.cursor.trans h.cursor
  entry := g.entry.trans h.entry
  command := g.command.trans h.command
  result := g.result.trans h.result
  calls := g.calls.trans h.calls
  target := g.target.trans h.target
  forward := h.forward.trans g.forward

end WireOnly

theorem State.reach_time_le (c : Cycle) (s : State) : s.time ≤ (s.reach c).time := by
  unfold State.reach; split <;> simp

@[simp] theorem State.waitUntil_time (c : Cycle) (s : State) :
    (s.waitUntil c).time =
      ((s.elapse (some c)).reach c).time +
        lateness c ((s.elapse (some c)).inTime c) ((s.elapse (some c)).reach c) := by
  simp [State.waitUntil]

theorem elapse_wire (s : State) (due : Option Cycle := none) : WireOnly s (s.elapse due) := by
  constructor <;> first | exact elapse_forward s due | simp

theorem setFrame_wire (f : FrameRegs) (s : State) : WireOnly s (s.setFrame f) := by
  constructor <;> first | exact Forward.refl s | simp

theorem late_wire (c : Cycle) (b : Bool) (s : State) : WireOnly s (s.late c b) := by
  constructor
  case forward => exact .of_time (by simp) (by simp)
  all_goals simp

theorem waitUntil_wire (c : Cycle) (s : State) : WireOnly s (s.waitUntil c) := by
  constructor
  case forward =>
    refine .of_time ?_ (by simp)
    rw [State.waitUntil_time]
    exact ((elapse_forward s (some c)).time.trans ((s.elapse (some c)).reach_time_le c)).trans (Nat.le_add_right _ _)
  all_goals simp

theorem pinWrite_wire (a : PinAction) (s : State) : WireOnly s (s.pinWrite .signal a) := by
  constructor
  case forward => exact .of_event (by simp) (by rfl) (State.pinWrite_signal_trace a s)
  all_goals simp

theorem pinSet_wire (a : PinAction) (s : State) (due : Option Cycle := none) : WireOnly s (s.pinSet .signal a due) :=
  (elapse_wire s due).trans (pinWrite_wire a _)

theorem schedule_wire (c : Cycle) (a : PinAction) (s : State) : WireOnly s (s.schedule c a) :=
  (waitUntil_wire c s).trans (pinWrite_wire a _)

theorem pinRead_wire (s : State) : WireOnly s s.pinRead := by
  constructor
  case forward => exact .of_event (by simp) (by rfl) (State.pinRead_trace s)
  all_goals simp

theorem pollCost_wire (s : State) : WireOnly s s.pollCost := by
  constructor
  case forward => exact .of_time (by simp) (by simp)
  all_goals simp

theorem poll_wire (want : Level) (k : Nat) (s : State) : WireOnly s (poll want k s).2 := by
  induction k generalizing s with
  | zero => exact .refl s
  | succ k ih =>
    unfold poll
    split
    · exact (pinRead_wire s).trans (elapse_wire _)
    · exact ((pinRead_wire s).trans (pollCost_wire _)).trans (ih _)

theorem receiveBit_wire (s : State) : WireOnly s (receiveBit s).2 := by
  unfold receiveBit
  have h := poll_wire .low s.params.timeout s
  generalize poll .low s.params.timeout s = r at h
  obtain ⟨_ | t, u⟩ := r
  · exact h
  · exact (h.trans (waitUntil_wire _ _)).trans (pinRead_wire _)

theorem sendBit_wire (c : Cycle) (z b : Bool) (s : State) : WireOnly s (s.sendBit c z b) := by
  unfold State.sendBit
  cases z <;> cases b <;> simp only [if_true, Bool.false_eq_true, if_false]
  · exact schedule_wire _ _ _
  · exact (schedule_wire _ _ _).trans (schedule_wire _ _ _)
  · exact (schedule_wire _ _ _).trans (schedule_wire _ _ _)
  · exact ((schedule_wire _ _ _).trans (schedule_wire _ _ _)).trans (schedule_wire _ _ _)

theorem finishFrame_wire (c : Cycle) (s : State) : WireOnly s (s.finishFrame c) := schedule_wire _ _ _

theorem sendFrameBit_wire (c : Cycle) (b : Bool) (s : State) : WireOnly s (s.sendFrameBit c b) :=
  (sendBit_wire _ _ _ s).trans (setFrame_wire _ _)

theorem sendFrameBits_wire (c : Cycle) (v : BitVec 16) (n : Nat) (s : State) :
    WireOnly s (sendFrameBits c v n s) := by
  induction n generalizing s with
  | zero => exact .refl s
  | succ n ih => exact (sendFrameBit_wire _ _ _).trans (ih _)

theorem sendFrame_wire (c : Cycle) (v : BitVec 16) (n : Nat) (s : State) : WireOnly s (s.sendFrame c v n) := by
  unfold State.sendFrame
  refine WireOnly.trans ?_ (setFrame_wire _ _)
  refine WireOnly.trans ?_ (pinSet_wire _ _)
  refine WireOnly.trans ?_ (finishFrame_wire _ _)
  refine WireOnly.trans ?_ (sendBit_wire _ _ _ _)
  refine WireOnly.trans ?_ (sendFrameBits_wire _ _ _ _)
  exact ((pinSet_wire _ s _).trans (pinSet_wire _ _ _)).trans (setFrame_wire _ _)

theorem sendByte_wire (c : Cycle) (v : BitVec 16) (n : Nat) (s : State) : WireOnly s (sendByte c v n s).2 :=
  ((sendFrame_wire c v n s).trans (elapse_wire _)).trans (receiveBit_wire _)

theorem receiveFrameBits_wire (m : Nat) (s : State) : WireOnly s (receiveFrameBits m s).2 := by
  induction m generalizing s with
  | zero => exact .refl s
  | succ m ih =>
    unfold receiveFrameBits
    have h := (waitUntil_wire (plus s.params s.frame.start s.params.tRxOffset) s).trans (receiveBit_wire _)
    generalize receiveBit (s.waitUntil (plus s.params s.frame.start s.params.tRxOffset)) = r at h
    obtain ⟨_ | ⟨l, t⟩, u⟩ := r
    · exact h
    · exact (h.trans (setFrame_wire _ _)).trans (ih _)

/-- The host's ACK bit from the `now()` of its schedule on (R146). -/
theorem sendAck_atAck_wire (bad : Bool) (s : State) : WireOnly s.atAck (s.sendAck bad) := by
  unfold State.sendAck
  refine WireOnly.trans ?_ (pinSet_wire _ _)
  refine WireOnly.trans ?_ (finishFrame_wire _ _)
  refine WireOnly.trans ?_ (sendBit_wire _ _ _ _)
  exact (pinSet_wire _ s.atAck _).trans (pinSet_wire _ _ _)

theorem sendAck_wire (bad : Bool) (s : State) : WireOnly s (s.sendAck bad) :=
  (elapse_wire s _).trans (sendAck_atAck_wire bad s)

theorem receiveByte_wire (s : State) : WireOnly s (receiveByte s).2 := by
  unfold receiveByte
  have h := receiveBit_wire s
  generalize receiveBit s = r at h
  obtain ⟨_ | ⟨l, t⟩, u⟩ := r
  · exact h
  · dsimp only
    split
    · exact h
    · have g := (h.trans (setFrame_wire { bit := 1, start := t } _)).trans (receiveFrameBits_wire 9 _)
      generalize receiveFrameBits 9 (u.setFrame { bit := 1, start := t }) = q at g
      obtain ⟨_ | i, w⟩ := q
      · exact (g.trans (sendAck_wire _ _)).trans (setFrame_wire _ _)
      · exact g.trans (setFrame_wire _ _)

/-! ### SIGNAL and the frame registers -/

@[simp] theorem poll_signal (want : Level) (k : Nat) (s : State) : (poll want k s).2.signal = s.signal := by
  induction k generalizing s with
  | zero => rfl
  | succ k ih => unfold poll; split <;> simp [ih]

@[simp] theorem poll_frame (want : Level) (k : Nat) (s : State) : (poll want k s).2.frame = s.frame := by
  induction k generalizing s with
  | zero => rfl
  | succ k ih => unfold poll; split <;> simp [ih]

@[simp] theorem poll_releasedAt (want : Level) (k : Nat) (s : State) :
    (poll want k s).2.releasedAt = s.releasedAt := by
  induction k generalizing s with
  | zero => rfl
  | succ k ih => unfold poll; split <;> simp [ih]

@[simp] theorem receiveBit_signal (s : State) : (receiveBit s).2.signal = s.signal := by
  unfold receiveBit; dsimp only; split <;> simp

@[simp] theorem receiveBit_frame (s : State) : (receiveBit s).2.frame = s.frame := by
  unfold receiveBit; dsimp only; split <;> simp

@[simp] theorem receiveBit_releasedAt (s : State) : (receiveBit s).2.releasedAt = s.releasedAt := by
  unfold receiveBit; dsimp only; split <;> simp

@[simp] theorem sendBit_frame (c : Cycle) (z b : Bool) (s : State) : (s.sendBit c z b).frame = s.frame := by
  unfold State.sendBit; cases z <;> cases b <;> simp

@[simp] theorem sendBit_mode (c : Cycle) (z b : Bool) (s : State) : (s.sendBit c z b).signal.mode = s.signal.mode := by
  unfold State.sendBit; cases z <;> cases b <;> simp

/-- After a bit the latch holds it (R125). -/
@[simp] theorem sendBit_latch (c : Cycle) (z b : Bool) (s : State) :
    (s.sendBit c z b).signal.latch = if b then .high else .low := by
  unfold State.sendBit; cases z <;> cases b <;> simp

@[simp] theorem finishFrame_frame (c : Cycle) (s : State) : (s.finishFrame c).frame = s.frame := by
  simp [State.finishFrame]

@[simp] theorem finishFrame_signal (c : Cycle) (s : State) :
    (s.finishFrame c).signal = s.signal.write .setHigh := by
  simp [State.finishFrame]

/-- After a host frame SIGNAL is INPUT with its latch HIGH (R140). -/
@[simp] theorem sendFrame_signal (c : Cycle) (v : BitVec 16) (n : Nat) (s : State) :
    (s.sendFrame c v n).signal = { mode := .input, latch := .high } := by
  simp [State.sendFrame, Pin.write]

@[simp] theorem sendFrame_frame (c : Cycle) (v : BitVec 16) (n : Nat) (s : State) :
    (s.sendFrame c v n).frame = {} := rfl

@[simp] theorem sendByte_signal (c : Cycle) (v : BitVec 16) (n : Nat) (s : State) :
    (sendByte c v n s).2.signal = { mode := .input, latch := .high } := by
  simp [sendByte]

@[simp] theorem sendByte_frame (c : Cycle) (v : BitVec 16) (n : Nat) (s : State) : (sendByte c v n s).2.frame = {} := by
  simp [sendByte]

@[simp] theorem receiveFrameBits_signal (m : Nat) (s : State) : (receiveFrameBits m s).2.signal = s.signal := by
  induction m generalizing s with
  | zero => rfl
  | succ m ih =>
    unfold receiveFrameBits
    dsimp only
    split
    · simp
    · simp [ih]

/-- After the host's ACK bit SIGNAL is INPUT with its latch HIGH (R146). -/
@[simp] theorem sendAck_signal (bad : Bool) (s : State) :
    (s.sendAck bad).signal = { mode := .input, latch := .high } := by
  simp [State.sendAck, Pin.write]

/-- SIGNAL after a target frame (R146, R200): INPUT and HIGH once the host has sent its ACK bit, and as it was where
no ACK bit was sent. -/
theorem receiveByte_signal (s : State) :
    (receiveByte s).2.signal =
      if (∃ v, (receiveByte s).1 = .ok v) ∨ (receiveByte s).1 = .error .parityError
      then { mode := .input, latch := .high } else s.signal := by
  unfold receiveByte
  have h := receiveBit_signal s
  generalize receiveBit s = r at h
  obtain ⟨_ | ⟨l, t⟩, u⟩ := r
  · simpa using h
  · dsimp only at h ⊢
    split
    · simpa using h
    · have g := receiveFrameBits_signal 9 (u.setFrame { bit := 1, start := t })
      generalize receiveFrameBits 9 (u.setFrame { bit := 1, start := t }) = q at g
      obtain ⟨_ | i, w⟩ := q
      · dsimp only
        split <;> simp
      · simpa [h] using g

theorem receiveByte_frame (s : State) (h : s.frame = {}) : (receiveByte s).2.frame = {} := by
  unfold receiveByte
  have g := receiveBit_frame s
  generalize receiveBit s = r at g
  obtain ⟨_ | ⟨l, t⟩, u⟩ := r
  · exact g.trans h
  · dsimp only
    split
    · exact g.trans h
    · generalize receiveFrameBits 9 (u.setFrame { bit := 1, start := t }) = q
      obtain ⟨_ | i, w⟩ := q <;> rfl

end Sys2Proof.Machine
end

