-- ==== Sys2Proof/Laws/Cycles.lean ====
section
/-!
SUPPORT. Laws/Cycles.lean: cycle arithmetic on cycles that are counted without wrapping (R13, R113, R114), and the wait
(R111, R112). Every law holds for every W_CC.
-/

namespace Sys2Proof.Machine

open Sys2Proof

variable (p : Params)

theorem wrap_lt (n : Nat) : wrap p n < 2 ^ p.wCc := Nat.mod_lt _ (Nat.two_pow_pos _)

theorem half_le : 2 ^ (p.wCc - 1) ≤ 2 ^ p.wCc := Nat.pow_le_pow_right (by decide) (Nat.sub_le ..)

theorem plus_wrap (a d : Nat) : plus p (wrap p a) d = wrap p (a + d) := Nat.mod_add_mod ..

theorem plus_plus (t : Cycle) (a b : Nat) : plus p (plus p t a) b = plus p t (a + b) := by
  rw [show plus p t a = wrap p (t + a) from rfl, plus_wrap, Nat.add_assoc]; rfl

theorem modulus_cast : ((2 ^ p.wCc : Nat) : Int) = (2 : Int) ^ p.wCc := by push_cast; rfl

theorem minus_cast (t : Cycle) (d : Nat) : (minus p t d : Int) = ((t : Int) - d) % 2 ^ p.wCc :=
  Int.toNat_of_nonneg (Int.emod_nonneg _ (Int.ne_of_gt (Int.pow_pos (by decide))))

theorem minus_lt (t : Cycle) (d : Nat) : minus p t d < 2 ^ p.wCc := by
  zify
  rw [minus_cast]
  exact Int.emod_lt_of_pos _ (Int.pow_pos (by decide))

theorem minus_wrap {a d : Nat} (h : d ≤ a) : minus p (wrap p a) d = wrap p (a - d) := by
  have e : ((minus p (wrap p a) d : Nat) : Int) = (wrap p (a - d) : Nat) := by
    rw [minus_cast, wrap, wrap]; push_cast [h]; rw [Int.emod_sub_emod]
  exact_mod_cast e

/-- A difference of cycle values, read modulo 2^W_CC, is the distance of the cycles. -/
theorem minus_wrap_wrap {a b : Nat} (h : a ≤ b) (hlt : b < a + 2 ^ p.wCc) : minus p (wrap p b) (wrap p a) = b - a := by
  have e : ((minus p (wrap p b) (wrap p a) : Nat) : Int) = (b - a : Nat) := by
    rw [minus_cast, wrap, wrap]; push_cast [h]
    rw [← Int.sub_emod, Int.emod_eq_of_lt (by omega)]
    have : ((2 ^ p.wCc : Nat) : Int) = 2 ^ p.wCc := by push_cast; rfl
    omega
  exact_mod_cast e

/-- The signed difference of two cycles is their distance, read modulo 2^W_CC around 0. -/
theorem sdiff_wrap (a b : Nat) : sdiff p (wrap p a) (wrap p b) = ((a : Int) - b).bmod (2 ^ p.wCc) := by
  unfold sdiff wrap
  rw [Int.natCast_emod, Int.natCast_emod, Int.emod_sub_bmod, Int.sub_emod_bmod]

/-- The modulus is twice the window, but for a counter of no bits. -/
theorem modulus_half : 2 ^ p.wCc = 2 * 2 ^ (p.wCc - 1) ∨ 2 ^ p.wCc = 1 ∧ 2 ^ (p.wCc - 1) = 1 := by
  rcases p.wCc with _ | w
  · exact .inr ⟨rfl, rfl⟩
  · exact .inl (by rw [Nat.pow_succ, Nat.mul_comm]; rfl)

/-- The signed difference after n cycles more. -/
theorem sdiff_add (t n : Nat) (c : Cycle) : sdiff p (wrap p (t + n)) c = (sdiff p (wrap p t) c + n).bmod (2 ^ p.wCc) := by
  unfold sdiff wrap
  rw [Int.natCast_emod, Int.natCast_emod, Int.emod_sub_bmod, Int.emod_sub_bmod, Int.bmod_add_bmod]
  congr 1
  push_cast; ring

/-- Inside the window of R113 the signed difference is the distance. -/
theorem sdiff_window {a b : Nat} (h : a < b + 2 ^ (p.wCc - 1)) (g : b < a + 2 ^ (p.wCc - 1)) :
    sdiff p (wrap p a) (wrap p b) = (a : Int) - b := by
  have e := modulus_half p
  rw [sdiff_wrap]
  apply Int.bmod_eq_of_le <;> omega

theorem atOrAfter_wrap {a b : Nat} (h : a ≤ b) (hlt : b < a + 2 ^ (p.wCc - 1)) :
    atOrAfter p (wrap p b) (wrap p a) = true := by
  rw [atOrAfter, sdiff_window p hlt (by omega), decide_eq_true_eq]; omega

theorem not_atOrAfter_wrap {a b : Nat} (h : b < a) (hlt : a < b + 2 ^ (p.wCc - 1)) :
    atOrAfter p (wrap p b) (wrap p a) = false := by
  rw [atOrAfter, sdiff_window p (by omega) hlt, decide_eq_false_iff_not]; omega

/-- Inside the window of R113, `later` is the later of the two (R114). -/
theorem later_wrap {a b : Nat} (h : a < b + 2 ^ (p.wCc - 1)) (g : b < a + 2 ^ (p.wCc - 1)) :
    later p (wrap p a) (wrap p b) = wrap p (max a b) := by
  unfold later
  by_cases hab : b ≤ a
  · rw [atOrAfter_wrap p hab h, if_pos rfl, Nat.max_eq_left hab]
  · rw [not_atOrAfter_wrap p (by omega) g, Nat.max_eq_right (by omega)]; rfl

theorem atOrAfter_self (c : Cycle) : atOrAfter p c c = true := by simp [atOrAfter, sdiff]

/-- Moved on by `c ⊖ cc` the counter is at c (R13). -/
theorem sdiff_moved (c : Cycle) (t : Nat) : sdiff p (wrap p (t + minus p c (wrap p t))) c = 0 := by
  rw [sdiff, wrap, Int.natCast_emod, Int.emod_sub_bmod]
  push_cast
  rw [minus_cast, ← modulus_cast, show (t : Int) + (c - wrap p t) % ((2 ^ p.wCc : Nat) : Int) - c =
    (c - wrap p t) % ((2 ^ p.wCc : Nat) : Int) + (t - c) by ring, Int.emod_add_bmod, wrap, Int.natCast_emod,
    show (c : Int) - t % ((2 ^ p.wCc : Nat) : Int) + (t - c) = t - t % ((2 ^ p.wCc : Nat) : Int) by ring, Int.sub_emod_bmod]
  simp

variable {p} (c : Cycle) (s : State)

theorem State.cc_advance (n : Nat) : (s.advance n).cc = wrap s.params (s.time + n) := rfl

/-- The spin of a wait ends at or after its target (R111). -/
theorem reach_atOrAfter : atOrAfter s.params (s.reach c).cc c = true := by
  unfold State.reach
  split
  · assumption
  · rw [State.cc_advance, State.cc, atOrAfter, sdiff_moved]; rfl

/-- Where the primitive after a wait is at or after the wait's target, it still is once its lateness is over (R112). -/
theorem late_atOrAfter {b : Bool} (h : atOrAfter s.params s.cc c = true) : atOrAfter s.params (s.late c b).cc c = true := by
  have hcc : (s.late c b).cc = (s.advance (lateness c b s)).cc := by simp [State.cc]
  rw [hcc]
  unfold lateness
  split <;> rename_i g
  · exact g
  · exact h

/-- The primitive after a wait happens at or after the wait's target (R112). -/
theorem waitUntil_atOrAfter : atOrAfter s.params (s.waitUntil c).cc c = true := by
  have h := late_atOrAfter c ((s.elapse (some c)).reach c) (b := (s.elapse (some c)).inTime c)
    (by simpa using reach_atOrAfter c (s.elapse (some c)))
  simpa [State.waitUntil] using h

theorem lateness_le : lateness c true s ≤ s.params.epsCrit - (sdiff s.params s.cc c).toNat := by
  unfold lateness latenessDraw
  simp only [if_true]
  split
  · exact Nat.le_of_lt_succ (Nat.mod_lt _ (Nat.succ_pos _))
  · exact Nat.zero_le _

/-- Inside a critical section a wait that began in time ends at most EPS_CRIT after its target (R112). -/
theorem waitUntil_late (h : (s.elapse (some c)).inTime c = true) :
    (s.waitUntil c).time ≤
      (s.elapse (some c)).time + minus s.params c (s.elapse (some c)).cc + s.params.epsCrit := by
  have hp : (s.elapse (some c)).params = s.params := State.elapse_params _ _
  rw [State.waitUntil_time, h]
  generalize s.elapse (some c) = u at h hp ⊢
  have hb : atOrAfter u.params u.cc c = false := by
    simp only [State.inTime, Bool.and_eq_true, Bool.not_eq_true'] at h; exact h.2
  have hr : (u.reach c).time = u.time + minus u.params c u.cc := by simp [State.reach, hb]
  have := lateness_le c (u.reach c)
  simp only [hr, State.reach_params, hp] at this ⊢
  omega

/-- Inside a critical section the work between two primitives stays inside a schedule's room (R227). -/
theorem workDraw_le {s : State} (h : s.im = .masked) : workDraw (some c) s ≤ room c s := by
  simp only [workDraw, h, if_true]
  exact Nat.le_of_lt_succ (Nat.mod_lt _ (Nat.succ_pos _))

/-- Moved on by no more than a schedule's room the counter is at most 2^(W_CC−2) cycles past it (R113, R227). -/
theorem sdiff_room {n : Nat} (hs : sdiff s.params s.cc c ≤ 2 ^ (s.params.wCc - 2)) (hn : n ≤ room c s) :
    sdiff s.params (s.advance n).cc c ≤ 2 ^ (s.params.wCc - 2) := by
  have hb : -(2 ^ (s.params.wCc - 1) : Nat) ≤ sdiff s.params s.cc c := by
    have h1 := Int.le_bmod (x := (s.cc : Int) - c) (Nat.two_pow_pos s.params.wCc)
    have h2 := modulus_half s.params
    rw [sdiff]
    omega
  have e : sdiff s.params (s.advance n).cc c = (sdiff s.params s.cc c + n).bmod (2 ^ s.params.wCc) := sdiff_add _ _ _ _
  have hq : ((2 ^ (s.params.wCc - 2) : Nat) : Int) = 2 ^ (s.params.wCc - 2) := by push_cast; rfl
  rw [room, ← hq] at hn
  rw [← hq] at hs
  rw [e, ← hq]
  by_cases h : 2 ^ (s.params.wCc - 2) < 2 ^ (s.params.wCc - 1)
  · have h2 := modulus_half s.params
    have h3 := Nat.two_pow_pos (s.params.wCc - 2)
    rw [Int.bmod_eq_of_le] <;> omega
  · have h1 := Int.bmod_lt (x := sdiff s.params s.cc c + n) (Nat.two_pow_pos s.params.wCc)
    have h2 := modulus_half s.params
    omega

end Sys2Proof.Machine
end

