-- ==== Sys2Proof/Laws/Harness.lean ====
section
/-!
SUPPORT. Laws/Harness.lean: what the shared operations do under HARNESS timing (R117), where every cycle is known: one lemma
for each, in the terms of Safety.lean.
-/

namespace Sys2Proof.Machine

open Sys2Proof

/-- From s the machine came to u, at a cycle, with these writes (reads not counted), still under HARNESS timing. -/
structure Ran (s u : State) (writes : List Event) (time : Nat) : Prop where
  wire : WireOnly s u
  timing : u.timing = .scripted []
  trace : ∃ ev : List Event, u.trace = ev.reverse ++ s.trace ∧ ev.filter Event.notRead = writes
  time : u.time = time

theorem Ran.trans {s u w : State} {e f : List Event} {m n : Nat} (h : Ran s u e m) (g : Ran u w f n) :
    Ran s w (e ++ f) n where
  wire := h.wire.trans g.wire
  timing := g.timing
  trace := by
    obtain ⟨ev, h1, h2⟩ := h.trace
    obtain ⟨ev', g1, g2⟩ := g.trace
    exact ⟨ev ++ ev', by simp [g1, h1], by simp [h2, g2]⟩
  time := g.time

theorem Ran.refl {s : State} (h : s.Harness) : Ran s s [] s.time :=
  ⟨.refl s, h.timing, ⟨[], by simp⟩, rfl⟩

theorem Ran.harness {s u : State} {e : List Event} {m : Nat} (h : Ran s u e m) (hs : s.Harness) : u.Harness :=
  ⟨h.timing, by rw [h.wire.params]; exact hs.rise, by rw [h.wire.params]; exact hs.pollMin⟩

/-- The writes of a run are its new events but for the reads. -/
theorem Ran.newWrites {s u : State} {e : List Event} {m : Nat} (h : Ran s u e m) : newWrites s u = e := by
  obtain ⟨ev, h1, h2⟩ := h.trace
  unfold Machine.newWrites newEvents
  rw [h1]
  have : (ev.reverse ++ s.trace).length - s.trace.length = ev.reverse.length := by simp
  rw [this, List.take_left, List.reverse_reverse, h2]

theorem Ran.setFrame (f : FrameRegs) {s u : State} {e : List Event} {m : Nat} (h : Ran s u e m) :
    Ran s (u.setFrame f) e m :=
  ⟨h.wire.trans (setFrame_wire f u), by simpa using h.timing, by simpa using h.trace, by simpa using h.time⟩

namespace State.Harness

variable {s : State} (h : s.Harness)
include h

theorem drawValue : drawValue s = 0 := by simp [Machine.drawValue, h.timing]

theorem drawOne : s.drawOne = s := by
  have ht := h.timing
  simp only [State.drawOne, ht]
  rw [List.tail_nil, ← ht]

theorem workDraw (due : Option Cycle) : workDraw due s = 0 := by
  cases due <;> simp [Machine.workDraw, h.drawValue]

theorem elapse (due : Option Cycle) : s.elapse due = s := by
  simp [State.elapse, h.drawOne, h.workDraw, State.advance]

theorem lineRising : s.lineRising = false := by
  unfold State.lineRising
  rw [h.rise]
  cases s.releasedAt <;> simp

theorem lineLevel : s.lineLevel = if s.linePulled then .low else .high := by
  simp [State.lineLevel, h.lineRising]

theorem pinRead : s.pinRead = s.log (.read s.lineLevel) := by
  simp [State.pinRead, h.lineRising]

theorem log (a : Action) : (s.log a).Harness := ⟨by simpa using h.timing, by simpa using h.rise, by simpa using h.pollMin⟩

theorem advance (n : Nat) : (s.advance n).Harness :=
  ⟨by simpa using h.timing, by simpa using h.rise, by simpa using h.pollMin⟩

theorem pollCost : s.pollCost = s.advance 1 := by
  simp [State.pollCost, h.drawOne, h.drawValue, h.pollMin]

theorem reach (c : Cycle) : (s.reach c).Harness := by
  unfold State.reach; split
  · exact h
  · exact h.advance _

theorem late (c : Cycle) (b : Bool) : s.late c b = s := by
  have : lateness c b s = 0 := by
    have hd : latenessDraw c b s = 0 := by simp [latenessDraw, h.drawValue, h.workDraw]
    simp [lateness, hd]
  rw [State.late, h.drawOne, this]; rfl

theorem waitUntil (c : Cycle) : s.waitUntil c = s.reach c := by
  unfold State.waitUntil
  rw [h.elapse, (h.reach c).late]

end State.Harness

/-- Under HARNESS timing a wait for a later cycle sets the time to it (R117). -/
theorem waitUntil_ran {s : State} (h : s.Harness) {p : Params} (hq : s.params = p) {c : Nat} (hle : s.time ≤ c)
    (hlt : c < s.time + 2 ^ (p.wCc - 1)) : Ran s (s.waitUntil (wrap p c)) [] c := by
  subst hq
  have hw := half_le s.params
  refine ⟨waitUntil_wire _ _, ?_, ⟨[], by simp⟩, ?_⟩
  · rw [h.waitUntil]; exact (h.reach _).timing
  · rw [h.waitUntil]
    unfold State.reach State.cc
    split
    · rename_i hb
      by_cases hc : c = s.time
      · exact hc.symm
      · rw [not_atOrAfter_wrap _ (by omega) (by omega)] at hb; cases hb
    · rw [State.advance_time, minus_wrap_wrap _ hle (by omega)]
      omega

theorem pinWrite_ran (a : PinAction) {s : State} (h : s.Harness) :
    Ran s (s.pinWrite .signal a) [signalEvent a s.time] s.time :=
  ⟨pinWrite_wire a s, by simpa using h.timing, ⟨[signalEvent a s.time], by simp [signalEvent], rfl⟩, by simp⟩

theorem pinSet_ran (a : PinAction) {s : State} (h : s.Harness) (due : Option Cycle := none) :
    Ran s (s.pinSet .signal a due) [signalEvent a s.time] s.time := by
  unfold State.pinSet
  rw [h.elapse]
  exact pinWrite_ran a h

/-- Under HARNESS timing a scheduled transition happens at its cycle (R17, R117). -/
theorem schedule_ran (a : PinAction) {s : State} (h : s.Harness) {p : Params} (hq : s.params = p) {c : Nat} (hle : s.time ≤ c)
    (hlt : c < s.time + 2 ^ (p.wCc - 1)) : Ran s (s.schedule (wrap p c) a) [signalEvent a c] c := by
  have g := waitUntil_ran h hq hle hlt
  have k := pinWrite_ran a (g.harness h)
  rw [g.time] at k
  exact g.trans k

/-- `send_bit` under HARNESS timing (R125): its writes at their cycles. -/
theorem sendBit_ran {s : State} (h : s.Harness) {p : Params} (hq : s.params = p) {c : Nat} (z b : Bool)
    (hle : s.time + (if z then p.tShort else 0) ≤ c) (hlt : c < s.time + 2 ^ (p.wCc - 1))
    (hs : p.tShort < 2 ^ (p.wCc - 1)) :
    Ran s (s.sendBit (wrap p c) z b) (bitWaveform p c z b) (c + if b then p.tShort else 0) := by
  unfold State.sendBit bitWaveform
  rw [hq]
  have h1 : Ran s (if z then s.schedule (minus p (wrap p c) p.tShort) .setHigh else s)
      (if z then [signalEvent .setHigh (c - p.tShort)] else []) (if z then c - p.tShort else s.time) := by
    cases z
    · exact .refl h
    · simp only [if_true] at hle ⊢
      rw [minus_wrap p (by omega)]
      exact schedule_ran _ h hq (by omega) (by omega)
  dsimp only
  generalize (if z then s.schedule (minus p (wrap p c) p.tShort) .setHigh else s) = u at h1 ⊢
  have hu := h1.harness h
  have ht : u.time ≤ c ∧ c < u.time + 2 ^ (p.wCc - 1) := by
    rw [h1.time]; cases z <;> simp at hle ⊢ <;> omega
  have h2 := schedule_ran .setLow hu (h1.wire.params.trans hq) ht.1 ht.2
  have h3 := h1.trans h2
  cases b
  · simpa using h3
  · simp only [if_true]
    have hp := h3.wire.params.trans hq
    rw [hp, plus_wrap]
    have h4 := schedule_ran .setHigh (h3.harness h) hp (c := c + p.tShort) (by rw [h3.time]; omega) (by rw [h3.time]; omega)
    simpa using h3.trans h4

/-- `finish_frame` under HARNESS timing (R126). -/
theorem finishFrame_ran {s : State} (h : s.Harness) {p : Params} (hq : s.params = p) {c : Nat}
    (hle : s.time ≤ c + (p.tPeriod - p.tShort)) (hlt : c + (p.tPeriod - p.tShort) < s.time + 2 ^ (p.wCc - 1)) :
    Ran s (s.finishFrame (wrap p c)) [signalEvent .setHigh (c + (p.tPeriod - p.tShort))]
      (c + (p.tPeriod - p.tShort)) := by
  unfold State.finishFrame
  rw [hq, plus_wrap]
  exact schedule_ran _ h hq hle hlt

/-- The registers of the frame after a bit is sent (R140). -/
theorem sendFrameBit_frame (c : Cycle) (b : Bool) (s : State) :
    (s.sendFrameBit c b).frame =
      { s.frame with bit := s.frame.bit + 1, prevZero := !b, parity := s.frame.parity.xor b } := by
  simp [State.sendFrameBit]

/-- The parity accumulated over the bits of a frame is R84's. -/
theorem sendFrameBits_frame (c : Cycle) (v : BitVec 16) (m : Nat) (s : State) :
    (sendFrameBits c v m s).frame =
      { s.frame with
        bit := s.frame.bit + m
        prevZero := if m = 0 then s.frame.prevZero else !v.getLsbD 0
        parity := s.frame.parity.xor (frameParity v m) } := by
  induction m generalizing s with
  | zero => simp [sendFrameBits, frameParity]
  | succ m ih =>
    simp only [sendFrameBits, ih, sendFrameBit_frame, frameParity]
    congr 1
    · omega
    · cases m <;> simp
    · simp

/-- The bits of a host frame under HARNESS timing (R83, R140). -/
theorem sendFrameBits_ran {s : State} (h : s.Harness) {p : Params} (hq : s.params = p) {c : Nat} (v : BitVec 16) (m : Nat)
    (hm : 0 < m) (hs : 0 < p.tShort) (hT : 2 * p.tShort < p.tPeriod) (hp : 2 * p.tPeriod < 2 ^ (p.wCc - 1))
    (hle : s.time + (if s.frame.prevZero then p.tShort else 0) ≤ c + s.frame.bit * p.tPeriod)
    (hlt : c + s.frame.bit * p.tPeriod < s.time + 2 ^ (p.wCc - 1)) :
    Ran s (sendFrameBits (wrap p c) v m s)
      (bitsWaveform p v m (c + s.frame.bit * p.tPeriod) s.frame.prevZero)
      (c + (s.frame.bit + m - 1) * p.tPeriod + if v.getLsbD 0 then p.tShort else 0) := by
  induction m generalizing s with
  | zero => omega
  | succ m ih =>
    have h1 := sendBit_ran h hq s.frame.prevZero (v.getLsbD m) hle hlt (by omega)
    have h2 : Ran s (s.sendFrameBit (wrap p c) (v.getLsbD m))
        (bitWaveform p (c + s.frame.bit * p.tPeriod) s.frame.prevZero (v.getLsbD m))
        (c + s.frame.bit * p.tPeriod + if v.getLsbD m then p.tShort else 0) := by
      unfold State.sendFrameBit
      rw [hq, plus_wrap]
      exact h1.setFrame _
    have hf := sendFrameBit_frame (wrap p c) (v.getLsbD m) s
    have hbit : (s.sendFrameBit (wrap p c) (v.getLsbD m)).frame.bit = s.frame.bit + 1 := by rw [hf]
    have hz : (s.sendFrameBit (wrap p c) (v.getLsbD m)).frame.prevZero = !v.getLsbD m := by rw [hf]
    have e1 : (s.frame.bit + 1) * p.tPeriod = s.frame.bit * p.tPeriod + p.tPeriod := Nat.succ_mul _ _
    unfold sendFrameBits bitsWaveform
    cases m with
    | zero => simpa [sendFrameBits, bitsWaveform] using h2
    | succ m =>
      have h3 := ih (h2.harness h) (h2.wire.params.trans hq) (Nat.succ_pos m)
        (by rw [hbit, hz, h2.time, e1]; cases v.getLsbD (m + 1) <;> simp <;> omega)
        (by rw [hbit, h2.time, e1]; cases v.getLsbD (m + 1) <;> simp <;> omega)
      rw [hbit, hz] at h3
      have h4 := h2.trans h3
      rw [e1] at h4
      have e2 : s.frame.bit + 1 + (m + 1) - 1 = s.frame.bit + (m + 1 + 1) - 1 := by omega
      rw [e2] at h4
      simpa [Nat.add_assoc] using h4

/-- A host frame under HARNESS timing (R140, R141): every write at its cycle. -/
theorem sendFrame_ran {s : State} (h : s.Harness) {p : Params} (hq : s.params = p) {c : Nat} (v : BitVec 16) (n : Nat)
    (hn : 0 < n) (hs : 0 < p.tShort) (hT : 2 * p.tShort < p.tPeriod) (hp : 2 * p.tPeriod < 2 ^ (p.wCc - 1))
    (hle : s.time ≤ c) (hlt : c < s.time + 2 ^ (p.wCc - 1)) :
    Ran s (s.sendFrame (wrap p c) v n)
      (signalEvent .setHigh s.time :: signalEvent .setOutput s.time ::
        (frameWaveform p v n c ++ [signalEvent .setInput (c + n * p.tPeriod + (p.tPeriod - p.tShort))]))
      (c + n * p.tPeriod + (p.tPeriod - p.tShort)) := by
  unfold State.sendFrame
  dsimp only
  have h1 := pinSet_ran .setHigh h (some (wrap p c))
  have h2 := pinSet_ran .setOutput (h1.harness h) (some (wrap p c))
  rw [h1.time] at h2
  have h3 := h1.trans h2
  have h5 := h3.setFrame {}
  have hfu : (((s.pinSet .signal .setHigh (some (wrap p c))).pinSet .signal .setOutput (some (wrap p c))).setFrame
      {}).frame = {} := rfl
  generalize (((s.pinSet .signal .setHigh (some (wrap p c))).pinSet .signal .setOutput (some (wrap p c))).setFrame
    {}) = u at h5 hfu ⊢
  have h6 := sendFrameBits_ran (h5.harness h) (h5.wire.params.trans hq) (c := c) v n hn hs hT hp
    (by rw [hfu, h5.time]; simpa using hle) (by rw [hfu, h5.time]; simpa using hlt)
  have hf6 := sendFrameBits_frame (wrap p c) v n u
  rw [hfu] at h6 hf6
  simp only [Nat.zero_mul, Nat.add_zero, Nat.zero_add] at h6
  have h7 := h5.trans h6
  generalize sendFrameBits (wrap p c) v n u = w at h6 hf6 h7 ⊢
  have hp7 := h7.wire.params.trans hq
  have hz : w.frame.prevZero = !v.getLsbD 0 := by rw [hf6]; simp only []; rw [if_neg (Nat.pos_iff_ne_zero.1 hn)]
  have hpar : w.frame.parity = frameParity v n := by rw [hf6]; simp
  have en : n * p.tPeriod = (n - 1) * p.tPeriod + p.tPeriod := by
    rw [← Nat.succ_mul, Nat.succ_eq_add_one, Nat.sub_add_cancel hn]
  have h8 := sendBit_ran (h7.harness h) hp7 (c := c + n * p.tPeriod) w.frame.prevZero w.frame.parity
    (by rw [hz, h7.time, en]; cases v.getLsbD 0 <;> simp <;> omega)
    (by rw [h7.time, en]; cases v.getLsbD 0 <;> simp <;> omega)
    (by omega)
  rw [hz, hpar] at h8
  have h9 := h7.trans h8
  have h10 := finishFrame_ran (h9.harness h) (h9.wire.params.trans hq) (c := c + n * p.tPeriod)
    (by rw [h9.time]; cases frameParity v n <;> simp; omega)
    (by rw [h9.time]; cases frameParity v n <;> simp <;> omega)
  have h11 := h9.trans h10
  have h12 := pinSet_ran .setInput (h11.harness h)
  rw [h11.time] at h12
  have h13 := h11.trans h12
  have h15 := h13.setFrame {}
  rw [hp7, plus_wrap, hz, hpar]
  simpa [frameWaveform] using h15

/-! ### Receiving -/

/-- The level the target alone gives the line at a cycle. -/
def targetLevel (tgt : Target) (t : Nat) : Level := if targetLow tgt t then .low else .high

theorem lineLevel_of_released {s : State} (h : s.Harness) (hp : s.signal.pulls = false) :
    s.lineLevel = targetLevel s.target s.time := by
  rw [h.lineLevel, State.linePulled, hp, Bool.false_or]; rfl

theorem pinRead_ran {s : State} (h : s.Harness) : Ran s s.pinRead [] s.time := by
  refine ⟨pinRead_wire s, ?_, ⟨[{ cycle := s.time, action := .read s.lineLevel }], by simp, rfl⟩, by simp⟩
  rw [h.pinRead]; exact (h.log _).timing

theorem advance_ran {s : State} (h : s.Harness) (n : Nat) : Ran s (s.advance n) [] (s.time + n) :=
  ⟨by constructor <;> first | exact .of_time (by simp) (by simp) | simp, (h.advance n).timing, ⟨[], by simp, rfl⟩, rfl⟩

/-- A poll under HARNESS timing that sees its level at cycle e, and not before (R127). -/
theorem poll_found {want : Level} {k e : Nat} {s : State} (h : s.Harness) (hp : s.signal.pulls = false)
    (hle : s.time ≤ e) (hlt : e < s.time + k)
    (hno : ∀ t, s.time ≤ t → t < e → targetLevel s.target t ≠ want) (hyes : targetLevel s.target e = want) :
    (poll want k s).1 = some (wrap s.params e) ∧ Ran s (poll want k s).2 [] e := by
  induction k generalizing s with
  | zero => omega
  | succ k ih =>
    have h1 := pinRead_ran h
    have hh := h1.harness h
    unfold poll
    rw [lineLevel_of_released h hp]
    by_cases he : e = s.time
    · subst he
      rw [if_pos hyes, hh.elapse]
      exact ⟨by simp [State.cc], h1⟩
    · rw [if_neg (hno s.time (Nat.le_refl _) (by omega)), hh.pollCost]
      have h2 := h1.trans (advance_ran hh 1)
      rw [h1.time] at h2
      have := ih (s := s.pinRead.advance 1) (h2.harness h) (by simpa using hp) (by rw [h2.time]; omega)
        (by rw [h2.time]; omega)
        (fun t ht ht' => by rw [h2.wire.target]; rw [h2.time] at ht; exact hno t (by omega) ht')
        (by rw [h2.wire.target]; exact hyes)
      exact ⟨by simpa using this.1, h2.trans this.2⟩

/-- A poll under HARNESS timing that never sees its level takes one cycle a read (R117, R127). -/
theorem poll_timeout {want : Level} {k : Nat} {s : State} (h : s.Harness) (hp : s.signal.pulls = false)
    (hno : ∀ t, s.time ≤ t → t < s.time + k → targetLevel s.target t ≠ want) :
    (poll want k s).1 = none ∧ Ran s (poll want k s).2 [] (s.time + k) := by
  induction k generalizing s with
  | zero => exact ⟨rfl, .refl h⟩
  | succ k ih =>
    have h1 := pinRead_ran h
    have hh := h1.harness h
    unfold poll
    rw [lineLevel_of_released h hp, if_neg (hno s.time (Nat.le_refl _) (by omega)), hh.pollCost]
    have h2 := h1.trans (advance_ran hh 1)
    rw [h1.time] at h2
    have := ih (s := s.pinRead.advance 1) (h2.harness h) (by simpa using hp)
      (fun t ht ht' => by rw [h2.wire.target]; rw [h2.time] at ht ht'; exact hno t (by omega) (by omega))
    rw [h2.time] at this
    refine ⟨this.1, ?_⟩
    have h3 := h2.trans this.2
    have e : s.time + 1 + k = s.time + (k + 1) := by omega
    rwa [e] at h3

/-- `receive_bit` under HARNESS timing when the target's falling edge comes at cycle e (R128): the sample is T_HALF
later. -/
theorem receiveBit_found {e : Nat} {s : State} (h : s.Harness) (hp : s.signal.pulls = false)
    (hT : s.params.tHalf < 2 ^ (s.params.wCc - 1)) (hle : s.time ≤ e) (hlt : e < s.time + s.params.timeout)
    (hno : ∀ t, s.time ≤ t → t < e → targetLow s.target t = false) (hyes : targetLow s.target e = true) :
    (receiveBit s).1 = some (targetLevel s.target (e + s.params.tHalf), wrap s.params e) ∧
      Ran s (receiveBit s).2 [] (e + s.params.tHalf) := by
  obtain ⟨h1, h2⟩ := poll_found (want := .low) h hp hle hlt
    (fun t ht ht' => by simp [targetLevel, hno t ht ht']) (by simp [targetLevel, hyes])
  unfold receiveBit
  dsimp only
  rw [h1]
  dsimp only
  have hh := h2.harness h
  rw [h2.wire.params, plus_wrap]
  have h3 := waitUntil_ran hh h2.wire.params (c := e + s.params.tHalf) (by rw [h2.time]; omega) (by rw [h2.time]; omega)
  have h4 := h2.trans h3
  have h5 := h4.trans (pinRead_ran (h4.harness h))
  rw [h4.time] at h5
  refine ⟨?_, h5⟩
  rw [lineLevel_of_released (h4.harness h) (by simpa using hp), h4.wire.target, h4.time]

/-- `receive_bit` under HARNESS timing when no falling edge comes (R128): TIMEOUT reads, then `ReadBitTimeout`. -/
theorem receiveBit_timeout {s : State} (h : s.Harness) (hp : s.signal.pulls = false)
    (hno : ∀ t, s.time ≤ t → t < s.time + s.params.timeout → targetLow s.target t = false) :
    (receiveBit s).1 = none ∧ Ran s (receiveBit s).2 [] (s.time + s.params.timeout) := by
  obtain ⟨h1, h2⟩ := poll_timeout (want := .low) h hp (fun t ht ht' => by simp [targetLevel, hno t ht ht'])
  unfold receiveBit
  dsimp only
  rw [h1]
  exact ⟨rfl, h2⟩

theorem sendByte_unfold {s : State} {c : Nat} {v : BitVec 16} {n : Nat} (h : (s.sendFrame (wrap s.params c) v n).Harness) :
    sendByte (wrap s.params c) v n s = receiveBit (s.sendFrame (wrap s.params c) v n) := by
  unfold sendByte; rw [h.elapse]

/-- `send_byte` under HARNESS timing when the target's ACK bit starts at cycle e (R140, R141). -/
theorem sendByte_found {s : State} (h : s.Harness) {c e : Nat} (v : BitVec 16) (n : Nat) (hn : 0 < n)
    (hs : 0 < s.params.tShort) (hT : 2 * s.params.tShort < s.params.tPeriod) (hp : 2 * s.params.tPeriod < 2 ^ (s.params.wCc - 1))
    (hh : s.params.tHalf < 2 ^ (s.params.wCc - 1)) (hle : s.time ≤ c) (hlt : c < s.time + 2 ^ (s.params.wCc - 1))
    (he : frameEnd s.params n c ≤ e) (he' : e < frameEnd s.params n c + s.params.timeout)
    (hno : ∀ t, frameEnd s.params n c ≤ t → t < e → targetLow s.target t = false)
    (hyes : targetLow s.target e = true) :
    (sendByte (wrap s.params c) v n s).1 =
        some (targetLevel s.target (e + s.params.tHalf), wrap s.params e) ∧
      Ran s (sendByte (wrap s.params c) v n s).2 (sendByteWrites s.params v n s.time c) (e + s.params.tHalf) := by
  have h1 := sendFrame_ran h rfl v n hn hs hT hp hle hlt
  have hh1 := h1.harness h
  rw [sendByte_unfold hh1]
  have hq := h1.wire.params
  have hg := h1.wire.target
  obtain ⟨h2, h3⟩ := receiveBit_found (e := e) hh1 (by simp [Pin.pulls]) (by rw [hq]; exact hh)
    (by rw [h1.time]; exact he) (by rw [h1.time, hq]; exact he')
    (by rw [h1.time, hg]; exact hno) (by rw [hg]; exact hyes)
  rw [hq] at h2 h3
  rw [hg] at h2
  refine ⟨h2, ?_⟩
  have := h1.trans h3
  simpa [sendByteWrites, frameEnd] using this

/-- `send_byte` under HARNESS timing when the target does not answer (R140). -/
theorem sendByte_timeout {s : State} (h : s.Harness) {c : Nat} (v : BitVec 16) (n : Nat) (hn : 0 < n)
    (hs : 0 < s.params.tShort) (hT : 2 * s.params.tShort < s.params.tPeriod) (hp : 2 * s.params.tPeriod < 2 ^ (s.params.wCc - 1))
    (hle : s.time ≤ c) (hlt : c < s.time + 2 ^ (s.params.wCc - 1))
    (hno : ∀ t, frameEnd s.params n c ≤ t → t < frameEnd s.params n c + s.params.timeout →
      targetLow s.target t = false) :
    (sendByte (wrap s.params c) v n s).1 = none ∧
      Ran s (sendByte (wrap s.params c) v n s).2 (sendByteWrites s.params v n s.time c)
        (frameEnd s.params n c + s.params.timeout) := by
  have h1 := sendFrame_ran h rfl v n hn hs hT hp hle hlt
  have hh := h1.harness h
  rw [sendByte_unfold hh]
  have hq := h1.wire.params
  have hg := h1.wire.target
  obtain ⟨h2, h3⟩ := receiveBit_timeout hh (by simp [Pin.pulls])
    (by rw [h1.time, hg, hq]; exact hno)
  rw [hq, h1.time] at h3
  refine ⟨h2, ?_⟩
  have := h1.trans h3
  simpa [sendByteWrites, frameEnd] using this

end Sys2Proof.Machine
end

