-- ==== Sys2Proof/Laws/Receive.lean ====
section
/-!
SUPPORT. Laws/Receive.lean: a target frame under HARNESS timing (R146, R147): the bits that the target's waveform carries
are the bits the block reads.
-/

namespace Sys2Proof.Machine

open Sys2Proof

/-- The level that stands for a bit (R81). -/
def levelOf (b : Bool) : Level := if b then .high else .low

@[simp] theorem bitOf_levelOf (b : Bool) : bitOf (levelOf b) = b := by cases b <;> rfl

theorem eq_of_window {a b T x : Nat} (h1 : a * T ≤ x) (h2 : x < a * T + T) (h3 : b * T ≤ x) (h4 : x < b * T + T) :
    a = b := by
  have h5 : a < b + 1 := by
    by_contra hc
    have : (b + 1) * T ≤ a * T := Nat.mul_le_mul_right T (by omega)
    rw [Nat.succ_mul] at this; omega
  have h6 : b < a + 1 := by
    by_contra hc
    have : (a + 1) * T ≤ b * T := Nat.mul_le_mul_right T (by omega)
    rw [Nat.succ_mul] at this; omega
  omega

/-- Inside bit k's slot the line is LOW exactly as that bit has it (R80). -/
theorem bitsLow_slot {p : Params} {bits : List Bool} {f k d : Nat} {b : Bool} (hs : 0 < p.tShort)
    (hT : 2 * p.tShort < p.tPeriod) (hb : bits[k]? = some b) (hd : d < p.tPeriod) :
    bitsLow p bits f (f + k * p.tPeriod + d) ↔ d < if b then p.tShort else p.tPeriod - p.tShort := by
  constructor
  · rintro ⟨j, c, hc, h1, h2⟩
    have hlen : (if c then p.tShort else p.tPeriod - p.tShort) < p.tPeriod := by split <;> omega
    have hj : j = k := eq_of_window (T := p.tPeriod) (x := k * p.tPeriod + d) (by omega) (by omega) (by omega) (by omega)
    subst hj
    rw [hb] at hc; cases hc
    omega
  · intro h
    exact ⟨k, b, hb, by omega, by omega⟩

/-- What the block must see of a target frame that starts at f (R147): each bit's edge at its cycle, HIGH from the receive
offset on up to it, and the bit's level at the sample. -/
structure Sends (tgt : Target) (p : Params) (f : Nat) (bits : List Bool) : Prop where
  edge : ∀ k, k < bits.length → targetLow tgt (f + k * p.tPeriod) = true
  gap : ∀ k, k < bits.length → ∀ t, f + k * p.tPeriod + p.tRxOffset ≤ t → t < f + (k + 1) * p.tPeriod →
    targetLow tgt t = false
  sample : ∀ k b, bits[k]? = some b → targetLevel tgt (f + k * p.tPeriod + p.tHalf) = levelOf b

theorem sends_of_bitsLow {tgt : Target} {p : Params} {f : Nat} {bits : List Bool} (hs : 0 < p.tShort)
    (hT : 2 * p.tShort < p.tPeriod) (ha : p.tShort ≤ p.tHalf) (hb : p.tHalf < p.tPeriod - p.tShort)
    (hr : p.tPeriod - p.tShort ≤ p.tRxOffset) (h : ∀ t, f ≤ t → t < f + bits.length * p.tPeriod →
      (targetLow tgt t = true ↔ bitsLow p bits f t)) :
    Sends tgt p f bits := by
  have slot : ∀ k, k < bits.length → (k + 1) * p.tPeriod ≤ bits.length * p.tPeriod := fun k hk =>
    Nat.mul_le_mul_right _ (by omega)
  have low : ∀ k b d, bits[k]? = some b → d < p.tPeriod →
      (targetLow tgt (f + k * p.tPeriod + d) = true ↔ d < if b then p.tShort else p.tPeriod - p.tShort) := by
    intro k b d hb hd
    obtain ⟨hk, -⟩ := List.getElem?_eq_some_iff.1 hb
    have := slot k hk
    rw [Nat.succ_mul] at this
    rw [h _ (by omega) (by omega), bitsLow_slot hs hT hb hd]
  constructor
  · intro k hk
    have := (low k bits[k] 0 (List.getElem?_eq_getElem hk) (by omega)).2 (by split <;> omega)
    simpa using this
  · intro k hk t h1 h2
    rw [Nat.succ_mul] at h2
    have hl := low k bits[k] (t - (f + k * p.tPeriod)) (List.getElem?_eq_getElem hk) (by omega)
    have e : f + k * p.tPeriod + (t - (f + k * p.tPeriod)) = t := by omega
    rw [e] at hl
    rw [Bool.eq_false_iff]
    intro hc
    have := hl.1 hc
    split at this <;> omega
  · intro k b hk
    have hl := low k b p.tHalf hk (by omega)
    unfold targetLevel levelOf
    cases b
    · simp only [Bool.false_eq_true, if_false]
      rw [if_pos (hl.2 (by simpa using hb))]
    · simp only [if_true]
      rw [if_neg]
      intro hc
      have := hl.1 hc
      simp at this
      omega

/-- The registers of the frame after the bits of a list, the first of them bit i (R146). -/
def takeAll (p : Params) (f : Nat) : List Bool → Nat → FrameRegs → FrameRegs
  | [], _, fr => fr
  | b :: bs, i, fr => takeAll p f bs (i + 1) (fr.take (levelOf b) (wrap p (f + i * p.tPeriod)))

/-- The receptions of a target frame under HARNESS timing (R146): every bit is the target's. -/
theorem receiveFrameBits_ran {p : Params} {f : Nat} {bits rest : List Bool} {i : Nat} {s : State} (h : s.Harness)
    (hparams : s.params = p) (hp : s.signal.pulls = false) (hsends : Sends s.target p f bits)
    (hs : 0 < p.tShort) (hT : 2 * p.tShort < p.tPeriod) (hP : 2 * p.tPeriod < 2 ^ (p.wCc - 1))
    (hhalf : p.tHalf < p.tPeriod - p.tShort)
    (hr : p.tPeriod - p.tShort ≤ p.tRxOffset) (hr' : p.tRxOffset < p.tPeriod)
    (hto : p.tPeriod - p.tRxOffset < p.timeout)
    (hi : bits.drop (i + 1) = rest) (hlen : i < bits.length)
    (hstart : s.frame.start = wrap p (f + i * p.tPeriod))
    (htime : s.time = f + i * p.tPeriod + p.tHalf) :
    (receiveFrameBits rest.length s).1 = none ∧
      Ran s (receiveFrameBits rest.length s).2 [] (f + (i + rest.length) * p.tPeriod + p.tHalf) ∧
      (receiveFrameBits rest.length s).2.frame = takeAll p f rest (i + 1) s.frame := by
  induction rest generalizing i s with
  | nil => exact ⟨rfl, by simpa [← htime, receiveFrameBits] using Ran.refl h, rfl⟩
  | cons b bs ih =>
    have hb : bits[i + 1]? = some b := by
      have := congrArg (fun l => l[0]?) hi
      simpa using this
    obtain ⟨hlt, -⟩ := List.getElem?_eq_some_iff.1 hb
    have e1 : (i + 1) * p.tPeriod = i * p.tPeriod + p.tPeriod := Nat.succ_mul _ _
    simp only [List.length_cons, receiveFrameBits, takeAll]
    rw [hstart, hparams, plus_wrap]
    have h1 := waitUntil_ran h hparams (c := f + i * p.tPeriod + p.tRxOffset) (by rw [htime]; omega) (by rw [htime]; omega)
    have h1p : (s.waitUntil (wrap p (f + i * p.tPeriod + p.tRxOffset))).params = p := by simpa using hparams
    obtain ⟨h2, h3⟩ := receiveBit_found (e := f + (i + 1) * p.tPeriod) (h1.harness h) (by simpa using hp)
      (by rw [h1p]; omega) (by rw [h1.time]; omega) (by rw [h1.time, h1p]; omega)
      (by rw [h1.time, h1.wire.target]; exact hsends.gap i hlen)
      (by rw [h1.wire.target]; exact hsends.edge (i + 1) hlt)
    rw [h1p, h1.wire.target, hsends.sample (i + 1) b hb] at h2
    rw [h1p] at h3
    have h4 := h1.trans h3
    rw [h2]
    dsimp only
    have hf4 : (receiveBit (s.waitUntil (wrap p (f + i * p.tPeriod + p.tRxOffset)))).2.frame = s.frame := by
      simp
    rw [hf4]
    have h5 := h4.setFrame (s.frame.take (levelOf b) (wrap p (f + (i + 1) * p.tPeriod)))
    have h6 := ih (h5.harness h) (by rw [h5.wire.params]; exact hparams) (by simpa using hp)
      (by rw [h5.wire.target]; exact hsends) (by rw [← List.drop_drop, hi]; rfl) hlt
      (by simp only [State.setFrame_frame, FrameRegs.take]; split <;> rfl) (by rw [h5.time])
    refine ⟨h6.1, ?_, ?_⟩
    · have h7 := h5.trans h6.2.1
      have e2 : i + 1 + bs.length = i + (bs.length + 1) := by omega
      rw [e2] at h7
      simpa using h7
    · simpa using h6.2.2

/-- Eight data bits, most significant first, make the byte again (R90). -/
theorem shiftIn_byteBits (v : Byte) : (byteBits v).foldl shiftIn 0#8 = v := by
  apply BitVec.eq_of_getLsbD_eq
  intro i hi
  have : i = 0 ∨ i = 1 ∨ i = 2 ∨ i = 3 ∨ i = 4 ∨ i = 5 ∨ i = 6 ∨ i = 7 := by omega
  rcases this with rfl | rfl | rfl | rfl | rfl | rfl | rfl | rfl <;>
    simp [byteBits, shiftIn]

/-- The registers after the data bits and the parity bit of a target frame (R146). -/
theorem takeAll_frame (p : Params) (f : Nat) (v : Byte) (q : Bool) (t : Cycle) :
    takeAll p f (byteBits v ++ [q]) 1 { bit := 1, start := t } =
      { bit := 10, start := wrap p (f + 9 * p.tPeriod), value := v, parity := byteParity v, last := q } := by
  have hv := shiftIn_byteBits v
  simp [byteBits] at hv
  simp [takeAll, byteBits, FrameRegs.take, byteParity, hv]

/-- A turnaround lasts a bit period, or up to the setup margin after the sample where that is longer. -/
theorem turnaround_cases (p : Params) :
    turnaround p = p.tPeriod ∧ p.tHalf + p.tSetup ≤ p.tPeriod ∨
      turnaround p = p.tHalf + p.tSetup ∧ p.tPeriod < p.tHalf + p.tSetup := by
  unfold turnaround; omega

/-- The start of the host's bit after a bit sampled T_HALF after its start at a, `now()` read at the sample (R146, R157). -/
theorem nextCursor {p : Params} {a : Nat} (hH : p.tHalf < p.tPeriod) (hS : p.tSetup < 2 ^ (p.wCc - 1))
    (hT : 2 * p.tPeriod < 2 ^ (p.wCc - 1)) :
    later p (plus p (wrap p a) p.tPeriod) (plus p (wrap p (a + p.tHalf)) p.tSetup) = wrap p (a + turnaround p) := by
  rw [plus_wrap, plus_wrap, later_wrap _ (by omega) (by omega), turnaround]
  congr 1
  omega

/-- The host's ACK bit under HARNESS timing (R146). -/
theorem sendAck_ran {s : State} (h : s.Harness) {f : Nat} (bad : Bool)
    (hs : 0 < s.params.tShort) (hT : 2 * s.params.tShort < s.params.tPeriod) (hP : 2 * s.params.tPeriod < 2 ^ (s.params.wCc - 1))
    (hhalf : s.params.tHalf < s.params.tPeriod) (hsetup : s.params.tSetup < 2 ^ (s.params.wCc - 1))
    (hstart : s.frame.start = wrap s.params f) (htime : s.time = f + s.params.tHalf) :
    Ran s (s.sendAck bad)
      (ackWrites s.params (ackBit s.params bad) (f + s.params.tHalf) (f + turnaround s.params))
      (f + turnaround s.params + (s.params.tPeriod - s.params.tShort)) := by
  have hw := turnaround_cases s.params
  have hat : s.atAck = s := h.elapse _
  have ha : ackStartOf s = wrap s.params (f + turnaround s.params) := by
    rw [ackStartOf, parityEnd, hat, State.cc, hstart, htime]
    exact nextCursor hhalf hsetup (by omega)
  unfold State.sendAck
  dsimp only
  rw [hat, ha]
  generalize some (wrap s.params (f + turnaround s.params)) = due
  have h1 := pinSet_ran .setHigh h due
  have h2 := pinSet_ran .setOutput (h1.harness h) due
  rw [h1.time] at h2
  have h3 := h1.trans h2
  have hp3 := h3.wire.params
  have h4 := sendBit_ran (h3.harness h) hp3 (c := f + turnaround s.params) false
    (ackBit ((s.pinSet .signal .setHigh due).pinSet .signal .setOutput due).params bad)
    (by rw [h3.time, htime]; simp; omega) (by rw [h3.time, htime]; omega) (by omega)
  rw [hp3] at h4 ⊢
  have h5 := h3.trans h4
  have hp5 := h5.wire.params
  have h6 := finishFrame_ran (h5.harness h) hp5 (c := f + turnaround s.params)
    (by rw [h5.time]; split <;> omega) (by rw [h5.time]; split <;> omega)
  have h7 := h5.trans h6
  have h8 := pinSet_ran .setInput (h7.harness h)
  rw [h7.time] at h8
  have h9 := h7.trans h8
  rw [htime] at h9
  simpa [ackWrites] using h9

/-- `receive_byte` under HARNESS timing when the target sends a frame with data byte v and parity bit q whose first bit starts at
f (R146): the byte where the parity checks, else `ParityError`; the host's ACK bit either way. -/
theorem receiveByte_found {s : State} (h : s.Harness) {f : Nat} {v : Byte} {q : Bool} (hi : s.params.Ideal)
    (hp : s.signal.pulls = false) (hle : s.time ≤ f) (hlt : f < s.time + s.params.timeout)
    (hno : ∀ t, s.time ≤ t → t < f → targetLow s.target t = false)
    (hsends : Sends s.target s.params f (targetFrame s.params v q)) :
    (receiveByte s).1 = (if (byteParity v).xor q then .error .parityError else .ok v) ∧
      Ran s (receiveByte s).2
        (ackWrites s.params (ackBit s.params ((byteParity v).xor q)) (f + 9 * s.params.tPeriod + s.params.tHalf)
          (f + 9 * s.params.tPeriod + turnaround s.params))
        (f + 9 * s.params.tPeriod + turnaround s.params + (s.params.tPeriod - s.params.tShort)) := by
  have hT := hi.short_lt
  have hs := hi.short_pos
  have hP := hi.period_lt
  have hhalf := hi.half_lt
  have hlen : (targetFrame s.params v q).length = 10 := rfl
  have e0 := hsends.edge 0 (by rw [hlen]; omega)
  rw [Nat.zero_mul, Nat.add_zero] at e0
  obtain ⟨h1, h2⟩ := receiveBit_found h hp (by omega) hle hlt hno e0
  have s0 := hsends.sample 0 s.params.targetStart rfl
  rw [Nat.zero_mul, Nat.add_zero] at s0
  rw [s0] at h1
  unfold receiveByte
  dsimp only
  rw [h1]
  dsimp only
  have hp2 := h2.wire.params
  rw [bitOf_levelOf, hp2]
  rw [if_neg (by simp)]
  have h3 := h2.setFrame { bit := 1, start := wrap s.params f }
  obtain ⟨h4, h5, h6⟩ := receiveFrameBits_ran (p := s.params) (f := f) (bits := targetFrame s.params v q)
    (rest := byteBits v ++ [q]) (i := 0) (h3.harness h) (by rw [h3.wire.params]) (by simpa using hp)
    (by rw [h3.wire.target]; exact hsends) hs hT (by omega) hhalf hi.rx_ge hi.rx_lt hi.timeout_gt rfl (by rw [hlen]; omega)
    (by simp) (by rw [h3.time]; simp)
  have hl : (byteBits v ++ [q]).length = 9 := rfl
  rw [hl] at h4 h5 h6
  simp only [State.setFrame_frame, Nat.zero_add] at h6 h5
  rw [takeAll_frame] at h6
  rw [h4]
  dsimp only
  have h7 := h3.trans h5
  generalize receiveFrameBits 9 ((receiveBit s).2.setFrame { bit := 1, start := wrap s.params f }) = r at h6 h7 ⊢
  have hp7 := h7.wire.params
  have h8 := sendAck_ran (h7.harness h) (f := f + 9 * s.params.tPeriod) (r.2.frame.parity.xor r.2.frame.last)
    (by rw [hp7]; exact hs) (by rw [hp7]; exact hT) (by rw [hp7]; omega) (by rw [hp7]; omega) (by rw [hp7]; exact hi.setup_lt)
    (by rw [h6, hp7]) (by rw [h7.time, hp7])
  rw [hp7] at h8
  have h9 := (h7.trans h8).setFrame {}
  rw [h6] at h9
  rw [h6]
  exact ⟨rfl, by simpa using h9⟩

end Sys2Proof.Machine
end

