-- ==== Sys2Proof/Laws/Commands.lean ====
section
/-!
SUPPORT. Laws/Commands.lean: what a run of the command sequencer can do, over every timing: one lemma for each of its shared
operations.
-/

namespace Sys2Proof.Machine

open Sys2Proof

theorem enterCritical_forward (s : State) : Forward s s.enterCritical :=
  (elapse_forward s).trans (.of_event (s := s.elapse) (e := { cycle := s.elapse.time, action := .irqMask }) rfl rfl rfl)

theorem leaveCritical_forward (im : IrqMask) (s : State) (due : Option Cycle := none) : Forward s (s.leaveCritical im due) :=
  (elapse_forward s due).trans
    (.of_event (s := s.elapse due) (e := { cycle := (s.elapse due).time, action := .irqRestore im }) rfl rfl rfl)

/-! ### The end of an operation -/

section exit
variable (saved : Option IrqMask) (r : Reply) (s : State)

@[simp] theorem State.exit_result : (s.exit saved r).result = some r := by cases saved <;> rfl
@[simp] theorem State.exit_im : (s.exit saved r).im = saved.getD s.im := by cases saved <;> rfl
@[simp] theorem State.exit_signal : (s.exit saved r).signal = s.signal := by cases saved <;> simp [State.exit]
@[simp] theorem State.exit_resetPin : (s.exit saved r).resetPin = s.resetPin := by cases saved <;> simp [State.exit]
@[simp] theorem State.exit_params : (s.exit saved r).params = s.params := by cases saved <;> simp [State.exit]
@[simp] theorem State.exit_mem : (s.exit saved r).mem = s.mem := by cases saved <;> simp [State.exit]
@[simp] theorem State.exit_cursor : (s.exit saved r).cursor = s.cursor := by cases saved <;> simp [State.exit]
@[simp] theorem State.exit_frame : (s.exit saved r).frame = s.frame := by cases saved <;> simp [State.exit]
@[simp] theorem State.exit_entry : (s.exit saved r).entry = s.entry := by cases saved <;> simp [State.exit]
@[simp] theorem State.exit_command : (s.exit saved r).command = s.command := by cases saved <;> simp [State.exit]
@[simp] theorem State.exit_calls : (s.exit saved r).calls = s.calls := by cases saved <;> simp [State.exit]
@[simp] theorem State.exit_target : (s.exit saved r).target = s.target := by cases saved <;> simp [State.exit]
@[simp] theorem State.exit_releasedAt : (s.exit saved r).releasedAt = s.releasedAt := by
  cases saved <;> simp [State.exit]

end exit

theorem exit_forward (saved : Option IrqMask) (r : Reply) (s : State) : Forward s (s.exit saved r) := by
  cases saved with
  | none => exact .of_time (by simp [State.exit]) (by simp [State.exit])
  | some im => exact (leaveCritical_forward im s).trans (.of_time (by simp [State.exit]) (by simp [State.exit]))

namespace CommandFrame

theorem refl (s : State) : CommandFrame s s := by constructor <;> first | rfl | exact Forward.refl s

theorem trans {s t u : State} (h : CommandFrame s t) (g : CommandFrame t u) : CommandFrame s u where
  resetPin := g.resetPin.trans h.resetPin
  params := g.params.trans h.params
  cursor := g.cursor.trans h.cursor
  entry := g.entry.trans h.entry
  calls := g.calls.trans h.calls
  target := g.target.trans h.target
  forward := h.forward.trans g.forward

theorem of_wire {s t : State} (h : WireOnly s t) : CommandFrame s t :=
  ⟨h.resetPin, h.params, h.cursor, h.entry, h.calls, h.target, h.forward⟩

end CommandFrame

theorem endCommand_frame (r : Reply) (s : State) : CommandFrame s (s.endCommand r) := by
  constructor
  case forward =>
    exact (exit_forward s.command.saved r s).trans (.of_time (by simp [State.endCommand]) (by simp [State.endCommand]))
  all_goals simp [State.endCommand]

theorem atPayload_frame (i : Nat) (c : Cycle) (s : State) : CommandFrame s (s.atPayload i c) := by
  constructor
  case forward => exact .of_time (by simp) (by simp)
  all_goals simp

theorem atRx_frame (j : Nat) (s : State) : CommandFrame s (s.atRx j) := by
  constructor
  case forward => exact .of_time (by simp) (by simp)
  all_goals simp

theorem setMem_frame (m : Memory) (s : State) : CommandFrame s (s.setMem m) := by
  constructor
  case forward => exact .of_time (by simp) (by simp)
  all_goals simp

/-- The replies a command operation can give (R155, R159). -/
def commandReply (r : Reply) : Prop :=
  r = .ok ∨ r = .error .readBitTimeout ∨ r = .error .nack ∨ (∃ i, r = .error (.rxByteTimeout i)) ∨
    r = .error .invalidTargetId ∨ r = .error .parityError

/-- A pin that was INPUT still is, and one that was left as a host frame leaves it still is so. -/
structure KeepsReleased (p q : Pin) : Prop where
  mode : p.mode = .input → q.mode = .input
  released : p = releasedPin → q = releasedPin

theorem KeepsReleased.refl (p : Pin) : KeepsReleased p p := ⟨id, id⟩

theorem KeepsReleased.trans {p q r : Pin} (h : KeepsReleased p q) (g : KeepsReleased q r) : KeepsReleased p r :=
  ⟨fun x => g.mode (h.mode x), fun x => g.released (h.released x)⟩

theorem KeepsReleased.of_eq {p q : Pin} (h : q = p) : KeepsReleased p q := h ▸ .refl q

theorem KeepsReleased.of_released {p q : Pin} (h : q = releasedPin) : KeepsReleased p q :=
  ⟨fun _ => by rw [h]; rfl, fun _ => h⟩

/-- What a run of the command sequencer from s, with m0 receptions to come at most, can do. -/
structure PhaseSpec (s : State) (r : State × Ending) : Prop where
  frame : CommandFrame s r.1
  /-- The operation returned: IM is as it was saved, a reply stands, no register survives. -/
  finished : r.2 = .finished →
    r.1.command = {} ∧ r.1.im = s.command.saved.getD s.im ∧ ∃ x, r.1.result = some x ∧ commandReply x
  /-- A payload byte was answered by NACK: the sequencer stands at it, IM and the reply are as they were. -/
  resend : r.2 = .resend →
    (∃ i a, i < s.command.len ∧ r.1.command = { s.command with pos := .payload i, ackStart := a }) ∧
      r.1.im = s.im ∧ r.1.result = s.result ∧ r.1.mem = s.mem
  /-- Nothing is stuck where every index lies inside its buffer. -/
  fits : s.command.fits = true → r.2 = .finished ∨ r.2 = .resend
  /-- Caller memory keeps its canonical form, and only `dest` is written. -/
  wf : Memory.wf s.mem → Memory.wf r.1.mem
  memory : Memory.wf s.mem → ∀ a, (a < s.command.dest.base ∨ s.command.dest.base + s.command.rxLen ≤ a) →
    Memory.read a r.1.mem = Memory.read a s.mem
  noRead : s.command.rxLen = 0 → r.1.mem = s.mem
  signal : KeepsReleased s.signal r.1.signal
  regs : s.frame = {} → r.1.frame = {}

theorem PhaseSpec.of_before {s t : State} {r : State × Ending} (hf : CommandFrame s t)
    (hc : ∃ p a, t.command = { s.command with pos := p, ackStart := a }) (hi : t.im = s.im)
    (hr : t.result = s.result) (hm : t.mem = s.mem) (hs : KeepsReleased s.signal t.signal)
    (hg : s.frame = {} → t.frame = {}) (h : PhaseSpec t r) : PhaseSpec s r := by
  obtain ⟨p, a, hc⟩ := hc
  have e1 : t.command.saved = s.command.saved := by rw [hc]
  have e2 : t.command.len = s.command.len := by rw [hc]
  have e3 : t.command.fits = s.command.fits := by rw [hc]; rfl
  have e4 : t.command.dest = s.command.dest := by rw [hc]
  have e5 : t.command.rxLen = s.command.rxLen := by rw [hc]
  constructor
  · exact hf.trans h.frame
  · intro hx; have := h.finished hx; rw [e1, hi] at this; exact this
  · intro hx
    obtain ⟨⟨i, b, g1, g2⟩, g3, g4, g5⟩ := h.resend hx
    rw [e2] at g1
    exact ⟨⟨i, b, g1, by rw [g2, hc]⟩, g3.trans hi, g4.trans hr, g5.trans hm⟩
  · intro hx; exact h.fits (by rw [e3]; exact hx)
  · intro hx; exact h.wf (by rw [hm]; exact hx)
  · intro hx b hb
    have := h.memory (by rw [hm]; exact hx) b (by rw [e4, e5]; exact hb)
    rw [this, hm]
  · intro hx; rw [h.noRead (by rw [e5]; exact hx), hm]
  · exact hs.trans h.signal
  · intro hx; exact h.regs (hg hx)

theorem endCommand_spec {s : State} {r : Reply} (h : commandReply r) : PhaseSpec s (s.endCommand r, .finished) := by
  constructor
  · exact endCommand_frame r s
  · intro _; exact ⟨rfl, by simp [State.endCommand], r, by simp [State.endCommand], h⟩
  · intro hx; cases hx
  · intro _; exact .inl rfl
  · intro hx; simpa [State.endCommand] using hx
  · intro _ _ _; simp [State.endCommand]
  · intro _; simp [State.endCommand]
  · exact .of_eq (by simp [State.endCommand])
  · intro hx; simpa [State.endCommand] using hx

theorem failCommand_eq (e : Error) (s : State) : s.failCommand e = s.endCommand (.error e) := rfl

/-- The errors of `receive_byte` (R197). -/
theorem receiveByte_error {s : State} {e : Error} (h : (receiveByte s).1 = .error e) :
    (∃ i, e = .rxByteTimeout i) ∨ e = .invalidTargetId ∨ e = .parityError := by
  unfold receiveByte at h
  generalize receiveBit s = r at h
  obtain ⟨_ | ⟨l, t⟩, u⟩ := r
  · simp at h; exact .inl ⟨_, h.symm⟩
  · dsimp only at h
    split at h
    · simp at h; exact .inr (.inl h.symm)
    · generalize receiveFrameBits 9 (u.setFrame { bit := 1, start := t }) = q at h
      obtain ⟨_ | i, w⟩ := q
      · dsimp only at h
        split at h
        · simp at h; exact .inr (.inr h.symm)
        · cases h
      · simp at h; exact .inl ⟨_, h.symm⟩

theorem receiveByte_released (s : State) : KeepsReleased s.signal (receiveByte s).2.signal := by
  rw [receiveByte_signal]; split
  · exact .of_released rfl
  · exact .refl _

theorem receiveByte_mode (s : State) (h : s.signal.mode = .input) : (receiveByte s).2.signal.mode = .input :=
  (receiveByte_released s).mode h

/-- A reception is never sent again: only payload bytes are (R156, R159). -/
theorem rxPhase_not_resend (m : Nat) (s : State) : (rxPhase m s).2 ≠ .resend := by
  induction m generalizing s with
  | zero => simp [rxPhase]
  | succ m ih =>
    unfold rxPhase
    dsimp only
    generalize receiveByte (s.atRx (s.command.rxLen - (m + 1))).elapse = r
    obtain ⟨e | v, u⟩ := r
    · simp
    · dsimp only
      cases writeBuffer u.command.dest (s.command.rxLen - (m + 1)) v u.mem
      · simp
      · exact ih _

/-- The receptions of a read (R159). -/
theorem rxPhase_spec (m : Nat) (s : State) (hm : m ≤ s.command.rxLen) : PhaseSpec s (rxPhase m s) := by
  induction m generalizing s with
  | zero => exact endCommand_spec (.inl rfl)
  | succ m ih =>
    unfold rxPhase
    dsimp only
    have hw := (elapse_wire (s.atRx (s.command.rxLen - (m + 1)))).trans (receiveByte_wire _)
    have hmode : KeepsReleased s.signal (receiveByte (s.atRx (s.command.rxLen - (m + 1))).elapse).2.signal := by
      simpa using receiveByte_released (s.atRx (s.command.rxLen - (m + 1))).elapse
    have hframe := receiveByte_frame (s.atRx (s.command.rxLen - (m + 1))).elapse
    have herr := @receiveByte_error (s.atRx (s.command.rxLen - (m + 1))).elapse
    generalize receiveByte (s.atRx (s.command.rxLen - (m + 1))).elapse = r at hw hmode hframe herr
    have hf : CommandFrame s r.2 := (atRx_frame _ s).trans (.of_wire hw)
    have hc : r.2.command = { s.command with pos := .rx (s.command.rxLen - (m + 1)) } := by rw [hw.command]; rfl
    obtain ⟨e | v, u⟩ := r
    · dsimp only at *
      refine PhaseSpec.of_before hf ⟨_, _, hc⟩ hw.im hw.result hw.mem hmode (by simpa using hframe) ?_
      rw [failCommand_eq]
      refine endCommand_spec ?_
      rcases herr rfl with ⟨i, rfl⟩ | rfl | rfl
      · exact .inr (.inr (.inr (.inl ⟨i, rfl⟩)))
      · exact .inr (.inr (.inr (.inr (.inl rfl))))
      · exact .inr (.inr (.inr (.inr (.inr rfl))))
    · dsimp only at *
      have hd : u.command.dest = s.command.dest := by rw [hc]
      have hr : u.command.rxLen = s.command.rxLen := by rw [hc]
      have hu : u.mem = s.mem := hw.mem
      cases hwr : writeBuffer u.command.dest (s.command.rxLen - (m + 1)) v u.mem with
      | none =>
        refine PhaseSpec.of_before hf ⟨_, _, hc⟩ hw.im hw.result hw.mem hmode (by simpa using hframe) ?_
        constructor
        · exact .refl u
        · intro hx; cases hx
        · intro hx; cases hx
        · intro hx
          exfalso
          simp only [CommandRegs.fits, Bool.and_eq_true, decide_eq_true_eq] at hx
          rw [writeBuffer_of_lt (by omega)] at hwr
          cases hwr
        · exact id
        · intro _ _ _; rfl
        · intro _; rfl
        · exact .refl _
        · exact id
      | some mem =>
        obtain ⟨hlt, rfl⟩ := writeBuffer_cases hwr
        have h1 := ih (u.setMem (Memory.write (u.command.dest.base + (s.command.rxLen - (m + 1))) v u.mem))
          (by simp [hr]; omega)
        constructor
        · exact (hf.trans (setMem_frame _ u)).trans h1.frame
        · intro hx
          have := h1.finished hx
          have e : u.command.saved = s.command.saved := by rw [hc]
          have ei : u.im = s.im := hw.im
          simp only [State.setMem_command, State.setMem_im, e, ei] at this
          exact this
        · intro hx
          exact absurd hx (rxPhase_not_resend m _)
        · intro hx; exact h1.fits (by simpa [hc, CommandRegs.fits] using hx)
        · intro hx; exact h1.wf (by simpa using Memory.write_wf (hu ▸ hx))
        · intro hx b hb
          have := h1.memory (by simpa using Memory.write_wf (hu ▸ hx)) b (by simpa [hd, hr] using hb)
          rw [this]
          simp only [State.setMem_mem]
          rw [Memory.read_write (hu ▸ hx), if_neg (by rw [hd]; omega), hu]
        · intro hx; omega
        · exact hmode.trans h1.signal
        · intro hx; exact h1.regs (by simpa using hframe (by simpa using hx))

/-- What one payload byte of a command does (R155, R156): the equation of `payloadPhase`, which proofs cite instead of
unfolding it. -/
theorem payloadPhase_succ (m : Nat) (s : State) :
    payloadPhase (m + 1) s =
      match readBuffer s.command.data (s.command.len - (m + 1)) s.mem with
      | none => (s, .stuck .readPastBuffer)
      | some b =>
        let r := sendPayload (s.command.len - (m + 1)) b s
        match r.1 with
        | none => (r.2.failCommand .readBitTimeout, .finished)
        | some (level, ackStart) =>
          if level = r.2.params.ackLevel then payloadPhase m (r.2.atPayload (s.command.len - (m + 1) + 1) ackStart)
          else (r.2.atPayload (s.command.len - (m + 1)) ackStart, .resend) := by
  rfl

/-- The payload of a command (R155, R156), with m bytes to go. -/
theorem payloadPhase_spec (m : Nat) (s : State) (hm : m ≤ s.command.len) : PhaseSpec s (payloadPhase m s) := by
  induction m generalizing s with
  | zero => exact rxPhase_spec _ _ (Nat.le_refl _)
  | succ m ih =>
    rw [payloadPhase_succ]
    dsimp only [sendPayload]
    cases hrd : readBuffer s.command.data (s.command.len - (m + 1)) s.mem with
    | none =>
      constructor
      · exact .refl s
      · intro hx; cases hx
      · intro hx; cases hx
      · intro hx
        exfalso
        simp only [CommandRegs.fits, Bool.and_eq_true, decide_eq_true_eq] at hx
        rw [readBuffer_of_lt (by omega)] at hrd
        cases hrd
      · exact id
      · intro _ _ _; rfl
      · intro _; rfl
      · exact .refl _
      · exact id
    | some b =>
      dsimp only
      generalize hu : s.beforePayload (s.command.len - (m + 1)) = u
      have hsu : CommandFrame s u := by
        rw [← hu]; exact (atPayload_frame _ _ s).trans (.of_wire (elapse_wire _ _))
      have hcu : u.command = { s.command with pos := .payload (s.command.len - (m + 1)), ackStart := s.command.ackStart } := by
        rw [← hu]; simp [State.beforePayload]
      have hiu : u.im = s.im := by rw [← hu]; simp [State.beforePayload]
      have hru : u.result = s.result := by rw [← hu]; simp [State.beforePayload]
      have hmu : u.mem = s.mem := by rw [← hu]; simp [State.beforePayload]
      generalize later u.params (ackEnd u) (plus u.params u.cc u.params.tSetup) = c
      have hw := sendByte_wire c (byteFrameValue u.params b) 9 u
      have hsig := sendByte_signal c (byteFrameValue u.params b) 9 u
      have hfr := sendByte_frame c (byteFrameValue u.params b) 9 u
      generalize sendByte c (byteFrameValue u.params b) 9 u = r at hw hsig hfr
      have hf : CommandFrame s r.2 := hsu.trans (.of_wire hw)
      have hc : r.2.command = { s.command with pos := .payload (s.command.len - (m + 1)), ackStart := s.command.ackStart } := by
        rw [hw.command, hcu]
      have hi : r.2.im = s.im := hw.im.trans hiu
      have hr : r.2.result = s.result := hw.result.trans hru
      have hmm : r.2.mem = s.mem := hw.mem.trans hmu
      have hmode : r.2.signal = releasedPin := hsig
      obtain ⟨_ | ⟨level, a⟩, w⟩ := r
      · exact PhaseSpec.of_before hf ⟨_, _, hc⟩ hi hr hmm (.of_released hmode) (fun _ => hfr)
          (endCommand_spec (.inr (.inl rfl)))
      · dsimp only at *
        split
        · have h1 := ih (w.atPayload (s.command.len - (m + 1) + 1) a) (by rw [State.atPayload_command, hc]; simp; omega)
          refine PhaseSpec.of_before (hf.trans (atPayload_frame _ _ w)) ⟨.payload (s.command.len - (m + 1) + 1), a, ?_⟩
            (by simpa using hi) (by simpa using hr) (by simpa using hmm) (.of_released hmode)
            (fun _ => by simpa using hfr) h1
          rw [State.atPayload_command, hc]
        · constructor
          · exact hf.trans (atPayload_frame _ _ w)
          · intro hx; cases hx
          · intro _
            exact ⟨⟨s.command.len - (m + 1), a, by omega, by rw [State.atPayload_command, hc]⟩, by simpa using hi,
              by simpa using hr, by simpa using hmm⟩
          · intro _; exact .inr rfl
          · intro hx; simpa [hmm] using hx
          · intro _ _ _; simp [hmm]
          · intro _; simpa using hmm
          · exact .of_released hmode
          · intro _; simpa using hfr

/-- The whole command (R155). -/
theorem commandPhase_spec (s : State) : PhaseSpec s (commandPhase s) := by
  unfold commandPhase
  dsimp only
  have he := elapse_wire s
  have hw := he.trans (sendByte_wire (plus s.elapse.params s.elapse.cc s.elapse.params.tSetup)
    (commandFrameValue s.elapse.params s.elapse.command.cmd) 4 s.elapse)
  have hsig := sendByte_signal (plus s.elapse.params s.elapse.cc s.elapse.params.tSetup)
    (commandFrameValue s.elapse.params s.elapse.command.cmd) 4 s.elapse
  have hfr := sendByte_frame (plus s.elapse.params s.elapse.cc s.elapse.params.tSetup)
    (commandFrameValue s.elapse.params s.elapse.command.cmd) 4 s.elapse
  generalize sendByte (plus s.elapse.params s.elapse.cc s.elapse.params.tSetup)
    (commandFrameValue s.elapse.params s.elapse.command.cmd) 4 s.elapse = r at hw hsig hfr
  have hf : CommandFrame s r.2 := .of_wire hw
  have hc : r.2.command = { s.command with pos := s.command.pos, ackStart := s.command.ackStart } := hw.command
  have hmode : r.2.signal = releasedPin := hsig
  obtain ⟨_ | ⟨level, a⟩, w⟩ := r
  · exact PhaseSpec.of_before hf ⟨_, _, hc⟩ hw.im hw.result hw.mem (.of_released hmode) (fun _ => hfr)
      (endCommand_spec (.inr (.inl rfl)))
  · dsimp only at *
    split
    · have h1 := payloadPhase_spec w.command.len (w.atPayload 0 a) (by simp)
      refine PhaseSpec.of_before (hf.trans (atPayload_frame _ _ w)) ⟨.payload 0, a, ?_⟩
        (by simpa using hw.im) (by simpa using hw.result) (by simpa using hw.mem) (.of_released hmode)
        (fun _ => by simpa using hfr) h1
      rw [State.atPayload_command, hc]
    · exact PhaseSpec.of_before hf ⟨_, _, hc⟩ hw.im hw.result hw.mem (.of_released hmode) (fun _ => hfr)
        (endCommand_spec (.inr (.inr (.inl rfl))))

/-- A run of the sequencer from any position but idle (R42). -/
theorem runCommand_spec (s : State) (h : s.command.pos ≠ .idle) : PhaseSpec s (runCommand s) := by
  unfold runCommand
  split
  · exact absurd ‹_› h
  · exact commandPhase_spec s
  · exact payloadPhase_spec _ s (Nat.sub_le _ _)
  · exact rxPhase_spec _ s (Nat.sub_le _ _)

/-- Where every index lies inside its buffer the run's ending need not be looked at: no run is stuck (R232). -/
theorem settle_eq {s : State} {r : State × Ending} (h : PhaseSpec s r) :
    settle s.command.fits r =
      match r.2 with
      | .stuck why => .fault why
      | _ => .next r.1 := by
  unfold settle
  split
  · rcases h.fits ‹_› with g | g <;> simp [g]
  · cases r.2 <;> rfl

/-- What a settled run can answer: the state of a run that was not stuck. -/
theorem settle_next {fits : Bool} {r : State × Ending} {t : State} (h : settle fits r = .next t) : t = r.1 := by
  unfold settle at h
  split at h
  · cases h; rfl
  · split at h <;> cases h <;> rfl

/-- What a run of the sequencer that answers a next state leaves: RESET as it was; the mask restored where the command returned, and
the mask, the saved mask and the receptions to come held where it did not; caller memory written in `dest` alone. -/
structure Settled (s t : State) : Prop where
  resetPin : t.resetPin = s.resetPin
  returned : t.command.pos = .idle → t.im = s.command.saved.getD s.im
  held : t.command.pos ≠ .idle →
    t.im = s.im ∧ t.command.saved = s.command.saved ∧ t.command.rxLen = s.command.rxLen
  noRead : s.command.rxLen = 0 → t.mem = s.mem
  memory : Memory.wf s.mem → ∀ a, (a < s.command.dest.base ∨ s.command.dest.base + s.command.rxLen ≤ a) →
    Memory.read a t.mem = Memory.read a s.mem

/-- What a command that runs can answer (R155, R156, R159, R162). -/
theorem settle_settled {s t : State} (hp : s.command.pos ≠ .idle) (h : settle s.command.fits (runCommand s) = .next t) :
    Settled s t := by
  have g := runCommand_spec s hp
  rw [settle_eq g] at h
  generalize runCommand s = r at g h
  obtain ⟨u, e⟩ := r
  cases e with
  | finished =>
    cases h
    obtain ⟨h1, h2, -⟩ := g.finished rfl
    exact ⟨g.frame.resetPin, fun _ => h2, fun hn => absurd (congrArg CommandRegs.pos h1) hn, g.noRead, g.memory⟩
  | resend =>
    cases h
    obtain ⟨⟨i, a, -, h1⟩, h2, -⟩ := g.resend rfl
    have h1 : u.command = { s.command with pos := .payload i, ackStart := a } := h1
    exact ⟨g.frame.resetPin, fun hn => (by rw [h1] at hn; cases hn), fun _ => ⟨h2, by rw [h1], by rw [h1]⟩, g.noRead, g.memory⟩
  | stuck why => cases h

/-- SIGNAL after a command run is as its last host frame left it (R155). -/
theorem commandPhase_released (s : State) : (commandPhase s).1.signal = releasedPin := by
  unfold commandPhase
  dsimp only
  have hsig := sendByte_signal (plus s.elapse.params s.elapse.cc s.elapse.params.tSetup)
    (commandFrameValue s.elapse.params s.elapse.command.cmd) 4 s.elapse
  generalize sendByte (plus s.elapse.params s.elapse.cc s.elapse.params.tSetup)
    (commandFrameValue s.elapse.params s.elapse.command.cmd) 4 s.elapse = r at hsig
  obtain ⟨_ | ⟨level, a⟩, w⟩ := r
  · exact (endCommand_spec (.inr (.inl rfl))).signal.released hsig
  · dsimp only at *
    split
    · exact (payloadPhase_spec w.command.len (w.atPayload 0 a) (by simp)).signal.released hsig
    · exact (endCommand_spec (.inr (.inr (.inl rfl)))).signal.released hsig

/-- SIGNAL after a payload byte was sent is as the frame left it (R155, R156). -/
theorem payloadPhase_released (m : Nat) (s : State) (hm : m + 1 ≤ s.command.len) (hf : s.command.fits = true) :
    (payloadPhase (m + 1) s).1.signal = releasedPin := by
  rw [payloadPhase_succ]
  dsimp only [sendPayload]
  have hlt : s.command.len - (m + 1) < s.command.data.size := by
    simp only [CommandRegs.fits, Bool.and_eq_true, decide_eq_true_eq] at hf
    omega
  rw [readBuffer_of_lt hlt]
  dsimp only
  have hl : (s.beforePayload (s.command.len - (m + 1))).command.len = s.command.len := by simp [State.beforePayload]
  generalize s.beforePayload (s.command.len - (m + 1)) = u at hl
  generalize later u.params (ackEnd u) (plus u.params u.cc u.params.tSetup) = c
  generalize byteFrameValue u.params (Memory.read (s.command.data.base + (s.command.len - (m + 1))) s.mem) = v
  have hsig := sendByte_signal c v 9 u
  have hc := (sendByte_wire c v 9 u).command
  generalize sendByte c v 9 u = r at hsig hc
  obtain ⟨_ | ⟨level, a⟩, w⟩ := r
  · exact (endCommand_spec (.inr (.inl rfl))).signal.released hsig
  · dsimp only at *
    split
    · refine (payloadPhase_spec m (w.atPayload (s.command.len - (m + 1) + 1) a) ?_).signal.released hsig
      rw [State.atPayload_command, hc]
      dsimp only
      omega
    · exact hsig

end Sys2Proof.Machine
end

