-- ==== Sys2Proof/Laws/Actions.lean ====
section
/-!
SUPPORT. Laws/Actions.lean: which writes each operation makes, in order, and none before its cycle, over every timing: one lemma
for each. Reads are not counted.
-/

namespace Sys2Proof.Machine

open Sys2Proof

/-- From s to u these writes were made, in order, none before its cycle. -/
def Plan (s u : State) (l : List Planned) : Prop :=
  ∃ ev : List Event, u.trace = ev.reverse ++ s.trace ∧ List.Forall₂ Planned.met l (ev.filter Event.notRead)

/-- From s to u these are the actions of the events, oldest first, but for the reads. -/
def Acts (s u : State) (l : List Action) : Prop :=
  ∃ ev : List Event, u.trace = ev.reverse ++ s.trace ∧ (ev.filter Event.notRead).map Event.action = l

theorem newEvents_eq {s u : State} {ev : List Event} (h : u.trace = ev.reverse ++ s.trace) : newEvents s u = ev := by
  unfold newEvents
  rw [h]
  have : (ev.reverse ++ s.trace).length - s.trace.length = ev.reverse.length := by simp
  rw [this, List.take_left, List.reverse_reverse]

namespace Acts

theorem refl (s : State) : Acts s s [] := ⟨[], rfl, rfl⟩

theorem trans {s u w : State} {l m : List Action} (h : Acts s u l) (g : Acts u w m) : Acts s w (l ++ m) := by
  obtain ⟨ev, h1, h2⟩ := h
  obtain ⟨ev', g1, g2⟩ := g
  exact ⟨ev ++ ev', by simp [g1, h1], by simp [h2, g2]⟩

theorem of_trace {s u : State} (h : u.trace = s.trace) : Acts s u [] := ⟨[], by simpa using h, rfl⟩

theorem of_event {s u : State} {c : Nat} {a : Action} (h : u.trace = { cycle := c, action := a } :: s.trace)
    (ha : Event.notRead { cycle := c, action := a } = true) : Acts s u [a] :=
  ⟨[{ cycle := c, action := a }], by simpa using h, by simp [ha]⟩

theorem newActions {s u : State} {l : List Action} (h : Acts s u l) : newActions s u = l := by
  obtain ⟨ev, h1, h2⟩ := h
  rw [Machine.newActions, newWrites, newEvents_eq h1, h2]

end Acts

namespace Plan

theorem refl (s : State) : Plan s s [] := ⟨[], rfl, .nil⟩

theorem trans {s u w : State} {l m : List Planned} (h : Plan s u l) (g : Plan u w m) : Plan s w (l ++ m) := by
  obtain ⟨ev, h1, h2⟩ := h
  obtain ⟨ev', g1, g2⟩ := g
  refine ⟨ev ++ ev', by simp [g1, h1], ?_⟩
  rw [List.filter_append]
  exact List.rel_append h2 g2

theorem of_trace {s u : State} (h : u.trace = s.trace) : Plan s u [] := ⟨[], by simpa using h, .nil⟩

theorem of_event {s u : State} {c : Nat} {a : Action} (h : u.trace = { cycle := c, action := a } :: s.trace)
    (ha : Event.notRead { cycle := c, action := a } = true) {p : Planned}
    (hp : p.met { cycle := c, action := a }) : Plan s u [p] :=
  ⟨[{ cycle := c, action := a }], by simpa using h, by simpa [ha] using hp⟩

theorem of_read {s u : State} {c : Nat} {l : Level} (h : u.trace = { cycle := c, action := .read l } :: s.trace) :
    Plan s u [] :=
  ⟨[{ cycle := c, action := .read l }], by simpa using h, by simp [Event.notRead]⟩

theorem follows {s u : State} {l : List Planned} (h : Plan s u l) : Follows l s u := by
  obtain ⟨ev, h1, h2⟩ := h
  rw [Follows, newWrites, newEvents_eq h1]
  exact h2

theorem map_action {l : List Planned} {ev : List Event} (h : List.Forall₂ Planned.met l ev) :
    ev.map Event.action = l.map Planned.action := by
  induction h with
  | nil => rfl
  | cons h _ ih => simp [h.1, ih]

theorem acts {s u : State} {l : List Planned} (h : Plan s u l) : Acts s u (l.map Planned.action) := by
  obtain ⟨ev, h1, h2⟩ := h
  exact ⟨ev, h1, map_action h2⟩

end Plan

theorem elapse_plan (s : State) (due : Option Cycle := none) : Plan s (s.elapse due) [] := .of_trace (by simp)

theorem waitUntil_plan (c : Cycle) (s : State) : Plan s (s.waitUntil c) [] := .of_trace (by simp)

theorem late_plan (c : Cycle) (b : Bool) (s : State) : Plan s (s.late c b) [] := .of_trace (by simp)

theorem setFrame_plan (f : FrameRegs) (s : State) : Plan s (s.setFrame f) [] := .of_trace rfl

theorem pinWrite_plan (p : PinName) (a : PinAction) (s : State) :
    Plan s (s.pinWrite p a) [unscheduled (.pin p a)] := by
  cases p
  · exact .of_event (c := s.time) (a := .pin .signal a) (by simp) rfl ⟨rfl, fun _ _ h => nomatch h⟩
  · exact .of_event (c := s.time) (a := .pin .reset a) (by simp) rfl ⟨rfl, fun _ _ h => nomatch h⟩

theorem pinSet_plan (p : PinName) (a : PinAction) (s : State) (due : Option Cycle := none) :
    Plan s (s.pinSet p a due) [unscheduled (.pin p a)] :=
  (elapse_plan s due).trans (pinWrite_plan p a _)

/-- A pin write at or after a cycle (R112). -/
theorem pinWrite_scheduled {c : Cycle} (a : PinAction) {s : State} (h : atOrAfter s.params s.cc c = true) :
    Plan s (s.pinWrite .signal a) [scheduled s.params a c] := by
  refine .of_event (c := s.time) (a := .pin .signal a) (by simp) rfl ⟨rfl, ?_⟩
  intro q d hd
  cases hd
  exact h

theorem schedule_plan (c : Cycle) (a : PinAction) (s : State) : Plan s (s.schedule c a) [scheduled s.params a c] := by
  have h := (waitUntil_plan c s).trans (pinWrite_scheduled a (by simpa using waitUntil_atOrAfter c s))
  simpa [State.schedule] using h

theorem pinRead_plan (s : State) : Plan s s.pinRead [] := .of_read (c := s.time) (l := s.lineLevel) (by simp)

theorem pollCost_plan (s : State) : Plan s s.pollCost [] := .of_trace (by simp)

theorem poll_plan (want : Level) (k : Nat) (s : State) : Plan s (poll want k s).2 [] := by
  induction k generalizing s with
  | zero => exact .refl s
  | succ k ih =>
    unfold poll
    split
    · exact (pinRead_plan s).trans (elapse_plan _)
    · exact ((pinRead_plan s).trans (pollCost_plan _)).trans (ih _)

theorem receiveBit_plan (s : State) : Plan s (receiveBit s).2 [] := by
  unfold receiveBit
  have h := poll_plan .low s.params.timeout s
  generalize poll .low s.params.timeout s = r at h
  obtain ⟨_ | t, u⟩ := r
  · exact h
  · exact (h.trans (waitUntil_plan _ u)).trans (pinRead_plan _)

@[simp] theorem schedule_params (c : Cycle) (a : PinAction) (s : State) : (s.schedule c a).params = s.params :=
  (schedule_wire c a s).params

theorem sendBit_plan (c : Cycle) (z b : Bool) (s : State) : Plan s (s.sendBit c z b) (bitPlan s.params c z b) := by
  unfold State.sendBit bitPlan
  cases z <;> cases b
  · simpa using schedule_plan c .setLow s
  · simpa using (schedule_plan c .setLow s).trans (schedule_plan _ .setHigh _)
  · simpa using (schedule_plan _ .setHigh s).trans (schedule_plan c .setLow _)
  · simpa using ((schedule_plan _ .setHigh s).trans (schedule_plan c .setLow _)).trans (schedule_plan _ .setHigh _)

theorem finishFrame_plan (c : Cycle) (s : State) :
    Plan s (s.finishFrame c) [scheduled s.params .setHigh (plus s.params c (s.params.tPeriod - s.params.tShort))] :=
  schedule_plan _ _ _

theorem sendFrameBits_plan (c : Cycle) (v : BitVec 16) (m : Nat) (s : State) :
    Plan s (sendFrameBits c v m s) (bitsPlan s.params v c m s.frame.bit s.frame.prevZero) := by
  induction m generalizing s with
  | zero => exact .refl s
  | succ m ih =>
    have h1 : Plan s (s.sendFrameBit c (v.getLsbD m))
        (bitPlan s.params (plus s.params c (s.frame.bit * s.params.tPeriod)) s.frame.prevZero (v.getLsbD m)) := by
      simpa [State.sendFrameBit] using (sendBit_plan _ _ _ s).trans (setFrame_plan _ _)
    have h2 := h1.trans (ih (s.sendFrameBit c (v.getLsbD m)))
    rw [sendFrameBit_frame, (sendFrameBit_wire c _ s).params] at h2
    exact h2

theorem sendFrame_plan (c : Cycle) (v : BitVec 16) (n : Nat) (hn : 0 < n) (s : State) :
    Plan s (s.sendFrame c v n) (framePlan s.params v n c) := by
  unfold State.sendFrame framePlan
  dsimp only
  have h1 := ((pinSet_plan .signal .setHigh s (some c)).trans (pinSet_plan .signal .setOutput _ (some c))).trans
    (setFrame_plan {} _)
  have hp : (((s.pinSet .signal .setHigh (some c)).pinSet .signal .setOutput (some c)).setFrame {}).params = s.params := by simp
  have h2 := sendFrameBits_plan c v n (((s.pinSet .signal .setHigh (some c)).pinSet .signal .setOutput (some c)).setFrame {})
  have hp2 := (sendFrameBits_wire c v n (((s.pinSet .signal .setHigh (some c)).pinSet .signal .setOutput (some c)).setFrame
    {})).params
  have e := sendFrameBits_frame c v n (((s.pinSet .signal .setHigh (some c)).pinSet .signal .setOutput (some c)).setFrame {})
  simp only [State.setFrame_frame] at h2 e
  generalize ((s.pinSet .signal .setHigh (some c)).pinSet .signal .setOutput (some c)).setFrame {} = u at h1 h2 e hp hp2
  generalize sendFrameBits c v n u = w at h2 e hp2
  rw [hp] at h2 hp2
  have h3 := sendBit_plan (plus w.params c (n * w.params.tPeriod)) w.frame.prevZero w.frame.parity w
  have hp3 := (sendBit_wire (plus w.params c (n * w.params.tPeriod)) w.frame.prevZero w.frame.parity w).params
  have h4 := finishFrame_plan (plus w.params c (n * w.params.tPeriod))
    (w.sendBit (plus w.params c (n * w.params.tPeriod)) w.frame.prevZero w.frame.parity)
  have ez : w.frame.prevZero = !v.getLsbD 0 := by rw [e]; simp; omega
  have ep : w.frame.parity = frameParity v n := by rw [e]; simp
  rw [hp2, ez, ep] at h3
  rw [hp3, hp2, ez, ep] at h4
  rw [hp2, ez, ep]
  have h5 := ((((h1.trans h2).trans h3).trans h4).trans (pinSet_plan .signal .setInput _)).trans (setFrame_plan {} _)
  simpa using h5

theorem sendByte_plan (c : Cycle) (v : BitVec 16) (n : Nat) (hn : 0 < n) (s : State) :
    Plan s (sendByte c v n s).2 (framePlan s.params v n c) := by
  have h := ((sendFrame_plan c v n hn s).trans (elapse_plan _)).trans (receiveBit_plan _)
  simpa [sendByte] using h

@[simp] theorem bitPlan_action (p : Params) (c : Cycle) (z b : Bool) :
    (bitPlan p c z b).map Planned.action = bitActions z b := by
  cases z <;> cases b <;> rfl

@[simp] theorem bitsPlan_action (p : Params) (v : BitVec 16) (c : Cycle) (m k : Nat) (z : Bool) :
    (bitsPlan p v c m k z).map Planned.action = bitsActions v m z := by
  induction m generalizing k z with
  | zero => rfl
  | succ m ih => simp [bitsPlan, bitsActions, ih]

@[simp] theorem framePlan_action (p : Params) (v : BitVec 16) (n : Nat) (c : Cycle) :
    (framePlan p v n c).map Planned.action = frameActions v n := by
  simp [framePlan, frameActions, unscheduled, scheduled]

@[simp] theorem ackPlan_action (p : Params) (c : Cycle) (b : Bool) :
    (ackPlan p c b).map Planned.action = ackActions b := by
  simp [ackPlan, ackActions, unscheduled, scheduled]

theorem sendByte_acts (c : Cycle) (v : BitVec 16) (n : Nat) (hn : 0 < n) (s : State) :
    Acts s (sendByte c v n s).2 (frameActions v n) := by
  simpa using (sendByte_plan c v n hn s).acts

theorem sendAck_plan (bad : Bool) (s : State) :
    Plan s (s.sendAck bad) (ackPlan s.params (ackStartOf s) (ackBit s.params bad)) := by
  unfold State.sendAck ackPlan
  dsimp only
  generalize ackStartOf s = a
  have h1 := ((elapse_plan s (some (parityEnd s))).trans (pinSet_plan .signal .setHigh _ (some a))).trans
    (pinSet_plan .signal .setOutput _ (some a))
  have hp : ((s.atAck.pinSet .signal .setHigh (some a)).pinSet .signal .setOutput (some a)).params = s.params := by
    simp [State.atAck]
  change Plan s ((s.atAck.pinSet .signal .setHigh (some a)).pinSet .signal .setOutput (some a)) _ at h1
  generalize (s.atAck.pinSet .signal .setHigh (some a)).pinSet .signal .setOutput (some a) = u at h1 hp
  rw [hp]
  have h2 := sendBit_plan a false (ackBit s.params bad) u
  have h3 := finishFrame_plan a (u.sendBit a false (ackBit s.params bad))
  rw [(sendBit_wire _ _ _ _).params] at h3
  rw [hp] at h2 h3
  simpa using ((h1.trans h2).trans h3).trans (pinSet_plan .signal .setInput _)

theorem sendAck_acts (bad : Bool) (s : State) : Acts s (s.sendAck bad) (ackActions (ackBit s.params bad)) := by
  simpa using (sendAck_plan bad s).acts

theorem receiveFrameBits_plan (m : Nat) (s : State) : Plan s (receiveFrameBits m s).2 [] := by
  induction m generalizing s with
  | zero => exact .refl s
  | succ m ih =>
    unfold receiveFrameBits
    dsimp only
    have h := (waitUntil_plan (plus s.params s.frame.start s.params.tRxOffset) s).trans (receiveBit_plan _)
    generalize receiveBit (s.waitUntil (plus s.params s.frame.start s.params.tRxOffset)) = r at h
    obtain ⟨_ | ⟨l, t⟩, u⟩ := r
    · exact h
    · exact (h.trans (setFrame_plan _ u)).trans (ih _)

/-- The replies of `receive_byte` and the writes that go with each (R146): no ACK bit after a timeout or a bad start bit, an ACK
after a byte, a NACK after a parity error. -/
theorem receiveByte_plan (s : State) :
    match (receiveByte s).1 with
    | .ok _ => ∃ c, Plan s (receiveByte s).2 (ackPlan s.params c (ackBit s.params false))
    | .error .parityError => ∃ c, Plan s (receiveByte s).2 (ackPlan s.params c (ackBit s.params true))
    | .error _ => Plan s (receiveByte s).2 [] := by
  unfold receiveByte
  have h := receiveBit_plan s
  have hp := (receiveBit_wire s).params
  generalize receiveBit s = r at h hp
  obtain ⟨_ | ⟨l, t⟩, u⟩ := r
  · exact h
  · dsimp only at *
    by_cases hb : bitOf l ≠ u.params.targetStart
    · rw [if_pos hb]; exact h
    · rw [if_neg hb]
      have h1 := (h.trans (setFrame_plan { bit := 1, start := t } u)).trans (receiveFrameBits_plan 9 _)
      have hp1 := (receiveFrameBits_wire 9 (u.setFrame { bit := 1, start := t })).params
      generalize receiveFrameBits 9 (u.setFrame { bit := 1, start := t }) = q at h1 hp1
      obtain ⟨_ | i, w⟩ := q
      · dsimp only at *
        have h2 := (h1.trans (sendAck_plan (w.frame.parity.xor w.frame.last) w)).trans (setFrame_plan {} _)
        have hw : w.params = s.params := by rw [hp1]; simpa using hp
        rw [hw] at h2
        cases hbad : w.frame.parity.xor w.frame.last <;> rw [hbad] at h2 <;>
          simp only [Bool.false_eq_true, if_false, if_true] <;> exact ⟨_, by simpa using h2⟩
      · exact h1.trans (setFrame_plan {} w)

theorem enterCritical_acts (s : State) : Acts s s.enterCritical [.irqMask] :=
  .of_event (c := s.elapse.time) (by simp) rfl

theorem leaveCritical_acts (im : IrqMask) (s : State) : Acts s (s.leaveCritical im) [.irqRestore im] :=
  .of_event (c := s.elapse.time) (by simp) rfl

end Sys2Proof.Machine
end

