-- ==== Sys2Proof/Laws/Events.lean ====
section
/-!
SUPPORT. Laws/Events.lean: every event of the shared operations on SIGNAL, reads and writes, in order, over every timing: one lemma
for each, in the terms of Safety.lean.
-/

namespace Sys2Proof.Machine

open Sys2Proof

/-- From s to u the machine ran forward, with these events, oldest first, all of them between the two times (R71). -/
structure Emits (s u : State) (ev : List Event) : Prop where
  trace : u.trace = ev.reverse ++ s.trace
  time : s.time ≤ u.time
  span : ∀ e ∈ ev, s.time ≤ e.cycle ∧ e.cycle ≤ u.time

namespace Emits

theorem of_forward {s u : State} {ev : List Event} (h : Forward s u) (g : u.trace = ev.reverse ++ s.trace) : Emits s u ev := by
  obtain ⟨h1, ew, h2, -, h4⟩ := h
  have : ew = ev.reverse := List.append_cancel_right (h2.symm.trans g)
  subst this
  exact ⟨g, h1, fun e he => h4 e (List.mem_reverse.2 he)⟩

theorem refl (s : State) : Emits s s [] := of_forward (.refl s) rfl

theorem trans {s u w : State} {ev ew : List Event} (h : Emits s u ev) (g : Emits u w ew) : Emits s w (ev ++ ew) where
  trace := by rw [g.trace, h.trace, List.reverse_append, List.append_assoc]
  time := h.time.trans g.time
  span := fun e he => by
    rcases List.mem_append.1 he with he | he
    · exact ⟨(h.span e he).1, (h.span e he).2.trans g.time⟩
    · exact ⟨h.time.trans (g.span e he).1, (g.span e he).2⟩

/-- Time passes, and nothing happens. -/
theorem of_quiet {s u : State} (h : Forward s u) (g : u.trace = s.trace) : Emits s u [] := of_forward h g

/-- The registers that are no wire state make no difference. -/
theorem of_eq {s t u w : State} {ev : List Event} (h : Emits s t ev) (e : u.trace = s.trace) (f : u.time = s.time)
    (g : w.trace = t.trace) (k : w.time = t.time) : Emits u w ev :=
  ⟨by rw [g, e]; exact h.trace, by rw [f, k]; exact h.time, by rw [f, k]; exact h.span⟩

theorem newEvents {s u : State} {ev : List Event} (h : Emits s u ev) : newEvents s u = ev := newEvents_eq h.trace

end Emits

/-! ### Writes -/

/-- A run that only writes carries its plan out in its events. -/
theorem Plan.only {s u : State} {l : List Planned} (h : Plan s u l) (hf : Forward s u)
    (hw : ∃ ev : List Event, u.trace = ev.reverse ++ s.trace ∧ ∀ e ∈ ev, e.notRead = true) :
    ∃ ev, Emits s u ev ∧ List.Forall₂ Planned.met l ev := by
  obtain ⟨ev, h1, h2⟩ := h
  obtain ⟨ew, g1, g2⟩ := hw
  have : ew = ev := List.reverse_injective (List.append_cancel_right (g1.symm.trans h1))
  subst this
  rw [List.filter_eq_self.2 g2] at h2
  exact ⟨ew, .of_forward hf h1, h2⟩

/-- From s to u nothing was read. -/
def NoReads (s u : State) : Prop := ∃ ev : List Event, u.trace = ev.reverse ++ s.trace ∧ ∀ e ∈ ev, e.notRead = true

namespace NoReads

theorem of_trace {s u : State} (h : u.trace = s.trace) : NoReads s u := ⟨[], h, by simp⟩

theorem trans {s u w : State} (h : NoReads s u) (g : NoReads u w) : NoReads s w := by
  obtain ⟨a, h1, h2⟩ := h
  obtain ⟨b, g1, g2⟩ := g
  refine ⟨a ++ b, by simp [g1, h1], fun e he => ?_⟩
  rcases List.mem_append.1 he with he | he
  · exact h2 e he
  · exact g2 e he

end NoReads

theorem pinWrite_noReads (a : PinAction) (s : State) : NoReads s (s.pinWrite .signal a) :=
  ⟨[signalEvent a s.time], by simp [signalEvent], by simp [signalEvent, Event.notRead]⟩

theorem pinSet_noReads (a : PinAction) (s : State) (due : Option Cycle := none) : NoReads s (s.pinSet .signal a due) :=
  (NoReads.of_trace (by simp)).trans (pinWrite_noReads a _)

theorem schedule_noReads (c : Cycle) (a : PinAction) (s : State) : NoReads s (s.schedule c a) :=
  (NoReads.of_trace (by simp)).trans (pinWrite_noReads a _)

theorem sendBit_noReads (c : Cycle) (z b : Bool) (s : State) : NoReads s (s.sendBit c z b) := by
  unfold State.sendBit
  cases z <;> cases b <;> simp only [if_true, Bool.false_eq_true, if_false]
  · exact schedule_noReads _ _ _
  · exact (schedule_noReads _ _ _).trans (schedule_noReads _ _ _)
  · exact (schedule_noReads _ _ _).trans (schedule_noReads _ _ _)
  · exact ((schedule_noReads _ _ _).trans (schedule_noReads _ _ _)).trans (schedule_noReads _ _ _)

theorem sendFrameBits_noReads (c : Cycle) (v : BitVec 16) (m : Nat) (s : State) : NoReads s (sendFrameBits c v m s) := by
  induction m generalizing s with
  | zero => exact .of_trace rfl
  | succ m ih => exact ((sendBit_noReads _ _ _ s).trans (.of_trace rfl)).trans (ih _)

theorem sendFrame_noReads (c : Cycle) (v : BitVec 16) (n : Nat) (s : State) : NoReads s (s.sendFrame c v n) := by
  unfold State.sendFrame
  refine NoReads.trans ?_ (.of_trace rfl)
  refine NoReads.trans ?_ (pinSet_noReads _ _)
  refine NoReads.trans ?_ (schedule_noReads _ _ _)
  refine NoReads.trans ?_ (sendBit_noReads _ _ _ _)
  refine NoReads.trans ?_ (sendFrameBits_noReads _ _ _ _)
  exact ((pinSet_noReads _ s _).trans (pinSet_noReads _ _ _)).trans (.of_trace rfl)

theorem sendAck_noReads (bad : Bool) (s : State) : NoReads s (s.sendAck bad) := by
  unfold State.sendAck
  refine NoReads.trans ?_ (pinSet_noReads _ _)
  refine NoReads.trans ?_ (schedule_noReads _ _ _)
  refine NoReads.trans ?_ (sendBit_noReads _ _ _ _)
  exact ((NoReads.of_trace (by simp [State.atAck])).trans (pinSet_noReads _ s.atAck _)).trans (pinSet_noReads _ _ _)

/-! ### Receptions -/

/-- The reads of a poll (R127), from the current cycle on; its answer is the cycle it ends at (D8). -/
theorem poll_events (want : Level) (budget : Nat) (s : State) : ∃ ev, Emits s (poll want budget s).2 ev ∧
    (∀ e ∈ ev.head?, e.cycle = s.time) ∧
    match (poll want budget s).1 with
    | none => Polled want budget ev none
    | some c => c = (poll want budget s).2.cc ∧ Polled want budget ev (some (poll want budget s).2.time) := by
  have hr : ∀ s : State, Emits s s.pinRead [{ cycle := s.time, action := .read s.lineLevel }] := fun s =>
    .of_forward (pinRead_wire s).forward (by simp)
  induction budget generalizing s with
  | zero => exact ⟨[], .refl s, by simp, rfl, by simp⟩
  | succ k ih =>
    unfold poll
    split
    · rename_i hw
      have h := (hr s).trans (.of_quiet (elapse_wire s.pinRead).forward (by simp))
      exact ⟨_, h, by simp, rfl, [], _, rfl, Nat.succ_pos k, by simp, by rw [hw], (h.span _ (by simp)).2⟩
    · rename_i hw
      obtain ⟨ev, h1, -, h2⟩ := ih s.pinRead.pollCost
      refine ⟨{ cycle := s.time, action := .read s.lineLevel } :: ev,
        ((hr s).trans (.of_quiet (pollCost_wire _).forward (by simp))).trans h1, by simp, ?_⟩
      generalize poll want k s.pinRead.pollCost = r at h2
      have hc : ∀ l : List Event, (∀ e ∈ l, ∃ l, l ≠ want ∧ e.action = .read l) →
          ∀ e ∈ ({ cycle := s.time, action := .read s.lineLevel } : Event) :: l, ∃ l, l ≠ want ∧ e.action = .read l := by
        intro l hl e he
        rcases List.mem_cons.1 he with rfl | he
        · exact ⟨_, hw, rfl⟩
        · exact hl e he
      obtain ⟨_ | c, u⟩ := r
      · exact ⟨by simp [h2.1], hc _ h2.2⟩
      · obtain ⟨g1, missed, seen, rfl, g2, g3, g4⟩ := h2
        exact ⟨g1, _, seen, rfl, by simp [g2], hc _ g3, g4⟩

/-- A read that saw no LOW saw HIGH. -/
theorem read_high_of_missed {ev : List Event} (h : ∀ e ∈ ev, ∃ l, l ≠ Level.low ∧ e.action = .read l) :
    ∀ e ∈ ev, e.action = .read .high := by
  intro e he
  obtain ⟨l, hl, g⟩ := h e he
  cases l
  · exact absurd rfl hl
  · exact g

/-- The events of `receive_bit` (R128): the reads of one reception, from the current cycle on. -/
theorem receiveBit_events (s : State) : ∃ ev, Emits s (receiveBit s).2 ev ∧ (∀ e ∈ ev.head?, e.cycle = s.time) ∧
    Reception s.params ev (receiveBit s).1 := by
  obtain ⟨ev, h1, h0, h2⟩ := poll_events .low s.params.timeout s
  have hp : (poll .low s.params.timeout s).2.params = s.params := (poll_wire _ _ _).params
  unfold receiveBit
  generalize poll .low s.params.timeout s = r at h1 h2 hp
  obtain ⟨_ | c, u⟩ := r
  · exact ⟨ev, h1, h0, h2.1, read_high_of_missed h2.2⟩
  · obtain ⟨hc, m, seen, he, hl, hm, ha, hk⟩ := h2
    dsimp only at *
    have hs : Emits (u.waitUntil (plus u.params c u.params.tHalf)) (u.waitUntil (plus u.params c u.params.tHalf)).pinRead
        [{ cycle := (u.waitUntil (plus u.params c u.params.tHalf)).time,
           action := .read (u.waitUntil (plus u.params c u.params.tHalf)).lineLevel }] :=
      .of_forward (pinRead_wire _).forward (by simp)
    have hq := (h1.trans (.of_quiet (waitUntil_wire (plus u.params c u.params.tHalf) u).forward (by simp))).trans hs
    refine ⟨_, hq, ?_, m, seen, _, u.time, by rw [he, List.append_nil, List.append_assoc]; rfl, hl, read_high_of_missed hm, ha,
      rfl, hk, ?_, ?_, ?_⟩
    · rw [he] at h0 ⊢; cases m <;> simpa using h0
    · exact (waitUntil_wire _ u).forward.time
    · rw [hc, State.cc, hp]
    · have := waitUntil_atOrAfter (plus u.params c u.params.tHalf) u
      rw [← hp]
      simpa [atOrAfter, State.cc] using this

/-- The events of `send_byte` (R140). -/
theorem sendByte_events (c : Cycle) (v : BitVec 16) (n : Nat) (hn : 0 < n) (s : State) :
    ∃ ev, Emits s (sendByte c v n s).2 ev ∧ FrameSent s.params v n c (sendByte c v n s).1 ev := by
  obtain ⟨ev, h1, h2⟩ := (sendFrame_plan c v n hn s).only (sendFrame_wire c v n s).forward (sendFrame_noReads c v n s)
  obtain ⟨ew, g1, -, g2⟩ := receiveBit_events (s.sendFrame c v n).elapse
  have hp : (s.sendFrame c v n).elapse.params = s.params := by simpa using (sendFrame_wire c v n s).params
  rw [hp] at g2
  have h3 := (h1.trans (.of_quiet (elapse_wire _).forward (by simp))).trans g1
  exact ⟨_, h3, ev, ew, by simp, h2, g2⟩

theorem BitsRead.append {p : Params} {e : Option Cycle} {bits bits' : List (Level × Cycle)} {ev ew : List Event}
    (h : BitsRead p e bits ev) (g : BitsRead p (lastEdge e bits) bits' ew) : BitsRead p e (bits ++ bits') (ev ++ ew) := by
  induction bits generalizing e ev with
  | nil => cases h; exact g
  | cons b bits ih =>
    obtain ⟨mine, rest, rfl, h1, h2, h3⟩ := h
    exact ⟨mine, rest ++ ew, by simp, h1, h2, ih h3 g⟩

/-- The events of the receptions of a target frame after its first bit (R146, R147), and the registers they leave. -/
theorem receiveFrameBits_events (m : Nat) (s : State) :
    ∃ bits got rest, Emits s (receiveFrameBits m s).2 (got ++ rest) ∧ BitsRead s.params (some s.frame.start) bits got ∧
      match (receiveFrameBits m s).1 with
      | none => rest = [] ∧ bits.length = m ∧
          (receiveFrameBits m s).2.frame = bits.foldl (fun f b => f.take b.1 b.2) s.frame
      | some i => bits.length < m ∧ i = Fin.ofNat 10 (s.frame.bit + bits.length) ∧
          SpacedFrom s.params (lastEdge (some s.frame.start) bits) rest ∧ Reception s.params rest none := by
  induction m generalizing s with
  | zero => exact ⟨[], [], [], .refl s, rfl, rfl, rfl, rfl⟩
  | succ m ih =>
    unfold receiveFrameBits
    dsimp only
    obtain ⟨ev, h1, h2, h3⟩ := receiveBit_events (s.waitUntil (plus s.params s.frame.start s.params.tRxOffset))
    have hp : (s.waitUntil (plus s.params s.frame.start s.params.tRxOffset)).params = s.params := by simp
    have hfr := receiveBit_frame (s.waitUntil (plus s.params s.frame.start s.params.tRxOffset))
    have hpar := (receiveBit_wire (s.waitUntil (plus s.params s.frame.start s.params.tRxOffset))).params
    rw [hp] at h3 hpar
    rw [State.waitUntil_frame] at hfr
    have hspace : SpacedFrom s.params (some s.frame.start) ev := by
      intro c hc e he
      cases hc
      have hw := waitUntil_atOrAfter (plus s.params s.frame.start s.params.tRxOffset) s
      rw [h2 e he]
      simpa [atOrAfter, State.cc] using hw
    have h4 := (Emits.of_quiet (waitUntil_wire (plus s.params s.frame.start s.params.tRxOffset) s).forward (by simp)).trans h1
    generalize receiveBit (s.waitUntil (plus s.params s.frame.start s.params.tRxOffset)) = r at h3 h4 hfr hpar
    obtain ⟨_ | ⟨l, t⟩, u⟩ := r
    · exact ⟨[], [], ev, h4, rfl, Nat.succ_pos m, by rw [hfr]; rfl, hspace, h3⟩
    · dsimp only at *
      obtain ⟨bits, got, rest, g1, g2, g3⟩ := ih (u.setFrame (u.frame.take l t))
      have e1 : (u.frame.take l t).start = t := by unfold FrameRegs.take; split <;> rfl
      have e2 : (u.frame.take l t).bit = s.frame.bit + 1 := by rw [hfr]; unfold FrameRegs.take; split <;> rfl
      rw [State.setFrame_frame, State.setFrame_params, hpar] at g2 g3
      rw [e1] at g2 g3
      refine ⟨(l, t) :: bits, ev ++ got, rest, ?_, ⟨ev, got, rfl, hspace, h3, g2⟩, ?_⟩
      · have := h4.trans (g1.of_eq (u := u) rfl rfl rfl rfl)
        simpa using this
      · generalize receiveFrameBits m (u.setFrame (u.frame.take l t)) = q at g1 g3
        obtain ⟨_ | i, w⟩ := q
        · exact ⟨g3.1, by simp [g3.2.1], by rw [← hfr]; exact g3.2.2⟩
        · refine ⟨by simpa using g3.1, ?_, g3.2.2.1, g3.2.2.2⟩
          rw [g3.2.1, e2, List.length_cons]
          congr 1; omega

theorem byteBits_shift : ∀ b7 b6 b5 b4 b3 b2 b1 b0 : Bool,
    byteBits ([b7, b6, b5, b4, b3, b2, b1, b0].foldl shiftIn 0#8) = [b7, b6, b5, b4, b3, b2, b1, b0] := by
  decide +kernel

/-- Nine bits of a target frame make a byte and a parity bit (R146). -/
theorem take_nine (bits : List (Level × Cycle)) (t : Cycle) (h : bits.length = 9) :
    ∃ (v : Byte) (q : Bool) (c : Cycle), bits.map (fun b => bitOf b.1) = byteBits v ++ [q] ∧ lastEdge (some t) bits = some c ∧
      bits.foldl (fun (f : FrameRegs) b => f.take b.1 b.2) { bit := 1, start := t } =
        ({ bit := 10, start := c, value := v, parity := byteParity v, last := q } : FrameRegs) := by
  match bits, h with
  | [b7, b6, b5, b4, b3, b2, b1, b0, q], _ =>
    have e := byteBits_shift (bitOf b7.1) (bitOf b6.1) (bitOf b5.1) (bitOf b4.1) (bitOf b3.1) (bitOf b2.1) (bitOf b1.1) (bitOf b0.1)
    refine ⟨[bitOf b7.1, bitOf b6.1, bitOf b5.1, bitOf b4.1, bitOf b3.1, bitOf b2.1, bitOf b1.1, bitOf b0.1].foldl shiftIn 0#8,
      bitOf q.1, q.2, ?_, rfl, ?_⟩
    · rw [e]; rfl
    · simp only [byteParity, e]
      simp [FrameRegs.take]

/-- The events and the answer of `receive_byte` (R146). -/
theorem receiveByte_events (s : State) : ∃ ev, Emits s (receiveByte s).2 ev ∧ ByteReceived s.params (receiveByte s).1 ev := by
  unfold receiveByte
  have noEdge : ∀ ev, SpacedFrom s.params none ev := fun _ _ h => nomatch h
  obtain ⟨ev, h1, -, h3⟩ := receiveBit_events s
  have hp := (receiveBit_wire s).params
  generalize receiveBit s = r at h1 h3 hp
  obtain ⟨_ | ⟨l, t⟩, u⟩ := r
  · exact ⟨ev, h1, [], [], ev, rfl, rfl, .inl ⟨0, rfl, rfl, by simp, noEdge ev, h3⟩⟩
  · dsimp only at *
    have h0 : BitsRead s.params none [(l, t)] ev := ⟨ev, [], by simp, noEdge ev, h3, rfl⟩
    rw [hp]
    by_cases hb : bitOf l ≠ s.params.targetStart
    · rw [if_pos hb]
      exact ⟨ev, h1, [(l, t)], ev, [], by simp, h0, .inr (.inl ⟨_, rfl, hb, rfl, rfl⟩)⟩
    · rw [if_neg hb]
      have hb : bitOf l = s.params.targetStart := by simpa using hb
      obtain ⟨bits, got, rest, g1, g2, g3⟩ := receiveFrameBits_events 9 (u.setFrame { bit := 1, start := t })
      have hp1 := (receiveFrameBits_wire 9 (u.setFrame { bit := 1, start := t })).params
      rw [State.setFrame_frame, State.setFrame_params, hp] at g2 g3
      rw [State.setFrame_params, hp] at hp1
      have g4 := h1.trans (g1.of_eq (u := u) rfl rfl rfl rfl)
      have g5 : BitsRead s.params none ([(l, t)] ++ bits) (ev ++ got) := h0.append g2
      generalize receiveFrameBits 9 (u.setFrame { bit := 1, start := t }) = q at g3 g4 hp1
      obtain ⟨_ | i, w⟩ := q
      · dsimp only at *
        obtain ⟨rfl, k1, k2⟩ := g3
        obtain ⟨v, x, c, k3, k4, k5⟩ := take_nine bits t k1
        rw [k5] at k2
        have hpl := sendAck_plan (w.frame.parity.xor w.frame.last) w
        obtain ⟨ew, a1, a2⟩ := hpl.only (sendAck_wire _ w).forward (sendAck_noReads _ w)
        rw [hp1] at a2
        have hq := Emits.of_quiet (elapse_wire w (some (parityEnd w))).forward (State.elapse_trace _ w)
        have hge : ∀ e ∈ ew, w.atAck.time ≤ e.cycle := by
          have hf := (sendAck_atAck_wire (w.frame.parity.xor w.frame.last) w).forward
          obtain ⟨-, ez, z1, -, z3⟩ := hf
          rw [a1.trace, State.atAck, State.elapse_trace] at z1
          have : ez = ew.reverse := (List.append_cancel_right z1).symm
          subst this
          exact fun e he => (z3 e (List.mem_reverse.2 he)).1
        refine ⟨_, (g4.trans a1).of_eq rfl rfl rfl rfl, _, ev ++ got, ew, by simp, g5, .inr (.inr
          ⟨v, x, c, w.atAck.time, ?_, k4, ?_, ?_, hge, ?_⟩)⟩
        · simp [k3, hb, targetFrame]
        · rw [k2]
          cases byteParity v <;> cases x <;> rfl
        · intro e he
          exact ((g4.span e (by simpa using he)).2).trans hq.time
        · have e1 : ackStartOf w = later s.params (plus s.params c s.params.tPeriod)
              (plus s.params (wrap s.params w.atAck.time) s.params.tSetup) := by
            rw [ackStartOf, parityEnd, State.cc, State.atAck, State.elapse_params, hp1, k2]
          rw [← e1]
          rw [k2] at a2
          exact a2
      · dsimp only at *
        obtain ⟨k1, k2, k3, k4⟩ := g3
        refine ⟨_, g4.of_eq rfl rfl rfl rfl, _, ev ++ got, rest, by simp, g5, .inl ⟨i, rfl, ?_, ?_, k3, k4⟩⟩
        · rw [k2]
          simp [Fin.ofNat]
          omega
        · simp [hb]

end Sys2Proof.Machine
end

