-- ==== Sys2Proof/Laws/Transactions.lean ====
section
/-!
SUPPORT. Laws/Transactions.lean: the events, the reply and the stored bytes of a run of the command sequencer, over every timing:
one lemma for each of its phases, in the terms of Safety.lean.
-/

namespace Sys2Proof.Machine

open Sys2Proof

theorem endCommand_mem (r : Reply) (s : State) : (s.endCommand r).mem = s.mem := by simp [State.endCommand]
theorem endCommand_im (r : Reply) (s : State) : (s.endCommand r).im = s.command.saved.getD s.im := by
  simp [State.endCommand]
theorem endCommand_result (r : Reply) (s : State) : (s.endCommand r).result = some r := by simp [State.endCommand]
theorem endCommand_command (r : Reply) (s : State) : (s.endCommand r).command = {} := rfl

theorem Stored.nil (m : Memory) (a : Nat) : Stored m m a [] := by
  intro b; rw [if_neg (by simp)]

theorem Stored.cons {m m' : Memory} {a : Nat} {v : Byte} {vs : List Byte} (hm : Memory.wf m)
    (h : Stored (Memory.write a v m) m' (a + 1) vs) : Stored m m' a (v :: vs) := by
  intro b
  rw [h b, Memory.read_write hm, List.length_cons]
  by_cases hb : b = a
  · subst hb
    simp
  · rw [if_neg hb]
    by_cases h2 : a + 1 ≤ b ∧ b < a + 1 + vs.length
    · rw [if_pos h2, if_pos (by omega)]
      have e : b - a = (b - (a + 1)) + 1 := by omega
      rw [e, List.getD_cons_succ]
    · rw [if_neg h2, if_neg (by omega)]

/-- The end of a command operation, with its events (R162, R200). -/
theorem endCommand_returned {s u : State} {c : CommandRegs} (r : Reply) (hc : u.command.saved = c.saved) (hi : u.im = s.im) :
    ∃ last, Emits u (u.endCommand r) last ∧ Returned s (u.endCommand r) c r last := by
  have h : ∃ last, Emits u (u.exit u.command.saved r) last ∧ last.map Event.action = exitActions u.command.saved := by
    cases hs : u.command.saved with
    | none => exact ⟨[], .of_quiet (exit_forward none r u) rfl, rfl⟩
    | some im =>
      exact ⟨[{ cycle := u.elapse.time, action := .irqRestore im }],
        .of_forward (exit_forward (some im) r u) (by simp [State.exit, State.leaveCritical]), rfl⟩
  obtain ⟨last, h1, h2⟩ := h
  exact ⟨last, h1.of_eq rfl rfl rfl rfl, rfl, by rw [endCommand_im, hc, hi], endCommand_result _ _, by rw [h2, hc]⟩

/-- The last m receptions of a read (R159), from a state u in which as many bytes are stored as came before: what was received, the
reply, the events. -/
def RxEnds (s : State) (c : CommandRegs) (u : State) (m : Nat) (t : State) : Prop :=
  ∃ (vs : List Byte) (got failed last : List Event), Emits u t (got ++ failed ++ last) ∧ BytesReceived s.params vs got ∧
    (Memory.wf u.mem → Stored u.mem t.mem (c.dest.base + (c.rxLen - m)) vs) ∧
    ((vs.length = m ∧ failed = [] ∧ Returned s t c .ok last) ∨
      ∃ e : Error, vs.length < m ∧ ByteReceived s.params (.error e) failed ∧ Returned s t c (.error e) last)

theorem rxPhase_ends {s : State} {c : CommandRegs} (m : Nat) (u : State) (hm : m ≤ c.rxLen)
    (hc : ∃ p a, u.command = { c with pos := p, ackStart := a }) (hp : u.params = s.params) (hi : u.im = s.im)
    (h : (rxPhase m u).2 = .finished) : RxEnds s c u m (rxPhase m u).1 := by
  induction m generalizing u with
  | zero =>
    obtain ⟨p, a, hc⟩ := hc
    obtain ⟨last, h1, h2⟩ := endCommand_returned (s := s) (u := u) (c := c) .ok (by rw [hc]) hi
    refine ⟨[], [], [], last, by simpa [rxPhase] using h1, rfl, fun _ => ?_, .inl ⟨rfl, rfl, h2⟩⟩
    rw [rxPhase, endCommand_mem]; exact .nil _ _
  | succ m ih =>
    obtain ⟨p, a, hc⟩ := hc
    have hrl : u.command.rxLen = c.rxLen := by rw [hc]
    unfold rxPhase at h ⊢
    dsimp only at h ⊢
    rw [hrl] at h ⊢
    obtain ⟨ev, h1, h2⟩ := receiveByte_events (u.atRx (c.rxLen - (m + 1))).elapse
    have h0 : Emits u (u.atRx (c.rxLen - (m + 1))).elapse [] :=
      .of_quiet ((atRx_frame _ u).forward.trans (elapse_forward _)) (by simp)
    have hw := (elapse_wire (u.atRx (c.rxLen - (m + 1)))).trans (receiveByte_wire _)
    have hpar : (u.atRx (c.rxLen - (m + 1))).elapse.params = s.params := by simpa using hp
    rw [hpar] at h2
    have h3 := h0.trans h1
    generalize receiveByte (u.atRx (c.rxLen - (m + 1))).elapse = r at h2 h3 hw h ⊢
    have hcr : r.2.command = { c with pos := .rx (c.rxLen - (m + 1)), ackStart := a } := by
      rw [hw.command, State.atRx_command, hc]
    have him : r.2.im = s.im := by rw [hw.im]; simpa using hi
    have hmem : r.2.mem = u.mem := hw.mem
    have hpr : r.2.params = s.params := by rw [hw.params]; simpa using hp
    obtain ⟨e | v, w⟩ := r
    · dsimp only at *
      obtain ⟨last, g1, g2⟩ := endCommand_returned (s := s) (u := w) (c := c) (.error e) (by rw [hcr]) him
      refine ⟨[], [], ev, last, by simpa [failCommand_eq] using h3.trans g1, rfl, fun _ => ?_, .inr ⟨e, Nat.succ_pos m, h2, g2⟩⟩
      rw [failCommand_eq, endCommand_mem, hmem]; exact .nil _ _
    · dsimp only at *
      have hd : w.command.dest = c.dest := by rw [hcr]
      rw [hd, hmem] at h ⊢
      cases hwr : writeBuffer c.dest (c.rxLen - (m + 1)) v u.mem with
      | none => rw [hwr] at h; cases h
      | some mem =>
        rw [hwr] at h
        obtain ⟨hlt, rfl⟩ := writeBuffer_cases hwr
        dsimp only at h ⊢
        obtain ⟨vs, got, failed, last, g1, g2, g3, g4⟩ :=
          ih (w.setMem (Memory.write (c.dest.base + (c.rxLen - (m + 1))) v u.mem)) (by omega) ⟨_, _, hcr⟩ hpr him h
        have g5 := h3.trans (g1.of_eq (u := w) rfl rfl rfl rfl)
        refine ⟨v :: vs, ev ++ got, failed, last, by simpa using g5, ⟨ev, got, rfl, h2, g2⟩, fun hwf => ?_, ?_⟩
        · have g6 := g3 (Memory.write_wf hwf)
          have e1 : c.rxLen - m = c.rxLen - (m + 1) + 1 := by omega
          rw [State.setMem_mem, e1, ← Nat.add_assoc] at g6
          exact .cons hwf g6
        · rcases g4 with ⟨k1, k2, k3⟩ | ⟨e, k1, k2, k3⟩
          · exact .inl ⟨by simp [k1], k2, k3⟩
          · exact .inr ⟨e, by simpa using k1, k2, k3⟩

/-- One payload byte is sent (R155, R157): its frame and the reception of its ACK. -/
theorem sendPayload_events (i : Nat) (b : Byte) (u : State) :
    ∃ ev, Emits u (sendPayload i b u).2 ev ∧
      PayloadFrame u.params b u.command.ackStart u.time (sendPayload i b u).1 ev := by
  unfold sendPayload
  dsimp only
  have h0 : Emits u (u.beforePayload i) [] :=
    .of_quiet ((atPayload_frame _ _ u).forward.trans (elapse_forward _ _)) (by simp [State.beforePayload])
  have hp : (u.beforePayload i).params = u.params := by simp [State.beforePayload]
  have ha : (u.beforePayload i).command.ackStart = u.command.ackStart := by simp [State.beforePayload]
  generalize u.beforePayload i = w at h0 hp ha
  rw [ackEnd, hp, ha]
  obtain ⟨ev, h1, h2⟩ := sendByte_events
    (later u.params (plus u.params u.command.ackStart u.params.tPeriod) (plus u.params w.cc u.params.tSetup))
    (byteFrameValue u.params b) 9 (by omega) w
  rw [hp] at h2
  refine ⟨ev, by simpa using h0.trans h1, w.time, h0.time, fun e he => (h1.span e he).1, ?_⟩
  have e : w.cc = wrap u.params w.time := by rw [State.cc, hp]
  rw [e] at h2 ⊢
  exact h2

/-- What `sendPayload` leaves alone, with the registers c. -/
theorem sendPayload_frame (i : Nat) (b : Byte) (u : State) :
    (sendPayload i b u).2.params = u.params ∧ (sendPayload i b u).2.im = u.im ∧ (sendPayload i b u).2.result = u.result ∧
      (sendPayload i b u).2.mem = u.mem ∧ (sendPayload i b u).2.command = { u.command with pos := .payload i } := by
  unfold sendPayload
  dsimp only
  generalize later _ _ _ = x
  generalize byteFrameValue _ _ = v
  have hw := (elapse_wire (u.atPayload i u.command.ackStart) (some (ackEnd u))).trans (sendByte_wire x v 9 _)
  exact ⟨hw.params, hw.im, hw.result, hw.mem, hw.command⟩

/-- The payload of a command from byte i on (R155, R156), in the terms of `RunsOn`. -/
def PayloadEnds (s : State) (c : CommandRegs) (u : State) (i : Nat) (t : State) : Prop :=
  ∃ (k : Nat) (acked rest : List Event) (b : Cycle) (m : Nat), Emits u t (acked ++ rest) ∧
    PayloadAcked s.params s.mem c.data i k u.command.ackStart u.time b m acked ∧ RunEnds s t c (i + k) b m rest

theorem payloadPhase_ends {s : State} {c : CommandRegs} (m : Nat) (u : State) (hm : m ≤ c.len) (hwf : Memory.wf s.mem)
    (hc : ∃ p a, u.command = { c with pos := p, ackStart := a }) (hp : u.params = s.params) (hi : u.im = s.im)
    (hr : u.result = s.result) (hmem : u.mem = s.mem)
    (h : (payloadPhase m u).2 = .finished ∨ (payloadPhase m u).2 = .resend) :
    PayloadEnds s c u (c.len - m) (payloadPhase m u).1 := by
  induction m generalizing u with
  | zero =>
    have e0 : payloadPhase 0 u = rxPhase u.command.rxLen u := rfl
    have hrl : u.command.rxLen = c.rxLen := by obtain ⟨p, a, hc⟩ := hc; rw [hc]
    rw [e0, hrl] at h ⊢
    have hf : (rxPhase c.rxLen u).2 = .finished := by
      rcases h with h | h
      · exact h
      · exact absurd h (rxPhase_not_resend _ _)
    obtain ⟨vs, got, failed, last, g1, g2, g3, g4⟩ := rxPhase_ends c.rxLen u (Nat.le_refl _) hc hp hi hf
    refine ⟨0, [], got ++ failed ++ last, u.command.ackStart, u.time, g1, ⟨rfl, rfl, rfl⟩, .inr ⟨by omega, vs, got, failed, last,
      rfl, g2, ?_, g4⟩⟩
    have := g3 (by rw [hmem]; exact hwf)
    rw [hmem] at this
    simpa using this
  | succ m ih =>
    obtain ⟨p, a, hc⟩ := hc
    have hlen : u.command.len = c.len := by rw [hc]
    have hdat : u.command.data = c.data := by rw [hc]
    rw [payloadPhase_succ] at h ⊢
    rw [hlen, hdat, hmem] at h ⊢
    cases hrd : readBuffer c.data (c.len - (m + 1)) s.mem with
    | none => rw [hrd] at h; simp at h
    | some b =>
      rw [hrd] at h
      obtain ⟨-, hb⟩ := readBuffer_cases hrd
      subst hb
      dsimp only at h ⊢
      obtain ⟨ev, h1, h2⟩ := sendPayload_events (c.len - (m + 1)) (Memory.read (c.data.base + (c.len - (m + 1))) s.mem) u
      obtain ⟨k1, k2, k3, k4, k5⟩ :=
        sendPayload_frame (c.len - (m + 1)) (Memory.read (c.data.base + (c.len - (m + 1))) s.mem) u
      rw [hp] at h2
      generalize sendPayload (c.len - (m + 1)) (Memory.read (c.data.base + (c.len - (m + 1))) s.mem) u = r
        at h1 h2 k1 k2 k3 k4 k5 h ⊢
      rw [hc] at k5
      obtain ⟨_ | ⟨level, x⟩, w⟩ := r
      · dsimp only at *
        obtain ⟨last, g1, g2⟩ := endCommand_returned (s := s) (u := w) (c := c) (.error .readBitTimeout) (by rw [k5])
          (k2.trans hi)
        exact ⟨0, [], ev ++ last, _, _, h1.trans g1, ⟨rfl, rfl, rfl⟩, .inl ⟨by omega, .inr ⟨ev, last, rfl, h2, g2,
          by rw [failCommand_eq, endCommand_mem, k4, hmem]⟩⟩⟩
      · dsimp only at *
        rw [k1, hp] at h ⊢
        split at h
        · rename_i hl
          rw [if_pos hl]
          subst hl
          have e0 : c.len - (m + 1) + 1 = c.len - m := by omega
          have hcw : (w.atPayload (c.len - (m + 1) + 1) x).command = { c with pos := .payload (c.len - m), ackStart := x } := by
            rw [State.atPayload_command, k5, e0]
          obtain ⟨k, acked, rest, y, n, g1, g2, g3⟩ := ih (w.atPayload (c.len - (m + 1) + 1) x) (by omega) ⟨_, _, hcw⟩
            (k1.trans hp) (k2.trans hi) (k3.trans hr) (k4.trans hmem) h
          rw [hcw] at g2
          refine ⟨k + 1, ev ++ acked, rest, y, n, ?_, ⟨ev, acked, x, w.time, rfl, h2, fun e he => (h1.span e he).2, ?_⟩, ?_⟩
          · have := h1.trans (g1.of_eq (u := w) rfl rfl rfl rfl)
            simpa using this
          · rw [e0]; exact g2
          · have e1 : c.len - (m + 1) + (k + 1) = c.len - m + k := by omega
            rw [e1]; exact g3
        · rename_i hl
          rw [if_neg hl]
          refine ⟨0, [], ev, _, _, h1.of_eq rfl rfl rfl rfl, ⟨rfl, rfl, rfl⟩, .inl ⟨by omega, .inl ⟨level, x, hl, h2, ?_,
            k2.trans hi, k3.trans hr, k4.trans hmem⟩⟩⟩
          rw [State.atPayload_command, k5]
          rfl

/-- The payload of a command that runs after these events (R155, R156). -/
theorem PayloadEnds.runsOn {s u t : State} {c : CommandRegs} {before : List Event} {i : Nat} (h : PayloadEnds s c u i t)
    (hb : Emits s u before) : RunsOn s t c before u.command.ackStart u.time i := by
  obtain ⟨k, acked, rest, b, m, h1, h2, h3⟩ := h
  exact ⟨k, acked, rest, b, m, by rw [(hb.trans h1).newEvents, List.append_assoc], h2, h3⟩

/-- The whole command (R155, R158): the command frame; then its ACK's timeout, or `Nack`, or the payload. -/
theorem commandPhase_runs {s u : State} {c : CommandRegs} (he : u.trace = s.trace) (ht : u.time = s.time)
    (hc : u.command = c) (hi : u.im = s.im) (hr : u.result = s.result) (hm : u.mem = s.mem) (hp : u.params = s.params)
    (hwf : Memory.wf s.mem) (h : (commandPhase u).2 = .finished ∨ (commandPhase u).2 = .resend) :
    CommandRuns s (commandPhase u).1 c := by
  have h0 : Emits u u.elapse [] := .of_quiet (elapse_forward u) (by simp)
  have e1 : u.elapse.params = s.params := by simpa using hp
  have e2 : u.elapse.command = c := by simpa using hc
  have hw := sendByte_wire (plus s.params u.elapse.cc s.params.tSetup) (commandFrameValue s.params c.cmd) 4 u.elapse
  obtain ⟨ev, h1, h2⟩ := sendByte_events (plus s.params u.elapse.cc s.params.tSetup) (commandFrameValue s.params c.cmd) 4
    (by omega) u.elapse
  have hcc : u.elapse.cc = wrap s.params u.elapse.time := by rw [State.cc, e1]
  unfold commandPhase at h ⊢
  dsimp only at h ⊢
  rw [e1, e2] at h ⊢
  rw [e1] at h2
  generalize hR : sendByte (plus s.params u.elapse.cc s.params.tSetup) (commandFrameValue s.params c.cmd) 4 u.elapse = r
    at h1 h2 hw h ⊢
  have hcr : r.2.command = c := hw.command.trans e2
  have hri : r.2.im = s.im := by rw [hw.im, ← hi]; simp
  have hrr : r.2.result = s.result := by rw [hw.result, ← hr]; simp
  have hrm : r.2.mem = s.mem := by rw [hw.mem, ← hm]; simp
  have hrp : r.2.params = s.params := hw.params.trans e1
  have h3 : Emits s r.2 ev := (h0.trans h1).of_eq he.symm ht.symm rfl rfl
  have hspan : ∀ e ∈ ev, u.elapse.time ≤ e.cycle ∧ e.cycle ≤ r.2.time := fun e he => ⟨(h1.span e he).1, (h1.span e he).2⟩
  have hle : s.time ≤ u.elapse.time := ht ▸ h0.time
  rw [hcc] at h2
  obtain ⟨_ | ⟨level, a⟩, w⟩ := r
  · dsimp only at *
    obtain ⟨last, g1, g2⟩ := endCommand_returned (s := s) (u := w) (c := c) (.error .readBitTimeout) (by rw [hcr]) hri
    exact ⟨ev, last, u.elapse.time, w.time, none, (h3.trans g1).newEvents, hle, hspan, h2,
      .inl ⟨rfl, g2, by rw [failCommand_eq, endCommand_mem, hrm]⟩⟩
  · dsimp only at *
    rw [hrp] at h ⊢
    split at h
    · rename_i hl
      rw [if_pos hl]
      subst hl
      rw [hcr] at h ⊢
      have hcw : (w.atPayload 0 a).command = { c with pos := .payload 0, ackStart := a } := by
        rw [State.atPayload_command, hcr]
      have g := payloadPhase_ends (s := s) c.len (w.atPayload 0 a) (Nat.le_refl _) hwf ⟨_, _, hcw⟩ hrp hri hrr hrm h
      rw [Nat.sub_self] at g
      have g1 := g.runsOn (before := ev) (h3.of_eq rfl rfl rfl rfl)
      rw [hcw] at g1
      obtain ⟨k, acked, rest, b, m, k1, k2⟩ := g1
      exact ⟨ev, acked ++ rest, u.elapse.time, w.time, some (s.params.ackLevel, a), by rw [k1, List.append_assoc], hle, hspan, h2,
        .inr (.inr ⟨a, rfl, k, acked, rest, b, m, k1, k2⟩)⟩
    · rename_i hl
      rw [if_neg hl]
      obtain ⟨last, g1, g2⟩ := endCommand_returned (s := s) (u := w) (c := c) (.error .nack) (by rw [hcr]) hri
      exact ⟨ev, last, u.elapse.time, w.time, some (level, a), (h3.trans g1).newEvents, hle, hspan, h2,
        .inr (.inl ⟨level, a, rfl, hl, g2, by rw [failCommand_eq, endCommand_mem, hrm]⟩)⟩

/-- A transaction whose buffers hold what it needs, over every timing (R155, R159). -/
theorem transact_runs {s : State} {c : CommandRegs} (hf : c.fits = true) (hp : c.pos = .cmdFrame) (hwf : Memory.wf s.mem) :
    ∃ t, transact c s = .next t ∧ CommandFrame s t ∧ t.signal = releasedPin ∧ (s.frame = {} → t.frame = {}) ∧
      (c.rxLen = 0 → t.mem = s.mem) ∧
      (∀ a, (a < c.dest.base ∨ c.dest.base + c.rxLen ≤ a) → Memory.read a t.mem = Memory.read a s.mem) ∧
      CommandRuns s.clearReply t c := by
  generalize hu : (s.setCommand c).clearReply = u
  have huc : u.command = c := by subst hu; rfl
  have hspec := commandPhase_spec u
  have hend := hspec.fits (by rw [huc]; exact hf)
  have h1 : transact c s = .next (commandPhase u).1 := by
    unfold transact settle
    rw [hf, if_pos rfl, hu]; unfold runCommand; rw [huc, hp]
  have hfr : CommandFrame s u := by subst hu; constructor <;> first | rfl | exact .of_time (by simp) (by simp)
  have hends := commandPhase_runs (s := s.clearReply) (u := u) (by subst hu; rfl) (by subst hu; rfl) huc (by subst hu; rfl)
    (by subst hu; rfl) (by subst hu; rfl) (by subst hu; rfl) hwf hend
  refine ⟨_, h1, hfr.trans hspec.frame, commandPhase_released u, ?_, ?_, ?_, hends⟩
  · intro h; exact hspec.regs (by subst hu; exact h)
  · intro h; exact (hspec.noRead (by rw [huc]; exact h)).trans (by subst hu; rfl)
  · intro a ha
    have := hspec.memory (by subst hu; exact hwf) a (by rw [huc]; exact ha)
    subst hu; exact this

end Sys2Proof.Machine
end

