-- ==== Sys2Proof/Laws/Bracket.lean ====
section
/-!
SUPPORT. Laws/Bracket.lean: the frame operations do not look at the command sequencer's registers, so that an entry point is its
wire transaction between `enter_critical` and `leave_critical` (R98, R162).
-/

namespace Sys2Proof.Machine

open Sys2Proof

section commute
variable (x : CommandRegs) (s : State)

theorem setCommand_drawOne : (s.setCommand x).drawOne = s.drawOne.setCommand x := by
  unfold State.drawOne
  rw [State.setCommand_timing]
  split <;> rfl

theorem setCommand_drawValue : drawValue (s.setCommand x) = drawValue s := rfl

theorem setCommand_workDraw (due : Option Cycle) : workDraw due (s.setCommand x) = workDraw due s := by
  cases due <;> rfl

theorem setCommand_elapse (due : Option Cycle) : (s.setCommand x).elapse due = (s.elapse due).setCommand x := by
  unfold State.elapse
  rw [setCommand_drawOne, setCommand_workDraw]
  rfl

theorem setCommand_pinWrite (p : PinName) (a : PinAction) : (s.setCommand x).pinWrite p a = (s.pinWrite p a).setCommand x := by
  cases p <;> rfl

theorem setCommand_pinSet (p : PinName) (a : PinAction) (due : Option Cycle) :
    (s.setCommand x).pinSet p a due = (s.pinSet p a due).setCommand x := by
  unfold State.pinSet
  rw [setCommand_elapse, setCommand_pinWrite]

theorem setCommand_lineLevel : (s.setCommand x).lineLevel = s.lineLevel := rfl

theorem setCommand_pinRead : (s.setCommand x).pinRead = s.pinRead.setCommand x := by
  unfold State.pinRead
  rw [setCommand_lineLevel, setCommand_drawOne]
  show (if !s.linePulled && s.lineRising then s.drawOne.setCommand x else s.setCommand x).log _ = _
  split <;> rfl

theorem setCommand_reach (c : Cycle) : (s.setCommand x).reach c = (s.reach c).setCommand x := by
  unfold State.reach
  show (if atOrAfter s.params s.cc c then s.setCommand x else _) = _
  split <;> rfl

theorem setCommand_waitUntil (c : Cycle) : (s.setCommand x).waitUntil c = (s.waitUntil c).setCommand x := by
  unfold State.waitUntil State.late
  rw [setCommand_elapse, setCommand_reach, setCommand_drawOne]
  rfl

theorem setCommand_schedule (c : Cycle) (a : PinAction) :
    (s.setCommand x).schedule c a = (s.schedule c a).setCommand x := by
  unfold State.schedule
  rw [setCommand_waitUntil, setCommand_pinWrite]

theorem setCommand_pollCost : (s.setCommand x).pollCost = s.pollCost.setCommand x := by
  unfold State.pollCost
  rw [setCommand_drawOne]
  rfl

theorem setCommand_poll (want : Level) (k : Nat) :
    poll want k (s.setCommand x) = ((poll want k s).1, (poll want k s).2.setCommand x) := by
  induction k generalizing s with
  | zero => rfl
  | succ k ih =>
    unfold poll
    rw [setCommand_lineLevel, setCommand_pinRead, setCommand_elapse, setCommand_pollCost]
    split
    · rfl
    · exact ih _

theorem setCommand_receiveBit :
    receiveBit (s.setCommand x) = ((receiveBit s).1, (receiveBit s).2.setCommand x) := by
  unfold receiveBit
  rw [State.setCommand_params, setCommand_poll]
  generalize poll .low s.params.timeout s = r
  obtain ⟨_ | t, u⟩ := r
  · rfl
  · dsimp only
    rw [State.setCommand_params, setCommand_waitUntil, setCommand_lineLevel, setCommand_pinRead]

theorem setCommand_sendBit (c : Cycle) (z b : Bool) : (s.setCommand x).sendBit c z b = (s.sendBit c z b).setCommand x := by
  unfold State.sendBit
  cases z <;> cases b <;> simp [setCommand_schedule]

theorem setCommand_finishFrame (c : Cycle) : (s.setCommand x).finishFrame c = (s.finishFrame c).setCommand x := by
  unfold State.finishFrame
  rw [State.setCommand_params, setCommand_schedule]

theorem setCommand_setFrame (f : FrameRegs) : (s.setCommand x).setFrame f = (s.setFrame f).setCommand x := rfl

theorem setCommand_sendFrameBit (c : Cycle) (b : Bool) :
    (s.setCommand x).sendFrameBit c b = (s.sendFrameBit c b).setCommand x := by
  unfold State.sendFrameBit
  dsimp only
  rw [State.setCommand_params, State.setCommand_frame, setCommand_sendBit]
  rfl

theorem setCommand_sendFrameBits (c : Cycle) (v : BitVec 16) (m : Nat) :
    sendFrameBits c v m (s.setCommand x) = (sendFrameBits c v m s).setCommand x := by
  induction m generalizing s with
  | zero => rfl
  | succ m ih =>
    unfold sendFrameBits
    rw [setCommand_sendFrameBit, ih]

theorem setCommand_sendFrame (c : Cycle) (v : BitVec 16) (n : Nat) :
    (s.setCommand x).sendFrame c v n = (s.sendFrame c v n).setCommand x := by
  unfold State.sendFrame
  dsimp only
  rw [setCommand_pinSet, setCommand_pinSet, setCommand_setFrame, setCommand_sendFrameBits, State.setCommand_params,
    State.setCommand_frame, setCommand_sendBit, setCommand_finishFrame, setCommand_pinSet, setCommand_setFrame]

theorem setCommand_sendByte (c : Cycle) (v : BitVec 16) (n : Nat) :
    sendByte c v n (s.setCommand x) = ((sendByte c v n s).1, (sendByte c v n s).2.setCommand x) := by
  unfold sendByte
  rw [setCommand_sendFrame, setCommand_elapse, setCommand_receiveBit]

theorem setCommand_receiveFrameBits (m : Nat) :
    receiveFrameBits m (s.setCommand x) = ((receiveFrameBits m s).1, (receiveFrameBits m s).2.setCommand x) := by
  induction m generalizing s with
  | zero => rfl
  | succ m ih =>
    unfold receiveFrameBits
    dsimp only
    rw [State.setCommand_frame, State.setCommand_params, setCommand_waitUntil, setCommand_receiveBit]
    generalize receiveBit (s.waitUntil (plus s.params s.frame.start s.params.tRxOffset)) = r
    obtain ⟨_ | ⟨l, t⟩, u⟩ := r
    · rfl
    · dsimp only
      rw [State.setCommand_frame, setCommand_setFrame, ih]

theorem setCommand_atAck : (s.setCommand x).atAck = s.atAck.setCommand x := setCommand_elapse x s _

theorem setCommand_ackStartOf : ackStartOf (s.setCommand x) = ackStartOf s := by
  rw [ackStartOf, setCommand_atAck]
  rfl

theorem setCommand_sendAck (bad : Bool) : (s.setCommand x).sendAck bad = (s.sendAck bad).setCommand x := by
  unfold State.sendAck
  dsimp only
  rw [setCommand_atAck, setCommand_ackStartOf, setCommand_pinSet, setCommand_pinSet, State.setCommand_params]
  rw [setCommand_sendBit, setCommand_finishFrame, setCommand_pinSet]

theorem setCommand_receiveByte :
    receiveByte (s.setCommand x) = ((receiveByte s).1, (receiveByte s).2.setCommand x) := by
  unfold receiveByte
  rw [setCommand_receiveBit]
  generalize receiveBit s = r
  obtain ⟨_ | ⟨l, t⟩, u⟩ := r
  · rfl
  · dsimp only
    rw [State.setCommand_params]
    split
    · rfl
    · rw [setCommand_setFrame, setCommand_receiveFrameBits]
      generalize receiveFrameBits 9 (u.setFrame { bit := 1, start := t }) = q
      obtain ⟨_ | i, w⟩ := q
      · dsimp only
        rw [State.setCommand_frame, setCommand_sendAck]
        rfl
      · rfl

end commute

/-- The registers with another saved mask. -/
def CommandRegs.withSaved (y : Option IrqMask) (c : CommandRegs) : CommandRegs := { c with saved := y }

/-- How the run with a saved mask ends, given the run without: where the operation returned, the critical section is left;
where it did not, the mask is still saved. -/
def bracketed (im : IrqMask) (r : State × Ending) : State × Ending :=
  match r.2 with
  | .finished => (r.1.leaveCritical im, .finished)
  | .resend => (r.1.setCommand (r.1.command.withSaved (some im)), .resend)
  | .stuck why => (r.1.setCommand (r.1.command.withSaved (some im)), .stuck why)

theorem endCommand_bracketed (im : IrqMask) (r : Reply) {s : State} (h : s.command.saved = none) :
    (s.setCommand (s.command.withSaved (some im))).endCommand r = (s.endCommand r).leaveCritical im := by
  unfold State.endCommand State.exit
  rw [h]
  simp only [State.setCommand_command, CommandRegs.withSaved]
  unfold State.leaveCritical
  rw [setCommand_elapse, setCommand_elapse]
  have : (s.reply r).elapse = s.elapse.reply r := by
    unfold State.elapse State.drawOne
    rw [State.reply_timing]
    split <;> rfl
  rw [this]
  rfl

theorem rxPhase_bracketed (im : IrqMask) (m : Nat) {s : State} (h : s.command.saved = none) :
    rxPhase m (s.setCommand (s.command.withSaved (some im))) = bracketed im (rxPhase m s) := by
  induction m generalizing s with
  | zero =>
    unfold rxPhase
    rw [endCommand_bracketed im .ok h]
    rfl
  | succ m ih =>
    unfold rxPhase
    dsimp only
    have e : (s.setCommand (s.command.withSaved (some im))).atRx
        ((s.setCommand (s.command.withSaved (some im))).command.rxLen - (m + 1)) =
        (s.atRx (s.command.rxLen - (m + 1))).setCommand
          ((s.atRx (s.command.rxLen - (m + 1))).command.withSaved (some im)) := rfl
    have e' : (s.setCommand (s.command.withSaved (some im))).command.rxLen = s.command.rxLen := rfl
    rw [e, e', setCommand_elapse, setCommand_receiveByte]
    have hc := (receiveByte_wire (s.atRx (s.command.rxLen - (m + 1))).elapse).command
    have hc' : (s.atRx (s.command.rxLen - (m + 1))).elapse.command = (s.atRx (s.command.rxLen - (m + 1))).command := by simp
    rw [hc'] at hc
    have hs : (s.atRx (s.command.rxLen - (m + 1))).command.saved = none := h
    rw [← hc] at hs ⊢
    generalize receiveByte (s.atRx (s.command.rxLen - (m + 1))).elapse = r at hs
    obtain ⟨e | v, u⟩ := r
    · dsimp only at *
      rw [failCommand_eq, failCommand_eq, endCommand_bracketed im _ hs]
      rfl
    · dsimp only at *
      have e2 : (u.setCommand (u.command.withSaved (some im))).command.dest = u.command.dest := rfl
      rw [e2, State.setCommand_mem]
      cases writeBuffer u.command.dest (s.command.rxLen - (m + 1)) v u.mem with
      | none => rfl
      | some mem => exact ih (s := u.setMem mem) hs

theorem payloadPhase_bracketed (im : IrqMask) (m : Nat) {s : State} (h : s.command.saved = none) :
    payloadPhase m (s.setCommand (s.command.withSaved (some im))) = bracketed im (payloadPhase m s) := by
  induction m generalizing s with
  | zero => exact rxPhase_bracketed im _ h
  | succ m ih =>
    rw [payloadPhase_succ, payloadPhase_succ]
    dsimp only [sendPayload]
    have e1 : (s.setCommand (s.command.withSaved (some im))).command.data = s.command.data := rfl
    have e2 : (s.setCommand (s.command.withSaved (some im))).command.len = s.command.len := rfl
    rw [e1, e2, State.setCommand_mem]
    cases readBuffer s.command.data (s.command.len - (m + 1)) s.mem with
    | none => rfl
    | some b =>
      dsimp only
      have hu : (s.beforePayload (s.command.len - (m + 1))).command =
          (s.atPayload (s.command.len - (m + 1)) s.command.ackStart).command := by simp [State.beforePayload]
      have e : (s.setCommand (s.command.withSaved (some im))).beforePayload (s.command.len - (m + 1)) =
          (s.beforePayload (s.command.len - (m + 1))).setCommand
            ((s.beforePayload (s.command.len - (m + 1))).command.withSaved (some im)) := by
        rw [hu]
        exact setCommand_elapse _ (s.atPayload (s.command.len - (m + 1)) s.command.ackStart) _
      have hs : (s.beforePayload (s.command.len - (m + 1))).command.saved = none := by rw [hu]; exact h
      rw [e]
      generalize s.beforePayload (s.command.len - (m + 1)) = u at hs
      have e4 : ackEnd (u.setCommand (u.command.withSaved (some im))) = ackEnd u := rfl
      have e5 : (u.setCommand (u.command.withSaved (some im))).cc = u.cc := rfl
      rw [e4, e5, State.setCommand_params]
      generalize later u.params (ackEnd u) (plus u.params u.cc u.params.tSetup) = c
      rw [setCommand_sendByte]
      have hc := (sendByte_wire c (byteFrameValue u.params b) 9 u).command
      rw [← hc] at hs ⊢
      generalize sendByte c (byteFrameValue u.params b) 9 u = r at hs
      obtain ⟨_ | ⟨level, a⟩, w⟩ := r
      · dsimp only at *
        rw [failCommand_eq, failCommand_eq, endCommand_bracketed im _ hs]
        rfl
      · dsimp only at *
        rw [State.setCommand_params]
        split
        · exact ih (s := w.atPayload (s.command.len - (m + 1) + 1) a) hs
        · rfl

/-- A command inside a critical section is the same command without, and then `leave_critical` (R98, R162). -/
theorem commandPhase_bracketed (im : IrqMask) {s : State} (h : s.command.saved = none) :
    commandPhase (s.setCommand (s.command.withSaved (some im))) = bracketed im (commandPhase s) := by
  unfold commandPhase
  dsimp only
  rw [setCommand_elapse]
  have hu : s.elapse.command = s.command := by simp
  rw [← hu] at h ⊢
  generalize s.elapse = u at h
  have e4 : (u.setCommand (u.command.withSaved (some im))).command.cmd = u.command.cmd := rfl
  have e5 : (u.setCommand (u.command.withSaved (some im))).cc = u.cc := rfl
  rw [e4, e5, State.setCommand_params, setCommand_sendByte]
  have hc := (sendByte_wire (plus u.params u.cc u.params.tSetup) (commandFrameValue u.params u.command.cmd) 4 u).command
  generalize plus u.params u.cc u.params.tSetup = c at hc ⊢
  generalize commandFrameValue u.params u.command.cmd = v at hc ⊢
  rw [← hc] at h ⊢
  generalize sendByte c v 4 u = r at h
  obtain ⟨_ | ⟨level, a⟩, w⟩ := r
  · dsimp only at *
    rw [failCommand_eq, failCommand_eq, endCommand_bracketed im _ h]
    rfl
  · dsimp only at *
    rw [State.setCommand_params]
    have e6 : (w.setCommand (w.command.withSaved (some im))).command.len = w.command.len := rfl
    rw [e6]
    split
    · exact payloadPhase_bracketed im w.command.len (s := w.atPayload 0 a) h
    · rw [failCommand_eq, failCommand_eq, endCommand_bracketed im _ h]
      rfl

end Sys2Proof.Machine
end

