-- ==== Sys2Proof/Laws/Entry.lean ====
section
/-!
SUPPORT. Laws/Entry.lean: the entry sequencer over every timing: its writes, its reply and what it leaves alone.
-/

namespace Sys2Proof.Machine

open Sys2Proof

/-- The latch of SIGNAL after m toggles. -/
def toggled (l : Level) (m : Nat) : Level :=
  if m % 2 = 0 then l else match l with
    | .low => .high
    | .high => .low

namespace EntryFrame

theorem refl (s : State) : EntryFrame s s := by constructor <;> first | rfl | exact Forward.refl s

theorem trans {s t u : State} (h : EntryFrame s t) (g : EntryFrame t u) : EntryFrame s u where
  resetPin := g.resetPin.trans h.resetPin
  im := g.im.trans h.im
  params := g.params.trans h.params
  mem := g.mem.trans h.mem
  cursor := g.cursor.trans h.cursor
  frame := g.frame.trans h.frame
  command := g.command.trans h.command
  calls := g.calls.trans h.calls
  target := g.target.trans h.target
  forward := h.forward.trans g.forward

theorem of_wire {s t : State} (h : WireOnly s t) (g : t.frame = s.frame) : EntryFrame s t :=
  ⟨h.resetPin, h.im, h.params, h.mem, h.cursor, g, h.command, h.calls, h.target, h.forward⟩

theorem setEntry (e : EntryRegs) (s : State) : EntryFrame s (s.setEntry e) := by
  constructor <;> first | rfl | exact Forward.of_time (by simp) (by simp)

theorem reply (r : Reply) (s : State) : EntryFrame s (s.reply r) := by
  constructor <;> first | rfl | exact Forward.of_time (by simp) (by simp)

end EntryFrame

theorem pinSet_entryFrame (a : PinAction) (s : State) : EntryFrame s (s.pinSet .signal a) :=
  .of_wire (pinSet_wire a s) (by simp)

theorem schedule_entryFrame (c : Cycle) (a : PinAction) (s : State) : EntryFrame s (s.schedule c a) :=
  .of_wire (schedule_wire c a s) (by simp [State.schedule])

theorem elapse_entryFrame (s : State) (due : Option Cycle := none) : EntryFrame s (s.elapse due) :=
  .of_wire (elapse_wire s due) (by simp)

theorem waitUntil_entryFrame (c : Cycle) (s : State) : EntryFrame s (s.waitUntil c) :=
  .of_wire (waitUntil_wire c s) (by simp)

theorem poll_entryFrame (want : Level) (k : Nat) (s : State) : EntryFrame s (poll want k s).2 :=
  .of_wire (poll_wire want k s) (by simp)

theorem wdtService_entryFrame (s : State) : EntryFrame s s.wdtService := by
  refine ((elapse_entryFrame s).trans ?_).trans (elapse_entryFrame _)
  generalize s.elapse = u
  constructor <;> first
    | rfl
    | exact Forward.of_event (e := { cycle := u.time, action := .watchdog }) rfl rfl rfl

theorem wdtService_plan (s : State) : Plan s s.wdtService [unscheduled .watchdog] := by
  have h (u : State) : Plan u (u.log .watchdog) [unscheduled .watchdog] :=
    .of_event (c := u.time) (a := .watchdog) rfl rfl ⟨rfl, fun _ _ h => nomatch h⟩
  simpa [State.wdtService] using ((elapse_plan s).trans (h _)).trans (elapse_plan _)

theorem leaveCritical_plan (im : IrqMask) (s : State) (due : Option Cycle := none) :
    Plan s (s.leaveCritical im due) [unscheduled (.irqRestore im)] :=
  .of_event (c := (s.elapse due).time) (a := .irqRestore im) (by simp) rfl ⟨rfl, fun _ _ h => nomatch h⟩

/-- Interrupts are masked at or after a cycle (R112, R178). -/
theorem mask_plan {c : Cycle} {s : State} (h : atOrAfter s.params s.cc c = true) :
    Plan s s.mask [{ notBefore := some (s.params, c), action := .irqMask }] := by
  refine .of_event (c := s.time) (a := .irqMask) (by simp) rfl ⟨rfl, ?_⟩
  intro q d hd
  cases hd
  exact h

theorem Plan.of_eq {s t u w : State} {l : List Planned} (h : Plan s t l) (e : u.trace = s.trace) (g : w.trace = t.trace) :
    Plan u w l := by
  obtain ⟨ev, h1, h2⟩ := h
  exact ⟨ev, by rw [g, e]; exact h1, h2⟩

/-- A step from a position. -/
theorem runEntry_succ (n : Nat) {s : State} (h : s.entry.pos ≠ .idle) : runEntry (n + 1) s = runEntry n s.entryStep := by
  rw [runEntry, if_neg h]

theorem runEntry_idle (n : Nat) {s : State} (h : s.entry.pos = .idle) : runEntry n s = s := by
  cases n with
  | zero => rfl
  | succ n => rw [runEntry, if_pos h]

/-- The writes of RELEASE_TO_INPUT at a cycle (R175, R178): the mask and the release, neither before it. -/
def releasePlan (p : Params) (c : Cycle) : List Planned :=
  [{ notBefore := some (p, c), action := .irqMask }, scheduled p .setInput c]

/-- The end of the entry sequencer, from RELEASE_TO_INPUT on: what it can do (R175, R178, R180). -/
structure EntryTail (s u : State) : Prop where
  resetPin : u.resetPin = s.resetPin
  im : u.im = s.im
  params : u.params = s.params
  mem : u.mem = s.mem
  cursor : u.cursor = s.cursor
  frame : u.frame = s.frame
  command : u.command = s.command
  calls : u.calls = s.calls
  target : u.target = s.target
  forward : Forward s u
  plan : Plan s u (releasePlan s.params s.entry.next ++ [unscheduled (.irqRestore s.im)])
  entry : u.entry = {}
  signal : u.signal = { s.signal with mode := .input }
  result : (∃ d, d < 2 ^ s.params.wCc ∧ u.result = some (.duration d)) ∨ u.result = some (.error .syncTimeout1) ∨
    u.result = some (.error .syncTimeout2)

/-- The state inside the measurement window (R178): masked, SIGNAL released, the caller's mask saved. -/
structure Window (s u : State) : Prop where
  frame : EntryFrame (s.setIm .masked) u
  saved : u.entry.saved = s.im
  signal : u.signal = { s.signal with mode := .input }
  plan : Plan s u (releasePlan s.params s.entry.next)

theorem Window.step {s u w : State} (h : Window s u) (hf : EntryFrame u w) (hs : w.entry.saved = u.entry.saved)
    (hg : w.signal = u.signal) (hp : Plan u w []) : Window s w where
  frame := h.frame.trans hf
  saved := hs.trans h.saved
  signal := hg.trans h.signal
  plan := by simpa using h.plan.trans hp

/-- Leaving the window restores the mask (R116, R200). -/
theorem Window.leave {s u : State} (h : Window s u) (due : Option Cycle := none) :
    EntryFrame s (u.leaveCritical u.entry.saved due) ∧
      Plan s (u.leaveCritical u.entry.saved due)
        (releasePlan s.params s.entry.next ++ [unscheduled (.irqRestore s.im)]) := by
  have hf := h.frame
  rw [h.saved]
  refine ⟨⟨?_, ?_, ?_, ?_, ?_, ?_, ?_, ?_, ?_, ?_⟩, by simpa using h.plan.trans (leaveCritical_plan s.im u due)⟩
  · simpa using hf.resetPin
  · simp
  · simpa using hf.params
  · simpa using hf.mem
  · simpa using hf.cursor
  · simpa using hf.frame
  · simpa using hf.command
  · simpa using hf.calls
  · simpa using hf.target
  · exact Forward.trans (t := u) hf.forward (leaveCritical_forward _ u due)

theorem EntryTail.of_frame {s u : State} (h : EntryFrame s u) (p : Plan s u
      (releasePlan s.params s.entry.next ++ [unscheduled (.irqRestore s.im)]))
    (e : u.entry = {}) (g : u.signal = { s.signal with mode := .input })
    (r : (∃ d, d < 2 ^ s.params.wCc ∧ u.result = some (.duration d)) ∨ u.result = some (.error .syncTimeout1) ∨
      u.result = some (.error .syncTimeout2)) : EntryTail s u :=
  ⟨h.resetPin, h.im, h.params, h.mem, h.cursor, h.frame, h.command, h.calls, h.target, h.forward, p, e, g, r⟩

/-- The mask and the time up to the release, both after the wait (R112, R178). -/
theorem mask_late_spec {c : Cycle} (b : Bool) {s : State} (h : atOrAfter s.params s.cc c = true) :
    EntryFrame (s.setIm .masked) (s.mask.late c b) ∧ (s.mask.late c b).entry = s.entry ∧
      (s.mask.late c b).signal = s.signal ∧ atOrAfter s.params (s.mask.late c b).cc c = true ∧
      Plan s (s.mask.late c b) [{ notBefore := some (s.params, c), action := .irqMask }] := by
  have hf : EntryFrame (s.setIm .masked) s.mask := by
    constructor <;> first | rfl | exact Forward.of_event rfl rfl (State.mask_trace s)
  refine ⟨hf.trans (.of_wire (late_wire c b s.mask) (by simp)), by simp, by simp, ?_, ?_⟩
  · exact late_atOrAfter (b := b) c s.mask h
  · exact (mask_plan h).trans (late_plan c b s.mask)

theorem entryRelease_window (s : State) : Window s s.entryRelease ∧ s.entryRelease.entry.pos = .waitFall := by
  unfold State.entryRelease
  dsimp only
  generalize (s.elapse (some s.entry.next)).inTime s.entry.next = b
  have hf := waitUntil_entryFrame s.entry.next s
  have he : (s.waitUntil s.entry.next).entry = s.entry := by simp
  have hs : (s.waitUntil s.entry.next).signal = s.signal := by simp
  have hp := waitUntil_plan s.entry.next s
  have ha := waitUntil_atOrAfter s.entry.next s
  generalize s.waitUntil s.entry.next = u at hf he hs hp ha
  rw [← hf.params] at ha
  obtain ⟨h1, h2, h3, h4, h5⟩ := mask_late_spec b ha
  generalize u.mask.late s.entry.next b = v at h1 h2 h3 h4 h5
  have h6 := h1.trans (.of_wire (pinWrite_wire .setInput v) (by simp))
  have hv : v.params = u.params := h1.params
  rw [← hv] at h4
  have h7 := (hp.trans h5).trans (pinWrite_scheduled .setInput h4)
  have h8 : (v.pinWrite .signal .setInput).signal = { s.signal with mode := .input } := by simp [Pin.write, h3, hs]
  rw [hv, hf.params] at h7
  generalize v.pinWrite .signal .setInput = w at h6 h7 h8
  have h9 : EntryFrame (s.setIm .masked) (u.setIm .masked) :=
    ⟨hf.resetPin, rfl, hf.params, hf.mem, hf.cursor, hf.frame, hf.command, hf.calls, hf.target, hf.forward⟩
  exact ⟨⟨(h9.trans h6).trans (.setEntry _ w), hf.im, h8, h7.of_eq rfl rfl⟩, rfl⟩

/-- A failure exit (R180, R200). -/
theorem Window.fail {s u : State} (h : Window s u) (e : Error) (he : e = .syncTimeout1 ∨ e = .syncTimeout2) :
    EntryTail s ((u.fail (some u.entry.saved) e).setEntry {}) := by
  obtain ⟨h1, h2⟩ := h.leave
  refine .of_frame ((h1.trans (.reply (.error e) _)).trans (.setEntry {} _)) (h2.of_eq rfl rfl) rfl ?_ ?_
  · simpa [State.fail] using h.signal
  · rcases he with rfl | rfl
    · exact .inr (.inl (by simp [State.fail]))
    · exact .inr (.inr (by simp [State.fail]))

/-- From RELEASE_TO_INPUT to the end (R175). -/
theorem runEntry_tail {s : State} (h : s.entry.pos = .releaseToInput) : EntryTail s (runEntry 5 s) := by
  rw [runEntry_succ 4 (by rw [h]; exact fun hc => nomatch hc), State.entryStep, h]
  dsimp only
  obtain ⟨h1, hp1⟩ := entryRelease_window s
  generalize s.entryRelease = u at h1 hp1
  rw [runEntry_succ 3 (by rw [hp1]; exact fun hc => nomatch hc), State.entryStep, hp1]
  dsimp only
  have hw := (elapse_entryFrame u).trans (poll_entryFrame .low u.params.entryTimeoutA u.elapse)
  have he : (poll .low u.params.entryTimeoutA u.elapse).2.entry = u.entry := by
    rw [(poll_wire _ _ _).entry]; simp
  have hsig : (poll .low u.params.entryTimeoutA u.elapse).2.signal = u.signal := by simp
  have hpl : Plan u (poll .low u.params.entryTimeoutA u.elapse).2 [] := (elapse_plan u).trans (poll_plan _ _ _)
  unfold State.entryFall
  dsimp only
  generalize poll .low u.params.entryTimeoutA u.elapse = r at hw he hsig hpl
  obtain ⟨_ | tf, v⟩ := r
  · dsimp only at *
    have h2 : Window s (v.setEntry { v.entry with pos := .failSyncTimeout1 }) :=
      h1.step (hw.trans (.setEntry _ v)) (by simp [he]) (by simpa using hsig) (hpl.of_eq rfl rfl)
    rw [runEntry_succ 2 (by exact fun hc => nomatch hc), State.entryStep]
    dsimp only [State.setEntry_entry]
    rw [runEntry_idle _ rfl]
    exact h2.fail _ (.inl rfl)
  · dsimp only at *
    have h2 : Window s (v.setEntry { v.entry with pos := .waitRise, fall := tf }) :=
      h1.step (hw.trans (.setEntry _ v)) (by simp [he]) (by simpa using hsig) (hpl.of_eq rfl rfl)
    have hp2 : (v.setEntry { v.entry with pos := .waitRise, fall := tf }).entry.pos = .waitRise := rfl
    generalize v.setEntry { v.entry with pos := .waitRise, fall := tf } = w at h2 hp2
    rw [runEntry_succ 2 (by rw [hp2]; exact fun hc => nomatch hc), State.entryStep, hp2]
    dsimp only
    have hw' := (elapse_entryFrame w).trans (poll_entryFrame .high w.params.entryTimeoutB w.elapse)
    have he' : (poll .high w.params.entryTimeoutB w.elapse).2.entry = w.entry := by
      rw [(poll_wire _ _ _).entry]; simp
    have hsig' : (poll .high w.params.entryTimeoutB w.elapse).2.signal = w.signal := by simp
    have hpl' : Plan w (poll .high w.params.entryTimeoutB w.elapse).2 [] := (elapse_plan w).trans (poll_plan _ _ _)
    unfold State.entryRise
    dsimp only
    generalize poll .high w.params.entryTimeoutB w.elapse = r at hw' he' hsig' hpl'
    obtain ⟨_ | tr, x⟩ := r
    · dsimp only at *
      have h3 : Window s (x.setEntry { x.entry with pos := .failSyncTimeout2 }) :=
        h2.step (hw'.trans (.setEntry _ x)) (by simp [he']) (by simpa using hsig') (hpl'.of_eq rfl rfl)
      rw [runEntry_succ 1 (by exact fun hc => nomatch hc), State.entryStep]
      dsimp only [State.setEntry_entry]
      rw [runEntry_idle _ rfl]
      exact h3.fail _ (.inr rfl)
    · dsimp only at *
      have h3 : Window s x := h2.step hw' (by rw [he']) hsig' hpl'
      generalize some (plus x.params tr x.params.tSettle) = due
      obtain ⟨h4, h5⟩ := h3.leave due
      have hs6 : (x.leaveCritical x.entry.saved due).signal = { s.signal with mode := .input } := by simpa using h3.signal
      have h6 := h4.trans (.setEntry { (x.leaveCritical x.entry.saved due).entry with pos := .settle, rise := tr } _)
      have h7 : Plan s ((x.leaveCritical x.entry.saved due).setEntry
          { (x.leaveCritical x.entry.saved due).entry with pos := .settle, rise := tr }) _ := h5.of_eq rfl rfl
      have hp6 : ((x.leaveCritical x.entry.saved due).setEntry
          { (x.leaveCritical x.entry.saved due).entry with pos := .settle, rise := tr }).entry.pos = .settle := rfl
      have hs7 : ((x.leaveCritical x.entry.saved due).setEntry
          { (x.leaveCritical x.entry.saved due).entry with pos := .settle, rise := tr }).signal =
            { s.signal with mode := .input } := hs6
      generalize (x.leaveCritical x.entry.saved due).setEntry
          { (x.leaveCritical x.entry.saved due).entry with pos := .settle, rise := tr } = y at h6 h7 hp6 hs7
      rw [runEntry_succ 1 (by rw [hp6]; exact fun hc => nomatch hc), State.entryStep, hp6]
      dsimp only
      rw [runEntry_succ 0 (by exact fun hc => nomatch hc), State.entryStep]
      unfold State.entrySettle
      dsimp only [State.setEntry_entry]
      rw [runEntry_idle _ rfl]
      refine .of_frame
        ((((h6.trans (waitUntil_entryFrame _ y)).trans (.setEntry _ _)).trans (.reply _ _)).trans (.setEntry {} _))
        ?_ rfl ?_ (.inl ⟨_, ?_, rfl⟩)
      · have := h7.trans (waitUntil_plan (plus y.params y.entry.rise y.params.tSettle) y)
        exact (this.of_eq rfl rfl : Plan s _ _)
      · simpa [State.exit] using hs7
      · rw [State.setEntry_params, State.waitUntil_params, ← h6.params]
        exact minus_lt y.params _ _

@[simp] theorem toggled_zero (l : Level) : toggled l 0 = l := rfl

theorem toggled_succ (l : Level) (m : Nat) :
    toggled l (m + 1) = toggled (match l with
      | .low => .high
      | .high => .low) m := by
  unfold toggled
  rcases Nat.mod_two_eq_zero_or_one m with h | h
  · rw [if_neg (by omega), if_pos h]
  · rw [if_pos (by omega), if_neg (by omega)]
    cases l <;> rfl

/-- The cycle m toggles from toggle k on end at, the first of them at t (R175). -/
def trainEnd (p : Params) : Nat → Nat → Cycle → Cycle
  | 0, _, t => t
  | m + 1, k, t => trainEnd p m (k + 1) (plus p t (toggleInterval p k))

/-- One toggle of the train (R175). -/
theorem entryToggle_spec (k : Nat) (s : State) :
    EntryFrame s (s.entryToggle k) ∧
      Plan s (s.entryToggle k)
        [scheduled s.params (if s.entry.level == .low then .setHigh else .setLow) s.entry.next, unscheduled .watchdog] ∧
      (s.entryToggle k).entry =
        { s.entry with
          pos := afterToggle s.params k
          next := plus s.params s.entry.next (toggleInterval s.params k)
          level := toggled s.entry.level 1 } ∧
      (s.entryToggle k).signal = { s.signal with latch := toggled s.entry.level 1 } := by
  unfold State.entryToggle
  dsimp only
  have hf := (schedule_entryFrame s.entry.next (if s.entry.level == .low then .setHigh else .setLow) s).trans
    (wdtService_entryFrame _)
  have hp := (schedule_plan s.entry.next (if s.entry.level == .low then .setHigh else .setLow) s).trans
    (wdtService_plan _)
  have he : ((s.schedule s.entry.next (if s.entry.level == .low then .setHigh else .setLow)).wdtService).entry =
      s.entry := by
    simp [State.wdtService]
  have hs : ((s.schedule s.entry.next (if s.entry.level == .low then .setHigh else .setLow)).wdtService).signal =
      s.signal.write (if s.entry.level == .low then .setHigh else .setLow) := by
    simp [State.wdtService, State.schedule]
  refine ⟨hf.trans (.setEntry _ _), (hp.of_eq rfl rfl : Plan s _ _), ?_, ?_⟩
  · rw [State.setEntry_entry, he, hf.params]
    cases s.entry.level <;> rfl
  · rw [State.setEntry_signal, hs]
    cases s.entry.level <;> rfl

/-- The train from k toggles on, and the end (R175, R177). -/
theorem runEntry_train {m k : Nat} {s : State} (hpos : s.entry.pos = afterToggle s.params k)
    (hk : k + m = toggles s.params) (hl : s.signal.latch = s.entry.level) :
    EntryFrame s (runEntry (m + 5) s) ∧
      Plan s (runEntry (m + 5) s)
        (trainPlan s.params m (k + 1) s.entry.next (s.entry.level == .low) ++
          (releasePlan s.params (trainEnd s.params m (k + 1) s.entry.next) ++ [unscheduled (.irqRestore s.im)])) ∧
      (runEntry (m + 5) s).entry = {} ∧
      (runEntry (m + 5) s).signal = { mode := .input, latch := toggled s.entry.level m } ∧
      ((∃ d, d < 2 ^ s.params.wCc ∧ (runEntry (m + 5) s).result = some (.duration d)) ∨
        (runEntry (m + 5) s).result = some (.error .syncTimeout1) ∨
        (runEntry (m + 5) s).result = some (.error .syncTimeout2)) := by
  induction m generalizing k s with
  | zero =>
    rw [afterToggle, if_neg (by omega)] at hpos
    have h := runEntry_tail hpos
    refine ⟨⟨h.resetPin, h.im, h.params, h.mem, h.cursor, h.frame, h.command, h.calls, h.target, h.forward⟩, h.plan,
      h.entry, ?_, h.result⟩
    rw [h.signal, ← hl]; rfl
  | succ m ih =>
    rw [afterToggle, if_pos (by omega)] at hpos
    have e : m + 1 + 5 = (m + 5) + 1 := by omega
    rw [e, runEntry_succ _ (by rw [hpos]; exact fun hc => nomatch hc), State.entryStep, hpos]
    dsimp only
    obtain ⟨h1, h2, h3, h4⟩ := entryToggle_spec (k + 1) s
    have h5 := ih (s := s.entryToggle (k + 1)) (k := k + 1) (by rw [h3, h1.params]) (by rw [h1.params]; omega)
      (by rw [h3, h4])
    generalize s.entryToggle (k + 1) = u at h1 h2 h3 h4 h5
    obtain ⟨g1, g2, g3, g4, g5⟩ := h5
    rw [h1.params] at g5
    refine ⟨h1.trans g1, ?_, g3, ?_, g5⟩
    · have := h2.trans g2
      rw [h3, h1.params, h1.im] at this
      have e2 : (toggled s.entry.level 1 == Level.low) = !(s.entry.level == Level.low) := by
        cases s.entry.level <;> rfl
      dsimp only at this
      rw [e2] at this
      simpa [trainPlan, trainEnd] using this
    · rw [g4, h3]
      dsimp only
      rw [toggled_succ s.entry.level m]
      cases s.entry.level <;> rfl

/-! ### The answer and the reads -/

/-- Writes before the answer's events change nothing of it. -/
theorem EntryRead.after {p : Params} {im : IrqMask} {finish : Nat} {r : Reply} {ev ew : List Event}
    (h : EntryRead p im finish r ev) (hw : ∀ e ∈ ew, e.notRead = true) : EntryRead p im finish r (ew ++ ev) := by
  obtain ⟨writes, fall, rise, release, last, rfl, h1, h2, h3, h4⟩ := h
  refine ⟨ew ++ writes, fall, rise, release, last, by simp, fun e he => ?_, h2, h3, h4⟩
  rcases List.mem_append.1 he with he | he
  · exact hw e he
  · exact h1 e he

/-- The events of RELEASE_TO_INPUT (R175, R178). -/
theorem entryRelease_events (s : State) : ∃ mask release : Event, Emits s s.entryRelease [mask, release] ∧
    mask.notRead = true ∧ release.action = .pin .signal .setInput := by
  unfold State.entryRelease
  dsimp only
  generalize (s.elapse (some s.entry.next)).inTime s.entry.next = b
  have h1 : Emits s (s.waitUntil s.entry.next) [] := .of_quiet (waitUntil_wire _ s).forward (by simp)
  generalize s.waitUntil s.entry.next = u at h1
  have h2 : Emits u u.mask [{ cycle := u.time, action := .irqMask }] :=
    .of_forward (.of_event rfl rfl (State.mask_trace u)) (by simp)
  have h3 : Emits u.mask (u.mask.late s.entry.next b) [] := .of_quiet (late_wire _ b _).forward (by simp)
  generalize u.mask.late s.entry.next b = v at h3
  have h4 : Emits v (v.pinWrite .signal .setInput) [signalEvent .setInput v.time] :=
    .of_forward (pinWrite_wire .setInput v).forward (by simp [signalEvent])
  exact ⟨_, _, (((h1.trans h2).trans h3).trans h4).of_eq rfl rfl rfl rfl, rfl, rfl⟩

/-- The events of `leave_critical` (R116): one, at the cycle it ends at. -/
theorem leaveCritical_events (im : IrqMask) (s : State) (due : Option Cycle := none) :
    Emits s (s.leaveCritical im due) [{ cycle := (s.leaveCritical im due).time, action := .irqRestore im }] :=
  .of_forward (leaveCritical_forward im s due) (by simp [State.leaveCritical])

/-- The events of a failure exit of the sequencer (R200): the restored mask, at the cycle it ends at. -/
theorem failEntry_events (im : IrqMask) (e : Error) (s : State) : Emits s ((s.fail (some im) e).setEntry {})
    [{ cycle := ((s.fail (some im) e).setEntry {}).time, action := .irqRestore im }] :=
  (leaveCritical_events im s).of_eq rfl rfl rfl rfl

/-- A poll as the next primitive: its reads, and what it leaves alone. -/
theorem elapse_poll_events (want : Level) (budget : Nat) (s : State) :
    WireOnly s (poll want budget s.elapse).2 ∧ ∃ ev, Emits s (poll want budget s.elapse).2 ev ∧
      match (poll want budget s.elapse).1 with
      | none => Polled want budget ev none
      | some c => c = (poll want budget s.elapse).2.cc ∧ Polled want budget ev (some (poll want budget s.elapse).2.time) := by
  obtain ⟨ev, h1, -, h2⟩ := poll_events want budget s.elapse
  exact ⟨(elapse_wire s).trans (poll_wire _ _ _), ev, by simpa using (Emits.of_quiet (elapse_forward s) (by simp)).trans h1, h2⟩

/-- From RELEASE_TO_INPUT to the end: the reads and the answer (R175, R179, R180). -/
theorem runEntry_tail_read {s : State} (h : s.entry.pos = .releaseToInput) :
    ∃ (r : Reply) (ev : List Event), Emits s (runEntry 5 s) ev ∧ (runEntry 5 s).result = some r ∧
      EntryRead s.params s.im (runEntry 5 s).time r ev := by
  rw [runEntry_succ 4 (by rw [h]; exact fun hc => nomatch hc), State.entryStep, h]
  dsimp only
  obtain ⟨hw, hp1⟩ := entryRelease_window s
  obtain ⟨mask, release, h1, hm, hr⟩ := entryRelease_events s
  have hpar := hw.frame.params
  have hsav := hw.saved
  rw [State.setIm_params] at hpar
  generalize s.entryRelease = u at h1 hp1 hpar hsav
  rw [runEntry_succ 3 (by rw [hp1]; exact fun hc => nomatch hc), State.entryStep, hp1]
  dsimp only
  unfold State.entryFall
  dsimp only
  obtain ⟨hw1, fall, h2, h3⟩ := elapse_poll_events .low u.params.entryTimeoutA u
  generalize poll .low u.params.entryTimeoutA u.elapse = q at hw1 h2 h3
  obtain ⟨_ | tf, v⟩ := q
  · dsimp only at *
    rw [runEntry_succ 2 (by exact fun hc => nomatch hc), State.entryStep]
    dsimp only [State.setEntry_entry]
    rw [runEntry_idle _ rfl]
    rw [hw1.entry, hsav]
    have h4 (e : EntryRegs) : Emits s (v.setEntry e) ([mask, release] ++ fall) := (h1.trans h2).of_eq rfl rfl rfl rfl
    exact ⟨.error .syncTimeout1, _, (h4 _).trans (failEntry_events s.im .syncTimeout1 _), rfl, [mask], fall, [], release, _,
      by simp; rfl, by simpa using hm, hr, rfl, .inl ⟨rfl, hpar ▸ h3, rfl, rfl⟩⟩
  · dsimp only at *
    obtain ⟨ht, h3⟩ := h3
    rw [runEntry_succ 2 (by exact fun hc => nomatch hc), State.entryStep]
    dsimp only [State.setEntry_entry]
    have hvp : v.params = s.params := hw1.params.trans hpar
    have hvs : v.entry.saved = s.im := by rw [hw1.entry, hsav]
    unfold State.entryRise
    dsimp only
    obtain ⟨hw2, rise, h4, h5⟩ := elapse_poll_events .high v.params.entryTimeoutB
      (v.setEntry { v.entry with pos := .waitRise, fall := tf })
    rw [State.setEntry_params]
    generalize poll .high v.params.entryTimeoutB (v.setEntry { v.entry with pos := .waitRise, fall := tf }).elapse = q
      at hw2 h4 h5
    have h6 : Emits s q.2 ([mask, release] ++ fall ++ rise) := (h1.trans h2).trans (h4.of_eq (u := v) rfl rfl rfl rfl)
    have htf : ∀ e ∈ rise, v.time ≤ e.cycle := fun e he => (h4.span e he).1
    have hle : v.time ≤ q.2.time := h4.time
    obtain ⟨_ | tr, x⟩ := q
    · dsimp only at *
      have hxs : x.entry.saved = s.im := by rw [hw2.entry]; exact hvs
      rw [runEntry_succ 1 (by exact fun hc => nomatch hc), State.entryStep]
      dsimp only [State.setEntry_entry]
      rw [runEntry_idle _ rfl]
      rw [hxs]
      have h7 (e : EntryRegs) : Emits s (x.setEntry e) ([mask, release] ++ fall ++ rise) := h6.of_eq rfl rfl rfl rfl
      have h9 (e : EntryRegs) : v.time ≤ (x.setEntry e).time := hle
      exact ⟨.error .syncTimeout2, _, (h7 _).trans (failEntry_events s.im .syncTimeout2 _), rfl, [mask], fall, rise, release, _,
        by simp; rfl, by simpa using hm, hr, rfl, .inr ⟨v.time, hpar ▸ h3, htf,
          (h9 _).trans (failEntry_events s.im .syncTimeout2 _).time, .inl ⟨rfl, hvp ▸ h5, rfl⟩⟩⟩
    · dsimp only at *
      obtain ⟨hr', h5⟩ := h5
      have hxp : x.params = s.params := hw2.params.trans hvp
      have hxs : x.entry.saved = s.im := by rw [hw2.entry]; exact hvs
      have hxf : x.entry.fall = tf := by rw [hw2.entry]; rfl
      generalize some (plus x.params tr x.params.tSettle) = due
      have h7 := leaveCritical_events x.entry.saved x due
      have hyp : (x.leaveCritical x.entry.saved due).params = s.params := by simpa using hxp
      have hyf : (x.leaveCritical x.entry.saved due).entry.fall = wrap s.params v.time := by
        simp [hxf, ht, State.cc, hvp]
      generalize x.leaveCritical x.entry.saved due = y at h7 hyf hyp
      rw [hxs] at h7
      rw [runEntry_succ 1 (by exact fun hc => nomatch hc), State.entryStep]
      dsimp only [State.setEntry_entry]
      rw [runEntry_succ 0 (by exact fun hc => nomatch hc), State.entryStep]
      unfold State.entrySettle
      dsimp only [State.setEntry_entry]
      rw [runEntry_idle _ rfl]
      have hzp : (y.setEntry { y.entry with pos := .settle, rise := tr }).params = s.params := hyp
      have hze : (y.setEntry { y.entry with pos := .settle, rise := tr }).entry =
          { y.entry with pos := .settle, rise := tr } := rfl
      have h10 : Emits s (y.setEntry { y.entry with pos := .settle, rise := tr })
          ([mask, release] ++ fall ++ rise ++ [{ cycle := y.time, action := .irqRestore s.im }]) :=
        (h6.trans h7).of_eq rfl rfl rfl rfl
      have hle2 : y.time ≤ (y.setEntry { y.entry with pos := .settle, rise := tr }).time := Nat.le_refl _
      generalize y.setEntry { y.entry with pos := .settle, rise := tr } = z at hzp hze h10 hle2
      have hdue : plus z.params tr z.params.tSettle = plus s.params (wrap s.params x.time) s.params.tSettle := by
        rw [hzp, hr', State.cc, hxp]
      rw [hdue]
      have h8 := waitUntil_wire (plus s.params (wrap s.params x.time) s.params.tSettle) z
      have h9 := waitUntil_atOrAfter (plus s.params (wrap s.params x.time) s.params.tSettle) z
      rw [hzp] at h9
      have h11 := h10.trans (.of_quiet h8.forward (by simp))
      have hwe := h8.entry
      have hwp := h8.params.trans hzp
      have hwt := h8.forward.time
      generalize z.waitUntil (plus s.params (wrap s.params x.time) s.params.tSettle) = w at h9 h11 hwe hwp hwt
      rw [hze] at hwe
      refine ⟨_, _, h11.of_eq rfl rfl rfl rfl, rfl, [mask], fall, rise, release, { cycle := y.time, action := .irqRestore s.im },
        by simp, by simpa using hm, hr, rfl, .inr ⟨v.time, hpar ▸ h3, htf, hle.trans h7.time,
          .inr ⟨x.time, hvp ▸ h5, hle, h7.time, ?_, hle2.trans hwt, ?_⟩⟩⟩
      · simp [entryDuration, hwp, hwe, hyf, hr', State.cc, hxp]
      · simpa [atOrAfter, State.cc, hwp, State.exit] using h9

/-- The train from k toggles on and the end: the reads and the answer (R175, R180). -/
theorem runEntry_train_read {m k : Nat} {s : State} (hpos : s.entry.pos = afterToggle s.params k)
    (hk : k + m = toggles s.params) :
    ∃ (r : Reply) (ev : List Event), Emits s (runEntry (m + 5) s) ev ∧ (runEntry (m + 5) s).result = some r ∧
      EntryRead s.params s.im (runEntry (m + 5) s).time r ev := by
  induction m generalizing k s with
  | zero =>
    rw [afterToggle, if_neg (by omega)] at hpos
    exact runEntry_tail_read hpos
  | succ m ih =>
    rw [afterToggle, if_pos (by omega)] at hpos
    have e : m + 1 + 5 = (m + 5) + 1 := by omega
    rw [e, runEntry_succ _ (by rw [hpos]; exact fun hc => nomatch hc), State.entryStep, hpos]
    dsimp only
    obtain ⟨h1, -, h3, -⟩ := entryToggle_spec (k + 1) s
    have hn : NoReads s (s.entryToggle (k + 1)) := by
      unfold State.entryToggle
      dsimp only
      refine NoReads.trans (schedule_noReads s.entry.next (if s.entry.level == .low then .setHigh else .setLow) s) ?_
      exact ⟨[_], by simp [State.wdtService]; rfl, by simp [Event.notRead]⟩
    obtain ⟨ev, hn1, hn2⟩ := hn
    have h4 : Emits s (s.entryToggle (k + 1)) ev := .of_forward h1.forward hn1
    obtain ⟨r, ew, g1, g2, g3⟩ := ih (s := s.entryToggle (k + 1)) (k := k + 1) (by rw [h3, h1.params]) (by rw [h1.params]; omega)
    rw [h1.params, h1.im] at g3
    exact ⟨r, ev ++ ew, h4.trans g1, g2, g3.after hn2⟩

end Sys2Proof.Machine
end

