-- ==== Sys2Proof/Laws/EntryHarness.lean ====
section
/-!
SUPPORT. Laws/EntryHarness.lean: the entry sequencer under HARNESS timing (R117): every event at its cycle (R177), and the
measured duration (R179).
-/

namespace Sys2Proof.Machine

open Sys2Proof

/-- From s the machine came to u, at a cycle, with these events (reads not counted), still under HARNESS timing. -/
structure Went (s u : State) (writes : List Event) (time : Nat) : Prop where
  params : u.params = s.params
  target : u.target = s.target
  timing : u.timing = .scripted []
  trace : ∃ ev : List Event, u.trace = ev.reverse ++ s.trace ∧ ev.filter Event.notRead = writes
  time : u.time = time

theorem Went.of_ran {s u : State} {e : List Event} {m : Nat} (h : Ran s u e m) : Went s u e m :=
  ⟨h.wire.params, h.wire.target, h.timing, h.trace, h.time⟩

theorem Went.trans {s u w : State} {e f : List Event} {m n : Nat} (h : Went s u e m) (g : Went u w f n) :
    Went s w (e ++ f) n where
  params := g.params.trans h.params
  target := g.target.trans h.target
  timing := g.timing
  trace := by
    obtain ⟨ev, h1, h2⟩ := h.trace
    obtain ⟨ev', g1, g2⟩ := g.trace
    exact ⟨ev ++ ev', by simp [g1, h1], by simp [h2, g2]⟩
  time := g.time

theorem Went.harness {s u : State} {e : List Event} {m : Nat} (h : Went s u e m) (hs : s.Harness) : u.Harness :=
  ⟨h.timing, by rw [h.params]; exact hs.rise, by rw [h.params]; exact hs.pollMin⟩

theorem Went.newWrites {s u : State} {e : List Event} {m : Nat} (h : Went s u e m) : newWrites s u = e := by
  obtain ⟨ev, h1, h2⟩ := h.trace
  rw [Machine.newWrites, newEvents_eq h1, h2]

theorem Went.setEntry (r : EntryRegs) {s u : State} {e : List Event} {m : Nat} (h : Went s u e m) :
    Went s (u.setEntry r) e m := ⟨h.params, h.target, h.timing, h.trace, h.time⟩

theorem Went.reply (r : Reply) {s u : State} {e : List Event} {m : Nat} (h : Went s u e m) :
    Went s (u.reply r) e m := ⟨h.params, h.target, h.timing, h.trace, h.time⟩

theorem mask_went {s : State} (h : s.Harness) : Went s s.mask [{ cycle := s.time, action := .irqMask }] s.time :=
  ⟨rfl, rfl, h.timing, ⟨[{ cycle := s.time, action := .irqMask }], rfl, rfl⟩, rfl⟩

theorem leaveCritical_went (im : IrqMask) {s : State} (h : s.Harness) (due : Option Cycle := none) :
    Went s (s.leaveCritical im due) [{ cycle := s.time, action := .irqRestore im }] s.time := by
  unfold State.leaveCritical
  rw [h.elapse]
  exact ⟨rfl, rfl, h.timing, ⟨[{ cycle := s.time, action := .irqRestore im }], rfl, rfl⟩, rfl⟩

theorem wdtService_went {s : State} (h : s.Harness) :
    Went s s.wdtService [{ cycle := s.time, action := .watchdog }] s.time := by
  unfold State.wdtService
  rw [h.elapse, (h.log _).elapse]
  exact ⟨rfl, rfl, h.timing, ⟨[{ cycle := s.time, action := .watchdog }], rfl, rfl⟩, rfl⟩

theorem toggleCycle_one (p : Params) (t0 : Nat) : toggleCycle p t0 1 = t0 + cyc p p.tEntryLowUs := rfl

theorem toggleCycle_succ (p : Params) (t0 k : Nat) :
    toggleCycle p t0 (k + 2) = toggleCycle p t0 (k + 1) + toggleInterval p (k + 1) := by
  simp [toggleCycle, List.range_succ, Nat.add_assoc]

/-- The train under HARNESS timing (R177). -/
theorem runEntry_train_ran {n m k t0 : Nat} {s : State} (h : s.Harness) (hpos : s.entry.pos = afterToggle s.params k)
    (hk : k + m = toggles s.params) (hl : s.entry.level = toggled .low k)
    (hnext : s.entry.next = wrap s.params (toggleCycle s.params t0 (k + 1)))
    (hle : s.time ≤ toggleCycle s.params t0 (k + 1)) (hlt : toggleCycle s.params t0 (k + 1) < s.time + 2 ^ (s.params.wCc - 1))
    (hd : ∀ j, toggleInterval s.params j < 2 ^ (s.params.wCc - 1)) :
    ∃ u, runEntry (m + n) s = runEntry n u ∧ Went s u (trainWaveform s.params t0 (k + 1) m) u.time ∧
      u.entry.pos = .releaseToInput ∧ u.im = s.im ∧ u.signal.mode = s.signal.mode ∧
      u.entry.next = wrap s.params (releaseCycle s.params t0) ∧ u.time ≤ releaseCycle s.params t0 ∧
      releaseCycle s.params t0 < u.time + 2 ^ (s.params.wCc - 1) := by
  induction m generalizing k s with
  | zero =>
    have e : k = toggles s.params := by omega
    subst e
    refine ⟨s, by rw [Nat.zero_add], ⟨rfl, rfl, h.timing, ⟨[], rfl, rfl⟩, rfl⟩, ?_, rfl, rfl, hnext, hle, hlt⟩
    rw [hpos, afterToggle, if_neg (by omega)]
  | succ m ih =>
    rw [afterToggle, if_pos (by omega)] at hpos
    have e : m + 1 + n = (m + n) + 1 := by omega
    rw [e, runEntry_succ _ (by rw [hpos]; exact fun hc => nomatch hc), State.entryStep, hpos]
    dsimp only
    obtain ⟨h1, -, h3, h4⟩ := entryToggle_spec (k + 1) s
    have h5 : Went s (s.entryToggle (k + 1))
        [signalEvent (if (k + 1) % 2 = 1 then .setHigh else .setLow) (toggleCycle s.params t0 (k + 1)),
          { cycle := toggleCycle s.params t0 (k + 1), action := .watchdog }] (toggleCycle s.params t0 (k + 1)) := by
      unfold State.entryToggle
      dsimp only
      rw [hnext]
      have hb : (s.entry.level == Level.low) = decide ((k + 1) % 2 = 1) := by
        rw [hl]
        unfold toggled
        rcases Nat.mod_two_eq_zero_or_one k with hm | hm
        · rw [if_pos hm]
          have : (k + 1) % 2 = 1 := by omega
          simp [this]
        · rw [if_neg (by omega)]
          have : ¬ (k + 1) % 2 = 1 := by omega
          simp [this]
      have h6 := schedule_ran (if s.entry.level == .low then .setHigh else .setLow) h rfl hle hlt
      have h7 := wdtService_went (h6.harness h)
      rw [h6.time] at h7
      have h8 := (Went.of_ran h6).trans h7
      rw [hb] at h8 ⊢
      simp only [decide_eq_true_eq] at h8 ⊢
      exact h8.setEntry _
    have h6 := ih (s := s.entryToggle (k + 1)) (k := k + 1) (h5.harness h) (by rw [h3, h5.params])
      (by rw [h5.params]; omega)
      (by
        rw [h3]
        dsimp only
        rw [hl]
        unfold toggled
        rcases Nat.mod_two_eq_zero_or_one k with hm | hm
        · rw [if_pos hm, if_neg (by omega), if_neg (by omega)]
        · rw [if_neg (by omega), if_neg (by omega), if_pos (by omega)])
      (by
        rw [h3, h5.params]
        dsimp only
        rw [hnext, plus_wrap, toggleCycle_succ])
      (by rw [h5.params, h5.time, toggleCycle_succ]; omega)
      (by rw [h5.params, h5.time, toggleCycle_succ]; have := hd (k + 1); omega)
      (by rw [h5.params]; exact hd)
    obtain ⟨u, g1, g2, g3, g4, g5, g6, g7, g8⟩ := h6
    rw [h5.params] at g2 g6 g7 g8
    refine ⟨u, g1, ?_, g3, g4.trans h1.im, g5.trans (by rw [h4]), g6, g7, g8⟩
    have := h5.trans g2
    simpa [trainWaveform, List.range'_succ] using this


/-- RELEASE_TO_INPUT under HARNESS timing (R177, R178). -/
theorem entryRelease_went {R : Nat} {s : State} (h : s.Harness) (hnext : s.entry.next = wrap s.params R)
    (hle : s.time ≤ R) (hlt : R < s.time + 2 ^ (s.params.wCc - 1)) :
    Went s s.entryRelease [{ cycle := R, action := .irqMask }, signalEvent .setInput R] R := by
  unfold State.entryRelease
  dsimp only
  rw [hnext]
  have h1 := waitUntil_ran h rfl hle hlt
  have h2 := mask_went (h1.harness h)
  rw [h1.time] at h2
  have h3 := (Went.of_ran h1).trans h2
  rw [(h3.harness h).late]
  have h4 := pinWrite_ran .setInput (h3.harness h)
  rw [h3.time] at h4
  exact (h3.trans (.of_ran h4)).setEntry _

/-- A failure exit under HARNESS timing. -/
theorem fail_went {s u : State} {l : List Event} {n : Nat} (h : s.Harness) (g : Went s u l n) (im : IrqMask) (e : Error) :
    Went s ((u.fail (some im) e).setEntry {}) (l ++ [{ cycle := n, action := .irqRestore im }]) n := by
  have h1 := leaveCritical_went im (g.harness h)
  rw [g.time] at h1
  exact ((g.trans h1).reply (.error e)).setEntry {}

/-- The window and the end under HARNESS timing (R175, R179, R180), the release at cycle R. -/
theorem runEntry_tail_ran {R : Nat} {s : State} (h : s.Harness) (hpos : s.entry.pos = .releaseToInput)
    (hnext : s.entry.next = wrap s.params R) (hle : s.time ≤ R) (hlt : R < s.time + 2 ^ (s.params.wCc - 1)) :
    ((∀ t, R ≤ t → t < R + s.params.entryTimeoutA → targetLow s.target t = false) →
        (runEntry 5 s).result = some (.error .syncTimeout1) ∧
          Went s (runEntry 5 s)
            [{ cycle := R, action := .irqMask }, signalEvent .setInput R,
              { cycle := R + s.params.entryTimeoutA, action := .irqRestore s.im }] (R + s.params.entryTimeoutA)) ∧
      ∀ f, R ≤ f → f < R + s.params.entryTimeoutA → (∀ t, R ≤ t → t < f → targetLow s.target t = false) →
        targetLow s.target f = true →
        ((∀ t, f ≤ t → t < f + s.params.entryTimeoutB → targetLow s.target t = true) →
            (runEntry 5 s).result = some (.error .syncTimeout2) ∧
              Went s (runEntry 5 s)
                [{ cycle := R, action := .irqMask }, signalEvent .setInput R,
                  { cycle := f + s.params.entryTimeoutB, action := .irqRestore s.im }] (f + s.params.entryTimeoutB)) ∧
          ∀ r, f ≤ r → r < f + s.params.entryTimeoutB → (∀ t, f ≤ t → t < r → targetLow s.target t = true) →
            targetLow s.target r = false → r < f + 2 ^ s.params.wCc → s.params.tSettle < 2 ^ (s.params.wCc - 1) →
            (runEntry 5 s).result = some (.duration (r - f)) ∧
              Went s (runEntry 5 s)
                [{ cycle := R, action := .irqMask }, signalEvent .setInput R,
                  { cycle := r, action := .irqRestore s.im }] (r + s.params.tSettle) := by
  rw [runEntry_succ 4 (by rw [hpos]; exact fun hc => nomatch hc), State.entryStep, hpos]
  dsimp only
  have h1 := entryRelease_went h hnext hle hlt
  obtain ⟨hw, hp1⟩ := entryRelease_window s
  have hsaved := hw.saved
  have hsig := hw.signal
  generalize s.entryRelease = u at h1 hp1 hsaved hsig
  have hu := h1.harness h
  have hpl : u.signal.pulls = false := by rw [hsig]; simp [Pin.pulls]
  rw [runEntry_succ 3 (by rw [hp1]; exact fun hc => nomatch hc), State.entryStep, hp1]
  dsimp only
  unfold State.entryFall
  dsimp only
  rw [hu.elapse]
  have he : (poll .low u.params.entryTimeoutA u).2.entry = u.entry := (poll_wire _ _ _).entry
  have hsg : (poll .low u.params.entryTimeoutA u).2.signal = u.signal := poll_signal _ _ _
  constructor
  · intro hno
    obtain ⟨g1, g2⟩ := poll_timeout (want := .low) (k := u.params.entryTimeoutA) hu hpl
      (by rw [h1.time, h1.params, h1.target]; intro t a b; simp [targetLevel, hno t a b])
    rw [h1.time] at g2
    generalize poll .low u.params.entryTimeoutA u = p at g1 g2 he hsg
    obtain ⟨_, v⟩ := p
    dsimp only at *
    subst g1
    dsimp only
    rw [runEntry_succ 2 (by exact fun hc => nomatch hc), State.entryStep]
    dsimp only [State.setEntry_entry]
    rw [runEntry_idle _ rfl, he, hsaved]
    have h2 := fail_went h ((h1.trans (.of_ran g2)).setEntry { u.entry with pos := .failSyncTimeout1 }) s.im .syncTimeout1
    rw [h1.params] at h2
    exact ⟨rfl, by simpa [he, hsaved] using h2⟩
  · intro f hf1 hf2 hno hyes
    obtain ⟨g1, g2⟩ := poll_found (want := .low) (k := u.params.entryTimeoutA) (e := f) hu hpl (by rw [h1.time]; exact hf1)
      (by rw [h1.time, h1.params]; exact hf2)
      (by rw [h1.time, h1.target]; intro t a b; simp [targetLevel, hno t a b]) (by rw [h1.target]; simp [targetLevel, hyes])
    generalize poll .low u.params.entryTimeoutA u = p at g1 g2 he hsg
    obtain ⟨_, v⟩ := p
    dsimp only at *
    rw [h1.params] at g1
    subst g1
    dsimp only
    have h2 := (h1.trans (.of_ran g2)).setEntry { v.entry with pos := .waitRise, fall := wrap s.params f }
    have hp2 : (v.setEntry { v.entry with pos := .waitRise, fall := wrap s.params f }).entry =
      { u.entry with pos := .waitRise, fall := wrap s.params f } := by rw [State.setEntry_entry, he]
    have hs2 : (v.setEntry { v.entry with pos := .waitRise, fall := wrap s.params f }).signal = u.signal := hsg
    generalize v.setEntry { v.entry with pos := .waitRise, fall := wrap s.params f } = w at h2 hp2 hs2
    rw [runEntry_succ 2 (by rw [hp2]; exact fun hc => nomatch hc), State.entryStep, hp2]
    dsimp only
    unfold State.entryRise
    dsimp only
    have hw := h2.harness h
    rw [hw.elapse]
    have hplw : w.signal.pulls = false := by rw [hs2]; exact hpl
    have he' : (poll .high w.params.entryTimeoutB w).2.entry = w.entry := (poll_wire _ _ _).entry
    constructor
    · intro hno'
      obtain ⟨k1, k2⟩ := poll_timeout (want := .high) (k := w.params.entryTimeoutB) hw hplw
        (by rw [h2.time, h2.params, h2.target]; intro t a b; simp [targetLevel, hno' t a b])
      rw [h2.time] at k2
      generalize poll .high w.params.entryTimeoutB w = p at k1 k2 he'
      obtain ⟨_, x⟩ := p
      dsimp only at *
      subst k1
      dsimp only
      rw [runEntry_succ 1 (by exact fun hc => nomatch hc), State.entryStep]
      dsimp only [State.setEntry_entry]
      rw [runEntry_idle _ rfl, he', hp2]
      dsimp only
      rw [hsaved]
      have h3 := fail_went h ((h2.trans (.of_ran k2)).setEntry { x.entry with pos := .failSyncTimeout2 }) s.im .syncTimeout2
      rw [h2.params] at h3
      exact ⟨rfl, by simpa [he', hp2, hsaved] using h3⟩
    · intro r hr1 hr2 hlow hhigh hrf hset
      obtain ⟨k1, k2⟩ := poll_found (want := .high) (k := w.params.entryTimeoutB) (e := r) hw hplw
        (by rw [h2.time]; exact hr1) (by rw [h2.time, h2.params]; exact hr2)
        (by rw [h2.time, h2.target]; intro t a b; simp [targetLevel, hlow t a b])
        (by rw [h2.target]; simp [targetLevel, hhigh])
      generalize poll .high w.params.entryTimeoutB w = p at k1 k2 he'
      obtain ⟨_, x⟩ := p
      dsimp only at *
      rw [h2.params] at k1
      subst k1
      dsimp only
      have h3 := h2.trans (.of_ran k2)
      generalize some (plus x.params (wrap s.params r) x.params.tSettle) = due
      have h4 := leaveCritical_went x.entry.saved (h3.harness h) due
      rw [h3.time] at h4
      have hx : x.entry.saved = s.im := by rw [he', hp2]; exact hsaved
      have h5 := (h3.trans h4).setEntry
        { (x.leaveCritical x.entry.saved due).entry with pos := .settle, rise := wrap s.params r }
      have hp5 : ((x.leaveCritical x.entry.saved due).setEntry
          { (x.leaveCritical x.entry.saved due).entry with pos := .settle, rise := wrap s.params r }).entry =
            { u.entry with pos := .settle, fall := wrap s.params f, rise := wrap s.params r } := by
        rw [State.setEntry_entry, State.leaveCritical_entry, he', hp2]
      rw [hx] at h5 hp5 ⊢
      generalize (x.leaveCritical s.im due).setEntry
          { (x.leaveCritical s.im due).entry with pos := .settle, rise := wrap s.params r } = y at h5 hp5
      rw [runEntry_succ 1 (by rw [hp5]; exact fun hc => nomatch hc), State.entryStep, hp5]
      dsimp only
      rw [runEntry_succ 0 (by exact fun hc => nomatch hc), State.entryStep]
      unfold State.entrySettle
      dsimp only [State.setEntry_entry]
      rw [runEntry_idle _ rfl]
      have hy := h5.harness h
      have h6 := waitUntil_ran hy h5.params (c := r + s.params.tSettle) (by rw [h5.time]; omega) (by rw [h5.time]; omega)
      have e6 : plus y.params y.entry.rise y.params.tSettle = wrap s.params (r + s.params.tSettle) := by
        rw [hp5, h5.params, plus_wrap]
      rw [e6]
      have h7 := h5.trans (.of_ran h6)
      refine ⟨?_, ?_⟩
      · simp only [State.setEntry_result, State.exit, State.reply_result, entryDuration, State.waitUntil_entry, hp5]
        rw [State.setEntry_params, h7.params, minus_wrap_wrap _ hr1 hrf]
      · have h8 := ((h7.setEntry { (y.waitUntil (wrap s.params (r + s.params.tSettle))).entry with pos := .done }).reply
          (.duration (entryDuration (y.waitUntil (wrap s.params (r + s.params.tSettle))).params
            ((y.waitUntil (wrap s.params (r + s.params.tSettle))).setEntry
            { (y.waitUntil (wrap s.params (r + s.params.tSettle))).entry with pos := .done }).entry))).setEntry {}
        simpa [State.exit] using h8

/-- `swim_entry` up to the release, under HARNESS timing (R177). -/
theorem execSwimEntry_release {s : State} (h : s.Harness) (h0 : cyc s.params s.params.tEntryLowUs < 2 ^ (s.params.wCc - 1))
    (hd : ∀ j, toggleInterval s.params j < 2 ^ (s.params.wCc - 1)) :
    ∃ u, execSwimEntry s = .next (runEntry 5 u) ∧
      Went s u ([signalEvent .setLow s.time, signalEvent .setOutput s.time] ++
        trainWaveform s.params s.time 1 (toggles s.params)) u.time ∧
      u.entry.pos = .releaseToInput ∧ u.im = s.im ∧ u.entry.next = wrap s.params (releaseCycle s.params s.time) ∧
      u.time ≤ releaseCycle s.params s.time ∧ releaseCycle s.params s.time < u.time + 2 ^ (s.params.wCc - 1) := by
  have e : entryLength s.params = (toggles s.params + 5) + 1 := rfl
  unfold execSwimEntry
  rw [e, runEntry_succ _ (by exact fun hc => nomatch hc), State.entryStep]
  have g0 : Went s (s.setEntry { pos := .driveLow }).clearReply [] s.time := ⟨rfl, rfl, h.timing, ⟨[], rfl, rfl⟩, rfl⟩
  have hp : (s.setEntry { pos := .driveLow }).clearReply.entry.pos = .driveLow := rfl
  have hi : (s.setEntry { pos := .driveLow }).clearReply.im = s.im := rfl
  rw [hp]
  dsimp only
  generalize (s.setEntry { pos := .driveLow }).clearReply = u at g0 hi
  unfold State.entryDriveLow
  dsimp only
  have h1 := pinSet_ran .setLow (g0.harness h)
  have g1 := g0.trans (.of_ran h1)
  have h2 := pinSet_ran .setOutput (g1.harness h)
  have g2 := g1.trans (.of_ran h2)
  rw [(g2.harness h).elapse]
  rw [g1.time, g0.time] at g2
  have hi2 : ((u.pinSet .signal .setLow).pinSet .signal .setOutput).im = s.im := by simpa using hi
  generalize (u.pinSet .signal .setLow).pinSet .signal .setOutput = w at g2 hi2
  have g3 := g2.setEntry
    { w.entry with
      pos := afterToggle w.params 0
      next := plus w.params w.cc (cyc w.params w.params.tEntryLowUs)
      level := .low }
  obtain ⟨x, k1, k2, k3, k4, -, k6, k7, k8⟩ := runEntry_train_ran (n := 5) (m := toggles s.params) (k := 0) (t0 := s.time)
    (s := w.setEntry
      { w.entry with
        pos := afterToggle w.params 0
        next := plus w.params w.cc (cyc w.params w.params.tEntryLowUs)
        level := .low })
    (g3.harness h) rfl (by rw [g3.params]; omega) rfl
    (by
      rw [State.setEntry_entry, State.setEntry_params, toggleCycle_one, State.cc, g2.time, g2.params, plus_wrap])
    (by rw [g3.time, g3.params, toggleCycle_one]; omega)
    (by rw [g3.time, g3.params, toggleCycle_one]; omega) (by rw [g3.params]; exact hd)
  rw [g3.params] at k2 k6 k7 k8
  refine ⟨x, by rw [k1], ?_, k3, k4.trans hi2, k6, k7, k8⟩
  have := g3.trans k2
  simpa [g0.time] using this

end Sys2Proof.Machine
end

