-- ==== Sys2Proof/Laws/CommandHarness.lean ====
section
/-!
SUPPORT. Laws/CommandHarness.lean: the command sequencer under HARNESS timing (R117), against a target whose answers are known:
the frames at their cycles, the reply, the bytes received.
-/

namespace Sys2Proof.Machine

open Sys2Proof

/-- The writes of the host's ACK bits after k target frames, the first starting at f, each a span after the one before
it (R146). -/
def acksWaveform (p : Params) (span : Nat) : Nat → Nat → List Event
  | _, 0 => []
  | f, k + 1 =>
    ackWrites p (ackBit p false) (f + 9 * p.tPeriod + p.tHalf) (f + 9 * p.tPeriod + turnaround p) ++
      acksWaveform p span (f + span) k

theorem Went.setCommand (c : CommandRegs) {s u : State} {e : List Event} {m : Nat} (h : Went s u e m) :
    Went s (u.setCommand c) e m := ⟨h.params, h.target, h.timing, h.trace, h.time⟩

theorem Went.setMem (x : Memory) {s u : State} {e : List Event} {m : Nat} (h : Went s u e m) :
    Went s (u.setMem x) e m := ⟨h.params, h.target, h.timing, h.trace, h.time⟩

theorem Went.refl {s : State} (h : s.Harness) : Went s s [] s.time := .of_ran (.refl h)

/-- The sample of a lone target bit reads the bit (R81). -/
theorem sample_bitLow {tgt : Target} {p : Params} {b : Bool} {e : Nat} (ha : p.tShort ≤ p.tHalf)
    (hb : p.tHalf < p.tPeriod - p.tShort) (h : targetLow tgt (e + p.tHalf) = true ↔ bitLow p b e (e + p.tHalf)) :
    targetLevel tgt (e + p.tHalf) = levelOf b := by
  unfold targetLevel levelOf
  cases b
  · rw [if_pos (h.2 ⟨by omega, by simp; omega⟩)]; rfl
  · rw [if_neg]
    · rfl
    · intro hc
      have := (h.1 hc).2
      simp at this
      omega

/-- `send_byte` under HARNESS timing when the target answers with the bit b, its only drive up to the sample (R140). -/
theorem sendByte_answer {s : State} (h : s.Harness) {c d : Nat} (v : BitVec 16) (n : Nat) (hn : 0 < n) (b : Bool)
    (hs : 0 < s.params.tShort) (hT : 2 * s.params.tShort < s.params.tPeriod)
    (hp : 2 * s.params.tPeriod < 2 ^ (s.params.wCc - 1)) (h1 : s.params.tShort ≤ s.params.tHalf)
    (h2 : s.params.tHalf < s.params.tPeriod - s.params.tShort) (hle : s.time ≤ c)
    (hlt : c < s.time + 2 ^ (s.params.wCc - 1)) (hd : d < s.params.timeout)
    (ht : ∀ t, frameEnd s.params n c ≤ t → t ≤ frameEnd s.params n c + d + s.params.tHalf →
      (targetLow s.target t = true ↔ bitLow s.params b (frameEnd s.params n c + d) t)) :
    (sendByte (wrap s.params c) v n s).1 =
        some (levelOf b, wrap s.params (frameEnd s.params n c + d)) ∧
      Ran s (sendByte (wrap s.params c) v n s).2 (sendByteWrites s.params v n s.time c)
        (frameEnd s.params n c + d + s.params.tHalf) := by
  have h3 := sendByte_found h (c := c) (e := frameEnd s.params n c + d) v n hn hs hT hp (by omega) hle hlt (by omega) (by omega)
    (fun t h1 h2 => by
      rw [Bool.eq_false_iff]
      intro hc
      have := ((ht t h1 (by omega)).1 hc).1
      omega)
    ((ht _ (by omega) (by omega)).2 ⟨by omega, by split <;> omega⟩)
  rw [sample_bitLow h1 h2 (ht _ (by omega) (by omega))] at h3
  exact h3

theorem levelOf_bitOf (l : Level) : levelOf (bitOf l) = l := by cases l <;> rfl

/-- One payload frame under HARNESS timing (R155, R157): the answer's bit decides. -/
theorem payload_answer {s : State} (h : s.Harness) (hi : s.params.Ideal) {a d m : Nat} {b : Bool}
    (hm : m + 1 ≤ s.command.len) (hlen : s.command.len ≤ s.command.data.size)
    (ha : s.command.ackStart = wrap s.params a) (htime : s.time = a + s.params.tHalf) (hd : d < s.params.timeout)
    (ht : ∀ t, frameEnd s.params 9 (a + turnaround s.params) ≤ t →
      t ≤ frameEnd s.params 9 (a + turnaround s.params) + d + s.params.tHalf →
      (targetLow s.target t = true ↔ bitLow s.params b (a + byteFrameSpan s.params d) t)) :
    ∃ w, payloadPhase (m + 1) s =
        (if b = bitOf s.params.ackLevel then
          payloadPhase m (w.atPayload (s.command.len - (m + 1) + 1) (wrap s.params (a + byteFrameSpan s.params d)))
        else (w.atPayload (s.command.len - (m + 1)) (wrap s.params (a + byteFrameSpan s.params d)), .resend)) ∧
      w.command = { s.command with pos := .payload (s.command.len - (m + 1)) } ∧ w.mem = s.mem ∧ w.im = s.im ∧
      w.result = s.result ∧ w.signal.mode = .input ∧
      Went s w
        (sendByteWrites s.params
          (byteFrameValue s.params (Memory.read (s.command.data.base + (s.command.len - (m + 1))) s.mem)) 9
          (a + s.params.tHalf) (a + turnaround s.params))
        (a + byteFrameSpan s.params d + s.params.tHalf) := by
  have hs := hi.short_pos
  have hT := hi.short_lt
  have hw := turnaround_cases s.params
  have hS := hi.setup_lt
  have hP := hi.period_lt
  have ha1 := hi.half_ge
  have hb1 := hi.half_lt
  have hspan : frameEnd s.params 9 (a + turnaround s.params) + d = a + byteFrameSpan s.params d := by
    unfold frameEnd byteFrameSpan; omega
  generalize hP : payloadPhase (m + 1) s = P
  rw [payloadPhase_succ] at hP
  subst hP
  dsimp only [sendPayload]
  rw [readBuffer_of_lt (by omega)]
  dsimp only
  have hu0 : Went s (s.atPayload (s.command.len - (m + 1)) s.command.ackStart) [] s.time :=
    (Went.refl h).setCommand _
  have hb : s.beforePayload (s.command.len - (m + 1)) = s.atPayload (s.command.len - (m + 1)) s.command.ackStart :=
    (hu0.harness h).elapse _
  rw [hb]
  have hcu : (s.atPayload (s.command.len - (m + 1)) s.command.ackStart).command =
      { s.command with pos := .payload (s.command.len - (m + 1)) } := rfl
  have hmu : (s.atPayload (s.command.len - (m + 1)) s.command.ackStart).mem = s.mem := rfl
  have hiu : (s.atPayload (s.command.len - (m + 1)) s.command.ackStart).im = s.im := rfl
  have hru : (s.atPayload (s.command.len - (m + 1)) s.command.ackStart).result = s.result := rfl
  clear hb
  generalize s.atPayload (s.command.len - (m + 1)) s.command.ackStart = u at hu0 hcu hmu hiu hru
  have hcur : later u.params (ackEnd u) (plus u.params u.cc u.params.tSetup) = wrap s.params (a + turnaround s.params) := by
    rw [ackEnd, hcu, State.cc, hu0.params, hu0.time, htime]
    dsimp only
    rw [ha]
    exact nextCursor (by omega) hi.setup_lt (by omega)
  rw [hcur]
  have h1 := sendByte_answer (hu0.harness h) (c := a + turnaround s.params) (d := d)
    (byteFrameValue u.params (Memory.read (s.command.data.base + (s.command.len - (m + 1))) s.mem)) 9 (by omega) b
    (by rw [hu0.params]; exact hs) (by rw [hu0.params]; exact hT) (by rw [hu0.params]; omega)
    (by rw [hu0.params]; exact ha1) (by rw [hu0.params]; exact hb1)
    (by rw [hu0.time]; omega) (by rw [hu0.time, hu0.params]; omega) (by rw [hu0.params]; exact hd)
    (by rw [hu0.params, hu0.target, hspan]; rw [hspan] at ht; exact ht)
  rw [hu0.params, hspan, hu0.time, htime] at h1
  obtain ⟨h2, h3⟩ := h1
  rw [hu0.params]
  have hsig := sendByte_signal (wrap s.params (a + turnaround s.params))
    (byteFrameValue s.params (Memory.read (s.command.data.base + (s.command.len - (m + 1))) s.mem)) 9 u
  generalize sendByte (wrap s.params (a + turnaround s.params))
    (byteFrameValue s.params (Memory.read (s.command.data.base + (s.command.len - (m + 1))) s.mem)) 9 u = r at h2 h3 hsig
  obtain ⟨_, w⟩ := r
  dsimp only at *
  subst h2
  dsimp only
  have h4 := hu0.trans (.of_ran h3)
  refine ⟨w, ?_, h3.wire.command.trans hcu, h3.wire.mem.trans hmu, h3.wire.im.trans hiu, h3.wire.result.trans hru,
    by rw [hsig], h4⟩
  rw [h3.wire.params, hu0.params]
  by_cases hb : b = bitOf s.params.ackLevel
  · rw [if_pos hb, if_pos (by rw [hb, levelOf_bitOf])]
  · rw [if_neg hb, if_neg]
    intro hc
    exact hb (by rw [← hc, bitOf_levelOf])

/-- Between the end of an ACK bit's period and the end of the next one's, the target drives as that next ACK bit (R80). -/
theorem acksLow_slot {p : Params} {d e n k t : Nat} (hs : 0 < p.tShort) (hT : 2 * p.tShort < p.tPeriod)
    (hk : k < n) (h1 : e + k * byteFrameSpan p d + p.tPeriod ≤ t + byteFrameSpan p d)
    (h2 : t < e + k * byteFrameSpan p d + p.tPeriod) :
    acksLow p (byteFrameSpan p d) e n t ↔ bitLow p (bitOf p.ackLevel) (e + k * byteFrameSpan p d) t := by
  constructor
  · rintro ⟨j, hj, h3, h4⟩
    have hl : (if bitOf p.ackLevel then p.tShort else p.tPeriod - p.tShort) < p.tPeriod := by split <;> omega
    have hq : byteFrameSpan p d = turnaround p + (10 * p.tPeriod - p.tShort) + d := rfl
    have hw := turnaround_cases p
    have : j = k := by
      refine eq_of_window (T := byteFrameSpan p d) (x := t + (byteFrameSpan p d - p.tPeriod) - e) ?_ ?_ ?_ ?_ <;> omega
    subst this
    exact ⟨h3, h4⟩
  · intro h
    exact ⟨k, hk, h⟩

/-- The payload of a command when every byte is acknowledged at the first try, under HARNESS timing (R155, R157, R158). -/
theorem payloadPhase_acked {s : State} (h : s.Harness) (hi : s.params.Ideal) {a d m : Nat} (hm : m ≤ s.command.len)
    (hlen : s.command.len ≤ s.command.data.size) (ha : s.command.ackStart = wrap s.params a)
    (htime : s.time = a + s.params.tHalf) (hd : d < s.params.timeout)
    (ht : ∀ j, j < m → ∀ t, a + j * byteFrameSpan s.params d + s.params.tPeriod ≤ t →
      t ≤ a + (j + 1) * byteFrameSpan s.params d + s.params.tHalf →
      (targetLow s.target t = true ↔
        bitLow s.params (bitOf s.params.ackLevel) (a + (j + 1) * byteFrameSpan s.params d) t)) :
    ∃ w, payloadPhase m s = rxPhase w.command.rxLen w ∧ w.mem = s.mem ∧ w.im = s.im ∧ w.result = s.result ∧
      (s.signal.mode = .input → w.signal.mode = .input) ∧
      (∃ q r, w.command = { s.command with pos := q, ackStart := r }) ∧
      Went s w (payloadWaveform s.params s.mem s.command.data (byteFrameSpan s.params d) a (s.command.len - m) m)
        (a + m * byteFrameSpan s.params d + s.params.tHalf) := by
  induction m generalizing s a with
  | zero => exact ⟨s, rfl, rfl, rfl, rfl, id, ⟨_, _, rfl⟩, by simpa [← htime, payloadWaveform] using Went.refl h⟩
  | succ m ih =>
    have hs := hi.short_pos
    have hT := hi.short_lt
    have hw := turnaround_cases s.params
    have hS := hi.setup_lt
    have hq : byteFrameSpan s.params d = turnaround s.params + (10 * s.params.tPeriod - s.params.tShort) + d := rfl
    obtain ⟨w, h1, h2, h3, h4, h5, h6, h7⟩ := payload_answer h hi (m := m) (b := bitOf s.params.ackLevel) hm hlen ha htime hd
      (by
        intro t k1 k2
        unfold frameEnd at k1 k2
        have := ht 0 (Nat.succ_pos m) t (by omega) (by omega)
        simpa using this)
    rw [if_pos rfl] at h1
    have h8 := h7.setCommand { w.command with
      pos := .payload (s.command.len - (m + 1) + 1), ackStart := wrap s.params (a + byteFrameSpan s.params d) }
    have e1 : ∀ j, a + byteFrameSpan s.params d + j * byteFrameSpan s.params d =
        a + (j + 1) * byteFrameSpan s.params d := fun j => by rw [Nat.succ_mul]; omega
    have hc8 : (w.atPayload (s.command.len - (m + 1) + 1) (wrap s.params (a + byteFrameSpan s.params d))).command =
        { s.command with
          pos := .payload (s.command.len - (m + 1) + 1)
          ackStart := wrap s.params (a + byteFrameSpan s.params d) } := by
      rw [State.atPayload_command, h2]
    obtain ⟨x, g1, g2, g3, g4, g5, ⟨q, r, g6⟩, g7⟩ := ih
      (s := w.atPayload (s.command.len - (m + 1) + 1) (wrap s.params (a + byteFrameSpan s.params d)))
      (a := a + byteFrameSpan s.params d) (h8.harness h)
      (by rw [State.atPayload_params, h7.params]; exact hi) (by rw [hc8]; dsimp only; omega)
      (by rw [hc8]; exact hlen) (by rw [hc8, State.atPayload_params, h7.params])
      (by rw [State.atPayload_params, h7.params, State.atPayload_time, h7.time])
      (by rw [State.atPayload_params, h7.params]; exact hd)
      (by
        rw [State.atPayload_params, State.atPayload_target, h7.params, h7.target]
        intro j hj t k1 k2
        rw [e1] at k1 k2 ⊢
        exact ht (j + 1) (by omega) t k1 k2)
    rw [hc8, State.atPayload_params, State.atPayload_mem, h7.params, h3] at g7
    dsimp only at g7
    refine ⟨x, h1.trans g1, ?_, ?_, ?_, ?_, ⟨q, r, ?_⟩, ?_⟩
    · rw [g2]; exact h3
    · rw [g3]; exact h4
    · rw [g4]; exact h5
    · intro _; exact g5 h6
    · rw [g6, hc8]
    · have g8 := Went.trans (u := w.atPayload (s.command.len - (m + 1) + 1)
        (wrap s.params (a + byteFrameSpan s.params d))) h8 g7
      have e2 : s.command.len - m = s.command.len - (m + 1) + 1 := by omega
      rw [e1, e2] at g8
      exact g8

/-- The command frame under HARNESS timing (R155, R157): the answer's bit decides. -/
theorem command_answer {s : State} (h : s.Harness) (hi : s.params.Ideal) {d : Nat} {b : Bool} (hd : d < s.params.timeout)
    (ht : ∀ t, frameEnd s.params 4 (s.time + s.params.tSetup) ≤ t →
      t ≤ frameEnd s.params 4 (s.time + s.params.tSetup) + d + s.params.tHalf →
      (targetLow s.target t = true ↔ bitLow s.params b (frameEnd s.params 4 (s.time + s.params.tSetup) + d) t)) :
    ∃ w, commandPhase s =
        (if b = bitOf s.params.ackLevel then
          payloadPhase s.command.len
            (w.atPayload 0 (wrap s.params (frameEnd s.params 4 (s.time + s.params.tSetup) + d)))
        else (w.failCommand .nack, .finished)) ∧
      w.command = s.command ∧ w.mem = s.mem ∧ w.im = s.im ∧ w.result = s.result ∧ w.signal.mode = .input ∧
      Went s w
        (sendByteWrites s.params (commandFrameValue s.params s.command.cmd) 4 s.time (s.time + s.params.tSetup))
        (frameEnd s.params 4 (s.time + s.params.tSetup) + d + s.params.tHalf) := by
  have hs := hi.short_pos
  have hT := hi.short_lt
  have hS := hi.setup_lt
  have hP := hi.period_lt
  unfold commandPhase
  dsimp only
  rw [h.elapse]
  have h1 := sendByte_answer h (c := s.time + s.params.tSetup) (d := d)
    (commandFrameValue s.params s.command.cmd) 4 (by omega) b hs hT (by omega) hi.half_ge hi.half_lt (by omega)
    (by omega) hd ht
  have e : plus s.params s.cc s.params.tSetup = wrap s.params (s.time + s.params.tSetup) := by rw [State.cc, plus_wrap]
  rw [e]
  obtain ⟨h2, h3⟩ := h1
  have hsig := sendByte_signal (wrap s.params (s.time + s.params.tSetup))
    (commandFrameValue s.params s.command.cmd) 4 s
  generalize sendByte (wrap s.params (s.time + s.params.tSetup)) (commandFrameValue s.params s.command.cmd) 4 s = r
    at h2 h3 hsig
  obtain ⟨_, w⟩ := r
  dsimp only at *
  subst h2
  dsimp only
  refine ⟨w, ?_, h3.wire.command, h3.wire.mem, h3.wire.im, h3.wire.result, by rw [hsig], .of_ran h3⟩
  rw [h3.wire.params, h3.wire.command]
  by_cases hb : b = bitOf s.params.ackLevel
  · rw [if_pos hb, if_pos (by rw [hb, levelOf_bitOf])]
  · rw [if_neg hb, if_neg]
    intro hc
    exact hb (by rw [← hc, bitOf_levelOf])

/-- The end of a command under HARNESS timing. -/
theorem endCommand_went {s u : State} {l : List Event} {n : Nat} (h : s.Harness) (g : Went s u l n) (r : Reply) :
    Went s (u.endCommand r)
      (l ++ (match u.command.saved with
        | some im => [{ cycle := n, action := .irqRestore im }]
        | none => [])) n := by
  unfold State.endCommand State.exit
  cases u.command.saved with
  | none => simpa using (g.reply r).setCommand {}
  | some im =>
    have h1 := leaveCritical_went im (g.harness h)
    rw [g.time] at h1
    exact ((g.trans h1).reply r).setCommand {}

theorem framesLow_slot {p : Params} {d f k t : Nat} {vs : List Byte} {v : Byte} (hs : 0 < p.tShort)
    (hT : 2 * p.tShort < p.tPeriod) (hk : vs[k]? = some v)
    (h1 : f + k * byteFrameSpan p d ≤ t + (p.tPeriod - p.tShort + d))
    (h2 : t < f + k * byteFrameSpan p d + 10 * p.tPeriod) :
    framesLow p (byteFrameSpan p d) f vs t ↔
      bitsLow p (targetFrame p v (byteParity v)) (f + k * byteFrameSpan p d) t := by
  constructor
  · rintro ⟨j, w, hj, i, b, hb, h3, h4⟩
    have hi : i < 10 := by
      have := (List.getElem?_eq_some_iff.1 hb).1
      simpa [targetFrame, byteBits] using this
    have hl : (if b then p.tShort else p.tPeriod - p.tShort) < p.tPeriod := by split <;> omega
    have hq : byteFrameSpan p d = turnaround p + (10 * p.tPeriod - p.tShort) + d := rfl
    have hw := turnaround_cases p
    have h5 : i * p.tPeriod ≤ 9 * p.tPeriod := Nat.mul_le_mul_right _ (by omega)
    have : j = k := by
      refine eq_of_window (T := byteFrameSpan p d) (x := t + (p.tPeriod - p.tShort + d) - f) ?_ ?_ ?_ ?_ <;> omega
    subst this
    rw [hk] at hj
    cases hj
    exact ⟨i, b, hb, h3, h4⟩
  · intro h
    exact ⟨k, v, hk, h⟩

theorem bitsLow_end {p : Params} {bits : List Bool} {f t : Nat} (hs : 0 < p.tShort) (hT : 2 * p.tShort < p.tPeriod)
    (h : bitsLow p bits f t) : f ≤ t ∧ t < f + bits.length * p.tPeriod := by
  obtain ⟨i, b, hb, h3, h4⟩ := h
  have hi := (List.getElem?_eq_some_iff.1 hb).1
  have hl : (if b then p.tShort else p.tPeriod - p.tShort) < p.tPeriod := by split <;> omega
  have h5 : (i + 1) * p.tPeriod ≤ bits.length * p.tPeriod := Nat.mul_le_mul_right _ (by omega)
  rw [Nat.succ_mul] at h5
  omega

/-- Between the first frame and the second the target does not drive. -/
theorem framesLow_gap {p : Params} {d f t : Nat} {vs : List Byte} (hs : 0 < p.tShort) (hT : 2 * p.tShort < p.tPeriod)
    (h1 : f + 10 * p.tPeriod ≤ t) (h2 : t < f + byteFrameSpan p d) : ¬ framesLow p (byteFrameSpan p d) f vs t := by
  rintro ⟨j, w, hj, hb⟩
  have h3 := bitsLow_end hs hT hb
  have hw := turnaround_cases p
  have hq : byteFrameSpan p d = turnaround p + (10 * p.tPeriod - p.tShort) + d := rfl
  have hl : (targetFrame p w (byteParity w)).length = 10 := rfl
  rw [hl] at h3
  cases j with
  | zero => omega
  | succ j => rw [Nat.succ_mul] at h3; omega

/-- From the second frame on the first is over. -/
theorem framesLow_tail {p : Params} {d f t : Nat} {v : Byte} {vs : List Byte} (hs : 0 < p.tShort)
    (hT : 2 * p.tShort < p.tPeriod) (h1 : f + byteFrameSpan p d ≤ t) :
    framesLow p (byteFrameSpan p d) f (v :: vs) t ↔ framesLow p (byteFrameSpan p d) (f + byteFrameSpan p d) vs t := by
  have hq : byteFrameSpan p d = turnaround p + (10 * p.tPeriod - p.tShort) + d := rfl
  have hw := turnaround_cases p
  have e : ∀ j, f + (j + 1) * byteFrameSpan p d = f + byteFrameSpan p d + j * byteFrameSpan p d := fun j => by
    rw [Nat.succ_mul]; omega
  constructor
  · rintro ⟨j, w, hj, hb⟩
    cases j with
    | zero =>
      have h3 := bitsLow_end hs hT hb
      have hl : (targetFrame p w (byteParity w)).length = 10 := rfl
      rw [hl] at h3
      omega
    | succ j => rw [e] at hb; exact ⟨j, w, by simpa using hj, hb⟩
  · rintro ⟨j, w, hj, hb⟩
    exact ⟨j + 1, w, by simpa using hj, by rw [e]; exact hb⟩

/-- Receptions of a read under HARNESS timing, m more to come (R146, R159): every byte is stored, every frame acknowledged. -/
theorem rxPhase_received {s : State} (h : s.Harness) (hi : s.params.Ideal) {f d m : Nat} {vs : List Byte}
    (hsig : s.signal.mode = .input)
    (hr : m + vs.length ≤ s.command.rxLen) (hdest : s.command.rxLen ≤ s.command.dest.size + m) (hle : s.time ≤ f)
    (hlt : f < s.time + s.params.timeout) (hd : d < s.params.timeout)
    (hno : ∀ t, s.time ≤ t → t < f → targetLow s.target t = false)
    (ht : ∀ t, f ≤ t → t < f + vs.length * byteFrameSpan s.params d →
      (targetLow s.target t = true ↔ framesLow s.params (byteFrameSpan s.params d) f vs t)) :
    ∃ w l, rxPhase (m + vs.length) s = rxPhase m w ∧ w.im = s.im ∧ (∃ p, w.command = { s.command with pos := p }) ∧
      w.signal.mode = .input ∧
      (Memory.wf s.mem → Stored s.mem w.mem (s.command.dest.base + (s.command.rxLen - (m + vs.length))) vs) ∧
      l = acksWaveform s.params (byteFrameSpan s.params d) f vs.length ∧
      Went s w l (if vs = [] then s.time else
        f + vs.length * byteFrameSpan s.params d - d) := by
  induction vs generalizing s f with
  | nil =>
    refine ⟨s, _, rfl, rfl, ⟨_, rfl⟩, hsig, fun _ => .nil _ _, rfl, by simpa [acksWaveform] using Went.refl h⟩
  | cons v vs ih =>
    have hs := hi.short_pos
    have hT := hi.short_lt
    have hw := turnaround_cases s.params
    have hS := hi.setup_lt
    have hP := hi.period_lt
    have hq : byteFrameSpan s.params d = turnaround s.params + (10 * s.params.tPeriod - s.params.tShort) + d := rfl
    rw [List.length_cons] at hr ht ⊢
    generalize hX : rxPhase (m + vs.length + 1) s = X
    unfold rxPhase at hX
    dsimp only at hX
    have hu0 : Went s (s.atRx (s.command.rxLen - (m + vs.length + 1))) [] s.time := (Went.refl h).setCommand _
    rw [(hu0.harness h).elapse] at hX
    have hcu : (s.atRx (s.command.rxLen - (m + vs.length + 1))).command =
        { s.command with pos := .rx (s.command.rxLen - (m + vs.length + 1)) } := rfl
    have hmu : (s.atRx (s.command.rxLen - (m + vs.length + 1))).mem = s.mem := rfl
    have hiu : (s.atRx (s.command.rxLen - (m + vs.length + 1))).im = s.im := rfl
    have hsu : (s.atRx (s.command.rxLen - (m + vs.length + 1))).signal = s.signal := rfl
    generalize s.atRx (s.command.rxLen - (m + vs.length + 1)) = u at hu0 hcu hmu hiu hsu hX
    have e1 : (vs.length + 1) * byteFrameSpan s.params d =
        vs.length * byteFrameSpan s.params d + byteFrameSpan s.params d := Nat.succ_mul _ _
    have hsends : Sends u.target u.params f (targetFrame u.params v (byteParity v)) := by
      rw [hu0.params, hu0.target]
      refine sends_of_bitsLow hs hT hi.half_ge hi.half_lt hi.rx_ge ?_
      intro t k1 k2
      have hl : (targetFrame s.params v (byteParity v)).length = 10 := rfl
      rw [hl] at k2
      rw [ht t k1 (by omega), framesLow_slot (k := 0) (v := v) hs hT rfl (by omega) (by omega)]
      simp
    obtain ⟨h1, h2⟩ := receiveByte_found (hu0.harness h) (f := f) (v := v) (q := byteParity v)
      (by rw [hu0.params]; exact hi) (by rw [hsu]; simp [Pin.pulls, hsig])
      (by rw [hu0.time]; exact hle) (by rw [hu0.time, hu0.params]; exact hlt)
      (by rw [hu0.time, hu0.target]; exact hno) hsends
    have hsr := receiveByte_mode u (by rw [hsu]; exact hsig)
    rw [hu0.params] at h2
    generalize receiveByte u = r at h1 h2 hX hsr
    obtain ⟨_, w⟩ := r
    dsimp only at *
    rw [Bool.xor_self] at h1 h2
    subst h1
    rw [if_neg (by simp)] at hX
    dsimp only at hX
    have hcw : w.command = { s.command with pos := .rx (s.command.rxLen - (m + vs.length + 1)) } := h2.wire.command.trans hcu
    have hmw : w.mem = s.mem := h2.wire.mem.trans hmu
    rw [hcw, hmw] at hX
    dsimp only at hX
    rw [writeBuffer_of_lt (by omega)] at hX
    dsimp only at hX
    have h3 := (hu0.trans (.of_ran h2)).setMem
      (Memory.write (s.command.dest.base + (s.command.rxLen - (m + vs.length + 1))) v s.mem)
    have hsw : (w.setMem (Memory.write (s.command.dest.base + (s.command.rxLen - (m + vs.length + 1))) v s.mem)).signal.mode =
        .input := hsr
    have hcx : (w.setMem (Memory.write (s.command.dest.base + (s.command.rxLen - (m + vs.length + 1))) v s.mem)).command =
        { s.command with pos := .rx (s.command.rxLen - (m + vs.length + 1)) } := hcw
    have hix : (w.setMem (Memory.write (s.command.dest.base + (s.command.rxLen - (m + vs.length + 1))) v s.mem)).im = s.im :=
      h2.wire.im.trans hiu
    have hmx : (w.setMem (Memory.write (s.command.dest.base + (s.command.rxLen - (m + vs.length + 1))) v s.mem)).mem =
        Memory.write (s.command.dest.base + (s.command.rxLen - (m + vs.length + 1))) v s.mem := rfl
    generalize w.setMem (Memory.write (s.command.dest.base + (s.command.rxLen - (m + vs.length + 1))) v s.mem) = x
      at h3 hsw hcx hix hmx hX
    have hgap : f + 9 * s.params.tPeriod + turnaround s.params + (s.params.tPeriod - s.params.tShort) + d =
        f + byteFrameSpan s.params d := by
      omega
    obtain ⟨y, l, g1, g2, ⟨p, g3⟩, g0, g4, g5, g6⟩ := ih (s := x) (f := f + byteFrameSpan s.params d) (h3.harness h)
      (by rw [h3.params]; exact hi) hsw (by rw [hcx]; dsimp only; omega) (by rw [hcx]; exact hdest)
      (by rw [h3.time]; omega) (by rw [h3.time, h3.params]; omega) (by rw [h3.params]; exact hd)
      (by
        rw [h3.time, h3.target]
        intro t k1 k2
        rw [Bool.eq_false_iff]
        intro hc
        exact framesLow_gap hs hT (by omega) (by omega) ((ht t (by omega) (by omega)).1 hc))
      (by
        rw [h3.target, h3.params]
        intro t k1 k2
        rw [ht t (by omega) (by omega)]
        exact framesLow_tail hs hT k1)
    refine ⟨y, _, by rw [← g1, ← hX], g2.trans hix, ⟨p, by rw [g3, hcx]⟩, g0, ?_, rfl, ?_⟩
    · intro hwf
      have g7 := g4 (by rw [hmx]; exact Memory.write_wf hwf)
      rw [hmx, hcx] at g7
      dsimp only at g7
      have e2 : s.command.rxLen - (m + vs.length) = s.command.rxLen - (m + vs.length + 1) + 1 := by omega
      rw [e2, ← Nat.add_assoc] at g7
      exact .cons hwf g7
    · have g8 := h3.trans g6
      rw [g5, h3.params] at g8
      rw [acksWaveform]
      have e3 : (if vs = [] then x.time else
          f + byteFrameSpan s.params d + vs.length * byteFrameSpan s.params d - d) =
          if v :: vs = [] then s.time else f + (vs.length + 1) * byteFrameSpan s.params d - d := by
        rw [if_neg (List.cons_ne_nil v vs)]
        by_cases hv : vs = []
        · rw [if_pos hv, hv, h3.time]; simp; omega
        · rw [if_neg hv]; omega
      rw [e3] at g8
      have e4 : ackBit s.params false = bitOf s.params.ackLevel := by simp [ackBit]
      simpa using g8

/-- A reception of a read under HARNESS timing whose byte does not fit `dest` (R232). -/
theorem rxPhase_past {s : State} (h : s.Harness) (hi : s.params.Ideal) {f m : Nat} {v : Byte} (hsig : s.signal.mode = .input)
    (hdest : s.command.dest.size ≤ s.command.rxLen - (m + 1)) (hle : s.time ≤ f) (hlt : f < s.time + s.params.timeout)
    (hno : ∀ t, s.time ≤ t → t < f → targetLow s.target t = false)
    (hsends : Sends s.target s.params f (targetFrame s.params v (byteParity v))) :
    (rxPhase (m + 1) s).2 = .stuck .writePastBuffer := by
  unfold rxPhase
  dsimp only
  have hu : (s.atRx (s.command.rxLen - (m + 1))).Harness := ⟨h.timing, h.rise, h.pollMin⟩
  rw [hu.elapse]
  obtain ⟨g1, g2⟩ := receiveByte_found hu (f := f) (v := v) (q := byteParity v) hi (by simp [Pin.pulls, hsig]) hle hlt hno hsends
  rw [Bool.xor_self, if_neg (by simp)] at g1
  have hd : (receiveByte (s.atRx (s.command.rxLen - (m + 1)))).2.command.dest = s.command.dest := by
    rw [g2.wire.command]; rfl
  rw [g1, hd]
  dsimp only
  rw [writeBuffer, if_neg (by omega)]

theorem bitsLow_ge {p : Params} {bits : List Bool} {f t : Nat} (h : bitsLow p bits f t) : f ≤ t := by
  obtain ⟨k, b, -, h2, -⟩ := h
  omega

theorem framesLow_ge {p : Params} {span f t : Nat} {vs : List Byte} (h : framesLow p span f vs t) : f ≤ t := by
  obtain ⟨j, v, -, h⟩ := h
  have := bitsLow_ge h
  omega

theorem enterCritical_went {s : State} (h : s.Harness) :
    Went s s.enterCritical [{ cycle := s.time, action := .irqMask }] s.time := by
  rw [State.enterCritical, h.elapse]
  exact mask_went h

/-- A read in a `ReadScenario` goes on to its first reception (R159): the five host frames are acknowledged, and from there on the
target drives as its frames alone. -/
theorem ReadScenario.receptions {s u : State} {D : Buffer} {vs : List Byte} {d gap f : Nat} (h : ReadScenario s D vs d gap f)
    (c : CommandRegs) (hclen : c.len = 4) (hcdata : c.data = D) (huH : u.Harness) (hup : u.params = s.params)
    (hut : u.target = s.target) (hutime : u.time = s.time) (hum : u.mem = s.mem) (huc : u.command = c) :
    ∃ y, commandPhase u = rxPhase c.rxLen y ∧ y.Harness ∧ y.params = s.params ∧ y.target = s.target ∧ y.mem = s.mem ∧
      y.signal.mode = .input ∧ (∃ q r, y.command = { c with pos := q, ackStart := r }) ∧ y.time < f ∧
      f < y.time + s.params.timeout ∧
      ∀ t, y.time ≤ t → t < f + vs.length * byteFrameSpan s.params gap →
        (targetLow s.target t = true ↔ framesLow s.params (byteFrameSpan s.params gap) f vs t) := by
  obtain ⟨hH, hI, hack, hD, hd, -, hf1, hf2, ht⟩ := h
  have hI' : u.params.Ideal := hup ▸ hI
  generalize hE : frameEnd s.params 4 (s.time + s.params.tSetup) = E at *
  have hT := hI.period_lt
  have hSP := hI.short_lt
  have hS0 := hI.short_pos
  have hhalf : s.params.tHalf < s.params.tPeriod := by have := hI.half_lt; omega
  have hhalf2 : s.params.tShort ≤ s.params.tHalf := hI.half_ge
  have hw := turnaround_cases s.params
  have hsp : byteFrameSpan s.params d + s.params.tShort = turnaround s.params + 10 * s.params.tPeriod + d := by
    unfold byteFrameSpan; omega
  have hslot : ∀ k, k < 5 → ∀ t, E + d + k * byteFrameSpan s.params d + s.params.tPeriod ≤ t + byteFrameSpan s.params d →
     t < E + d + k * byteFrameSpan s.params d + s.params.tPeriod → E ≤ t → t < f →
     (targetLow s.target t = true ↔ bitLow s.params (bitOf s.params.ackLevel) (E + d + k * byteFrameSpan s.params d) t) := by
    intro k hk t h1 h2 h3 h4
    rw [ht t h3 (by omega), ← acksLow_slot hS0 hSP hk h1 h2]
    constructor
    · rintro (h | h)
      · exact h
      · have := framesLow_ge h; omega
    · exact .inl
  obtain ⟨w, hw1, hw2, hw3, -, -, hw6, hw7⟩ := command_answer (b := bitOf s.params.ackLevel) (d := d) huH hI' (hup ▸ hd) (by
    rw [hup, hut, hutime, hE]
    intro t h1 h2
    have := hslot 0 (by omega) t (by omega) (by omega) h1 (by omega)
    simpa using this)
  rw [hup, if_pos rfl, hutime, hE] at hw1
  rw [huc, hclen] at hw1
  rw [hup, hutime, hE] at hw7
  have hwH := hw7.harness huH
  have hwp : w.params = s.params := hw7.params.trans hup
  have hwt : w.target = s.target := hw7.target.trans hut
  generalize hx : w.atPayload 0 (wrap s.params (E + d)) = x at hw1
  have hxH : x.Harness := by subst hx; exact ⟨hwH.timing, hwH.rise, hwH.pollMin⟩
  have hxp : x.params = s.params := by subst hx; exact hwp
  have hxt : x.target = s.target := by subst hx; exact hwt
  have hxtime : x.time = E + d + s.params.tHalf := by subst hx; exact hw7.time
  have hxm : x.mem = s.mem := by subst hx; exact hw3.trans hum
  have hxsig : x.signal.mode = .input := by subst hx; exact hw6
  have hxc : x.command = { c with pos := .payload 0, ackStart := wrap s.params (E + d) } := by
    subst hx; rw [State.atPayload_command, hw2, huc]
  have hxlen : x.command.len = 4 := by rw [hxc]; exact hclen
  have hxdata : x.command.data = D := by rw [hxc]; exact hcdata
  have hxa : x.command.ackStart = wrap s.params (E + d) := by rw [hxc]
  obtain ⟨y, hy1, hy2, -, -, hy5, ⟨q, r, hy6⟩, hy7⟩ := payloadPhase_acked (a := E + d) (d := d) (m := 4) hxH (hxp ▸ hI)
    (by omega)
    (by rw [hxlen, hxdata]; exact hD) (by rw [hxp]; exact hxa) (by rw [hxtime, hxp]) (by rw [hxp]; exact hd) (by
      rw [hxp, hxt]
      intro j hj t h1 h2
      have e1 := Nat.add_one_mul j (byteFrameSpan s.params d)
      have e2 : (j + 1) * byteFrameSpan s.params d ≤ 4 * byteFrameSpan s.params d := Nat.mul_le_mul_right _ (by omega)
      exact hslot (j + 1) (by omega) t (by omega) (by omega) (by omega) (by omega))
  rw [hxp] at hy7
  have hytime := hy7.time
  have hnoack : ∀ t, E + d + 4 * byteFrameSpan s.params d + s.params.tHalf ≤ t →
      ¬acksLow s.params (byteFrameSpan s.params d) (E + d) 5 t := by
    rintro t h1 ⟨j, hj, h2, h3⟩
    rw [hack] at h3
    simp only [bitOf, beq_self_eq_true, if_true] at h3
    have : j * byteFrameSpan s.params d ≤ 4 * byteFrameSpan s.params d := Nat.mul_le_mul_right _ (by omega)
    omega
  have hyc : y.command = { c with pos := q, ackStart := r } := by rw [hy6, hxc]
  refine ⟨y, ?_, hy7.harness hxH, hy7.params.trans hxp, hy7.target.trans hxt, hy2.trans hxm, hy5 hxsig,
    ⟨q, r, hyc⟩, by rw [hytime]; omega, by rw [hytime]; omega, ?_⟩
  · rw [hw1, hy1, hyc]
  · rw [hytime]
    intro t h1 h2
    rw [ht t (by omega) h2]
    constructor
    · rintro (h | h)
      · exact absurd h (hnoack t (by omega))
      · exact h
    · exact .inr

end Sys2Proof.Machine
end

