-- ==== Sys2Proof/Laws/Decode.lean ====
section
/-!
SUPPORT. Laws/Decode.lean: each operand that is written into a call message is read back.
-/

namespace Sys2Proof

theorem takeByte_cons (a : Byte) (m : List Byte) : takeByte (a :: m) = .ok (a, m) := rfl

theorem takeWord_putWord (w : BitVec 32) (m : List Byte) : takeWord (putWord w ++ m) = .ok (w, m) := by
  have h : w.extractLsb' 24 8 ++ w.extractLsb' 16 8 ++ w.extractLsb' 8 8 ++ w.extractLsb' 0 8 = w := by
    apply BitVec.eq_of_getLsbD_eq
    intro i hi
    simp only [BitVec.getLsbD_append, BitVec.getLsbD_extractLsb']
    split <;> rename_i h1
    · simp [h1]
    · split <;> rename_i h2
      · simp [h2]; congr 1; omega
      · split <;> rename_i h3
        · simp [h3]; congr 1; omega
        · have : i - 8 - 8 - 8 < 8 := by omega
          simp [this]; congr 1; omega
  simp only [putWord, List.cons_append, List.nil_append, takeWord]
  rw [h]

/-- Bytes put side by side, as a number. -/
theorem toNat_append_byte {w : Nat} (x : BitVec w) (y : Byte) : (x ++ y).toNat = x.toNat * 256 + y.toNat := by
  rw [BitVec.toNat_append, ← Nat.shiftLeft_add_eq_or_of_lt y.isLt, Nat.shiftLeft_eq]

/-- Eight bytes as a cycle. -/
theorem takeCycle_bytes (a b c d e f g h : Byte) (m : List Byte) :
    takeCycle (a :: b :: c :: d :: e :: f :: g :: h :: m) =
      .ok (((((((a.toNat * 256 + b.toNat) * 256 + c.toNat) * 256 + d.toNat) * 256 + e.toNat) * 256 + f.toNat) * 256 +
        g.toNat) * 256 + h.toNat, m) := by
  simp only [takeCycle, toNat_append_byte]

/-- A cycle as eight bytes. -/
theorem putCycle_bytes (n : Nat) :
    putCycle n = [BitVec.ofNat 8 (n / 2 ^ 56), BitVec.ofNat 8 (n / 2 ^ 48), BitVec.ofNat 8 (n / 2 ^ 40),
      BitVec.ofNat 8 (n / 2 ^ 32), BitVec.ofNat 8 (n / 2 ^ 24), BitVec.ofNat 8 (n / 2 ^ 16), BitVec.ofNat 8 (n / 2 ^ 8),
      BitVec.ofNat 8 (n / 2 ^ 0)] := rfl

theorem takeCycle_putCycle {c : Nat} (h : cycleOk c = true) (m : List Byte) : takeCycle (putCycle c ++ m) = .ok (c, m) := by
  have hc : c < 2 ^ 64 := by simpa [cycleOk] using h
  have e : ((((((c / 2 ^ 56 % 256 * 256 + c / 2 ^ 48 % 256) * 256 + c / 2 ^ 40 % 256) * 256 + c / 2 ^ 32 % 256) * 256 +
      c / 2 ^ 24 % 256) * 256 + c / 2 ^ 16 % 256) * 256 + c / 2 ^ 8 % 256) * 256 + c / 2 ^ 0 % 256 = c := by omega
  simp only [putCycle_bytes, List.cons_append, List.nil_append, takeCycle_bytes, BitVec.toNat_ofNat]
  exact congrArg (fun n : Nat => Except.ok (n, m)) e

theorem takeHalf_putHalf (w : BitVec 16) (m : List Byte) : takeHalf (putHalf w ++ m) = .ok (w, m) := by
  have h : w.extractLsb' 8 8 ++ w.extractLsb' 0 8 = w := by
    apply BitVec.eq_of_getLsbD_eq
    intro i hi
    simp only [BitVec.getLsbD_append, BitVec.getLsbD_extractLsb']
    split <;> rename_i h1
    · simp [h1]
    · have : i - 8 < 8 := by omega
      simp [this]; congr 1; omega
  simp only [putHalf, List.cons_append, List.nil_append, takeHalf]
  rw [h]

theorem takeFlag_putFlag (b : Bool) (m : List Byte) : takeFlag (putFlag b ++ m) = .ok (b, m) := by
  cases b <;> rfl

theorem takeMask_putMask (s : IrqMask) (m : List Byte) : takeMask (putMask s ++ m) = .ok (s, m) := by
  cases s <;> rfl

theorem takeBuffer_putBuffer {b : Buffer} (h : b.wellFormed = true) (m : List Byte) :
    takeBuffer (putBuffer b ++ m) = .ok (b, m) := by
  have h' := h
  simp only [Buffer.wellFormed, Bool.and_eq_true, decide_eq_true_eq] at h'
  have e1 : (BitVec.ofNat 32 b.base).toNat = b.base := Nat.mod_eq_of_lt h'.1.1
  have e2 : (BitVec.ofNat 32 b.size - 4#32 + 4#32).toNat = b.size := by
    rw [BitVec.sub_add_cancel]; exact Nat.mod_eq_of_lt h'.1.2
  simp only [putBuffer, List.append_assoc, takeBuffer, takeWord_putWord, e1, e2, h, if_true]

theorem takeCommandId_cons {cmd : Byte} (h : commandIdOk cmd = true) (m : List Byte) :
    takeCommandId (cmd :: m) = .ok (cmd, m) := by
  simp [takeCommandId, takeByte, h]

theorem takeFrameLength_cons {n : Nat} (h : frameLengthOk n = true) (m : List Byte) :
    takeFrameLength (BitVec.ofNat 8 (n - 4) :: m) = .ok (n, m) := by
  have : n = 4 ∨ n = 9 := by simpa [frameLengthOk] using h
  rcases this with rfl | rfl <;> rfl

/-- Reading a buffer gives a well-formed one. -/
theorem takeBuffer_wellFormed {m rest : List Byte} {b : Buffer} (h : takeBuffer m = .ok (b, rest)) :
    b.wellFormed = true := by
  unfold takeBuffer at h
  split at h
  · split at h
    · dsimp only at h
      split at h
      · cases h; assumption
      · cases h
    · cases h
  · cases h

end Sys2Proof
end

