-- ==== Sys2Proof/Laws/PerInstr.lean ====
section
/-!
SUPPORT. Laws/PerInstr.lean: statements about every operation as syntax, one lemma per constructor of `Instr`.
-/

namespace Sys2Proof.Laws.MessageLength

open Sys2Proof

/-- The message of a well-formed operation is no longer than the longest message, so that `tableMessage` holds it whole. -/
def Statement (i : Instr) : Prop := i.wellFormed = true → (encode i).length ≤ longestMessage

theorem init : Statement (.init) := fun _ => Nat.le_of_ble_eq_true rfl

theorem reset (mode : Byte) : Statement (.reset mode) := fun _ => Nat.le_of_ble_eq_true rfl

theorem swimEntry : Statement (.swimEntry) := fun _ => Nat.le_of_ble_eq_true rfl

theorem srst : Statement (.srst) := fun _ => Nat.le_of_ble_eq_true rfl

theorem rotf (d dest : Buffer) : Statement (.rotf d dest) := fun _ => Nat.le_of_ble_eq_true rfl

theorem wotf (data : Buffer) : Statement (.wotf data) := fun _ => Nat.le_of_ble_eq_true rfl

theorem sendCommand (cmd : Byte) (len : Nat) (data : Buffer) : Statement (.sendCommand cmd len data) :=
  fun _ => Nat.le_of_ble_eq_true rfl

theorem now : Statement (.now) := fun _ => Nat.le_of_ble_eq_true rfl

theorem waitUntil (c : Cycle) : Statement (.waitUntil c) := fun _ => Nat.le_of_ble_eq_true rfl

theorem enterCritical : Statement (.enterCritical) := fun _ => Nat.le_of_ble_eq_true rfl

theorem leaveCritical (saved : IrqMask) : Statement (.leaveCritical saved) := fun _ => Nat.le_of_ble_eq_true rfl

theorem sendBit (start : Cycle) (prevZero b : Bool) : Statement (.sendBit start prevZero b) := fun _ => Nat.le_of_ble_eq_true rfl

theorem finishFrame (last : Cycle) : Statement (.finishFrame last) := fun _ => Nat.le_of_ble_eq_true rfl

theorem receiveBit : Statement (.receiveBit) := fun _ => Nat.le_of_ble_eq_true rfl

theorem sendByte (cursor : Cycle) (v : BitVec 16) (n : Nat) : Statement (.sendByte cursor v n) := fun _ => Nat.le_of_ble_eq_true rfl

theorem receiveByte : Statement (.receiveByte) := fun _ => Nat.le_of_ble_eq_true rfl

theorem wireSrst : Statement (.wireSrst) := fun _ => Nat.le_of_ble_eq_true rfl

theorem wireRotf (d dest : Buffer) : Statement (.wireRotf d dest) := fun _ => Nat.le_of_ble_eq_true rfl

theorem wireWotf (data : Buffer) : Statement (.wireWotf data) := fun _ => Nat.le_of_ble_eq_true rfl

end Sys2Proof.Laws.MessageLength
end

