-- ==== Sys2Proof/Machine/Text.lean ====
section
/-!
DEFINITION. Text.lean: the call syntax of R97 (D41): an operation and its result as one line of a program.
-/

namespace Sys2Proof.Machine

open Sys2Proof

/-- A hexadecimal digit. -/
def hexDigit (n : Nat) : String :=
  ["0", "1", "2", "3", "4", "5", "6", "7", "8", "9", "A", "B", "C", "D", "E", "F"].getD n ""

/-- A byte as R97 writes numbers: `0x` and its hexadecimal digits. -/
def hexByte (b : Byte) : String := "0x" ++ hexDigit (b.toNat / 16) ++ hexDigit (b.toNat % 16)

/-- A list is a byte buffer (R97): its first n bytes. -/
def bufferText (b : Buffer) (n : Nat) (m : Memory) : String :=
  "[" ++ ", ".intercalate ((List.range n).map fun i => hexByte (Memory.read (b.base + i) m)) ++ "]"

/-- A saved interrupt-mask state (R37). -/
def maskText : IrqMask → String
  | .unmasked => "UNMASKED"
  | .masked => "MASKED"

/-- A level (R14). -/
def levelText : Level → String
  | .low => "LOW"
  | .high => "HIGH"

/-- The operands of a call, in parentheses. -/
def callOf (name : String) (operands : List String) : String := name ++ "(" ++ ", ".intercalate operands ++ ")"

/-- The line of an operation (R97), with the bytes its buffers hold; an output buffer is named `dest`. The wire commands are no
calls and have no line. -/
def callText (m : Memory) : Instr → Option String
  | .init => some (callOf "init" [])
  | .reset mode => some (callOf "reset" [hexByte mode])
  | .swimEntry => some (callOf "swim_entry" [])
  | .srst => some (callOf "srst" [])
  | .rotf lenAndAddr _ => some (callOf "rotf" [bufferText lenAndAddr 4 m, "dest"])
  | .wotf data => some (callOf "wotf" [bufferText data (4 + (Memory.read data.base m).toNat) m])
  | .sendCommand cmd len data => some (callOf "send_command" [hexByte cmd, toString len, bufferText data len m])
  | .now => some (callOf "now" [])
  | .waitUntil target => some (callOf "wait_until" [toString target])
  | .enterCritical => some (callOf "enter_critical" [])
  | .leaveCritical saved => some (callOf "leave_critical" [maskText saved])
  | .sendBit start prevZero b =>
    some (callOf "send_bit" [toString start, toString prevZero, if b then "1" else "0"])
  | .finishFrame lastStart => some (callOf "finish_frame" [toString lastStart])
  | .receiveBit => some (callOf "receive_bit" ["out_start"])
  | .sendByte cursor data n => some (callOf "send_byte" [toString cursor, toString data.toNat, toString n])
  | .receiveByte => some (callOf "receive_byte" [])
  | .wireSrst => none
  | .wireRotf _ _ => none
  | .wireWotf _ => none

/-- An error by its kind (R197), a byte timeout with its bit index (R96). -/
def errorText : Error → String
  | .readBitTimeout => "ReadBitTimeout"
  | .rxByteTimeout i => callOf "RxByteTimeout" [toString i.val]
  | .invalidTargetId => "InvalidTargetId"
  | .parityError => "ParityError"
  | .nack => "Nack"
  | .syncTimeout1 => "SyncTimeout1"
  | .syncTimeout2 => "SyncTimeout2"

/-- What follows a line after an arrow (R97): the result, where the operation has one. -/
def replyText : Reply → String
  | .none => ""
  | .ok => " -> Ok(0)"
  | .duration cycles => " -> " ++ callOf "Ok" [toString cycles]
  | .byte v => " -> " ++ callOf "Ok" [hexByte v]
  | .bit level start => " -> " ++ callOf "Ok" [levelText level, toString start]
  | .cycle c => " -> " ++ toString c
  | .saved im => " -> " ++ maskText im
  | .error e => " -> " ++ callOf "Err" [errorText e]

end Sys2Proof.Machine
end

