-- ==== Sys2Proof/Tests/Slice0.lean ====
section
/-!
SUPPORT. Tests/Slice0.lean: checks on fixed values. A name V-… or P… in a comment is a vector of 95_test_vectors.md, worked out
there from the rules; the other expected values are worked out by hand from the rules named.
-/

namespace Sys2Proof.Tests

-- One proof after another: side by side, each would hold a thread of its own while it waits for the kernel.
set_option Elab.async false

open Sys2Proof Sys2Proof.Machine

/-! ### Well-formed operations -/

/-- R94: an id of 8 or more has no meaning. -/
theorem test_wf_commandId : (Instr.sendCommand 8#8 0 { base := 0, size := 0 }).wellFormed = false := by decide
theorem test_wf_payloadLength : (Instr.sendCommand 0#8 (2 ^ 32) { base := 0, size := 0 }).wellFormed = false := by decide
theorem test_wf_payloadBuffer : (Instr.sendCommand 0#8 0 { base := 0, size := 2 ^ 32 }).wellFormed = false := by decide
/-- R91: a frame has 4 or 9 bits. -/
theorem test_wf_frameLength : (Instr.sendByte 0 0#16 5).wellFormed = false := by decide
theorem test_wf_base : (Instr.wotf { base := 2 ^ 32, size := 0 }).wellFormed = false := by decide
theorem test_wf_size : (Instr.wireWotf { base := 0, size := 2 ^ 32 }).wellFormed = false := by decide
theorem test_wf_end : (Instr.rotf { base := 0, size := 4 } { base := 2 ^ 32 - 1, size := 2 }).wellFormed = false := by
  decide
theorem test_wf_descriptor : (Instr.wireRotf { base := 2 ^ 32 - 1, size := 4 } { base := 0, size := 0 }).wellFormed = false := by
  decide
theorem test_wf_dest : (Instr.wireRotf { base := 0, size := 4 } { base := 2 ^ 32, size := 0 }).wellFormed = false := by decide
/-- The largest buffer there is. -/
theorem test_wf_whole : (Instr.wotf { base := 0, size := 2 ^ 32 - 1 }).wellFormed = true := by decide

/-! ### Decoding: a message written out for every operation (selectors: R93; operands: log 12) -/

theorem test_decode_init : decode [0x00#8] = .ok (.init, []) := by decide
theorem test_decode_reset : decode [0x01#8, 0x80#8] = .ok (.reset 0x80#8, []) := by decide
theorem test_decode_swimEntry : decode [0x02#8] = .ok (.swimEntry, []) := by decide
theorem test_decode_srst : decode [0x03#8, 0xAA#8] = .ok (.srst, [0xAA#8]) := by decide
theorem test_decode_rotf :
    decode [0x04#8, 0#8, 1#8, 2#8, 3#8, 0#8, 0#8, 0#8, 0#8, 0#8, 0#8, 0x10#8, 0#8, 0#8, 0#8, 0#8, 0xFB#8] =
      .ok (.rotf { base := 0x10203, size := 4 } { base := 0x1000, size := 0xFF }, []) := by decide
theorem test_decode_wotf :
    decode [0x05#8, 0#8, 0#8, 0#8, 1#8, 0#8, 0#8, 0#8, 0xFF#8] = .ok (.wotf { base := 1, size := 259 }, []) := by decide
theorem test_decode_sendCommand :
    decode [0x06#8, 0x07#8, 0#8, 0#8, 0#8, 2#8, 0#8, 0#8, 0#8, 9#8, 0xFF#8, 0xFF#8, 0xFF#8, 0xFE#8] =
      .ok (.sendCommand 7#8 2 { base := 9, size := 2 }, []) := by decide
theorem test_decode_now : decode [0x10#8] = .ok (.now, []) := by decide
theorem test_decode_waitUntil :
    decode [0x11#8, 0x80#8, 0#8, 0#8, 0#8, 0x40#8, 0#8, 0#8, 1#8] = .ok (.waitUntil 0x8000000040000001, []) := by decide
theorem test_decode_enterCritical : decode [0x12#8] = .ok (.enterCritical, []) := by decide
theorem test_decode_leaveCritical : decode [0x13#8, 0#8] = .ok (.leaveCritical .unmasked, []) := by decide
theorem test_decode_sendBit :
    decode [0x20#8, 0#8, 0#8, 0#8, 0#8, 0#8, 0#8, 3#8, 0xE8#8, 1#8, 0#8] = .ok (.sendBit 1000 true false, []) := by decide
theorem test_decode_finishFrame :
    decode [0x21#8, 0#8, 0#8, 0#8, 0#8, 0#8, 0#8, 5#8, 0x78#8] = .ok (.finishFrame 1400, []) := by decide
theorem test_decode_receiveBit : decode [0x22#8] = .ok (.receiveBit, []) := by decide
theorem test_decode_sendByte :
    decode [0x30#8, 0#8, 0#8, 0#8, 0#8, 0#8, 0#8, 3#8, 0xE8#8, 0x01#8, 0xA5#8, 5#8] =
      .ok (.sendByte 1000 0x1A5#16 9, []) := by decide
theorem test_decode_receiveByte : decode [0x31#8] = .ok (.receiveByte, []) := by decide
theorem test_decode_wireSrst : decode [0x40#8] = .ok (.wireSrst, []) := by decide
theorem test_decode_wireRotf :
    decode [0x41#8, 0#8, 0#8, 0#8, 8#8, 0#8, 0#8, 0#8, 0#8, 0#8, 0#8, 0#8, 0x20#8, 0#8, 0#8, 0#8, 1#8] =
      .ok (.wireRotf { base := 8, size := 4 } { base := 0x20, size := 5 }, []) := by decide
theorem test_decode_wireWotf :
    decode [0x42#8, 0#8, 0#8, 0#8, 8#8, 0#8, 0#8, 0#8, 1#8] = .ok (.wireWotf { base := 8, size := 5 }, []) := by decide

/-! ### Decoding: what is refused, by name -/

theorem test_refuse_empty : decode [] = .error .empty := by decide
theorem test_refuse_selector : decode [0x07#8] = .error (.unknownSelector 0x07#8) := by decide
theorem test_refuse_truncated : decode [0x11#8, 0#8, 0#8, 0#8, 0#8, 0#8, 0#8, 0#8] = .error .truncated := by decide
theorem test_refuse_commandId : decode [0x06#8, 8#8] = .error (.commandId 8#8) := by decide
theorem test_refuse_frameLength :
    decode [0x30#8, 0#8, 0#8, 0#8, 0#8, 0#8, 0#8, 0#8, 0#8, 0#8, 0#8, 1#8] = .error (.frameLength 5) := by decide
theorem test_refuse_buffer :
    decode [0x05#8, 0xFF#8, 0xFF#8, 0xFF#8, 0xFF#8, 0#8, 0#8, 0#8, 0#8] =
      .error (.bufferRange { base := 0xFFFFFFFF, size := 4 }) := by decide
theorem test_refuse_flag : decode [0x13#8, 2#8] = .error (.flagOperand 2#8) := by decide

/-! ### One operation on a small state, under HARNESS timing, with the parameters of 95_test_vectors.md -/

/-- The common setting of 95_test_vectors.md. -/
def vectors : Params where
  cyclesPerUs := 10
  tPeriod := 100
  tShort := 10
  tRxOffset := 92
  tSetup := 20
  timeout := 200
  entryTimeoutA := 100
  entryTimeoutB := 2000
  tSettle := 300
  tRise := 0
  epsCrit := 0

/-- A state at a cycle, with the intervals in which the target drives LOW. -/
def start (p : Params) (time : Nat) (lows : List (Nat × Nat)) : State :=
  { State.reset with params := p, time := time, target := .scripted lows, timing := .scripted [] }

/-- What is seen of the next state of an operation. -/
def seen {α : Type} (f : State → α) (i : Instr) (s : State) : Option α :=
  match exec i s with
  | .next t => some (f t)
  | .fault _ => none
  | .refused _ => none

/-- The reply and the cycle at return. -/
def ends (i : Instr) (s : State) : Option (Option Reply × Nat) := seen (fun t => (t.result, t.time)) i s

/-- The writes, as the vectors list them. -/
def writes (i : Instr) (s : State) : Option (List Event) := seen (newWrites s) i s

/-- V-R5. -/
theorem test_init :
    seen (fun t => (t.resetPin, t.signal.mode, t.im)) .init (start vectors 0 []) =
      some ({ mode := .output, latch := .high }, .input, .unmasked) := by decide +kernel
/-- V-R4: truthiness. -/
theorem test_reset_asserts :
    seen (fun t => (t.resetPin, newActions (start vectors 0 []) t)) (.reset 0xFE#8) (start vectors 0 []) =
      some ({ mode := .output, latch := .low }, [.pin .reset .setLow, .pin .reset .setOutput]) := by decide +kernel
/-- V-R3: the latch stays. -/
theorem test_reset_releases :
    seen State.resetPin (.reset 0xFF#8) { start vectors 0 [] with resetPin := { mode := .output, latch := .high } } =
      some { mode := .input, latch := .high } := by decide +kernel
/-- V-W3: the counter wraps. -/
theorem test_waitUntil_wraps :
    seen State.cc (.waitUntil 0x10) (start vectors 0xFFFFFFF0 []) = some 0x10 := by decide +kernel
/-- R13 with a counter of 4 bits: from 14 to 1 is 3 cycles. -/
theorem test_waitUntil_narrow :
    seen (fun t => (t.cc, t.time)) (.waitUntil 1) (start { vectors with wCc := 4 } 14 []) = some (1, 17) := by decide +kernel
/-- V-W5: a target 2^31 cycles back is waited for. -/
theorem test_waitUntil_corner :
    seen State.time (.waitUntil 0x80000000) (start vectors 0 []) = some 0x80000000 := by decide +kernel
/-- V-N1. -/
theorem test_now_wraps :
    ends .now (start vectors 0x100000000 []) = some (some (.cycle 0), 0x100000000) := by decide +kernel
/-- V-K1, its second step. -/
theorem test_enterCritical_nested :
    seen (fun t => (t.result, t.im)) .enterCritical { start vectors 0 [] with im := .masked } =
      some (some (.saved .masked), .masked) := by decide +kernel
/-- V-K1, its third step: the inner section does not unmask. -/
theorem test_leaveCritical_inner :
    seen State.im (.leaveCritical .masked) { start vectors 0 [] with im := .masked } = some .masked := by decide +kernel
/-- V-T3. -/
theorem test_sendBit_afterZero :
    writes (.sendBit 1000 true true) (start vectors 900 []) =
      some [signalEvent .setHigh 990, signalEvent .setLow 1000, signalEvent .setHigh 1010] := by decide +kernel
/-- V-T6: across the wrap of the counter. -/
theorem test_sendBit_wraps :
    writes (.sendBit 5 true true) (start vectors 0xFFFFFFF0 []) =
      some [signalEvent .setHigh 0xFFFFFFFB, signalEvent .setLow 0x100000005, signalEvent .setHigh 0x10000000F] := by decide +kernel
/-- V-T5. -/
theorem test_finishFrame :
    writes (.finishFrame 1400) (start vectors 1300 []) = some [signalEvent .setHigh 1490] := by decide +kernel
/-- V-T9. -/
theorem test_receiveBit_one :
    ends .receiveBit (start vectors 4998 [(5000, 5010)]) = some (some (.bit .high 5000), 5050) := by decide +kernel
/-- V-T8: TIMEOUT 0 makes no read, and out_start stays. -/
theorem test_receiveBit_timeout :
    seen (fun t => (t.result, t.cursor, t.trace)) .receiveBit
        { start { vectors with timeout := 0 } 4000 [] with cursor := 777 } =
      some (some (.error .readBitTimeout), 777, []) := by decide +kernel
/-- V-B1. -/
theorem test_sendByte_writes :
    writes (.sendByte 1000 0b0001#16 4) (start vectors 1000 [(1493, 1503)]) =
      some [signalEvent .setHigh 1000, signalEvent .setOutput 1000, signalEvent .setLow 1000, signalEvent .setHigh 1090,
        signalEvent .setLow 1100, signalEvent .setHigh 1190, signalEvent .setLow 1200, signalEvent .setHigh 1290,
        signalEvent .setLow 1300, signalEvent .setHigh 1310, signalEvent .setLow 1400, signalEvent .setHigh 1410,
        signalEvent .setHigh 1490, signalEvent .setInput 1490] := by decide +kernel
/-- V-B4. -/
theorem test_sendByte_nack :
    ends (.sendByte 1000 0xA5#16 9) (start vectors 1000 [(1993, 2083)]) = some (some (.bit .low 1993), 2043) := by decide +kernel
/-- V-B5; and V-B9, where the target stops before bit 3. -/
theorem test_receiveByte :
    ends .receiveByte
        (start vectors 1000 [(1005, 1015), (1105, 1115), (1205, 1295), (1305, 1315), (1405, 1495), (1505, 1595),
          (1605, 1615), (1705, 1795), (1805, 1815), (1905, 1995)]) =
      some (some (.byte 0xA5#8), 2095) ∧
    ends .receiveByte (start vectors 1000 [(1005, 1015), (1105, 1115), (1205, 1295)]) =
      some (some (.error (.rxByteTimeout 3)), 1497) := by decide +kernel
/-- V-B6: the parity bit is wrong, and the host's bit is a 0. -/
theorem test_receiveByte_parity :
    writes .receiveByte
        (start vectors 1000 [(1005, 1015), (1105, 1115), (1205, 1295), (1305, 1315), (1405, 1495), (1505, 1595),
          (1605, 1615), (1705, 1795), (1805, 1815), (1905, 1915)]) =
      some [signalEvent .setHigh 1955, signalEvent .setOutput 1955, signalEvent .setLow 2005, signalEvent .setHigh 2095,
        signalEvent .setInput 2095] := by decide +kernel
/-- V-C1. -/
theorem test_srst :
    seen (fun t => (t.result, t.time, t.im, (newWrites (start vectors 1000 [(1513, 1523)]) t).getLast?)) .srst
        (start vectors 1000 [(1513, 1523)]) =
      some (some .ok, 1563, .unmasked, some { cycle := 1563, action := .irqRestore .unmasked }) := by decide +kernel
/-- V-C2. -/
theorem test_srst_nack :
    ends .srst (start vectors 1000 [(1513, 1603)]) = some (some (.error .nack), 1563) := by decide +kernel
/-- The intervals of a target frame whose first bit starts at a cycle, with bits of 100 cycles (R80, R83). -/
def targetBits (start : Nat) : List Bool → List (Nat × Nat)
  | [] => []
  | b :: bs => (start, start + if b then 10 else 90) :: targetBits (start + 100) bs

/-- P3 and P4: the five ACK bits, and the frames of 0x12 and of 0x34 with a parity bit. -/
def reading (parity : Bool) : State :=
  { start vectors 0
      ([(513, 523), (1606, 1616), (2699, 2709), (3792, 3802), (4885, 4895)] ++
        targetBits 5082 [true, false, false, false, true, false, false, true, false, false] ++
        targetBits 6177 [true, false, false, true, true, false, true, false, false, parity]) with
    mem := [(0, 2#8), (2, 0x48#8)] }

/-- P3. -/
theorem test_rotf :
    seen (fun t => (t.result, t.time, t.mem)) (.rotf { base := 0, size := 4 } { base := 16, size := 2 }) (reading true) =
      some (some .ok, 7267, [(0, 2#8), (2, 0x48#8), (16, 0x12#8), (17, 0x34#8)]) := by decide +kernel
/-- P4: the second byte fails its parity, and only the first is stored. -/
theorem test_rotf_parity :
    seen (fun t => (t.result, t.im, t.mem)) (.rotf { base := 0, size := 4 } { base := 16, size := 2 }) (reading false) =
      some (some (.error .parityError), .unmasked, [(0, 2#8), (2, 0x48#8), (16, 0x12#8)]) := by decide +kernel
/-- P3 without a critical section (R87): IM is never written. -/
theorem test_wireRotf :
    seen (fun t => (t.result, (newActions (reading true) t).contains .irqMask))
        (.wireRotf { base := 0, size := 4 } { base := 16, size := 2 }) (reading true) =
      some (some .ok, false) := by decide +kernel
/-- I7: `dest` is too short for the second byte. -/
theorem test_rotf_stuck :
    (match exec (.rotf { base := 0, size := 4 } { base := 16, size := 1 }) (reading true) with
      | .fault f => some f
      | _ => none) = some .writePastBuffer := by decide +kernel

/-- P2: six ACK bits and one NACK, of the data byte's first frame. -/
def writing : State :=
  { start vectors 0 [(513, 523), (1606, 1616), (2699, 2709), (3792, 3802), (4885, 4895), (5978, 6068), (7071, 7081)] with
    mem := [(0, 1#8), (2, 0x7F#8), (3, 0x80#8), (4, 0xA0#8)] }

/-- P2 up to the NACK: the sequencer stands at byte 4, still masked. -/
theorem test_wotf :
    seen (fun t => (t.command.pos, t.result, t.im, t.time)) (.wotf { base := 0, size := 5 }) writing =
      some (.payload 4, none, .masked, 6028) := by decide +kernel
/-- V-C7 for WOTF: with length 0 the four header bytes are sent (R160). -/
theorem test_wireWotf :
    ends (.wireWotf { base := 0, size := 4 })
        (start vectors 0 [(513, 523), (1606, 1616), (2699, 2709), (3792, 3802), (4885, 4895)]) =
      some (some .ok, 4935) := by decide +kernel
/-- V-C4 up to the NACK of byte 1. -/
theorem test_sendCommand_nacked :
    seen (fun t => (t.command.pos, t.result, t.time)) (.sendCommand 1#8 2 { base := 0, size := 2 })
        { start vectors 1000 [(1513, 1523), (2606, 2616), (3699, 3789)] with mem := [(0, 0x11#8), (1, 0x22#8)] } =
      some (.payload 1, none, 3749) := by decide +kernel
/-- V-C6: an id that is none of the three is sent. -/
theorem test_sendCommand_id :
    ends (.sendCommand 7#8 0 { base := 0, size := 0 }) (start vectors 1000 [(1513, 1523)]) =
      some (some .ok, 1563) := by decide +kernel
/-- V-C1 without the critical section. -/
theorem test_wireSrst :
    seen (fun t => (t.result, newActions (start vectors 1000 [(1513, 1523)]) t)) .wireSrst (start vectors 1000 [(1513, 1523)]) =
      some (some .ok, frameActions 0#16 4) := by decide +kernel

/-- P2's second step: the byte is sent again and the command ends. -/
theorem test_step_resends :
    (match exec (.wotf { base := 0, size := 5 }) writing with
      | .next t =>
        (match step t with
          | .next u => some (u.result, u.command.pos, u.im, u.time)
          | _ => none)
      | _ => none) = some (some .ok, .idle, .unmasked, 7121) := by decide +kernel

/-- V-E1 with an answer pulse of 7 cycles. -/
theorem test_swimEntry :
    seen (fun t => (t.result, t.time, t.im, t.signal)) .swimEntry (start vectors 0 [(30165, 30172)]) =
      some (some (.duration 7), 30472, .unmasked, { mode := .input, latch := .low }) := by decide +kernel
/-- V-E4, with its writes. -/
theorem test_swimEntry_timeout :
    writes .swimEntry (start { vectors with entryTimeoutA := 0 } 0 []) =
      some [signalEvent .setLow 0, signalEvent .setOutput 0, signalEvent .setHigh 160, { cycle := 160, action := .watchdog },
        signalEvent .setLow 5160, { cycle := 5160, action := .watchdog }, signalEvent .setHigh 10160,
        { cycle := 10160, action := .watchdog }, signalEvent .setLow 15160, { cycle := 15160, action := .watchdog },
        signalEvent .setHigh 20160, { cycle := 20160, action := .watchdog }, signalEvent .setLow 22660,
        { cycle := 22660, action := .watchdog }, signalEvent .setHigh 25160, { cycle := 25160, action := .watchdog },
        signalEvent .setLow 27660, { cycle := 27660, action := .watchdog }, { cycle := 30160, action := .irqMask },
        signalEvent .setInput 30160, { cycle := 30160, action := .irqRestore .unmasked }] := by decide +kernel

/-- The program step of the host: a call placed from outside is the next step's. -/
theorem test_withFetchWord :
    (match step (State.reset.withFetchWord 8 0x00) with
      | .next t => some t.resetPin
      | _ => none) = some { mode := .output, latch := .high } := by decide +kernel

/-! ### Draws: timings other than HARNESS -/

/-- R112: masked and begun in time, at cycle 9, a draw of 7 is cut to what EPS_CRIT = 2 allows: 7 mod 3. -/
theorem test_lateness_masked :
    (({ start { vectors with epsCrit := 2 } 0 [] with im := .masked, timing := .scripted [9, 7] } : State).schedule 10
      .setLow).time = 11 := by decide +kernel
/-- R112: masked, but begun at the target's cycle, the draw is the lateness. -/
theorem test_lateness_begun_late :
    (({ start { vectors with epsCrit := 2 } 0 [] with im := .masked, timing := .scripted [10, 7] } : State).schedule 10
      .setLow).time = 17 := by decide +kernel
/-- R112: unmasked, the draw is the lateness. -/
theorem test_lateness_unmasked :
    (({ start vectors 0 [] with timing := .scripted [9, 7] } : State).schedule 10 .setLow).time = 17 := by decide +kernel
/-- R35: two cycles after a release with T_RISE = 3 a read sees a draw, LOW here; with T_RISE = 2 it sees HIGH. -/
theorem test_rise :
    ({ start { vectors with tRise := 3 } 12 [] with releasedAt := some 10 } : State).lineLevel = .low ∧
      ({ start { vectors with tRise := 2 } 12 [] with releasedAt := some 10 } : State).lineLevel = .high := by decide +kernel

/-- R112, R178: masked, with EPS_CRIT = 2, the release is no later than 2 cycles after its cycle, whatever the draws: 1 cycle late
at the mask, then a draw of 5, cut to 5 mod 2. -/
theorem test_release_masked :
    (newWrites { start { vectors with epsCrit := 2 } 0 [] with im := .masked, timing := .scripted [9, 7, 5] }
        ({ start { vectors with epsCrit := 2 } 0 [] with
            im := .masked, timing := .scripted [9, 7, 5], entry := { pos := .releaseToInput, next := 10 } } : State).entryRelease) =
      [{ cycle := 11, action := .irqMask }, signalEvent .setInput 12] := by decide +kernel

/-- R227: a draw of 2^31 cycles while a schedule of cycle 5 is still to be used, at cycle 10: masked, the draw stays inside the 2^30
cycles after cycle 5; unmasked, it can break the window. -/
theorem test_old_cursor :
    (({ start vectors 10 [] with im := .masked, timing := .scripted [2 ^ 31] } : State).elapse (some 5)).time ≤ 5 + 2 ^ 30 ∧
      (({ start vectors 10 [] with timing := .scripted [2 ^ 31] } : State).elapse (some 5)).time = 10 + 2 ^ 31 := by
  decide +kernel

/-- R176: the watchdog service takes any number of cycles, with interrupts masked too. -/
theorem test_watchdog_masked :
    ({ start vectors 10 [] with im := .masked, timing := .scripted [0, 2 ^ 31] } : State).wdtService.time = 10 + 2 ^ 31 := by
  decide +kernel

/-- R179, R228: a duration below 2^(W_CC−1) is projected to itself. -/
theorem test_projection : Reply.code { vectors with wCc := 4 } (.duration 7) = some 7 := by decide +kernel
/-- I18, log 23: one of 2^(W_CC−1) or more is projected to no non-negative number. -/
theorem test_projection_long (n : Int) (h : Reply.code { vectors with wCc := 4 } (.duration 8) = some n) : n < 0 := by
  have e : Reply.code { vectors with wCc := 4 } (.duration 8) = some (-((Config.longDuration 8 : Int) + 1)) := rfl
  rw [e] at h
  cases h
  omega

/-! ### The call syntax (R97) -/

theorem test_text_rotf :
    callText [(0, 2#8), (2, 0x48#8)] (.rotf { base := 0, size := 4 } { base := 16, size := 2 }) =
      some "rotf([0x02, 0x00, 0x48, 0x00], dest)" := by decide +kernel
theorem test_text_sendCommand :
    callText [(0, 0x11#8), (1, 0x22#8)] (.sendCommand 1#8 2 { base := 0, size := 2 }) =
      some "send_command(0x01, 2, [0x11, 0x22])" := by decide +kernel
theorem test_text_reply :
    replyText (.duration 1280) = " -> Ok(1280)" ∧ replyText (.error (.rxByteTimeout 3)) = " -> Err(RxByteTimeout(3))" := by
  decide +kernel

end Sys2Proof.Tests
end

