-- ==== Sys2Proof/Tests/Witnesses.lean ====
section
/-!
SUPPORT. Tests/Witnesses.lean: for each statement that has hypotheses, a concrete state and operands that meet them, at a boundary
of each clause.
-/

namespace Sys2Proof.Tests

-- One proof after another: side by side, each would hold a thread of its own while it waits for the kernel.
set_option Elab.async false

open Sys2Proof Sys2Proof.Machine

/-! ### Small parameters, and targets that send bits -/

/-- Parameters as small as R10 and `Params.Ideal` allow them. -/
def tiny : Params where
  cyclesPerUs := 1
  tPeriod := 4
  tShort := 1
  tRxOffset := 3
  tSetup := 2
  timeout := 5
  entryTimeoutA := 3
  entryTimeoutB := 4
  tSettle := 2
  tRise := 0
  epsCrit := 1
  tEntryLowUs := 2
  nToggle1k := 1
  nToggle2k := 1
  tToggle1kUs := 3
  tToggle2kUs := 2

theorem tiny_ideal : tiny.Ideal := by constructor <;> decide

theorem start_harness (t : Nat) (lows : List (Nat × Nat)) : (start tiny t lows).Harness := ⟨rfl, rfl, rfl⟩

/-- With a setup margin that makes the host's next bit later than the natural end of the one before it. -/
def slow : Params := { tiny with tSetup := 5 }

theorem slow_ideal : slow.Ideal := by constructor <;> decide

theorem slow_turnaround : slow.tPeriod < slow.tHalf + slow.tSetup ∧ tiny.tHalf + tiny.tSetup = tiny.tPeriod := by decide

/-- The interval of one target bit (R80). -/
def lowOf (p : Params) (b : Bool) (t : Nat) : Nat × Nat := (t, t + if b then p.tShort else p.tPeriod - p.tShort)

/-- The intervals of a target frame (R83). -/
def bitsOf (p : Params) : Nat → List Bool → List (Nat × Nat)
  | _, [] => []
  | f, b :: bs => lowOf p b f :: bitsOf p (f + p.tPeriod) bs

/-- The intervals of n ACK bits. -/
def acksOf (p : Params) (span : Nat) : Nat → Nat → List (Nat × Nat)
  | _, 0 => []
  | e, n + 1 => lowOf p (bitOf p.ackLevel) e :: acksOf p span (e + span) n

/-- The intervals of target frames with good parity. -/
def framesOf (p : Params) (span : Nat) : Nat → List Byte → List (Nat × Nat)
  | _, [] => []
  | f, v :: vs => bitsOf p f (targetFrame p v (byteParity v)) ++ framesOf p span (f + span) vs

theorem low_nil (t : Nat) : targetLow (.scripted []) t = false := rfl

theorem low_cons (p : Params) (b : Bool) (e t : Nat) (l : List (Nat × Nat)) :
    targetLow (.scripted (lowOf p b e :: l)) t = true ↔ bitLow p b e t ∨ targetLow (.scripted l) t = true := by
  simp [targetLow, lowOf, bitLow]

theorem low_append (l m : List (Nat × Nat)) (t : Nat) :
    targetLow (.scripted (l ++ m)) t = true ↔ targetLow (.scripted l) t = true ∨ targetLow (.scripted m) t = true := by
  simp [targetLow]

theorem low_one (p : Params) (b : Bool) (e t : Nat) : targetLow (.scripted [lowOf p b e]) t = true ↔ bitLow p b e t := by
  rw [low_cons, low_nil]; simp

theorem low_bits (p : Params) (bits : List Bool) (f t : Nat) :
    targetLow (.scripted (bitsOf p f bits)) t = true ↔ bitsLow p bits f t := by
  induction bits generalizing f with
  | nil => simp [bitsOf, low_nil, bitsLow]
  | cons b bs ih =>
    rw [bitsOf, low_cons, ih]
    constructor
    · rintro (h | ⟨k, c, h1, h2⟩)
      · exact ⟨0, b, rfl, by simpa using h⟩
      · exact ⟨k + 1, c, h1, by rw [Nat.succ_mul, Nat.add_comm (k * _), ← Nat.add_assoc]; exact h2⟩
    · rintro ⟨k | k, c, h1, h2⟩
      · simp only [List.getElem?_cons_zero, Option.some.injEq] at h1
        subst h1
        exact .inl (by simpa using h2)
      · exact .inr ⟨k, c, h1, by rw [Nat.succ_mul, Nat.add_comm (k * _), ← Nat.add_assoc] at h2; exact h2⟩

theorem low_acks (p : Params) (span e n t : Nat) :
    targetLow (.scripted (acksOf p span e n)) t = true ↔ acksLow p span e n t := by
  induction n generalizing e with
  | zero => simp [acksOf, low_nil, acksLow]
  | succ n ih =>
    rw [acksOf, low_cons, ih]
    constructor
    · rintro (h | ⟨j, h1, h2⟩)
      · exact ⟨0, by omega, by simpa using h⟩
      · exact ⟨j + 1, by omega, by rw [Nat.succ_mul, Nat.add_comm (j * _), ← Nat.add_assoc]; exact h2⟩
    · rintro ⟨j | j, h1, h2⟩
      · exact .inl (by simpa using h2)
      · exact .inr ⟨j, by omega, by rw [Nat.succ_mul, Nat.add_comm (j * _), ← Nat.add_assoc] at h2; exact h2⟩

theorem low_frames (p : Params) (span f t : Nat) (vs : List Byte) :
    targetLow (.scripted (framesOf p span f vs)) t = true ↔ framesLow p span f vs t := by
  induction vs generalizing f with
  | nil => simp [framesOf, low_nil, framesLow]
  | cons v vs ih =>
    rw [framesOf, low_append, low_bits, ih]
    constructor
    · rintro (h | ⟨j, w, h1, h2⟩)
      · exact ⟨0, v, rfl, by simpa using h⟩
      · exact ⟨j + 1, w, h1, by rw [Nat.succ_mul, Nat.add_comm (j * _), ← Nat.add_assoc]; exact h2⟩
    · rintro ⟨j | j, w, h1, h2⟩
      · simp only [List.getElem?_cons_zero, Option.some.injEq] at h1
        subst h1
        exact .inl (by simpa using h2)
      · exact .inr ⟨j, w, h1, by rw [Nat.succ_mul, Nat.add_comm (j * _), ← Nat.add_assoc] at h2; exact h2⟩

/-- An outcome that is a next state. -/
def runs : Host.Outcome State Fault Refusal → Bool
  | .next _ => true
  | _ => false

theorem runs_of (o : Host.Outcome State Fault Refusal) (h : runs o = true) : ∃ t, o = .next t := by
  cases o with
  | next t => exact ⟨t, rfl⟩
  | fault _ => exact nomatch h
  | refused _ => exact nomatch h

/-! ### Call messages -/

theorem witness_DecodeInvertsEncode :
    (Instr.sendCommand 7#8 (2 ^ 32 - 1) { base := 0, size := 2 ^ 32 - 1 }).wellFormed = true ∧
      (Instr.sendByte 0 0#16 4).wellFormed = true ∧ (Instr.sendByte (2 ^ 64 - 1) 0#16 9).wellFormed = true := by decide

theorem witness_EncodeInvertsDecode :
    decode [0x05#8, 0#8, 0#8, 0#8, 1#8, 0#8, 0#8, 0#8, 0xFF#8, 7#8] = .ok (.wotf { base := 1, size := 259 }, [7#8]) := by decide

theorem witness_MeaninglessCalls_selector :
    (∀ i, selector i ≠ 0x07#8) ∧ (start tiny 0 []).command.pos = .idle ∧ (start tiny 0 []).entry.pos = .idle ∧
      ((start tiny 0 []).setCalls [[0x07#8]]).calls = (0x07#8 :: []) :: [] :=
  ⟨fun i => by cases i <;> exact fun h => (nomatch h), rfl, rfl, rfl⟩

theorem witness_MeaninglessCalls_operands :
    (3 ≠ 4 ∧ 3 ≠ 9) ∧ (5 ≠ 4 ∧ 5 ≠ 9) ∧ (10 ≠ 4 ∧ 10 ≠ 9) ∧ 8 ≤ (8#8 : Byte).toNat ∧ 8 ≤ (0xFF#8 : Byte).toNat := by decide

theorem witness_CommandBuffer : 260 ≤ ({ base := 0, size := 260 } : Buffer).size ∧ 3 < 4 ∧ 258 + 1 < 260 := by decide

/-! ### Cycles -/

theorem witness_Later :
    2 ^ 31 - 1 < 0 + 2 ^ (tiny.wCc - 1) ∧ 0 < (2 ^ 31 - 1) + 2 ^ (tiny.wCc - 1) := by decide

theorem witness_Now :
    (start tiny 0xFFFFFFFF []).Harness ∧ 2 ^ 32 - 1 < 2 ^ tiny.wCc ∧
      seen State.cc .now (start tiny 0xFFFFFFFF []) = some 0xFFFFFFFF := ⟨start_harness _ _, by decide, by decide +kernel⟩

theorem witness_WaitUntil : (start tiny 0 []).Harness := start_harness _ _

/-- Masked and begun in time, with the largest lateness; and unmasked, with any. Masked, and as old a schedule as R113 allows. -/
theorem witness_ScheduledTransition :
    (let s : State := { start tiny 0 [] with im := .masked, entry := { pos := .releaseToInput, next := 1 } };
      s.params.epsCrit < 2 ^ (s.params.wCc - 1) ∧ s.im = .masked ∧ sdiff s.params s.cc 1 < 0 ∧
        sdiff s.params s.cc s.entry.next < 0) ∧
      (start tiny 0 []).im = .unmasked ∧ 2 ^ 31 - 1 < 2 ^ (tiny.wCc - 1) ∧
      sdiff tiny (start tiny (2 ^ 30) []).cc 0 ≤ 2 ^ (tiny.wCc - 2) ∧ tiny.epsCrit ≤ 2 ^ (tiny.wCc - 2) := by decide +kernel

/-! ### Pins and bits -/

theorem witness_PinWrites :
    ((start tiny 0 []).pin .signal).mode = .input ∧ ((start tiny 0 []).pin .reset).mode = .input ∧
      (let s : State := { start tiny 0 [] with signal := { mode := .output, latch := .low } };
        s.signal.pulls = true ∧ (s.pinWrite .signal .setHigh).signal.pulls = false ∧
          ¬(s.signal.pulls = true ∧ (s.pinWrite .reset .setHigh).signal.pulls = false)) := by decide +kernel

/-- The host pulls; the target pulls; the last cycle of the window after a release by host and by target; and the first after
it. -/
theorem witness_LineLevel :
    (({ start tiny 0 [] with signal := { mode := .output, latch := .low } } : State).signal.pulls = true ∧
      targetLow (start tiny 0 [(0, 1)]).target 0 = true) ∧
    (let s : State := { start { tiny with tRise := 3 } 12 [] with releasedAt := some 10 };
      s.signal.pulls = false ∧ targetLow s.target s.time = false ∧
        ∃ r, s.releasedAt = some r ∧ r ≤ s.time ∧ s.time < r + s.params.tRise) ∧
    (let s : State := start { tiny with tRise := 3 } 12 [(5, 10)];
      s.signal.pulls = false ∧ targetLow s.target s.time = false ∧
        ∃ r, r + 1 ≤ s.time ∧ s.time < r + 1 + s.params.tRise ∧ targetLow s.target r = true) ∧
    (let s : State := { start { tiny with tRise := 2 } 12 [] with releasedAt := some 10 };
      s.signal.pulls = false ∧ targetLow s.target s.time = false ∧
        ¬((∃ r, s.releasedAt = some r ∧ r ≤ s.time ∧ s.time < r + s.params.tRise) ∨
          ∃ r, r + 1 ≤ s.time ∧ s.time < r + 1 + s.params.tRise ∧ targetLow s.target r = true)) := by
  refine ⟨⟨rfl, rfl⟩, ⟨rfl, rfl, 10, rfl, by decide, by decide⟩, ⟨rfl, rfl, 9, by decide, by decide, rfl⟩, rfl, rfl, ?_⟩
  rintro (⟨r, h, -, g⟩ | ⟨r, -, -, h⟩)
  · cases h; exact absurd g (by decide)
  · exact absurd h (by simp [start, targetLow])

theorem witness_LineLevel_reset :
    (start tiny 0 []).resetPin.mode = .input ∧
      ({ start tiny 0 [] with resetPin := { mode := .output, latch := .high } } : State).resetPin.mode = .output := ⟨rfl, rfl⟩

/-- The level comes with the last read of the budget, and one read too late. -/
theorem witness_Poll :
    (poll .low 5 (start tiny 0 [(4, 5)])).1 = some 4 ∧ (poll .low 5 (start tiny 0 [(5, 6)])).1 = none ∧
      (poll .low 0 (start tiny 0 [(0, 1)])).1 = none := by decide +kernel

/-- A 1 and a 0 whose edge comes with the first read, and with the last one. -/
theorem witness_ReceiveBitDecodes (b : Bool) (e : Nat) (he : e = 0 ∨ e = 4) :
    (start tiny 0 [lowOf tiny b e]).Harness ∧ (start tiny 0 [lowOf tiny b e]).signal.pulls = false ∧ 0 < tiny.tShort ∧
      tiny.tShort < tiny.tPeriod ∧ tiny.tHalf < 2 ^ (tiny.wCc - 1) ∧ 0 ≤ e ∧ e < 0 + tiny.timeout ∧
      ∀ t, 0 ≤ t → (targetLow (start tiny 0 [lowOf tiny b e]).target t = true ↔ bitLow tiny b e t) :=
  ⟨start_harness _ _, rfl, by decide, by decide, by decide, by omega, by rcases he with rfl | rfl <;> decide,
    fun t _ => low_one tiny b e t⟩

theorem witness_ReceiveBitDecodes_half : tiny.tHalf = tiny.tPeriod / 2 := rfl

theorem witness_ReceiveBitTimesOut :
    (start tiny 0 [(5, 6)]).Harness ∧ (start tiny 0 [(5, 6)]).signal.pulls = false ∧
      ∀ t, 0 ≤ t → t < 0 + tiny.timeout → targetLow (start tiny 0 [(5, 6)]).target t = false := by
  refine ⟨start_harness _ _, rfl, fun t _ h => ?_⟩
  have h : t < 5 := by simpa [tiny] using h
  simp [start, targetLow]; omega

/-- The earliest and the latest start. -/
theorem witness_SendBitWaveform :
    (start tiny 0 []).Harness ∧ tiny.tShort < 2 ^ (tiny.wCc - 1) ∧ 0 + (if true then tiny.tShort else 0) ≤ 1 ∧
      1 < 0 + 2 ^ (tiny.wCc - 1) ∧ 2 ^ 31 - 1 < 0 + 2 ^ (tiny.wCc - 1) :=
  ⟨start_harness _ _, by decide, by decide, by decide, by decide⟩

theorem witness_FinishFrame :
    (start tiny 3 []).Harness ∧ sdiff tiny (start tiny 3 []).cc (plus tiny 0 (tiny.tPeriod - tiny.tShort)) ≤ 0 :=
  ⟨start_harness _ _, by decide +kernel⟩

/-! ### Bytes -/

theorem witness_SendByteWrites : (4 = 4 ∨ 4 = 9) ∧ (9 = 4 ∨ 9 = 9) := by decide

/-- The frame starts at once and the ACK bit comes with the last read of the budget. -/
theorem witness_SendByteWaveform (b : Bool) (n : Nat) (hn : n = 4 ∨ n = 9) :
    (let s := start tiny 7 [lowOf tiny b (frameEnd tiny n 7 + 4)];
      s.Harness ∧ (n = 4 ∨ n = 9) ∧ 0 < s.params.tShort ∧ 2 * s.params.tShort < s.params.tPeriod ∧
        s.params.tShort ≤ s.params.tHalf ∧ s.params.tHalf < s.params.tPeriod - s.params.tShort ∧
        2 * s.params.tPeriod < 2 ^ (s.params.wCc - 1) ∧ s.time ≤ 7 ∧ 7 < s.time + 2 ^ (s.params.wCc - 1) ∧
        4 < s.params.timeout ∧
        ∀ t, frameEnd s.params n 7 ≤ t → t ≤ frameEnd s.params n 7 + 4 + s.params.tHalf →
          (targetLow s.target t = true ↔ bitLow s.params b (frameEnd s.params n 7 + 4) t)) :=
  ⟨start_harness _ _, hn, (by decide : 0 < tiny.tShort), (by decide : 2 * tiny.tShort < tiny.tPeriod),
    (by decide : tiny.tShort ≤ tiny.tHalf), (by decide : tiny.tHalf < tiny.tPeriod - tiny.tShort),
    (by decide : 2 * tiny.tPeriod < 2 ^ (tiny.wCc - 1)), Nat.le_refl 7, (by decide : 7 < 7 + 2 ^ (tiny.wCc - 1)),
    (by decide : 4 < tiny.timeout),
    fun t _ _ => low_one tiny b (frameEnd tiny n 7 + 4) t⟩

theorem witness_SendByteUnanswered (n : Nat) (hn : n = 4 ∨ n = 9) :
    (let s := start tiny 7 [];
      s.Harness ∧ (n = 4 ∨ n = 9) ∧ 0 < s.params.tShort ∧ 2 * s.params.tShort < s.params.tPeriod ∧
        2 * s.params.tPeriod < 2 ^ (s.params.wCc - 1) ∧ s.time ≤ 7 ∧ 7 < s.time + 2 ^ (s.params.wCc - 1) ∧
        ∀ t, frameEnd s.params n 7 ≤ t → t < frameEnd s.params n 7 + s.params.timeout → targetLow s.target t = false) :=
  ⟨start_harness _ _, hn, by decide, by decide, by decide, by decide, by decide, fun _ _ _ => rfl⟩

theorem witness_ReceiveByteResult : (start tiny 0 []).frame = {} := rfl

/-- A good and a bad parity bit, a short and a long setup margin, the frame's edge with the last read of the budget. -/
theorem witness_ReceiveByteFrame (p : Params) (hp : p = tiny ∨ p = slow) (v : Byte) (q : Bool) :
    (let s := start p 0 (bitsOf p 4 (targetFrame p v q));
      s.Harness ∧ s.params.Ideal ∧ s.signal.pulls = false ∧ s.time ≤ 4 ∧ 4 < s.time + s.params.timeout ∧
        (∀ t, s.time ≤ t → t < 4 → targetLow s.target t = false) ∧
        ∀ t, 4 ≤ t → t < 4 + 10 * s.params.tPeriod →
          (targetLow s.target t = true ↔ bitsLow s.params (targetFrame s.params v q) 4 t)) := by
  refine ⟨?_, ?_, rfl, (by decide : 0 ≤ 4), ?_, fun t _ h => ?_, fun t _ _ => low_bits p _ 4 t⟩
  · rcases hp with rfl | rfl <;> exact ⟨rfl, rfl, rfl⟩
  · rcases hp with rfl | rfl
    exacts [tiny_ideal, slow_ideal]
  · rcases hp with rfl | rfl
    exacts [(by decide : 4 < 0 + tiny.timeout), (by decide : 4 < 0 + slow.timeout)]
  · rw [Bool.eq_false_iff]
    intro hc
    obtain ⟨k, b, -, h1, -⟩ := (low_bits p (targetFrame p v q) 4 t).1 hc
    omega

theorem witness_ReceiveByteNoFrame_silent :
    (let s := start tiny 0 [(5, 6)];
      s.Harness ∧ s.signal.pulls = false ∧ 0 < s.params.tShort ∧ s.params.tShort ≤ s.params.tHalf ∧
        s.params.tHalf < s.params.tPeriod - s.params.tShort ∧ s.params.tPeriod < 2 ^ (s.params.wCc - 1) ∧
        ∀ t, s.time ≤ t → t < s.time + s.params.timeout → targetLow s.target t = false) :=
  ⟨start_harness _ _, rfl, by decide, by decide, by decide, by decide, witness_ReceiveBitTimesOut.2.2⟩

theorem witness_ReceiveByteNoFrame_start (f : Nat) (hf : f = 0 ∨ f = 4) :
    (let s := start tiny 0 [lowOf tiny (!tiny.targetStart) f];
      s.Harness ∧ s.signal.pulls = false ∧ 0 < s.params.tShort ∧ s.params.tShort ≤ s.params.tHalf ∧
        s.params.tHalf < s.params.tPeriod - s.params.tShort ∧ s.params.tPeriod < 2 ^ (s.params.wCc - 1) ∧
        s.time ≤ f ∧ f < s.time + s.params.timeout ∧
        ∀ t, s.time ≤ t → t ≤ f + s.params.tHalf →
          (targetLow s.target t = true ↔ bitLow s.params (!s.params.targetStart) f t)) :=
  ⟨start_harness _ _, rfl, (by decide : 0 < tiny.tShort), (by decide : tiny.tShort ≤ tiny.tHalf),
    (by decide : tiny.tHalf < tiny.tPeriod - tiny.tShort), (by decide : tiny.tPeriod < 2 ^ (tiny.wCc - 1)),
    Nat.zero_le _, by rcases hf with rfl | rfl <;> decide,
    fun t _ _ => low_one tiny (!tiny.targetStart) f t⟩

/-! ### Commands -/

/-- A memory whose first byte is the length 255, and buffers that just hold what is needed. -/
def full : State := { start tiny 0 [] with mem := [(0, 0xFF#8)] }

theorem witness_SendCommandRuns :
    (7#8 : Byte).toNat < 8 ∧ 3 ≤ ({ base := 0, size := 3 } : Buffer).size ∧ Memory.wf full.mem ∧ full.frame = {} :=
  ⟨by decide, by decide, by decide +kernel, rfl⟩

theorem witness_WriteOnTheFly :
    Memory.wf full.mem ∧ 4 + (Memory.read ({ base := 0, size := 259 } : Buffer).base full.mem).toNat ≤ 259 := by decide +kernel

theorem witness_ReadOnTheFly :
    Memory.wf full.mem ∧ 4 ≤ ({ base := 0, size := 4 } : Buffer).size ∧
      (Memory.read ({ base := 0, size := 4 } : Buffer).base full.mem).toNat ≤ ({ base := 8, size := 255 } : Buffer).size := by
  decide +kernel

/-- A command that stands at its last payload byte. -/
def nacked (time : Nat) (target : Target) : State :=
  { start tiny time [] with
    target := target
    signal := releasedPin
    command := { pos := .payload 1, cmd := 2#3, len := 2, data := { base := 0, size := 2 }, ackStart := 0 } }

theorem witness_AccessPastBuffer_empty : ({ base := 5, size := 0 } : Buffer).size = 0 := rfl

/-- Payload byte 1 of a buffer of one byte. -/
theorem witness_AccessPastBuffer_read :
    (let s := (nacked 2 (.scripted [])).setCommand { (nacked 2 (.scripted [])).command with data := { base := 0, size := 1 } };
      s.command.pos = .payload 1 ∧ 1 < s.command.len ∧ s.command.data.size ≤ 1) := ⟨rfl, by decide, by decide⟩

/-- The second byte of a read whose `dest` holds one, its frame's edge with the last read of the budget. -/
theorem witness_AccessPastBuffer_write (v : Byte) :
    (let s := (start tiny 0 (bitsOf tiny 4 (targetFrame tiny v (byteParity v)))).setCommand
        { pos := .rx 1, rxLen := 2, dest := { base := 0, size := 1 } };
      s.command.pos = .rx 1 ∧ 1 < s.command.rxLen ∧ s.command.dest.size ≤ 1 ∧ s.Harness ∧ s.params.Ideal ∧
        s.signal.pulls = false ∧ s.time ≤ 4 ∧ 4 < s.time + s.params.timeout ∧
        ∀ t, s.time ≤ t → t < 4 + 10 * s.params.tPeriod →
          (targetLow s.target t = true ↔ bitsLow s.params (targetFrame s.params v (byteParity v)) 4 t)) :=
  ⟨rfl, (by decide : 1 < 2), (by decide : 1 ≤ 1), ⟨rfl, rfl, rfl⟩, tiny_ideal, rfl, Nat.zero_le 4,
    (by decide : 4 < 0 + tiny.timeout),
    fun t _ _ => low_bits tiny _ 4 t⟩

/-- A payload, a write and a read that do not fit by one byte, and runs that return all the same (nobody answers). -/
theorem witness_AccessPastBuffer_run :
    ({ base := 0, size := 2 } : Buffer).size < 3 ∧
      ({ base := 0, size := 258 } : Buffer).size < 4 + (Memory.read 0 full.mem).toNat ∧
      ({ base := 8, size := 254 } : Buffer).size < (Memory.read 0 full.mem).toNat ∧
      (∃ t, exec (.sendCommand 0#8 3 { base := 0, size := 2 }) full = .next t) ∧
      (∃ t, exec (.wotf { base := 0, size := 258 }) full = .next t) ∧
      ∃ t, exec (.rotf { base := 0, size := 4 } { base := 8, size := 254 }) full = .next t :=
  ⟨by decide, by decide +kernel, by decide +kernel, runs_of _ (by decide +kernel), runs_of _ (by decide +kernel),
    runs_of _ (by decide +kernel)⟩

/-- A command that goes on after a NACK, with a payload and with a `dest` that do not fit by one byte, and its next step. -/
theorem witness_AccessPastBuffer_resumed (c : CommandRegs)
    (hc : c = { pos := .payload 1, cmd := 2#3, len := 3, data := { base := 0, size := 2 } } ∨
      c = { pos := .payload 1, cmd := 1#3, len := 2, data := { base := 0, size := 2 }, rxLen := 1 }) :
    (let s := (nacked 2 (.scripted [])).setCommand c;
      s.command.pos = .payload 1 ∧ s.result ≠ some .ok ∧
        ((1 < s.command.len ∧ s.command.data.size < s.command.len) ∨ s.command.dest.size < s.command.rxLen) ∧
        ∃ t, step s = .next t) := by
  rcases hc with rfl | rfl
  · exact ⟨rfl, by decide, Or.inl (by decide), runs_of _ (by decide +kernel)⟩
  · exact ⟨rfl, by decide, Or.inr (by decide), runs_of _ (by decide +kernel)⟩

theorem witness_NackedByte :
    (let s := nacked 2 (.scripted []);
      s.command.pos = .payload 1 ∧ 1 < s.command.len ∧ s.command.len ≤ s.command.data.size ∧
        s.command.rxLen ≤ s.command.dest.size ∧ Memory.wf s.mem ∧ s.frame = {}) :=
  ⟨rfl, by decide, by decide, by decide, by decide +kernel, rfl⟩

theorem witness_EntryPoints :
    0 < ({ base := 0, size := 1 } : Buffer).size ∧ (nacked 2 (.scripted [])).command.saved = none ∧
      (nacked 2 (.scripted [])).command.pos ≠ .idle := ⟨by decide, rfl, fun h => nomatch h⟩

/-- Two payload bytes, each ACK with the last read of the budget, and a short and a long setup margin. -/
theorem witness_SendCommandAcknowledged (p : Params) (hp : p = tiny ∨ p = slow) :
    (let s := start p 0 (acksOf p (byteFrameSpan p 4) (frameEnd p 4 (0 + p.tSetup) + 4) 3);
      s.Harness ∧ s.params.Ideal ∧ (7#8 : Byte).toNat < 8 ∧ 2 ≤ ({ base := 0, size := 2 } : Buffer).size ∧
        4 < s.params.timeout ∧
        ∀ t, frameEnd s.params 4 (s.time + s.params.tSetup) ≤ t →
          t ≤ frameEnd s.params 4 (s.time + s.params.tSetup) + 4 + 2 * byteFrameSpan s.params 4 + s.params.tHalf →
          (targetLow s.target t = true ↔
            acksLow s.params (byteFrameSpan s.params 4) (frameEnd s.params 4 (s.time + s.params.tSetup) + 4) (2 + 1) t)) := by
  refine ⟨?_, ?_, by decide, by decide, ?_, fun t _ _ => low_acks p _ _ 3 t⟩
  · rcases hp with rfl | rfl <;> exact ⟨rfl, rfl, rfl⟩
  · rcases hp with rfl | rfl
    exacts [tiny_ideal, slow_ideal]
  · rcases hp with rfl | rfl <;> decide

theorem witness_CommandFrameNacked :
    (let s := start tiny 0 [lowOf tiny (!bitOf tiny.ackLevel) (frameEnd tiny 4 (0 + tiny.tSetup) + 4)];
      s.Harness ∧ s.params.Ideal ∧ (7#8 : Byte).toNat < 8 ∧ 4 < s.params.timeout ∧
        ∀ t, frameEnd s.params 4 (s.time + s.params.tSetup) ≤ t →
          t ≤ frameEnd s.params 4 (s.time + s.params.tSetup) + 4 + s.params.tHalf →
          (targetLow s.target t = true ↔
            bitLow s.params (!bitOf s.params.ackLevel) (frameEnd s.params 4 (s.time + s.params.tSetup) + 4) t)) :=
  ⟨start_harness _ _, tiny_ideal, by decide, by decide,
    fun t _ _ => low_one tiny (!bitOf tiny.ackLevel) (frameEnd tiny 4 (0 + tiny.tSetup) + 4) t⟩

/-- The cycle of the last header byte's sample, when every ACK bit starts a cycle after its frame. -/
def headerEnd (p : Params) : Nat := frameEnd p 4 (0 + p.tSetup) + 1 + 4 * byteFrameSpan p 1 + p.tHalf

/-- Two bytes are read, the first frame starting at f, each after it with the last read of its budget. -/
def readable (p : Params) (f : Nat) : State :=
  { start p 0
      (acksOf p (byteFrameSpan p 1) (frameEnd p 4 (0 + p.tSetup) + 1) 5 ++
        framesOf p (byteFrameSpan p 4) f [0x12#8, 0x34#8]) with
    mem := [(0, 2#8)] }

/-- With a short and a long setup margin, the first frame with the first and with the last read of its budget. -/
theorem readable_scenario (p : Params) (hp : p = tiny ∨ p = slow) (f : Nat) (hf : f = headerEnd p + 1 ∨ f = headerEnd p + 4) :
    ReadScenario (readable p f) { base := 0, size := 4 } [0x12#8, 0x34#8] 1 4 f := by
  refine ⟨?_, ?_, ?_, by decide, ?_, ?_, ?_, ?_, fun t _ _ => ?_⟩
  · rcases hp with rfl | rfl <;> exact ⟨rfl, rfl, rfl⟩
  · rcases hp with rfl | rfl
    exacts [tiny_ideal, slow_ideal]
  · rcases hp with rfl | rfl <;> rfl
  · rcases hp with rfl | rfl
    exacts [(by decide : 1 < tiny.timeout), (by decide : 1 < slow.timeout)]
  · rcases hp with rfl | rfl
    exacts [(by decide : 4 < tiny.timeout), (by decide : 4 < slow.timeout)]
  · show headerEnd p < f
    omega
  · show f < headerEnd p + p.timeout
    have h : p.timeout = 5 := by rcases hp with rfl | rfl <;> rfl
    omega
  · show targetLow (.scripted (_ ++ _)) t = true ↔ _
    rw [low_append, low_acks, low_frames]
    rfl

/-- A buffer that just holds the two bytes. -/
theorem witness_ReadOnTheFlyReceives (p : Params) (f : Nat) :
    Memory.wf (readable p f).mem ∧
      (Memory.read ({ base := 0, size := 4 } : Buffer).base (readable p f).mem).toNat = [0x12#8, 0x34#8].length ∧
      [0x12#8, 0x34#8].length ≤ ({ base := 8, size := 2 } : Buffer).size :=
  ⟨(by decide +kernel : Memory.wf [(0, 2#8)]), rfl, by decide⟩

/-- A buffer that holds one of the two bytes. -/
theorem witness_AccessPastBuffer_store (p : Params) (f : Nat) :
    ({ base := 8, size := 1 } : Buffer).size + 1 = [0x12#8, 0x34#8].length ∧
      [0x12#8, 0x34#8].length ≤ (Memory.read ({ base := 0, size := 4 } : Buffer).base (readable p f).mem).toNat :=
  ⟨rfl, Nat.le_refl 2⟩

/-- A target that answers NACK a cycle after every frame, for ever. -/
theorem witness_NackForever :
    (let s := nacked 2 (.repeating (byteFrameSpan tiny 1) [(0, 3)]);
      s.Harness ∧ s.params.Ideal ∧ s.command.pos = .payload 1 ∧ 1 < s.command.len ∧
        s.command.len ≤ s.command.data.size ∧ s.command.rxLen ≤ s.command.dest.size ∧
        s.command.ackStart = wrap s.params 0 ∧ s.time = 0 + s.params.tHalf ∧ 1 < s.params.timeout ∧
        ∀ t, 0 + s.params.tPeriod ≤ t →
          (targetLow s.target t = true ↔
            ∃ j, bitLow s.params (!bitOf s.params.ackLevel) (0 + (j + 1) * byteFrameSpan s.params 1) t)) := by
  refine ⟨⟨rfl, rfl, rfl⟩, tiny_ideal, rfl, by decide, by decide, by decide, rfl, rfl, by decide, fun t ht => ?_⟩
  have hp : byteFrameSpan tiny 1 = 44 := rfl
  have ht : 4 ≤ t := by simpa [tiny, nacked, start] using ht
  have hb : ∀ e, bitLow tiny false e t ↔ e ≤ t ∧ t < e + 3 := fun e => Iff.rfl
  show targetLow (.repeating (byteFrameSpan tiny 1) [(0, 3)]) t = true ↔
    ∃ j, bitLow tiny false (0 + (j + 1) * byteFrameSpan tiny 1) t
  simp only [hp, hb, targetLow, List.any_cons, List.any_nil, Bool.or_false, Bool.and_eq_true, decide_eq_true_eq]
  constructor
  · rintro ⟨-, h⟩
    exact ⟨t / 44 - 1, by omega, by omega⟩
  · rintro ⟨j, h1, h2⟩
    omega

/-- A length byte of 255 in a buffer of one byte, a `dest` and a payload of none; and the runs of such calls. -/
theorem witness_SilentTarget :
    full.params.tRise = 0 ∧ (∀ t, targetLow full.target t = false) ∧ 0 < ({ base := 0, size := 1 } : Buffer).size ∧
      (7#8 : Byte).toNat < 8 ∧ (∃ t, exec (.rotf { base := 0, size := 1 } { base := 8, size := 0 }) full = .next t) ∧
      (∃ t, exec (.wireWotf { base := 0, size := 1 }) full = .next t) ∧
      ∃ t, exec (.sendCommand 7#8 3 { base := 0, size := 0 }) full = .next t :=
  ⟨rfl, fun _ => rfl, by decide, by decide, runs_of _ (by decide +kernel), runs_of _ (by decide +kernel),
    runs_of _ (by decide +kernel)⟩

/-! ### Entry and reset -/

theorem tiny_release : releaseCycle tiny 0 = 7 := rfl

/-- The shortest and the longest pulse, the fall with the first and with the last read. -/
theorem witness_SwimEntryMeasures (f r : Nat) (h : f = 7 ∧ r = 8 ∨ f = 9 ∧ r = 12) :
    (let s := start tiny 0 [(f, r)];
      s.Harness ∧ cyc s.params s.params.tEntryLowUs < 2 ^ (s.params.wCc - 1) ∧
        cyc s.params s.params.tToggle1kUs < 2 ^ (s.params.wCc - 1) ∧
        cyc s.params s.params.tToggle2kUs < 2 ^ (s.params.wCc - 1) ∧ s.params.tSettle < 2 ^ (s.params.wCc - 1) ∧
        releaseCycle s.params s.time ≤ f ∧
        f < releaseCycle s.params s.time + s.params.entryTimeoutA ∧ f < r ∧ r < f + s.params.entryTimeoutB ∧
        r < f + 2 ^ s.params.wCc ∧
        ∀ t, releaseCycle s.params s.time ≤ t → t ≤ r → (targetLow s.target t = true ↔ f ≤ t ∧ t < r)) := by
  refine ⟨start_harness _ _, (by decide : cyc tiny tiny.tEntryLowUs < 2 ^ (tiny.wCc - 1)),
    (by decide : cyc tiny tiny.tToggle1kUs < 2 ^ (tiny.wCc - 1)), (by decide : cyc tiny tiny.tToggle2kUs < 2 ^ (tiny.wCc - 1)),
    (by decide : tiny.tSettle < 2 ^ (tiny.wCc - 1)), ?_, ?_, by omega, ?_, ?_, fun t _ _ => by simp [start, targetLow]⟩
  all_goals rcases h with ⟨rfl, rfl⟩ | ⟨rfl, rfl⟩ <;> decide

/-- What `SwimEntryTimesOut` asks of the state, whatever the target does. -/
def EntryPremises (s : State) : Prop :=
  s.Harness ∧ cyc s.params s.params.tEntryLowUs < 2 ^ (s.params.wCc - 1) ∧
    cyc s.params s.params.tToggle1kUs < 2 ^ (s.params.wCc - 1) ∧ cyc s.params s.params.tToggle2kUs < 2 ^ (s.params.wCc - 1)

theorem tiny_entryPremises (B t : Nat) (lows : List (Nat × Nat)) :
    EntryPremises (start { tiny with entryTimeoutB := B } t lows) :=
  ⟨⟨rfl, rfl, rfl⟩, (by decide : cyc tiny tiny.tEntryLowUs < 2 ^ (tiny.wCc - 1)),
    (by decide : cyc tiny tiny.tToggle1kUs < 2 ^ (tiny.wCc - 1)), (by decide : cyc tiny tiny.tToggle2kUs < 2 ^ (tiny.wCc - 1))⟩

theorem witness_SwimEntryTimesOut_fall :
    (let s := start tiny 0 [(10, 11)];
      EntryPremises s ∧
        ∀ t, releaseCycle s.params s.time ≤ t → t < releaseCycle s.params s.time + s.params.entryTimeoutA →
          targetLow s.target t = false) := by
  refine ⟨tiny_entryPremises 4 0 _, fun t _ h => ?_⟩
  have h : t < 10 := h
  simp [start, targetLow]; omega

/-- The fall with the last read, and a budget of 4 and of 0 for the rise. -/
theorem witness_SwimEntryTimesOut_rise (B : Nat) (hB : B = 0 ∨ B = 4) :
    (let s := start { tiny with entryTimeoutB := B } 0 [(9, 13)];
      EntryPremises s ∧ releaseCycle s.params s.time ≤ 9 ∧ 9 < releaseCycle s.params s.time + s.params.entryTimeoutA ∧
        ∀ t, releaseCycle s.params s.time ≤ t → t < 9 + max 1 s.params.entryTimeoutB →
          (targetLow s.target t = true ↔ 9 ≤ t)) := by
  refine ⟨tiny_entryPremises B 0 _, by rcases hB with rfl | rfl <;> decide, by rcases hB with rfl | rfl <;> decide,
    fun t _ h => ?_⟩
  have h : t < 9 + max 1 B := h
  have h : t < 13 := by rcases hB with rfl | rfl <;> omega
  simp [start, targetLow]; omega

theorem witness_PulseTrain :
    vectors.tEntryLowUs = 16 ∧ vectors.nToggle1k = 4 ∧ vectors.nToggle2k = 4 ∧ vectors.tToggle1kUs = 500 ∧
      vectors.tToggle2kUs = 250 := by decide

theorem witness_ResetModes :
    0xFF#8 = vectors.resetRelease ∧ (1#8 ≠ vectors.resetRelease ∧ 1#8 ≠ 0#8) ∧
      (0xFE#8 ≠ vectors.resetRelease ∧ 0xFE#8 ≠ 0#8) ∧ vectors.resetRelease ≠ 0#8 := by decide

/-! ### The machine -/

theorem witness_StepRuns :
    (let s := (start tiny 0 []).setCalls [[0x01#8, 0xFF#8]];
      s.command.pos = .idle ∧ s.entry.pos = .idle ∧ s.calls = [0x01#8, 0xFF#8] :: [] ∧
        decode [0x01#8, 0xFF#8] = .ok (.reset 0xFF#8, []) ∧ (Instr.reset 0xFF#8).wellFormed = true) :=
  ⟨rfl, rfl, rfl, by decide, rfl⟩

theorem witness_Idle :
    (start tiny 0 []).command.pos = .idle ∧ (start tiny 0 []).entry.pos = .idle ∧ (start tiny 0 []).calls = [] := ⟨rfl, rfl, rfl⟩

/-- A state between calls, and one in which a command stands at a payload byte inside a critical section. -/
theorem witness_Invariant :
    (start tiny 0 []).Inv ∧
      ({ nacked 2 (.scripted []) with
          im := .masked, command := { (nacked 2 (.scripted [])).command with saved := some .unmasked } } : State).Inv := by
  constructor <;> constructor <;> first
    | rfl
    | exact ⟨.nil, fun e he => nomatch he⟩
    | (intro h; first | rfl | exact nomatch h)
    | decide +kernel

/-- Steps that answer a next state, with a call waiting, with none, and in the middle of a command. -/
theorem witness_Step :
    (∃ t, step (start tiny 0 []) = .next t) ∧ (∃ t, step ((start tiny 0 []).setCalls [[0x00#8]]) = .next t) ∧
      ∃ t, step (nacked 2 (.scripted [])) = .next t :=
  ⟨runs_of _ (by decide +kernel), runs_of _ (by decide +kernel), runs_of _ (by decide +kernel)⟩

/-- Where an operation stands after its first step and n more, if each of them answers a next state. -/
def reached (i : Instr) (s : State) : Nat → Option State
  | 0 =>
    match exec i s with
    | .next t => some t
    | _ => none
  | n + 1 =>
    match reached i s n with
    | none => none
    | some u =>
      if u.command.pos = .idle then none
      else match step u with
        | .next t => some t
        | _ => none

theorem reaches_of {i : Instr} {s t : State} {n : Nat} (h : reached i s n = some t) : OperationReaches i s n t := by
  induction n generalizing t with
  | zero =>
    unfold reached at h
    split at h <;> cases h
    assumption
  | succ n ih =>
    unfold reached at h
    split at h
    · cases h
    · rename_i u hu
      split at h
      · cases h
      · rename_i hp
        split at h <;> cases h
        exact ⟨u, ih hu, hp, by assumption⟩

/-- `wotf` against a target that acknowledges the command frame, answers NACK to the first payload byte, and is silent then: the
first step ends at that byte, and the second one returns. -/
def wotfNacked : State :=
  let e := frameEnd tiny 4 (0 + tiny.tSetup) + 1
  start tiny 0 [(e, e + 1), (e + byteFrameSpan tiny 1, e + byteFrameSpan tiny 1 + 3)]

def wotfData : Buffer := { base := 0, size := 4 }

theorem wotfNacked_reaches (n : Nat) (hn : n = 0 ∨ n = 1) :
    ∃ t, OperationReaches (.wotf wotfData) wotfNacked n t ∧ (t.command.pos = .idle ↔ n = 1) := by
  have h : (reached (.wotf wotfData) wotfNacked n).any (fun t => decide (t.command.pos = .idle ↔ n = 1)) = true := by
    rcases hn with rfl | rfl <;> decide +kernel
  obtain ⟨t, ht, hp⟩ := (Option.any_eq_true _ _).1 h
  exact ⟨t, reaches_of ht, of_decide_eq_true hp⟩

/-- A command in progress, inside a critical section, with nothing to receive: a step from it returns. -/
theorem witness_Resumed :
    (let s : State := { nacked 2 (.scripted []) with
        im := .masked, command := { (nacked 2 (.scripted [])).command with saved := some .unmasked } };
      s.command.pos ≠ .idle ∧ s.command.rxLen = 0 ∧ Memory.wf s.mem ∧ ∃ t, step s = .next t) :=
  ⟨fun h => (nomatch h), rfl, by decide +kernel, runs_of _ (by decide +kernel)⟩

theorem witness_OnlyResetAndInit (n : Nat) (hn : n = 0 ∨ n = 1) :
    Instr.wotf wotfData ≠ .init ∧ (∀ mode, Instr.wotf wotfData ≠ .reset mode) ∧
      ∃ t, OperationReaches (.wotf wotfData) wotfNacked n t :=
  ⟨fun h => (nomatch h), fun _ h => (nomatch h), (wotfNacked_reaches n hn).imp fun _ h => h.1⟩

theorem witness_OperationsRestore :
    Instr.wotf wotfData ≠ .enterCritical ∧ (∀ im, Instr.wotf wotfData ≠ .leaveCritical im) ∧ wotfNacked.command.pos = .idle ∧
      ∃ t, OperationReaches (.wotf wotfData) wotfNacked 1 t ∧ t.command.pos = .idle :=
  ⟨fun h => (nomatch h), fun _ h => (nomatch h), rfl, (wotfNacked_reaches 1 (.inr rfl)).imp fun _ h => ⟨h.1, h.2.2 rfl⟩⟩

theorem witness_OnlyReads (n : Nat) (hn : n = 0 ∨ n = 1) :
    (∀ d dest, Instr.wotf wotfData ≠ .rotf d dest) ∧ (∀ d dest, Instr.wotf wotfData ≠ .wireRotf d dest) ∧
      wotfNacked.command.pos = .idle ∧ ∃ t, OperationReaches (.wotf wotfData) wotfNacked n t :=
  ⟨fun _ _ h => (nomatch h), fun _ _ h => (nomatch h), rfl, (wotfNacked_reaches n hn).imp fun _ h => h.1⟩

/-- The longest duration with a projection, an error and a byte, with the default codes. -/
theorem witness_ReplyCodes :
    tiny.errors = {} ∧ 2 ^ (tiny.wCc - 1) - 1 < 2 ^ (tiny.wCc - 1) ∧
      Reply.code tiny (.duration (2 ^ (tiny.wCc - 1) - 1)) = some (2 ^ 31 - 1) ∧
      Reply.code tiny (.error (.rxByteTimeout 9)) = some (-29) ∧ Reply.code tiny (.byte 0xFF#8) = some 255 := by decide +kernel

end Sys2Proof.Tests
end

section
/-!
PROOF. The cycle arithmetic of R13 (O9). Laws/Cycles.lean has the sum and the difference; added here is that `sdiff` is the
signed reading of the difference: its range, and its class modulo 2^W_CC.
-/

namespace Sys2Proof.Machine

open Sys2Proof

variable (p : Params) (a b : Cycle)

theorem half_cast : ((2 ^ (p.wCc - 1) : Nat) : Int) = (2 : Int) ^ (p.wCc - 1) := by push_cast; rfl

theorem neg_half_le_sdiff : -2 ^ (p.wCc - 1) ≤ sdiff p a b := by
  have hle : -(((2 ^ p.wCc : Nat) : Int) / 2) ≤ sdiff p a b := Int.le_bmod (Nat.two_pow_pos _)
  have hmod := modulus_half p
  rw [← half_cast]
  omega

theorem sdiff_lt_half : sdiff p a b < 2 ^ (p.wCc - 1) := by
  have hlt : sdiff p a b < (((2 ^ p.wCc : Nat) : Int) + 1) / 2 := Int.bmod_lt (Nat.two_pow_pos _)
  have hmod := modulus_half p
  rw [← half_cast]
  omega

/-- `sdiff(a, b)` stands for the class of a − b modulo 2^W_CC. -/
theorem sdiff_sub_emod : (sdiff p a b - ((a : Int) - b)) % 2 ^ p.wCc = 0 := by
  rw [← modulus_cast, sdiff]
  exact Int.emod_eq_emod_iff_emod_sub_eq_zero.1 Int.bmod_emod

theorem atOrAfter_iff : atOrAfter p a b = true ↔ 0 ≤ sdiff p a b := decide_eq_true_iff

/-- Settles O9: each clause is one law of the cycle operations. A counter of no bits (W_CC 0) has modulus 1 and half window 1
(`modulus_half`), and the range of `sdiff` holds there too. -/
theorem cycleArithmetic : Obligations.CycleArithmetic := by
  intro p
  constructor
  · intro t d
    exact ⟨rfl, minus_cast p t d, wrap_lt p (t + d), minus_lt p t d⟩
  · intro a b
    exact ⟨neg_half_le_sdiff p a b, Int.le_sub_one_of_lt (sdiff_lt_half p a b), sdiff_sub_emod p a b, atOrAfter_iff p a b⟩

end Sys2Proof.Machine
end

section
/-!
PROOF. The descriptor of R64 (O5): its last three bytes, put side by side, are the address in base 256 (`toNat_append_byte` of
Laws/Decode.lean, once per byte).
-/

namespace Sys2Proof.Machine

open Sys2Proof

variable (d0 d1 d2 d3 : Byte)

theorem decodeHeader_len : (decodeHeader d0 d1 d2 d3).1 = d0 := rfl

theorem decodeHeader_addr_toNat :
    (decodeHeader d0 d1 d2 d3).2.toNat = d1.toNat * 2 ^ 16 + d2.toNat * 2 ^ 8 + d3.toNat :=
  calc (d1 ++ d2 ++ d3).toNat
    _ = (d1.toNat * 256 + d2.toNat) * 256 + d3.toNat := by rw [toNat_append_byte, toNat_append_byte]
    _ = d1.toNat * 2 ^ 16 + d2.toNat * 2 ^ 8 + d3.toNat := by omega

/-- Settles O5: the length is the first byte as it stands, and the address is the big-endian value of the other three. -/
theorem descriptorIsBigEndian : Obligations.DescriptorIsBigEndian :=
  fun d0 d1 d2 d3 => ⟨decodeHeader_len d0 d1 d2 d3, decodeHeader_addr_toNat d0 d1 d2 d3⟩

end Sys2Proof.Machine
end

section
/-!
PROOF. The numeric codes of R95 and R96 (O60): the default codes are injective because an error can be read back from its code,
and they are the only negative integers the projection gives where a duration is below 2^(W_CC−1).
-/

namespace Sys2Proof.Machine

open Sys2Proof

/-! ### The default codes of R96 -/

theorem Error.code_rxByteTimeout (c : ErrorCodes) (i : Fin 10) : Error.code c (.rxByteTimeout i) = -((i.val : Int) + 20) := rfl

/-- The table of R96 read from right to left: what an error's default code says the error was. -/
def errorOfCode (n : Int) : Error :=
  if n ≤ -20 then .rxByteTimeout (Fin.ofNat 10 (-n - 20).toNat)
  else if n = -1 then .readBitTimeout
  else if n = -2 then .invalidTargetId
  else if n = -3 then .parityError
  else if n = -4 then .nack
  else if n = -5 then .syncTimeout1
  else .syncTimeout2

theorem errorOfCode_code (e : Error) : errorOfCode (Error.code {} e) = e := by
  cases e with
  | rxByteTimeout i =>
    have hrange : -((i.val : Int) + 20) ≤ -20 := by omega
    have hindex : (-(-((i.val : Int) + 20)) - 20).toNat = i.val := by omega
    rw [Error.code_rxByteTimeout, errorOfCode, if_pos hrange, hindex, Fin.ofNat_val_eq_self]
  | readBitTimeout | invalidTargetId | parityError | nack | syncTimeout1 | syncTimeout2 => rfl

theorem Error.code_default_injective : Function.Injective (Error.code {}) := Function.LeftInverse.injective errorOfCode_code

theorem Error.code_default_neg (e : Error) : Error.code {} e < 0 := by
  cases e with
  | rxByteTimeout i => rw [Error.code_rxByteTimeout]; omega
  | readBitTimeout | invalidTargetId | parityError | nack | syncTimeout1 | syncTimeout2 => decide

/-! ### The integer of a reply (R95, R179) -/

variable (p : Params)

theorem Reply.code_ok : Reply.code p .ok = some 0 := rfl

theorem Reply.code_byte (v : Byte) : Reply.code p (.byte v) = some (v.toNat : Int) := rfl

theorem Reply.code_error (e : Error) : Reply.code p (.error e) = some (e.code p.errors) := rfl

theorem Reply.code_duration {d : Nat} (hd : d < 2 ^ (p.wCc - 1)) : Reply.code p (.duration d) = some (d : Int) :=
  congrArg some (if_pos hd)

variable {p} {r : Reply} {n : Int}

theorem Reply.code_error_neg {e : Error} (hp : p.errors = {}) (hn : Reply.code p (.error e) = some n) : n < 0 := by
  rw [Reply.code_error, hp] at hn
  cases hn
  exact e.code_default_neg

/-- Success is never negative, whatever the codes: 0, a byte, or a duration that has a projection (R228). -/
theorem Reply.code_nonneg (hn : Reply.code p r = some n) (hd : ∀ d, r = .duration d → d < 2 ^ (p.wCc - 1))
    (he : ∀ e, r ≠ .error e) : 0 ≤ n := by
  cases r with
  | ok => rw [Reply.code_ok] at hn; cases hn; exact le_rfl
  | byte v => rw [Reply.code_byte] at hn; cases hn; exact Int.natCast_nonneg _
  | duration d => rw [Reply.code_duration p (hd d rfl)] at hn; cases hn; exact Int.natCast_nonneg _
  | error e => exact absurd rfl (he e)
  | none | bit | cycle | saved => cases hn

theorem Reply.code_neg_iff (hp : p.errors = {}) (hn : Reply.code p r = some n)
    (hd : ∀ d, r = .duration d → d < 2 ^ (p.wCc - 1)) : n < 0 ↔ ∃ e, r = .error e := by
  constructor
  · intro hneg
    by_contra hr
    exact absurd hneg (Int.not_lt.2 (Reply.code_nonneg hn hd (not_exists.1 hr)))
  · rintro ⟨e, rfl⟩
    exact Reply.code_error_neg hp hn

/-- Settles O60: the six fixed codes are the defaults of R96, and the other clauses are the lemmas on `Error.code` and
`Reply.code`. -/
theorem errorCodesAreDistinct : Obligations.ErrorCodesAreDistinct :=
  ⟨rfl, rfl, rfl, rfl, rfl, rfl, Error.code_rxByteTimeout, fun _ _ h => Error.code_default_injective h, Error.code_default_neg,
    fun p => ⟨Reply.code_ok p, Reply.code_byte p, fun _ => Reply.code_duration p, Reply.code_error p⟩,
    fun _ _ _ => Reply.code_neg_iff⟩

end Sys2Proof.Machine
end

section
/-!
PROOF. The timing primitives `later`, `now`, `wait_until` and `enter_critical` (O10, O11, O12, O14). Laws/Cycles.lean has where a
wait ends; added here is when: the spin goes on for as long as the signed difference is negative, so that no cycle before its end
is at or after the target.
-/

namespace Sys2Proof.Machine

open Sys2Proof

/-! ### The later of two cycles (R114) -/

section
variable (p : Params)

theorem later_eq (a b : Cycle) : later p a b = if 0 ≤ sdiff p a b then a else b := by simp [later, atOrAfter_iff]

theorem later_self (a : Cycle) : later p a a = a := ite_self a

/-- Settles O10. -/
theorem laterChoosesTheLater : Obligations.LaterChoosesTheLater :=
  fun p => ⟨later_eq p, later_self p, fun _ _ => later_wrap p⟩

end

/-! ### Frames: no pin moves -/

theorem WireOnly.noPins {s t : State} (h : WireOnly s t) (hsignal : t.signal = s.signal) (hreleased : t.releasedAt = s.releasedAt)
    (hframe : t.frame = s.frame) : NoPins s t where
  signal := hsignal
  resetPin := h.resetPin
  releasedAt := hreleased
  params := h.params
  mem := h.mem
  cursor := h.cursor
  frame := hframe
  entry := h.entry
  command := h.command
  calls := h.calls
  target := h.target
  forward := h.forward

/-- A reply is none of the things `NoPins` speaks of. -/
theorem NoPins.reply {s t : State} (h : NoPins s t) (r : Reply) : NoPins s (t.reply r) := { h with }

theorem elapse_noPins (s : State) (due : Option Cycle := none) : NoPins s (s.elapse due) :=
  (elapse_wire s due).noPins (State.elapse_signal due s) (State.elapse_releasedAt due s) (State.elapse_frame due s)

theorem waitUntil_noPins (c : Cycle) (s : State) : NoPins s (s.waitUntil c) :=
  (waitUntil_wire c s).noPins (State.waitUntil_signal c s) (State.waitUntil_releasedAt c s) (State.waitUntil_frame c s)

theorem enterCritical_noPins (s : State) : NoPins s s.enterCritical := by
  constructor
  case forward => exact enterCritical_forward s
  all_goals simp

/-! ### The counter (R110) -/

section
variable (s : State)

/-- Two reads of the counter less than a whole turn apart differ by the elapsed cycles (R110). -/
theorem minus_cc_advance {d : Nat} (hd : d < 2 ^ s.params.wCc) : minus s.params (s.advance d).cc s.cc = d := by
  have hdist : minus s.params (s.advance d).cc s.cc = s.time + d - s.time :=
    minus_wrap_wrap s.params (Nat.le_add_right _ _) (Nat.add_lt_add_left hd _)
  rw [hdist, Nat.add_sub_cancel_left]

/-- After its largest value the counter is at 0 (R36). -/
theorem cc_advance_one_of_max (h : s.cc = 2 ^ s.params.wCc - 1) : (s.advance 1).cc = 0 :=
  calc (s.advance 1).cc
    _ = plus s.params s.cc 1 := (plus_wrap s.params s.time 1).symm
    _ = wrap s.params (2 ^ s.params.wCc) := by rw [h, plus, Nat.sub_add_cancel Nat.one_le_two_pow]
    _ = 0 := Nat.mod_self _

/-- Settles O11: the counter after the call is the one that was returned, and the clauses on later reads hold of every state. -/
theorem nowReturnsTheCounter : Obligations.NowReturnsTheCounter := by
  intro s
  rw [← State.elapse_params none s]
  refine ⟨s.elapse.reply (.cycle s.elapse.cc), rfl, rfl, (elapse_noPins s).reply _, State.elapse_im none s,
    State.elapse_trace none s, ?_, fun _ => minus_cc_advance _, cc_advance_one_of_max _⟩
  intro h
  rw [h.elapse, State.reply_time]

end

/-! ### The wait (R111) -/

section
variable (p : Params) (a b : Cycle)

/-- The cycles from b on to a where b is before a: at most half a turn, so that no reduction modulo 2^W_CC shows. -/
theorem minus_eq_neg_sdiff (h : sdiff p b a < 0) : (minus p a b : Int) = -sdiff p b a := by
  have hclass : ((a : Int) - b) % 2 ^ p.wCc = -sdiff p b a % 2 ^ p.wCc := by
    refine Int.emod_eq_emod_iff_emod_sub_eq_zero.2 ?_
    rw [← sdiff_sub_emod p b a]
    congr 1
    ring
  have hlow : -(((2 ^ p.wCc : Nat) : Int) / 2) ≤ sdiff p b a := Int.le_bmod (Nat.two_pow_pos _)
  rw [modulus_cast] at hlow
  rw [minus_cast, hclass, Int.emod_eq_of_lt] <;> omega

/-- Short of the cycles from t on to c, a time after t is still before c (R13, R111). -/
theorem sdiff_neg_of_lt_minus {t n : Nat} {c : Cycle} (h : sdiff p (wrap p t) c < 0) (hn : n < minus p c (wrap p t)) :
    sdiff p (wrap p (t + n)) c < 0 := by
  have hlow : -(((2 ^ p.wCc : Nat) : Int) / 2) ≤ sdiff p (wrap p t) c := Int.le_bmod (Nat.two_pow_pos _)
  have hspin := minus_eq_neg_sdiff p c (wrap p t) h
  rw [sdiff_add, Int.bmod_eq_of_le] <;> omega

end

section
variable (c : Cycle) (s : State)

theorem reach_time :
    (s.reach c).time = s.time + if 0 ≤ sdiff s.params s.cc c then 0 else minus s.params c s.cc := by
  unfold State.reach
  simp only [atOrAfter_iff]
  split
  · rfl
  · exact State.advance_time _ s

/-- The spin of a wait ends at the first cycle from now on that is at or after its target (R111). -/
theorem reach_time_le {n : Nat} (h : atOrAfter s.params (s.advance n).cc c = true) : (s.reach c).time ≤ s.time + n := by
  rw [reach_time]
  split
  case isTrue => exact Nat.le_add_right _ _
  case isFalse hbefore =>
    refine Nat.add_le_add_left (Nat.le_of_not_lt fun hn => ?_) _
    exact Int.not_lt.2 ((atOrAfter_iff ..).1 h) (sdiff_neg_of_lt_minus s.params (Int.not_le.1 hbefore) hn)

/-- Whatever draws it takes, a wait ends no earlier than its bare spin would, begun at once (R111). -/
theorem reach_time_le_waitUntil : (s.reach c).time ≤ (s.waitUntil c).time := by
  obtain ⟨n, hn⟩ := Nat.le.dest (waitUntil_wire c s).forward.time
  have hcc : (s.advance n).cc = (s.waitUntil c).cc := by
    rw [State.cc_advance, hn, State.cc, State.waitUntil_params]
  rw [← hn]
  exact reach_time_le c s (hcc ▸ waitUntil_atOrAfter c s)

/-- Settles O12: the bound of the statement is the end of the bare spin (`reach_time`), which no draw makes earlier and which
HARNESS timing meets. -/
theorem waitUntilReachesItsTarget : Obligations.WaitUntilReachesItsTarget := by
  intro c s
  refine ⟨(s.waitUntil c).reply .none, rfl, rfl, (waitUntil_noPins c s).reply _, State.waitUntil_im c s,
    State.waitUntil_trace c s, (atOrAfter_iff ..).1 (waitUntil_atOrAfter c s), ?_, ?_⟩
  · rw [← reach_time]
    exact reach_time_le_waitUntil c s
  · intro h
    rw [State.reply_time, h.waitUntil, reach_time]

end

/-! ### The critical section (R115) -/

/-- Settles O14: the saved state is IM before the call, and the one new event is `irq_mask`. -/
theorem enterCriticalMasks : Obligations.EnterCriticalMasks :=
  fun s => ⟨s.enterCritical.reply (.saved s.im), rfl, rfl, State.enterCritical_im s, (enterCritical_noPins s).reply _,
    Acts.newActions (enterCritical_acts s)⟩

end Sys2Proof.Machine
end

section
/-!
PROOF. The poll of R127 (O19). Laws/Wire.lean and Laws/Events.lean have its frame and what its reads saw; added here is their
spacing: an iteration that misses the level costs POLL_MIN cycles at least, and every later read comes after it.
-/

namespace Sys2Proof.Machine

open Sys2Proof

variable {want : Level} {budget : Nat} {s : State}

/-! ### One iteration -/

theorem poll_succ_of_seen (h : s.lineLevel = want) :
    poll want (budget + 1) s = (some s.pinRead.elapse.cc, s.pinRead.elapse) := if_pos h

theorem poll_succ_of_missed (h : s.lineLevel ≠ want) : poll want (budget + 1) s = poll want budget s.pinRead.pollCost := if_neg h

variable (s) in
theorem pinRead_emits : Emits s s.pinRead [{ cycle := s.time, action := .read s.lineLevel }] :=
  .of_forward (pinRead_wire s).forward (State.pinRead_trace s)

variable (s) in
theorem pinRead_elapse_emits : Emits s s.pinRead.elapse [{ cycle := s.time, action := .read s.lineLevel }] :=
  (pinRead_emits s).trans (.of_quiet (elapse_forward s.pinRead) (State.elapse_trace _ _))

variable (s) in
theorem pinRead_pollCost_emits : Emits s s.pinRead.pollCost [{ cycle := s.time, action := .read s.lineLevel }] :=
  (pinRead_emits s).trans (.of_quiet (pollCost_wire s.pinRead).forward (State.pollCost_trace _))

/-- An iteration that does not end the poll takes POLL_MIN cycles at least (D7). -/
theorem pollMin_le_pinRead_pollCost : s.time + s.params.pollMin ≤ s.pinRead.pollCost.time := by
  rw [State.pollCost_time, State.pinRead_time, State.pinRead_params]
  omega

/-! ### All iterations -/

theorem newEvents_poll_of_missed (h : s.lineLevel ≠ want) :
    newEvents s (poll want (budget + 1) s).2 =
      { cycle := s.time, action := .read s.lineLevel } :: newEvents s.pinRead.pollCost (poll want budget s.pinRead.pollCost).2 := by
  obtain ⟨rest, hrest, -⟩ := poll_events want budget s.pinRead.pollCost
  rw [poll_succ_of_missed h, hrest.newEvents, ((pinRead_pollCost_emits s).trans hrest).newEvents, List.singleton_append]

variable (want budget s)

theorem le_cycle_of_mem_newEvents_poll : ∀ e ∈ newEvents s (poll want budget s).2, s.time ≤ e.cycle := by
  obtain ⟨ev, hev, -⟩ := poll_events want budget s
  rw [hev.newEvents]
  exact fun e he => (hev.span e he).1

theorem poll_spaced :
    (newEvents s (poll want budget s).2).Pairwise (fun a b => a.cycle + s.params.pollMin ≤ b.cycle) := by
  induction budget generalizing s with
  | zero =>
    have hnone : newEvents s (poll want 0 s).2 = [] := (Emits.refl s).newEvents
    rw [hnone]
    exact .nil
  | succ k ih =>
    by_cases h : s.lineLevel = want
    case pos =>
      rw [poll_succ_of_seen h, (pinRead_elapse_emits s).newEvents]
      exact List.pairwise_singleton _ _
    case neg =>
      rw [newEvents_poll_of_missed h]
      refine List.pairwise_cons.2 ⟨fun e he => ?_, ?_⟩
      · exact pollMin_le_pinRead_pollCost.trans (le_cycle_of_mem_newEvents_poll want k s.pinRead.pollCost e he)
      · have hrest := ih s.pinRead.pollCost
        rwa [State.pollCost_params, State.pinRead_params] at hrest

variable {want budget s}

theorem polled_of_poll_none (h : (poll want budget s).1 = none) : Polled want budget (newEvents s (poll want budget s).2) none := by
  obtain ⟨ev, hev, -, hpolled⟩ := poll_events want budget s
  rw [hev.newEvents]
  simpa only [h] using hpolled

theorem polled_of_poll_some {c : Cycle} (h : (poll want budget s).1 = some c) :
    c = (poll want budget s).2.cc ∧ Polled want budget (newEvents s (poll want budget s).2) (some (poll want budget s).2.time) := by
  obtain ⟨ev, hev, -, hpolled⟩ := poll_events want budget s
  rw [hev.newEvents]
  simpa only [h] using hpolled

/-- The one read that sees the level is the last. -/
theorem Polled.last_read {ev : List Event} {n : Nat} (h : Polled want budget ev (some n)) :
    ∃ (missed : List Event) (k : Nat), ev = missed ++ [{ cycle := k, action := .read want }] ∧ missed.length < budget ∧
      ∀ e ∈ missed, ∃ l, l ≠ want ∧ e.action = .read l := by
  obtain ⟨missed, ⟨k, _⟩, hev, hlen, hmissed, rfl, -⟩ := h
  exact ⟨missed, k, hev, hlen, hmissed⟩

/-- Settles O19: the frame is that of `poll_wire`, the spacing is `poll_spaced`, and what the reads saw is `Polled` for either
answer. -/
theorem pollReadsTheLevel : Obligations.PollReadsTheLevel := by
  intro want budget s
  refine ⟨poll_wire want budget s, poll_signal want budget s, poll_frame want budget s, poll_releasedAt want budget s,
    poll_spaced want budget s, ?_, polled_of_poll_none, fun c hc => ?_⟩
  · rintro rfl
    rfl
  · obtain ⟨hcc, hpolled⟩ := polled_of_poll_some hc
    exact ⟨hcc, hpolled.last_read⟩

end Sys2Proof.Machine
end

section
/-!
PROOF. `reset(mode)` and `init` (O48, O49). Both are nothing but writes of RESET (R185, R186): `ResetWrites` says once
what a list of such writes does, and each branch of `reset`, and `init`, is one list.
-/

namespace Sys2Proof.Machine

open Sys2Proof

/-! ### Writes of RESET -/

namespace ResetOnly

theorem trans {s t u : State} (h : ResetOnly s t) (g : ResetOnly t u) : ResetOnly s u where
  signal := g.signal.trans h.signal
  releasedAt := g.releasedAt.trans h.releasedAt
  im := g.im.trans h.im
  params := g.params.trans h.params
  mem := g.mem.trans h.mem
  cursor := g.cursor.trans h.cursor
  frame := g.frame.trans h.frame
  entry := g.entry.trans h.entry
  command := g.command.trans h.command
  calls := g.calls.trans h.calls
  target := g.target.trans h.target
  forward := h.forward.trans g.forward

/-- A reply is none of the things `ResetOnly` speaks of. -/
theorem reply {s t : State} (h : ResetOnly s t) (r : Reply) : ResetOnly s (t.reply r) := { h with }

end ResetOnly

theorem pinSet_reset_forward (a : PinAction) (s : State) : Forward s (s.pinSet .reset a) :=
  (elapse_forward s).trans (.of_event rfl rfl (State.pinWrite_reset_trace a s.elapse))

theorem pinSet_resetOnly (a : PinAction) (s : State) : ResetOnly s (s.pinSet .reset a) := by
  constructor
  case forward => exact pinSet_reset_forward a s
  all_goals simp

/-- From s to t these are the writes, in order, all of RESET, with the frame of `ResetOnly`. -/
structure ResetWrites (as : List PinAction) (s t : State) : Prop where
  frame : ResetOnly s t
  resetPin : t.resetPin = as.foldl (fun p a => p.write a) s.resetPin
  acts : Acts s t (as.map (Action.pin .reset))

namespace ResetWrites

variable {as bs : List PinAction} {s t u : State}

theorem trans (h : ResetWrites as s t) (g : ResetWrites bs t u) : ResetWrites (as ++ bs) s u where
  frame := h.frame.trans g.frame
  resetPin := by rw [List.foldl_append, ← h.resetPin, g.resetPin]
  acts := List.map_append ▸ h.acts.trans g.acts

theorem reply (h : ResetWrites as s t) (r : Reply) : ResetWrites as s (t.reply r) :=
  ⟨h.frame.reply r, h.resetPin, h.acts⟩

end ResetWrites

theorem pinSet_resetWrites (a : PinAction) (s : State) : ResetWrites [a] s (s.pinSet .reset a) :=
  ⟨pinSet_resetOnly a s, State.pinSet_reset_resetPin a none s, (pinSet_plan .reset a s).acts⟩

/-- The latch, then the direction (R185, R186). -/
theorem driveReset_resetWrites (a : PinAction) (s : State) :
    ResetWrites [a, .setOutput] s ((s.pinSet .reset a).pinSet .reset .setOutput) :=
  (pinSet_resetWrites a s).trans (pinSet_resetWrites .setOutput _)

/-! ### The operations -/

section
variable {mode : Byte} {s : State}

theorem exec_reset : exec (.reset mode) s = execReset mode s := rfl

theorem exec_reset_release (h : mode = s.params.resetRelease) :
    exec (.reset mode) s = .next ((s.pinSet .reset .setInput).reply .none) := by
  rw [exec_reset, execReset, if_pos h]

theorem exec_reset_assert (h : mode ≠ s.params.resetRelease) (h0 : mode ≠ 0#8) :
    exec (.reset mode) s = .next (((s.pinSet .reset .setLow).pinSet .reset .setOutput).reply .none) := by
  rw [exec_reset, execReset, if_neg h, if_pos h0]

variable (s) in
theorem exec_init :
    exec .init s = .next (((s.pinSet .reset .setHigh).pinSet .reset .setOutput).reply .none) := rfl

/-- R186: `init` is `reset(0)`, unless 0 is the value that lets RESET go. -/
theorem exec_reset_zero (h : 0#8 ≠ s.params.resetRelease) : exec (.reset 0#8) s = exec .init s := by
  rw [exec_reset, execReset, if_neg h, if_neg (not_not_intro rfl), exec_init]

end

/-- Settles O48: one list of writes for each of the three meanings of the mode. -/
theorem resetModes : Obligations.ResetModes := by
  intro mode s
  by_cases hrelease : mode = s.params.resetRelease
  case pos =>
    have h := (pinSet_resetWrites .setInput s).reply .none
    refine ⟨_, exec_reset_release hrelease, rfl, h.frame, ?_⟩
    rw [if_pos hrelease]
    exact ⟨h.resetPin, h.acts.newActions⟩
  case neg =>
    by_cases hzero : mode = 0#8
    case pos =>
      subst hzero
      have h := (driveReset_resetWrites .setHigh s).reply .none
      refine ⟨_, (exec_reset_zero hrelease).trans (exec_init s), rfl, h.frame, ?_⟩
      rw [if_neg hrelease, if_neg (not_not_intro rfl)]
      exact ⟨h.resetPin, h.acts.newActions⟩
    case neg =>
      have h := (driveReset_resetWrites .setLow s).reply .none
      refine ⟨_, exec_reset_assert hrelease hzero, rfl, h.frame, ?_⟩
      rw [if_neg hrelease, if_pos hzero]
      exact ⟨h.resetPin, h.acts.newActions⟩

/-- Settles O49: `init` is the list of writes that drives RESET HIGH, and so is `reset(0)` (`exec_reset_zero`). -/
theorem initDrivesReset : Obligations.InitDrivesReset := by
  intro s
  have h := (driveReset_resetWrites .setHigh s).reply .none
  exact ⟨_, exec_init s, rfl, h.frame, h.resetPin, h.acts.newActions, fun hne => exec_reset_zero hne.symm⟩

end Sys2Proof.Machine
end

section
/-!
PROOF. Call messages and operand forms (O1, O2, O3, O4, O6, O7, O8, O50, O51). Laws/Decode.lean has that each operand is read back
as it was written; added here is the converse, so that an equivalence says what each reader accepts, and `decodeOperands_cases`
what the decoder can answer.
-/

namespace Sys2Proof

section
variable {m rest : List Byte}

theorem takeByte_eq_ok {v : Byte} : takeByte m = .ok (v, rest) ↔ m = v :: rest := by
  cases m with
  | nil => exact ⟨nofun, nofun⟩
  | cons a m => simp [takeByte_cons]

theorem putWord_append (a b c d : Byte) : putWord (a ++ b ++ c ++ d) = [a, b, c, d] := by
  have ha := a.isLt
  have hb := b.isLt
  have hc := c.isLt
  have hd := d.isLt
  simp only [putWord, List.cons.injEq, and_true]
  refine ⟨?_, ?_, ?_, ?_⟩ <;> apply BitVec.eq_of_toNat_eq <;>
    simp only [BitVec.extractLsb'_toNat, toNat_append_byte, Nat.shiftRight_eq_div_pow] <;> omega

theorem takeWord_eq_ok {w : BitVec 32} : takeWord m = .ok (w, rest) ↔ m = putWord w ++ rest := by
  constructor
  · intro h
    unfold takeWord at h
    split at h
    · cases h; rw [putWord_append]; rfl
    · cases h
  · rintro rfl
    exact takeWord_putWord w rest

theorem putHalf_append (a b : Byte) : putHalf (a ++ b) = [a, b] := by
  have ha := a.isLt
  have hb := b.isLt
  simp only [putHalf, List.cons.injEq, and_true]
  refine ⟨?_, ?_⟩ <;> apply BitVec.eq_of_toNat_eq <;>
    simp only [BitVec.extractLsb'_toNat, toNat_append_byte, Nat.shiftRight_eq_div_pow] <;> omega

theorem takeHalf_eq_ok {w : BitVec 16} : takeHalf m = .ok (w, rest) ↔ m = putHalf w ++ rest := by
  constructor
  · intro h
    unfold takeHalf at h
    split at h
    · cases h; rw [putHalf_append]; rfl
    · cases h
  · rintro rfl
    exact takeHalf_putHalf w rest

/-- The base-256 digits of a cycle of eight bytes are those bytes. -/
theorem ofNat_div_eq {n k : Nat} {a : Byte} (h : n / 2 ^ k % 256 = a.toNat) : BitVec.ofNat 8 (n / 2 ^ k) = a :=
  BitVec.eq_of_toNat_eq (by rw [BitVec.toNat_ofNat]; exact h)

theorem cycleOk_iff {n : Nat} : cycleOk n = true ↔ n < 2 ^ 64 := decide_eq_true_iff

theorem takeCycle_eq_ok {c : Cycle} : takeCycle m = .ok (c, rest) ↔ cycleOk c = true ∧ m = putCycle c ++ rest := by
  constructor
  · intro h
    match m with
    | a0 :: a1 :: a2 :: a3 :: a4 :: a5 :: a6 :: a7 :: m =>
      rw [takeCycle_bytes] at h
      obtain ⟨rfl, rfl⟩ := Prod.mk.inj (Except.ok.inj h)
      have h0 := a0.isLt
      have h1 := a1.isLt
      have h2 := a2.isLt
      have h3 := a3.isLt
      have h4 := a4.isLt
      have h5 := a5.isLt
      have h6 := a6.isLt
      have h7 := a7.isLt
      refine ⟨cycleOk_iff.2 (by omega), ?_⟩
      rw [putCycle_bytes]
      simp only [List.cons_append, List.nil_append, List.cons.injEq, and_true]
      refine ⟨?_, ?_, ?_, ?_, ?_, ?_, ?_, ?_⟩ <;> symm <;> apply ofNat_div_eq <;> omega
    | [] | [_] | [_, _] | [_, _, _] | [_, _, _, _] | [_, _, _, _, _] | [_, _, _, _, _, _] | [_, _, _, _, _, _, _] => cases h
  · rintro ⟨hc, rfl⟩
    exact takeCycle_putCycle hc rest

theorem takeFlag_eq_ok {b : Bool} : takeFlag m = .ok (b, rest) ↔ m = putFlag b ++ rest := by
  constructor
  · intro h
    unfold takeFlag at h
    split at h
    case h_1 v _ hv =>
      rw [takeByte_eq_ok] at hv
      subst hv
      split at h
      case isTrue h0 => cases h; rw [h0]; rfl
      case isFalse =>
        split at h
        case isTrue h1 => cases h; rw [h1]; rfl
        case isFalse => cases h
    case h_2 => cases h
  · rintro rfl
    exact takeFlag_putFlag b rest

theorem takeMask_eq_ok {im : IrqMask} : takeMask m = .ok (im, rest) ↔ m = putMask im ++ rest := by
  constructor
  · intro h
    unfold takeMask at h
    split at h
    case h_1 b _ hb =>
      rw [takeFlag_eq_ok] at hb
      cases h
      rw [hb]
      cases b <;> rfl
    case h_2 => cases h
  · rintro rfl
    exact takeMask_putMask im rest

theorem takeBuffer_eq_ok {b : Buffer} : takeBuffer m = .ok (b, rest) ↔ b.wellFormed = true ∧ m = putBuffer b ++ rest := by
  constructor
  · intro h
    refine ⟨takeBuffer_wellFormed h, ?_⟩
    unfold takeBuffer at h
    split at h
    case h_1 base _ hbase =>
      split at h
      case h_1 size _ hsize =>
        dsimp only at h
        split at h
        case isTrue =>
          cases h
          rw [takeWord_eq_ok.1 hbase, takeWord_eq_ok.1 hsize]
          simp only [putBuffer, BitVec.ofNat_toNat, BitVec.setWidth_eq, BitVec.add_sub_cancel, List.append_assoc]
        case isFalse => cases h
      case h_2 => cases h
    case h_2 => cases h
  · rintro ⟨hb, rfl⟩
    exact takeBuffer_putBuffer hb rest

theorem takeCommandId_eq_ok {cmd : Byte} : takeCommandId m = .ok (cmd, rest) ↔ commandIdOk cmd = true ∧ m = cmd :: rest := by
  constructor
  · intro h
    unfold takeCommandId at h
    split at h
    case h_1 v _ hv =>
      split at h
      case isTrue hok => cases h; exact ⟨hok, takeByte_eq_ok.1 hv⟩
      case isFalse => cases h
    case h_2 => cases h
  · rintro ⟨hc, rfl⟩
    exact takeCommandId_cons hc rest

theorem takeFrameLength_eq_ok {n : Nat} :
    takeFrameLength m = .ok (n, rest) ↔ frameLengthOk n = true ∧ m = BitVec.ofNat 8 (n - 4) :: rest := by
  constructor
  · intro h
    unfold takeFrameLength at h
    split at h
    case h_1 v _ hv =>
      split at h
      case isTrue hok =>
        cases h
        refine ⟨hok, ?_⟩
        rw [takeByte_eq_ok.1 hv, Nat.add_sub_cancel, BitVec.ofNat_toNat, BitVec.setWidth_eq]
      case isFalse => cases h
    case h_2 => cases h
  · rintro ⟨hn, rfl⟩
    exact takeFrameLength_cons hn rest

end

theorem except_bind_eq_ok {ε α β : Type} {x : Except ε α} {f : α → Except ε β} {b : β} :
    (x >>= f) = .ok b ↔ ∃ a, x = .ok a ∧ f a = .ok b := by
  cases x with
  | error e => exact ⟨nofun, nofun⟩
  | ok a => exact ⟨fun h => ⟨a, rfl, h⟩, fun ⟨_, ha, h⟩ => by cases ha; exact h⟩

theorem eq_ofNat_of_toNat {sel : Byte} {n : Nat} (h : sel.toNat = n) : sel = BitVec.ofNat 8 n := by
  rw [← h, BitVec.ofNat_toNat, BitVec.setWidth_eq]

/-- What `decodeOperands` can answer: a well-formed operation of this selector, whose operands stand in front of the rest. -/
theorem decodeOperands_cases {sel : Byte} {m rest : List Byte} {i : Instr} (h : decodeOperands sel m = .ok (i, rest)) :
    i.wellFormed = true ∧ selector i = sel ∧ m = encodeOperands i ++ rest := by
  unfold decodeOperands at h
  split at h
  case h_1 hn | h_3 hn | h_4 hn | h_8 hn | h_10 hn | h_14 hn | h_16 hn | h_17 hn =>
    cases h; exact ⟨rfl, (eq_ofNat_of_toNat hn).symm, rfl⟩
  case h_20 => cases h
  all_goals
    rename_i hn
    simp only [except_bind_eq_ok, Prod.exists, takeByte_eq_ok, takeBuffer_eq_ok, takeWord_eq_ok, takeCommandId_eq_ok,
      takeCycle_eq_ok, takeMask_eq_ok, takeFlag_eq_ok, takeHalf_eq_ok, takeFrameLength_eq_ok] at h
  case h_2 =>
    obtain ⟨mode, m, rfl, h⟩ := h
    cases h; exact ⟨rfl, (eq_ofNat_of_toNat hn).symm, rfl⟩
  case h_5 | h_18 =>
    obtain ⟨d, m, ⟨hd, rfl⟩, dest, m, ⟨hdest, rfl⟩, h⟩ := h
    cases h; exact ⟨Bool.and_eq_true_iff.2 ⟨hd, hdest⟩, (eq_ofNat_of_toNat hn).symm, (List.append_assoc ..).symm⟩
  case h_6 | h_19 =>
    obtain ⟨data, m, ⟨hdata, rfl⟩, h⟩ := h
    cases h; exact ⟨hdata, (eq_ofNat_of_toNat hn).symm, rfl⟩
  case h_7 =>
    obtain ⟨cmd, m, ⟨hcmd, rfl⟩, len, m, rfl, data, m, ⟨hdata, rfl⟩, h⟩ := h
    cases h
    refine ⟨?_, (eq_ofNat_of_toNat hn).symm, ?_⟩
    · simp only [Instr.wellFormed, hcmd, hdata, Bool.and_true, Bool.true_and]
      exact decide_eq_true len.isLt
    · simp [encodeOperands]
  case h_9 | h_13 =>
    obtain ⟨c, m, ⟨hc, rfl⟩, h⟩ := h
    cases h; exact ⟨hc, (eq_ofNat_of_toNat hn).symm, rfl⟩
  case h_11 =>
    obtain ⟨im, m, rfl, h⟩ := h
    cases h; exact ⟨rfl, (eq_ofNat_of_toNat hn).symm, rfl⟩
  case h_12 =>
    obtain ⟨start, m, ⟨hstart, rfl⟩, prevZero, m, rfl, b, m, rfl, h⟩ := h
    cases h; exact ⟨hstart, (eq_ofNat_of_toNat hn).symm, by simp [encodeOperands]⟩
  case h_15 =>
    obtain ⟨cursor, m, ⟨hcursor, rfl⟩, data, m, rfl, n, m, ⟨hlen, rfl⟩, h⟩ := h
    cases h
    exact ⟨Bool.and_eq_true_iff.2 ⟨hcursor, hlen⟩, (eq_ofNat_of_toNat hn).symm, by simp [encodeOperands]⟩

/-- Settles O2: the message is the selector and the operands of the operation (`decodeOperands_cases`). -/
theorem encodeInvertsDecode : Obligations.EncodeInvertsDecode := by
  intro m rest i h
  match m with
  | [] => cases h
  | sel :: m =>
    obtain ⟨hwf, rfl, rfl⟩ := decodeOperands_cases h
    exact ⟨hwf, rfl⟩

/-- Settles O1: after its selector each operand is read back as it was written, in the order of R92. -/
theorem decodeInvertsEncode : Obligations.DecodeInvertsEncode := by
  intro i rest h
  change decodeOperands (selector i) (encodeOperands i ++ rest) = .ok (i, rest)
  cases i with
  | init | swimEntry | srst | now | enterCritical | receiveBit | receiveByte | wireSrst | reset => rfl
  | rotf d dest | wireRotf d dest =>
    obtain ⟨hd, hdest⟩ := Bool.and_eq_true_iff.1 h
    simp [encodeOperands, selector, decodeOperands, takeBuffer_putBuffer, hd, hdest, bind, Except.bind]
  | wotf data | wireWotf data =>
    have hdata : data.wellFormed = true := h
    simp [encodeOperands, selector, decodeOperands, takeBuffer_putBuffer, hdata, bind, Except.bind]
  | sendCommand cmd len data =>
    simp only [Instr.wellFormed, payloadLengthOk, Bool.and_eq_true, decide_eq_true_eq] at h
    obtain ⟨⟨hcmd, hlen : len < 4294967296⟩, hdata⟩ := h
    simp [encodeOperands, selector, decodeOperands, takeCommandId_cons hcmd, takeWord_putWord, takeBuffer_putBuffer, hdata, hlen,
      bind, Except.bind]
  | waitUntil c | finishFrame c =>
    have hc : cycleOk c = true := h
    simp [encodeOperands, selector, decodeOperands, takeCycle_putCycle hc, bind, Except.bind]
  | leaveCritical im => simp [encodeOperands, selector, decodeOperands, takeMask_putMask, bind, Except.bind]
  | sendBit start prevZero b =>
    have hstart : cycleOk start = true := h
    simp [encodeOperands, selector, decodeOperands, takeCycle_putCycle hstart, takeFlag_putFlag, bind, Except.bind]
  | sendByte cursor data n =>
    obtain ⟨hcursor, hn⟩ := Bool.and_eq_true_iff.1 h
    simp [encodeOperands, selector, decodeOperands, takeCycle_putCycle hcursor, takeHalf_putHalf, takeFrameLength_cons hn, bind,
      Except.bind]

/-- Settles O3. -/
theorem writtenMessagesDecode : Obligations.WrittenMessagesDecode := by
  unfold Obligations.WrittenMessagesDecode
  decide

/-! ### What is refused (R94, I8) -/

section
variable {sel : Byte}

theorem decodeOperands_of_unknown (h : ∀ i, selector i ≠ sel) (m : List Byte) :
    decodeOperands sel m = .error (.unknownSelector sel) := by
  have hne : ∀ i {n : Nat}, sel.toNat = n → selector i ≠ BitVec.ofNat 8 n := fun i _ hn => eq_ofNat_of_toNat hn ▸ h i
  unfold decodeOperands
  split
  case h_1 hn => exact absurd rfl (hne .init hn)
  case h_2 hn => exact absurd rfl (hne (.reset 0#8) hn)
  case h_3 hn => exact absurd rfl (hne .swimEntry hn)
  case h_4 hn => exact absurd rfl (hne .srst hn)
  case h_5 hn => exact absurd rfl (hne (.rotf ⟨0, 0⟩ ⟨0, 0⟩) hn)
  case h_6 hn => exact absurd rfl (hne (.wotf ⟨0, 0⟩) hn)
  case h_7 hn => exact absurd rfl (hne (.sendCommand 0#8 0 ⟨0, 0⟩) hn)
  case h_8 hn => exact absurd rfl (hne .now hn)
  case h_9 hn => exact absurd rfl (hne (.waitUntil 0) hn)
  case h_10 hn => exact absurd rfl (hne .enterCritical hn)
  case h_11 hn => exact absurd rfl (hne (.leaveCritical .unmasked) hn)
  case h_12 hn => exact absurd rfl (hne (.sendBit 0 false false) hn)
  case h_13 hn => exact absurd rfl (hne (.finishFrame 0) hn)
  case h_14 hn => exact absurd rfl (hne .receiveBit hn)
  case h_15 hn => exact absurd rfl (hne (.sendByte 0 0#16 4) hn)
  case h_16 hn => exact absurd rfl (hne .receiveByte hn)
  case h_17 hn => exact absurd rfl (hne .wireSrst hn)
  case h_18 hn => exact absurd rfl (hne (.wireRotf ⟨0, 0⟩ ⟨0, 0⟩) hn)
  case h_19 hn => exact absurd rfl (hne (.wireWotf ⟨0, 0⟩) hn)
  case h_20 => rfl

end

end Sys2Proof

namespace Sys2Proof.Machine

open Sys2Proof

section
variable {s : State}

/-! ### A step without an operation in progress -/

theorem step_of_idle (hc : s.command.pos = .idle) (he : s.entry.pos = .idle) : step s = takeCall s := by
  rw [step, if_neg (not_not_intro hc), if_neg (not_not_intro he)]

theorem takeCall_of_ok {m rest : List Byte} {q : List (List Byte)} {i : Instr} (hq : s.calls = m :: q)
    (hm : decode m = .ok (i, rest)) : takeCall s = exec i (s.setCalls q) := by
  simp only [takeCall, hq, hm]

theorem takeCall_of_error {m : List Byte} {q : List (List Byte)} {why : DecodeError} (hq : s.calls = m :: q)
    (hm : decode m = .error why) : takeCall s = .refused (.undecodable why) := by
  simp only [takeCall, hq, hm]

theorem takeCall_of_empty (hq : s.calls = []) : takeCall s = .next s.wait := by simp only [takeCall, hq]

end

theorem exec_sendByte_of_bad {c : Cycle} {v : BitVec 16} {n : Nat} (h : frameLengthOk n = false) (s : State) :
    exec (.sendByte c v n) s = .refused (.frameLength n) := if_neg (Bool.eq_false_iff.1 h)

theorem exec_sendCommand_of_bad {cmd : Byte} {len : Nat} {data : Buffer} (h : commandIdOk cmd = false) (s : State) :
    exec (.sendCommand cmd len data) s = .refused (.commandId cmd) := if_neg (Bool.eq_false_iff.1 h)

/-- Settles O4. -/
theorem meaninglessCallsRefused : Obligations.MeaninglessCallsRefused := by
  refine ⟨fun sel m hsel => ?_, fun c v n s h4 h9 => ?_, fun cmd len data s hcmd => ?_⟩
  · have hm : decode (sel :: m) = .error (.unknownSelector sel) := decodeOperands_of_unknown hsel m
    exact ⟨hm, fun s q hc he hq => (step_of_idle hc he).trans (takeCall_of_error hq hm)⟩
  · exact exec_sendByte_of_bad (by simp [frameLengthOk, h4, h9]) s
  · exact exec_sendCommand_of_bad (decide_eq_false (Nat.not_lt.2 hcmd)) s

/-- Settles O50. -/
theorem stepRunsTheDecodedCall : Obligations.StepRunsTheDecodedCall :=
  fun _ _ _ _ _ hc he hq hm _ => (step_of_idle hc he).trans (takeCall_of_ok hq hm)

/-- Settles O51. -/
theorem idleStepOnlyWaits : Obligations.IdleStepOnlyWaits :=
  fun s hc he hq => ⟨s.elapse, (step_of_idle hc he).trans (takeCall_of_empty hq), elapse_noPins s, State.elapse_im none s,
    State.elapse_trace none s, State.elapse_result none s⟩

/-! ### Descriptors, buffers and host frames -/

theorem extractLsb'_eq_ofNat (x : BitVec 24) (k : Nat) : x.extractLsb' k 8 = BitVec.ofNat 8 (x.toNat / 2 ^ k) := by
  apply BitVec.eq_of_toNat_eq
  rw [BitVec.extractLsb'_toNat, BitVec.toNat_ofNat, Nat.shiftRight_eq_div_pow]

/-- The three address bytes of a descriptor, side by side, are the address. -/
theorem address_eq_append (addr : BitVec 24) :
    addr.extractLsb' 16 8 ++ addr.extractLsb' 8 8 ++ addr.extractLsb' 0 8 = addr := by
  have haddr := addr.isLt
  apply BitVec.eq_of_toNat_eq
  simp only [toNat_append_byte, BitVec.extractLsb'_toNat, Nat.shiftRight_eq_div_pow]
  omega

/-- Settles O6. -/
theorem headerRoundTrip : Obligations.HeaderRoundTrip := by
  intro len addr
  refine ⟨?_, len, _, _, _, rfl, congrArg (Prod.mk len) (address_eq_append addr)⟩
  simp only [header, extractLsb'_eq_ofNat, Nat.pow_zero, Nat.div_one]

theorem frameParity_eq_foldl (v : BitVec 16) (n : Nat) :
    frameParity v n = ((List.range n).map fun k => v.getLsbD k).foldl Bool.xor false := by
  induction n with
  | zero => rfl
  | succ n ih => rw [frameParity, ih, List.range_succ, List.map_append, List.foldl_append, Bool.xor_comm]; rfl

theorem getLsbD_byteFrameValue (p : Params) (b : Byte) {k : Nat} (hk : k < 9) :
    (byteFrameValue p b).getLsbD k = if k < 8 then b.getLsbD k else p.hostStart := by
  have hk16 : k < 16 := by omega
  simp only [byteFrameValue, BitVec.getLsbD_setWidth, BitVec.getLsbD_append, hk16, decide_true, Bool.true_and]
  split
  case isTrue => rfl
  case isFalse h8 =>
    obtain rfl : k = 8 := by omega
    simp

/-- Settles O7. -/
theorem hostFrameParity : Obligations.HostFrameParity := by
  refine ⟨frameParity_eq_foldl, fun p b => ?_⟩
  simp (disch := decide) only [frameParity, getLsbD_byteFrameValue, byteParity, byteBits, List.foldl_cons, List.foldl_nil,
    Nat.reduceLT, if_true, if_false, Bool.xor_false, Bool.false_xor]
  ac_rfl

/-- Settles O8. -/
theorem commandBufferHoldsEveryAccess : Obligations.CommandBufferHoldsEveryAccess := by
  intro cb m hcb
  refine ⟨fun i hi => ?_, fun i hi => ?_, ?_⟩
  · rw [readBuffer_of_lt hi, readBuffer_of_lt (by omega), descriptorOf, Nat.add_right_comm, Nat.add_assoc]
  · rw [readBuffer_of_lt (show i < cb.size - 1 by omega), readBuffer_of_lt hi, writeBufferOf, Nat.add_right_comm, Nat.add_assoc]
  · have hlen := (Memory.read (writeBufferOf cb).base m).isLt
    show _ ≤ cb.size - 1
    omega

end Sys2Proof.Machine
end

section
/-!
PROOF. Masks, pins and the line (O15, O16, O17, O18), and the lateness of a scheduled transition (O13). The line's level depends on
the host's pull, the target, the last release, the time and the next draw, and on nothing else (`lineLevel_congr`); and a lateness
that R112 bounds keeps the signed difference to the target inside EPS_CRIT (`sdiff_late_le`).
-/

namespace Sys2Proof.Machine

open Sys2Proof

/-! ### The critical section (R116) -/

theorem leaveCritical_noPins (im : IrqMask) (s : State) (due : Option Cycle := none) : NoPins s (s.leaveCritical im due) := by
  constructor
  case forward => exact leaveCritical_forward im s due
  all_goals simp

/-- Settles O15. -/
theorem leaveCriticalRestores : Obligations.LeaveCriticalRestores :=
  fun saved s => ⟨(s.leaveCritical saved).reply .none, rfl, rfl, rfl, (leaveCritical_noPins saved s).reply _,
    Acts.newActions (leaveCritical_acts saved s)⟩

/-- Settles O16: each `leave_critical` restores what its `enter_critical` returned. -/
theorem criticalSectionsNest : Obligations.CriticalSectionsNest :=
  fun s => ⟨_, _, _, _, s.im, .masked, rfl, rfl, rfl, rfl, rfl, rfl, rfl, rfl, rfl, rfl⟩

/-! ### Pins (R33) -/

section
variable {s t : State}

/-- What a read of SIGNAL would see depends on the pull, the target, the last release, the time and the next draw alone. -/
theorem lineLevel_congr (hpulls : t.signal.pulls = s.signal.pulls) (hreleased : t.releasedAt = s.releasedAt)
    (htime : t.time = s.time) (hparams : t.params = s.params) (htarget : t.target = s.target) (htiming : t.timing = s.timing)
    (hdrawn : t.drawn = s.drawn) : t.lineLevel = s.lineLevel := by
  have hpulled : t.linePulled = s.linePulled := by unfold State.linePulled; rw [hpulls, htarget, htime]
  have hrising : t.lineRising = s.lineRising := by unfold State.lineRising; rw [hreleased, htime, hparams, htarget]
  have hdraw : drawValue t = drawValue s := by unfold drawValue; rw [htiming, hdrawn]
  unfold State.lineLevel
  rw [hpulled, hrising, hdraw]

theorem pulls_of_input {p : Pin} (h : p.mode = .input) : p.pulls = false := by simp [Pin.pulls, h]

theorem pinWrite_pinsOnly (p : PinName) (a : PinAction) (s : State) : PinsOnly s (s.pinWrite p a) := by
  cases p <;> constructor <;> rfl

theorem pinWrite_pin (p : PinName) (a : PinAction) (s : State) : (s.pinWrite p a).pin p = (s.pin p).write a := by
  cases p <;> rfl

theorem pinWrite_pin_of_ne {p q : PinName} (h : q ≠ p) (a : PinAction) (s : State) : (s.pinWrite p a).pin q = s.pin q := by
  cases p <;> cases q <;> first | rfl | exact absurd rfl h

theorem pinWrite_trace (p : PinName) (a : PinAction) (s : State) :
    (s.pinWrite p a).trace = { cycle := s.time, action := .pin p a } :: s.trace := by cases p <;> rfl

theorem pinWrite_releasedAt (p : PinName) (a : PinAction) (s : State) :
    (s.pinWrite p a).releasedAt =
      if s.signal.pulls = true ∧ (s.pinWrite p a).signal.pulls = false then some s.time else s.releasedAt := by
  cases p with
  | signal => simp [State.pinWrite]
  | reset => simp

/-- The latch of an INPUT pin drives nothing. -/
theorem pulls_write_latch {p : Pin} {a : PinAction} (h : p.mode = .input) (ha : a = .setHigh ∨ a = .setLow) :
    (p.write a).mode = .input ∧ (p.write a).pulls = false := by
  rcases ha with rfl | rfl <;> exact ⟨h, pulls_of_input h⟩

theorem pinWrite_latch_signal_pulls {p : PinName} {a : PinAction} (h : (s.pin p).mode = .input)
    (ha : a = .setHigh ∨ a = .setLow) : (s.pinWrite p a).signal.pulls = s.signal.pulls := by
  cases p with
  | signal => exact (pulls_write_latch h ha).2.trans (pulls_of_input h).symm
  | reset => rfl

theorem pinWrite_latch_resetLine {p : PinName} {a : PinAction} (h : (s.pin p).mode = .input)
    (ha : a = .setHigh ∨ a = .setLow) : (s.pinWrite p a).resetLine = s.resetLine := by
  cases p with
  | signal => rfl
  | reset =>
    have hmode : s.resetPin.mode = .input := h
    simp only [State.resetLine, State.pinWrite_reset_resetPin, (pulls_write_latch hmode ha).1, hmode]

/-- Settles O17: the frame is `pinWrite_pinsOnly`, the last release `pinWrite_releasedAt`; the latch of an INPUT pin is not seen. -/
theorem pinWritesAreAtomic : Obligations.PinWritesAreAtomic := by
  intro p a s
  have hreleased := pinWrite_releasedAt p a s
  refine ⟨pinWrite_pin p a s, fun q hq => pinWrite_pin_of_ne hq a s, (pinWrite_pinsOnly p a s).time, pinWrite_trace p a s,
    pinWrite_pinsOnly p a s, fun hpull hlet => ?_, fun hkept => ?_, fun hinput ha => ⟨?_, pinWrite_latch_resetLine hinput ha⟩⟩
  · rw [hreleased, if_pos ⟨hpull, hlet⟩]
  · rw [hreleased, if_neg hkept]
  · have hpulls := pinWrite_latch_signal_pulls hinput ha
    have hframe := pinWrite_pinsOnly p a s
    refine lineLevel_congr hpulls ?_ hframe.time hframe.params hframe.target hframe.timing hframe.drawn
    rw [hreleased, if_neg]
    rintro ⟨hpull, hlet⟩
    rw [hpulls, hpull] at hlet
    cases hlet

/-! ### The line (R34, R35) -/

theorem pulls_iff (p : Pin) : p.pulls = true ↔ p.mode = .output ∧ p.latch = .low := by simp [Pin.pulls]

/-- The rise window in the words of R35: it follows a release by the host or one by the target. -/
theorem lineRising_iff : s.lineRising = true ↔
    (∃ r, s.releasedAt = some r ∧ r ≤ s.time ∧ s.time < r + s.params.tRise) ∨
      ∃ r, r + 1 ≤ s.time ∧ s.time < r + 1 + s.params.tRise ∧ targetLow s.target r = true := by
  rw [State.lineRising, Bool.or_eq_true_iff]
  refine or_congr ?_ ?_
  · cases s.releasedAt <;> simp
  · simp only [List.any_eq_true, List.mem_range, Bool.and_eq_true, decide_eq_true_eq]
    constructor
    · rintro ⟨u, hu, hle, hlow⟩
      exact ⟨s.time - (u + 1), by omega, by omega, hlow⟩
    · rintro ⟨r, hle, hlt, hlow⟩
      have hr : s.time - (s.time - (r + 1) + 1) = r := by omega
      exact ⟨s.time - (r + 1), by omega, by omega, by rwa [hr]⟩

theorem lineLevel_of_pulled (h : s.signal.pulls = true ∨ targetLow s.target s.time = true) : s.lineLevel = .low :=
  if_pos (Bool.or_eq_true_iff.2 h)

theorem linePulled_eq_false (hhost : s.signal.pulls = false) (htarget : targetLow s.target s.time = false) :
    s.linePulled = false := by rw [State.linePulled, hhost, htarget]; rfl

theorem lineLevel_of_steady (h : s.linePulled = false) (hrise : s.lineRising = false) : s.lineLevel = .high := by
  simp [State.lineLevel, h, hrise]

theorem lineLevel_of_rising (h : s.linePulled = false) (hrise : s.lineRising = true) :
    s.lineLevel = if drawValue s % 2 = 0 then .low else .high := by
  simp [State.lineLevel, h, hrise]

/-- Settles O18: inside the rise window the level is the parity of a draw. -/
theorem lineLevel : Obligations.LineLevel := by
  intro s
  refine ⟨pulls_iff s.signal, lineLevel_of_pulled, fun hhost htarget => ⟨fun hno => ?_, fun hrise l => ?_⟩,
    State.pinRead_trace s, fun h => ?_, fun h => ?_⟩
  · refine lineLevel_of_steady (linePulled_eq_false hhost htarget) (Bool.eq_false_iff.2 fun hrise => hno ?_)
    exact lineRising_iff.1 hrise
  · have hlevel : ∀ n, ({ s with timing := .scripted [n] } : State).lineLevel = if n % 2 = 0 then .low else .high := fun n =>
      lineLevel_of_rising (s := { s with timing := .scripted [n] }) (linePulled_eq_false (s := s) hhost htarget)
        (lineRising_iff (s := s).2 hrise)
    cases l with
    | low => exact ⟨[0], hlevel 0⟩
    | high => exact ⟨[1], hlevel 1⟩
  · simp only [State.resetLine, h]
  · simp only [State.resetLine, h]

end

/-! ### A scheduled transition (R112, R227) -/

section
variable (c : Cycle) {s : State}

/-- n cycles after a time that is x cycles past c, with no wrap in between, it is x + n past it. -/
theorem sdiff_advance {n : Nat} (h0 : 0 ≤ sdiff s.params s.cc c)
    (hn : sdiff s.params s.cc c + n < ((2 ^ (s.params.wCc - 1) : Nat) : Int)) :
    sdiff s.params (s.advance n).cc c = sdiff s.params s.cc c + n := by
  have hadd : sdiff s.params (s.advance n).cc c = (sdiff s.params s.cc c + n).bmod (2 ^ s.params.wCc) := sdiff_add ..
  have hmod := modulus_half s.params
  rw [hadd]
  apply Int.bmod_eq_of_le <;> omega

theorem late_cc (b : Bool) : (s.late c b).cc = (s.advance (lateness c b s)).cc := by simp [State.cc]

/-- A lateness that R112 bounds leaves the schedule at most EPS_CRIT cycles in the past. -/
theorem sdiff_late_le (heps : s.params.epsCrit < 2 ^ (s.params.wCc - 1)) (h0 : 0 ≤ sdiff s.params s.cc c)
    (hle : sdiff s.params s.cc c ≤ s.params.epsCrit) : sdiff s.params (s.late c true).cc c ≤ s.params.epsCrit := by
  have hlate := lateness_le c s
  rw [late_cc, sdiff_advance c h0 (by omega)]
  omega

/-- After the spin of a wait that began before its target the schedule is now. -/
theorem sdiff_reach_of_before (h : sdiff s.params s.cc c < 0) : sdiff s.params (s.reach c).cc c = 0 := by
  have hb : atOrAfter s.params s.cc c = false := Bool.eq_false_iff.2 fun h' => Int.not_le.2 h ((atOrAfter_iff ..).1 h')
  rw [State.reach, hb]
  exact sdiff_moved s.params c s.time

theorem inTime_iff : s.inTime c = true ↔ s.im = .masked ∧ sdiff s.params s.cc c < 0 := by
  rw [State.inTime, Bool.and_eq_true, beq_iff_eq, Bool.not_eq_true', ← Bool.not_eq_true, atOrAfter_iff, Int.not_le]

theorem sdiff_waitUntil_nonneg (s : State) : 0 ≤ sdiff s.params (s.waitUntil c).cc c :=
  (atOrAfter_iff ..).1 (waitUntil_atOrAfter c s)

variable (hmask : s.im = .masked)
include hmask

/-- R112: masked, a wait that began before its target ends at most EPS_CRIT after it. -/
theorem sdiff_waitUntil_le (heps : s.params.epsCrit < 2 ^ (s.params.wCc - 1))
    (hbefore : sdiff s.params (s.elapse (some c)).cc c < 0) : sdiff s.params (s.waitUntil c).cc c ≤ s.params.epsCrit := by
  have hparams : ((s.elapse (some c)).reach c).params = s.params := by simp
  have hin : (s.elapse (some c)).inTime c = true := (inTime_iff c).2 ⟨by simpa using hmask, by simpa using hbefore⟩
  have hreach := sdiff_reach_of_before c (s := s.elapse (some c)) (by simpa using hbefore)
  have hlate := sdiff_late_le c (s := (s.elapse (some c)).reach c) (by simpa using heps)
  simp only [State.reach_params, State.elapse_params] at hreach hlate
  rw [State.waitUntil, hin]
  exact hlate hreach.ge (by rw [hreach]; exact Int.natCast_nonneg _)

/-- R227, log 8: masked, the work before the next use of a schedule keeps it inside the window of R113. -/
theorem sdiff_elapse_le (h : sdiff s.params s.cc c ≤ 2 ^ (s.params.wCc - 2)) :
    sdiff s.params (s.elapse (some c)).cc c ≤ 2 ^ (s.params.wCc - 2) := by
  have hcc : (s.elapse (some c)).cc = (s.advance (workDraw (some c) s)).cc := by simp [State.cc]
  rw [hcc]
  exact sdiff_room c s h (workDraw_le c hmask)

/-- R227, log 8: and so does the lateness of a wait that began after its target. -/
theorem sdiff_late_le_window (h : sdiff s.params s.cc c ≤ 2 ^ (s.params.wCc - 2)) :
    sdiff s.params (s.late c false).cc c ≤ 2 ^ (s.params.wCc - 2) := by
  rw [late_cc]
  refine sdiff_room c s h ?_
  unfold lateness latenessDraw
  simp only [Bool.false_eq_true, if_false]
  split
  · exact workDraw_le c hmask
  · exact Nat.zero_le _

theorem sdiff_waitUntil_le_window (heps : s.params.epsCrit < 2 ^ (s.params.wCc - 1))
    (heps' : s.params.epsCrit ≤ 2 ^ (s.params.wCc - 2)) (h : sdiff s.params s.cc c ≤ 2 ^ (s.params.wCc - 2)) :
    sdiff s.params (s.waitUntil c).cc c ≤ 2 ^ (s.params.wCc - 2) := by
  have hwork := sdiff_elapse_le c hmask h
  by_cases hbefore : sdiff s.params (s.elapse (some c)).cc c < 0
  case pos =>
    exact (sdiff_waitUntil_le c hmask heps hbefore).trans (by exact_mod_cast heps')
  case neg =>
    have hnotIn : (s.elapse (some c)).inTime c = false :=
      Bool.eq_false_iff.2 fun hin => hbefore (by simpa using ((inTime_iff c).1 hin).2)
    have hat : 0 ≤ sdiff s.params (s.elapse (some c)).cc c := Int.not_lt.1 hbefore
    have hreach : (s.elapse (some c)).reach c = s.elapse (some c) :=
      if_pos ((atOrAfter_iff ..).2 (by simpa using hat))
    have hlate := sdiff_late_le_window c (s := s.elapse (some c)) (by simpa using hmask)
    rw [State.elapse_params] at hlate
    rw [State.waitUntil, hnotIn, hreach]
    exact hlate hwork

end

section
variable (c : Cycle) (s : State)

theorem newWrites_eq {s u : State} {ev : List Event} (h : u.trace = ev.reverse ++ s.trace) (hw : ∀ e ∈ ev, e.notRead = true) :
    newWrites s u = ev := by
  rw [newWrites, newEvents_eq h, List.filter_eq_self.2 hw]

theorem schedule_newWrites (a : PinAction) : newWrites s (s.schedule c a) = [signalEvent a (s.schedule c a).time] :=
  newWrites_eq (State.schedule_trace c a s) (by simp [signalEvent, Event.notRead])

/-- The cycle of a wait's end, from the current time on (R112). -/
theorem wrap_schedule_time (a : PinAction) : wrap s.params (s.schedule c a).time = (s.waitUntil c).cc := by
  rw [State.cc, State.waitUntil_params]; rfl

variable {c s} {n : Nat} {ds : List Nat}

theorem drawValue_of_scripted (h : s.timing = .scripted (n :: ds)) : drawValue s = n := by unfold drawValue; rw [h]

theorem drawOne_timing_of_scripted (h : s.timing = .scripted (n :: ds)) : s.drawOne.timing = .scripted ds := by
  unfold State.drawOne; rw [h]; rfl

/-- Before any primitive that is not masked any number of cycles can pass (R227). -/
theorem elapse_time_of_draw (h : s.timing = .scripted (n :: ds)) (him : s.im = .unmasked) :
    (s.elapse (some c)).time = s.time + n := by
  rw [State.elapse_time, workDraw, him, drawValue_of_scripted h]; rfl

/-- A draw of 0 lets no cycles pass. -/
theorem workDraw_of_draw_zero (h : s.timing = .scripted (0 :: ds)) (due : Option Cycle) : workDraw due s = 0 := by
  cases due <;> simp [workDraw, drawValue_of_scripted h]

/-- Every lateness that the bounds of R112 leave is some draw's. -/
theorem sdiff_late_of_draw {b : Bool} (h : s.timing = .scripted (n :: ds)) (hn : n < 2 ^ (s.params.wCc - 1))
    (hat : sdiff s.params s.cc c = 0) (hb : b = true → n ≤ s.params.epsCrit) (hu : b = false → s.im = .unmasked) :
    sdiff s.params (s.late c b).cc c = n := by
  have hdraw : latenessDraw c b s = n := by
    cases b with
    | true =>
      have hle := hb rfl
      rw [latenessDraw, if_pos rfl, drawValue_of_scripted h, hat]
      exact Nat.mod_eq_of_lt (Nat.lt_succ_of_le hle)
    | false => simp [latenessDraw, workDraw, drawValue_of_scripted h, hu rfl]
  have hend : sdiff s.params (s.advance n).cc c = n := by
    rw [sdiff_advance c hat.ge (by rw [hat]; omega), hat, Int.zero_add]
  have hlate : lateness c b s = n := by
    rw [lateness, hdraw]
    exact if_pos ((atOrAfter_iff ..).2 (hend ▸ Int.natCast_nonneg n))
  rw [late_cc, hlate]
  exact hend

/-- A wait with no work before it ends the drawn lateness after its target (R112). -/
theorem sdiff_waitUntil_of_draws (h : s.timing = .scripted [0, n]) (hn : n < 2 ^ (s.params.wCc - 1))
    (hbefore : sdiff s.params s.cc c < 0) (hmask : s.im = .masked → n ≤ s.params.epsCrit) :
    sdiff s.params (s.waitUntil c).cc c = n := by
  have hcc : (s.elapse (some c)).cc = s.cc := by
    rw [State.cc, State.elapse_time, workDraw_of_draw_zero h, State.elapse_params]; rfl
  have htiming : ((s.elapse (some c)).reach c).timing = .scripted [n] := by
    rw [State.reach_timing]; exact drawOne_timing_of_scripted h
  have hreach := sdiff_reach_of_before c (s := s.elapse (some c)) (by rw [hcc]; simpa using hbefore)
  have hlate := sdiff_late_of_draw (b := (s.elapse (some c)).inTime c) htiming (by simpa using hn) (by simpa using hreach)
  simp only [State.reach_params, State.elapse_params, State.reach_im, State.elapse_im] at hlate
  refine hlate (fun hin => hmask (by simpa using ((inTime_iff c).1 hin).1)) fun hnotIn => ?_
  cases him : s.im with
  | unmasked => rfl
  | masked =>
    have hin : (s.elapse (some c)).inTime c = true :=
      (inTime_iff c).2 ⟨by simpa using him, by rw [hcc]; simpa using hbefore⟩
    rw [hin] at hnotIn
    cases hnotIn

end

/-! ### The end of the entry sequence (log 7) -/

/-- The machine after RELEASE_TO_INPUT's mask, at the cycle of its release (R178). -/
def State.atRelease (s : State) : State :=
  (s.waitUntil s.entry.next).mask.late s.entry.next ((s.elapse (some s.entry.next)).inTime s.entry.next)

section
variable (s : State)

theorem entryRelease_eq :
    s.entryRelease = (s.atRelease.pinWrite .signal .setInput).setEntry
      { (s.atRelease.pinWrite .signal .setInput).entry with pos := .waitFall, saved := (s.waitUntil s.entry.next).im } := rfl

theorem entryRelease_newWrites : newWrites s s.entryRelease =
    [{ cycle := (s.waitUntil s.entry.next).time, action := .irqMask }, signalEvent .setInput s.atRelease.time] := by
  refine newWrites_eq ?_ (by simp [signalEvent, Event.notRead])
  simp [entryRelease_eq, State.atRelease, signalEvent]

theorem sdiff_atRelease_nonneg : 0 ≤ sdiff s.params s.atRelease.cc s.entry.next := by
  have hwait := waitUntil_atOrAfter s.entry.next s
  have hlate := late_atOrAfter s.entry.next (s.waitUntil s.entry.next).mask
    (b := (s.elapse (some s.entry.next)).inTime s.entry.next) (by simpa [State.cc] using hwait)
  simpa [atOrAfter_iff, State.atRelease] using hlate

variable {s} in
theorem sdiff_atRelease_le (heps : s.params.epsCrit < 2 ^ (s.params.wCc - 1)) (hmask : s.im = .masked)
    (hbefore : sdiff s.params (s.elapse (some s.entry.next)).cc s.entry.next < 0) :
    sdiff s.params s.atRelease.cc s.entry.next ≤ s.params.epsCrit := by
  have hin : (s.elapse (some s.entry.next)).inTime s.entry.next = true :=
    (inTime_iff _).2 ⟨by simpa using hmask, by simpa using hbefore⟩
  have hcc : (s.waitUntil s.entry.next).mask.cc = (s.waitUntil s.entry.next).cc := rfl
  have hlate := sdiff_late_le s.entry.next (s := (s.waitUntil s.entry.next).mask) (by simpa using heps)
  simp only [State.mask_params, State.waitUntil_params, hcc] at hlate
  rw [State.atRelease, hin]
  exact hlate (sdiff_waitUntil_nonneg _ s) (sdiff_waitUntil_le _ hmask heps hbefore)

end

/-- Settles O13: the transition is at the end of its wait, and so is the mask of the entry sequence, whose release is at the end of
one more lateness. -/
theorem scheduledTransitionLateness : Obligations.ScheduledTransitionLateness := by
  intro c a s heps
  have hwait : wrap s.params (s.schedule c a).time = (s.waitUntil c).cc := wrap_schedule_time c s a
  refine ⟨⟨_, schedule_newWrites c s a, rfl, ?_, fun hmask hbefore => ?_,
      fun hmask hin => ⟨sdiff_elapse_le c hmask hin, fun heps' => ?_⟩⟩,
    fun him n => ⟨[n], elapse_time_of_draw rfl him⟩,
    fun n hn hbefore hmask =>
      ⟨[0, n], sdiff_waitUntil_of_draws (s := { s with timing := .scripted [0, n] }) rfl hn hbefore hmask⟩,
    (s.waitUntil s.entry.next).time, s.atRelease.time, entryRelease_newWrites s, ?_⟩
  · rw [hwait]; exact sdiff_waitUntil_nonneg c s
  · rw [hwait]; exact sdiff_waitUntil_le c hmask heps hbefore
  · rw [hwait]; exact sdiff_waitUntil_le_window c hmask heps heps' hin
  · have hmaskCc : wrap s.params (s.waitUntil s.entry.next).time = (s.waitUntil s.entry.next).cc := by simp [State.cc]
    have hreleaseCc : wrap s.params s.atRelease.time = s.atRelease.cc := by simp [State.cc, State.atRelease]
    rw [hmaskCc, hreleaseCc]
    exact ⟨sdiff_waitUntil_nonneg _ s, sdiff_atRelease_nonneg s, fun hmask hbefore =>
      ⟨sdiff_waitUntil_le _ hmask heps hbefore, sdiff_atRelease_le heps hmask hbefore⟩⟩

end Sys2Proof.Machine
end

section
/-!
PROOF. The bit operations (O20 to O25). Laws/Events.lean has the reads of a reception and Laws/Harness.lean its end under HARNESS
timing; added here is what the operations make of them: the reply, the caller's cursor and the frame.
-/

namespace Sys2Proof.Machine

open Sys2Proof

theorem WireOnly.reply {s t : State} (h : WireOnly s t) (r : Reply) : WireOnly (s.reply r) (t.reply r) :=
  { h with result := rfl, forward := h.forward }

/-- A reception is nothing but reads (R128). -/
theorem Reception.reads {p : Params} {ev : List Event} {r : Option (Level × Cycle)} (h : Reception p ev r) :
    ∀ e ∈ ev, e.notRead = false := by
  have high : ∀ e : Event, e.action = .read .high → e.notRead = false := fun e he => by simp [Event.notRead, he]
  match r with
  | none => exact fun e he => high e (h.2 e he)
  | some (level, c) =>
    obtain ⟨before, edge, sample, n, rfl, -, hbefore, hedge, hsample, -⟩ := h
    intro e he
    simp only [List.mem_append, List.mem_cons, List.not_mem_nil, or_false] at he
    rcases he with he | rfl | rfl
    · exact high e (hbefore e he)
    · simp [Event.notRead, hedge]
    · simp [Event.notRead, hsample]

/-! ### `receive_bit` (R128) -/

section
variable (s : State)

theorem elapse_receiveBit_noPins : NoPins s (receiveBit s.elapse).2 :=
  ((elapse_wire s).trans (receiveBit_wire _)).noPins (by simp) (by simp) (by simp)

theorem elapse_receiveBit_events : Reception s.params (newEvents s (receiveBit s.elapse).2) (receiveBit s.elapse).1 := by
  obtain ⟨ev, hev, -, hreads⟩ := receiveBit_events s.elapse
  rw [((Emits.of_quiet (elapse_forward s) (State.elapse_trace none s)).trans hev).newEvents, List.nil_append]
  rwa [State.elapse_params] at hreads

variable {s}

theorem exec_receiveBit_none (h : (receiveBit s.elapse).1 = none) :
    exec .receiveBit s = .next ((receiveBit s.elapse).2.reply (.error .readBitTimeout)) := by
  show Host.Outcome.next _ = _
  rw [h]; rfl

theorem exec_receiveBit_some {level : Level} {c : Cycle} (h : (receiveBit s.elapse).1 = some (level, c)) :
    exec .receiveBit s = .next (((receiveBit s.elapse).2.setCursor c).reply (.bit level c)) := by
  show Host.Outcome.next _ = _
  rw [h]; rfl

theorem NoPins.setCursor {t : State} (h : NoPins s t) (c : Cycle) : NoPins (s.setCursor c) (t.setCursor c) :=
  { h with cursor := rfl, forward := h.forward }

/-- Settles O20. -/
theorem receiveBitResult : Obligations.ReceiveBitResult := by
  intro s
  have hframe := elapse_receiveBit_noPins s
  have him : (receiveBit s.elapse).2.im = s.im := (receiveBit_wire _).im.trans (State.elapse_im none s)
  have hreads := elapse_receiveBit_events s
  match h : (receiveBit s.elapse).1 with
  | none =>
    rw [h] at hreads
    refine ⟨_, exec_receiveBit_none h, ?_, him, .inl ⟨rfl, hframe.cursor, hreads⟩⟩
    rw [State.reply_cursor, hframe.cursor]
    exact hframe.reply _
  | some (level, c) =>
    rw [h] at hreads
    exact ⟨_, exec_receiveBit_some h, (hframe.setCursor c).reply _, him, .inr ⟨level, rfl, hreads⟩⟩

theorem targetLow_lone_bit {b : Bool} {e : Nat} (hS : 0 < s.params.tShort) (hT : s.params.tShort < s.params.tPeriod)
    (hle : s.time ≤ e) (h : ∀ t, s.time ≤ t → (targetLow s.target t = true ↔ bitLow s.params b e t)) :
    (∀ t, s.time ≤ t → t < e → targetLow s.target t = false) ∧ targetLow s.target e = true := by
  refine ⟨fun t ht hlt => Bool.eq_false_iff.2 fun hlow => ?_, (h e hle).2 ⟨le_rfl, ?_⟩⟩
  · exact absurd ((h t ht).1 hlow).1 (Nat.not_le.2 hlt)
  · cases b <;> simp <;> omega

/-- R81: T_HALF after its edge a bit is LOW exactly while its pulse lasts. -/
theorem bitOf_targetLevel {tgt : Target} {p : Params} {b : Bool} {e : Nat}
    (h : targetLow tgt (e + p.tHalf) = true ↔ bitLow p b e (e + p.tHalf)) :
    bitOf (targetLevel tgt (e + p.tHalf)) = b ↔ if b then p.tShort ≤ p.tHalf else p.tHalf < p.tPeriod - p.tShort := by
  have hlevel : bitOf (targetLevel tgt (e + p.tHalf)) = !targetLow tgt (e + p.tHalf) := by
    unfold targetLevel; split <;> simp_all [bitOf]
  have hlow : targetLow tgt (e + p.tHalf) = true ↔ p.tHalf < if b then p.tShort else p.tPeriod - p.tShort := by
    rw [h, bitLow]; omega
  rw [hlevel]
  cases b with
  | true => rw [Bool.not_eq_true', ← Bool.not_eq_true, hlow]; simp
  | false => rw [Bool.not_eq_false', hlow]; simp

/-- Settles O21. -/
theorem receiveBitDecodes : Obligations.ReceiveBitDecodes := by
  refine ⟨fun s b e hH hpull hS hT hhalf hle hlt hbit => ?_, fun p hp => by omega⟩
  obtain ⟨hno, hyes⟩ := targetLow_lone_bit hS hT hle hbit
  obtain ⟨hanswer, hran⟩ := receiveBit_found hH hpull hhalf hle hlt hno hyes
  have helapse := hH.elapse none
  refine ⟨_, _, exec_receiveBit_some (by rw [helapse]; exact hanswer), rfl, rfl, ?_, bitOf_targetLevel (hbit _ (by omega))⟩
  rw [State.reply_time, helapse]
  exact hran.time

/-- Settles O22. -/
theorem receiveBitTimesOut : Obligations.ReceiveBitTimesOut := by
  intro s hH hpull hno
  obtain ⟨hanswer, hran⟩ := receiveBit_timeout hH hpull hno
  rw [← hH.elapse none] at hanswer
  have hreads := elapse_receiveBit_events s
  have hframe := elapse_receiveBit_noPins s
  rw [hanswer] at hreads
  refine ⟨_, exec_receiveBit_none hanswer, rfl, hframe.cursor, ?_, ?_, hframe.signal⟩
  · rw [State.reply_time, hH.elapse none]
    exact hran.time
  · have hall : (newEvents s (receiveBit s.elapse).2).filter (fun e => !e.notRead) = newEvents s (receiveBit s.elapse).2 :=
      List.filter_eq_self.2 fun e he => by rw [hreads.reads e he]; rfl
    exact (congrArg List.length hall).trans hreads.1

end

/-! ### `send_bit` and `finish_frame` (R125, R126) -/

/-- Settles O23. -/
theorem sendBitWrites : Obligations.SendBitWrites :=
  fun start prevZero b s => ⟨_, rfl, (sendBit_plan start prevZero b s).follows,
    congrArg₂ Pin.mk (sendBit_mode start prevZero b s) (sendBit_latch start prevZero b s), sendBit_frame start prevZero b s,
    (sendBit_wire start prevZero b s).reply _⟩

/-- Settles O24. -/
theorem sendBitWaveform : Obligations.SendBitWaveform := by
  intro s start prevZero b hH hS hle hlt
  have hran := sendBit_ran hH rfl prevZero b hle hlt hS
  exact ⟨_, rfl, hran.newWrites, hran.time⟩

/-- Two cycle values whose signed difference is 0 are the same. -/
theorem eq_of_sdiff_eq_zero {p : Params} {a b : Nat} (ha : a < 2 ^ p.wCc) (hb : b < 2 ^ p.wCc) (h : sdiff p a b = 0) : a = b := by
  have hclass := sdiff_sub_emod p a b
  rw [h, ← modulus_cast] at hclass
  have hzero := Int.eq_zero_of_abs_lt_dvd (Int.dvd_of_emod_eq_zero hclass) (by rw [abs_lt]; omega)
  omega

/-- The spin of a wait whose target is not past yet ends on its target (R111). -/
theorem cc_reach_of_le {s : State} {c : Cycle} (hc : c < 2 ^ s.params.wCc) (h : sdiff s.params s.cc c ≤ 0) :
    (s.reach c).cc = c := by
  have hlt : (s.reach c).cc < 2 ^ s.params.wCc := by rw [State.cc, State.reach_params]; exact wrap_lt _ _
  refine eq_of_sdiff_eq_zero hlt hc ?_
  rcases h.lt_or_eq with hbefore | hat
  · exact sdiff_reach_of_before c hbefore
  · rw [State.reach, if_pos ((atOrAfter_iff ..).2 hat.ge)]
    exact hat

/-- Settles O25. -/
theorem finishFrameRaises : Obligations.FinishFrameRaises := by
  intro last s
  refine ⟨_, rfl, (finishFrame_plan last s).follows, finishFrame_signal last s, finishFrame_frame last s,
    (finishFrame_wire last s).reply _, sdiff_waitUntil_nonneg _ s, fun hH hle => ?_⟩
  show (s.waitUntil _).cc = _
  rw [hH.waitUntil]
  exact cc_reach_of_le (wrap_lt _ _) hle

end Sys2Proof.Machine
end

section
/-!
PROOF. The byte operations (O26 to O31). Laws/Events.lean and Laws/Harness.lean have the frames and the receptions; added here is
the reply, and that the writes of a host frame all come before the reads of its ACK bit.
-/

namespace Sys2Proof.Machine

open Sys2Proof

/-! ### `send_byte` (R140) -/

section
variable {s : State} {c : Cycle} {v : BitVec 16} {n : Nat}

theorem frameLengthOk_of (hn : n = 4 ∨ n = 9) : frameLengthOk n = true := by rcases hn with rfl | rfl <;> rfl

theorem pos_of_frameLength (hn : n = 4 ∨ n = 9) : 0 < n := by omega

theorem exec_sendByte_none (hn : n = 4 ∨ n = 9) (h : (sendByte c v n s).1 = none) :
    exec (.sendByte c v n) s = .next ((sendByte c v n s).2.reply (.error .readBitTimeout)) := by
  show (if frameLengthOk n then Host.Outcome.next _ else _) = _
  rw [if_pos (frameLengthOk_of hn), h]; rfl

theorem exec_sendByte_some (hn : n = 4 ∨ n = 9) {level : Level} {a : Cycle} (h : (sendByte c v n s).1 = some (level, a)) :
    exec (.sendByte c v n) s = .next ((sendByte c v n s).2.reply (.bit level a)) := by
  show (if frameLengthOk n then Host.Outcome.next _ else _) = _
  rw [if_pos (frameLengthOk_of hn), h]; rfl

variable (c v n s) in
/-- The new events of a host frame and its ACK bit: first the writes, then the reads. -/
theorem newEvents_sendByte : ∃ answer, newEvents s (sendByte c v n s).2 = newWrites s (sendByte c v n s).2 ++ answer ∧
    Reception s.params answer (sendByte c v n s).1 := by
  obtain ⟨writes, htrace, hwrites⟩ := sendFrame_noReads c v n s
  obtain ⟨answer, hemits, -, hreads⟩ := receiveBit_events (s.sendFrame c v n).elapse
  have hparams : (s.sendFrame c v n).elapse.params = s.params := by simpa using (sendFrame_wire c v n s).params
  rw [hparams] at hreads
  have hev : newEvents s (sendByte c v n s).2 = writes ++ answer := by
    refine newEvents_eq ?_
    rw [sendByte, hemits.trace, State.elapse_trace, htrace, List.reverse_append, List.append_assoc]
  refine ⟨answer, ?_, hreads⟩
  have hnone : answer.filter Event.notRead = [] :=
    List.filter_eq_nil_iff.2 fun e he => by rw [hreads.reads e he]; exact Bool.false_ne_true
  rw [newWrites, hev, List.filter_append, List.filter_eq_self.2 hwrites, hnone, List.append_nil]

/-- Settles O26. -/
theorem Proofs.sendByteWrites : Obligations.SendByteWrites := by
  intro c v n s hn
  obtain ⟨answer, hev, hreads⟩ := newEvents_sendByte s c v n
  have hplan := (sendByte_plan c v n (pos_of_frameLength hn) s).follows
  have hwire := sendByte_wire c v n s
  match h : (sendByte c v n s).1 with
  | none =>
    rw [h] at hreads
    exact ⟨_, _, answer, none, exec_sendByte_none hn h, rfl, hev, hreads, .inl ⟨rfl, rfl⟩, hplan, sendByte_signal c v n s,
      sendByte_frame c v n s, hwire.reply _⟩
  | some (level, a) =>
    rw [h] at hreads
    exact ⟨_, _, answer, _, exec_sendByte_some hn h, rfl, hev, hreads, .inr ⟨level, a, rfl, rfl⟩, hplan,
      sendByte_signal c v n s, sendByte_frame c v n s, hwire.reply _⟩

/-- Settles O27. -/
theorem sendByteWaveform : Obligations.SendByteWaveform := by
  intro s c d n v b hH hn hS hT hhalf hhalf' hP hle hlt hd hbit
  obtain ⟨hanswer, hran⟩ :=
    sendByte_answer hH v n (pos_of_frameLength hn) b hS hT hP hhalf hhalf' hle hlt hd hbit
  exact ⟨_, _, exec_sendByte_some hn hanswer, bitOf_levelOf b, rfl, hran.newWrites, hran.time⟩

/-- Settles O28. -/
theorem sendByteUnanswered : Obligations.SendByteUnanswered := by
  intro s c n v hH hn hS hT hP hle hlt hno
  obtain ⟨hanswer, hran⟩ := sendByte_timeout hH v n (pos_of_frameLength hn) hS hT hP hle hlt hno
  exact ⟨_, exec_sendByte_none hn hanswer, rfl, hran.newWrites, hran.time, sendByte_signal _ v n s⟩

end

/-! ### `receive_byte` (R146) -/

section
variable {s : State}

theorem exec_receiveByte_ok {v : Byte} (h : (receiveByte s.elapse).1 = .ok v) :
    exec .receiveByte s = .next ((receiveByte s.elapse).2.reply (.byte v)) := by
  show Host.Outcome.next _ = _
  rw [h]; rfl

theorem exec_receiveByte_error {e : Error} (h : (receiveByte s.elapse).1 = .error e) :
    exec .receiveByte s = .next ((receiveByte s.elapse).2.reply (.error e)) := by
  show Host.Outcome.next _ = _
  rw [h]; rfl

variable (s) in
theorem newEvents_receiveByte : ByteReceived s.params (receiveByte s.elapse).1 (newEvents s (receiveByte s.elapse).2) := by
  obtain ⟨ev, hev, hbyte⟩ := receiveByte_events s.elapse
  rw [((Emits.of_quiet (elapse_forward s) (State.elapse_trace none s)).trans hev).newEvents, List.nil_append]
  rwa [State.elapse_params] at hbyte

/-- After a timeout or a bad start bit nothing has been sent (R146). -/
theorem newWrites_receiveByte_of_unanswered {e : Error} (h : (receiveByte s.elapse).1 = .error e) (he : e ≠ .parityError) :
    newWrites s (receiveByte s.elapse).2 = [] := by
  have hplan := receiveByte_plan s.elapse
  rw [h] at hplan
  have hquiet : Plan s.elapse (receiveByte s.elapse).2 [] := by cases e <;> first | exact hplan | exact absurd rfl he
  exact List.forall₂_nil_left_iff.1 ((elapse_plan s).trans hquiet).follows

theorem receiveByte_signal_answered
    (h : (∃ v, (receiveByte s.elapse).1 = .ok v) ∨ (receiveByte s.elapse).1 = .error .parityError) :
    (receiveByte s.elapse).2.signal = releasedPin := by
  rw [receiveByte_signal, if_pos h]; rfl

theorem receiveByte_signal_unanswered {e : Error} (h : (receiveByte s.elapse).1 = .error e) (he : e ≠ .parityError) :
    (receiveByte s.elapse).2.signal = s.signal := by
  rw [receiveByte_signal, if_neg, State.elapse_signal]
  rintro (⟨v, hv⟩ | hp)
  · rw [h] at hv; cases hv
  · rw [h] at hp; exact he (Except.error.inj hp)

/-- Settles O29. -/
theorem receiveByteResult : Obligations.ReceiveByteResult := by
  intro s
  have hevents := newEvents_receiveByte s
  have hwire := (elapse_wire s).trans (receiveByte_wire _)
  have hframe : s.frame = {} → (receiveByte s.elapse).2.frame = {} := fun h =>
    receiveByte_frame s.elapse (by rw [State.elapse_frame]; exact h)
  match h : (receiveByte s.elapse).1 with
  | .ok v =>
    rw [h] at hevents
    exact ⟨_, .ok v, exec_receiveByte_ok h, hevents, rfl, hwire.reply _, hframe,
      .inl ⟨.inl ⟨v, rfl⟩, receiveByte_signal_answered (.inl ⟨v, h⟩)⟩⟩
  | .error e =>
    rw [h] at hevents
    refine ⟨_, .error e, exec_receiveByte_error h, hevents, rfl, hwire.reply _, hframe, ?_⟩
    by_cases he : e = .parityError
    case pos => exact .inl ⟨.inr (congrArg _ he), receiveByte_signal_answered (.inr (he ▸ h))⟩
    case neg =>
      refine .inr ⟨?_, newWrites_receiveByte_of_unanswered h he, receiveByte_signal_unanswered h he⟩
      rcases receiveByte_error h with ⟨i, rfl⟩ | rfl | rfl
      · exact .inl ⟨i, rfl⟩
      · exact .inr rfl
      · exact absurd rfl he

/-- Settles O30: the frame's waveform is what the block must see of it (`sends_of_bitsLow`). -/
theorem receiveByteFrame : Obligations.ReceiveByteFrame := by
  intro s f v q hH hI hpull hle hlt hno hbits
  have hsends := sends_of_bitsLow (bits := targetFrame s.params v q) hI.short_pos hI.short_lt hI.half_ge hI.half_lt
    hI.rx_ge hbits
  obtain ⟨hanswer, hran⟩ := receiveByte_found hH hI hpull hle hlt hno hsends
  have helapse := hH.elapse none
  rw [← helapse] at hanswer
  by_cases hq : byteParity v = q
  case pos =>
    have hanswer : (receiveByte s.elapse).1 = .ok v := by simpa [hq] using hanswer
    refine ⟨_, exec_receiveByte_ok hanswer, by rw [if_pos hq]; rfl, ?_, ?_, receiveByte_signal_answered (.inl ⟨v, hanswer⟩)⟩
    · rw [helapse]; exact hran.newWrites
    · rw [helapse]; exact hran.time
  case neg =>
    have hanswer : (receiveByte s.elapse).1 = .error .parityError := by simpa [Bool.xor_iff_ne, hq] using hanswer
    refine ⟨_, exec_receiveByte_error hanswer, by rw [if_neg hq]; rfl, ?_, ?_, receiveByte_signal_answered (.inr hanswer)⟩
    · rw [helapse]; exact hran.newWrites
    · rw [helapse]; exact hran.time

theorem receiveByte_of_timeout {u : State} (h : (receiveBit u).1 = none) :
    receiveByte u = (.error (.rxByteTimeout 0), (receiveBit u).2) := by
  unfold receiveByte; dsimp only; rw [h]

theorem receiveByte_of_bad_start {u : State} {level : Level} {c : Cycle} (h : (receiveBit u).1 = some (level, c))
    (hbad : bitOf level ≠ u.params.targetStart) : receiveByte u = (.error .invalidTargetId, (receiveBit u).2) := by
  unfold receiveByte
  dsimp only
  rw [h]
  exact if_pos (by rwa [(receiveBit_wire u).params])

/-- Settles O31. -/
theorem receiveByteNoFrame : Obligations.ReceiveByteNoFrame := by
  intro s hH hpull hS hhalf hhalf' hP
  have helapse := hH.elapse none
  refine ⟨fun hno => ?_, fun f hle hlt hbit => ?_⟩
  · obtain ⟨hnone, hran⟩ := receiveBit_timeout hH hpull hno
    have hbyte := receiveByte_of_timeout hnone
    have hanswer : (receiveByte s.elapse).1 = .error (.rxByteTimeout 0) := by rw [helapse, hbyte]
    refine ⟨_, exec_receiveByte_error hanswer, rfl, ?_, newWrites_receiveByte_of_unanswered hanswer nofun,
      receiveByte_signal_unanswered hanswer nofun⟩
    rw [State.reply_time, helapse, hbyte]
    exact hran.time
  · have hlow : targetLow s.target f = true := (hbit f hle (by omega)).2 ⟨le_rfl, by split <;> omega⟩
    have hno : ∀ t, s.time ≤ t → t < f → targetLow s.target t = false := fun t ht htf =>
      Bool.eq_false_iff.2 fun hl => absurd ((hbit t ht (by omega)).1 hl).1 (by omega)
    obtain ⟨hsome, hran⟩ := receiveBit_found hH hpull (by omega) hle hlt hno hlow
    rw [sample_bitLow hhalf hhalf' (hbit _ (by omega) le_rfl)] at hsome
    have hbyte := receiveByte_of_bad_start hsome (by rw [bitOf_levelOf]; simp)
    have hanswer : (receiveByte s.elapse).1 = .error .invalidTargetId := by rw [helapse, hbyte]
    refine ⟨_, exec_receiveByte_error hanswer, rfl, ?_, newWrites_receiveByte_of_unanswered hanswer nofun,
      receiveByte_signal_unanswered hanswer nofun⟩
    rw [State.reply_time, helapse, hbyte]
    exact hran.time

end

end Sys2Proof.Machine
end

section
/-!
PROOF. The entry sequence (O44 to O47). Laws/Entry.lean and Laws/EntryHarness.lean follow the sequencer from the train on; added here
are the train's schedule in closed form (R177), by which its plan is that of the statement, and DRIVE_LOW before it.
-/

namespace Sys2Proof.Machine

open Sys2Proof

/-! ### The schedule of the train (R177) -/

section
variable (p : Params)

/-- The cycles from toggle k to j toggles later. -/
def intervalSum (k j : Nat) : Nat := ((List.range j).map fun i => toggleInterval p (i + k)).sum

theorem intervalSum_zero (k : Nat) : intervalSum p k 0 = 0 := rfl

theorem intervalSum_succ (k j : Nat) : intervalSum p k (j + 1) = toggleInterval p k + intervalSum p (k + 1) j := by
  unfold intervalSum
  rw [List.range_succ_eq_map, List.map_cons, List.map_map, List.sum_cons, Nat.zero_add]
  congr 2
  exact List.map_congr_left fun i _ => congrArg (toggleInterval p) (by simp; omega)

/-- The write of the toggle j after one that rises, or falls. -/
def toggleWrite (high : Bool) (j : Nat) : PinAction := if high = decide (j % 2 = 0) then .setHigh else .setLow

theorem toggleWrite_succ (high : Bool) (j : Nat) : toggleWrite high (j + 1) = toggleWrite (!high) j := by
  unfold toggleWrite
  rcases Nat.mod_two_eq_zero_or_one j with h | h
  · have hj : (j + 1) % 2 = 1 := by omega
    cases high <;> simp [h, hj]
  · have hj : (j + 1) % 2 = 0 := by omega
    cases high <;> simp [h, hj]

theorem trainPlan_eq (m k : Nat) (t : Cycle) (d : Nat) (high : Bool) :
    trainPlan p m k (plus p t d) high =
      (List.range m).flatMap fun j =>
        [scheduled p (toggleWrite high j) (plus p t (d + intervalSum p k j)), unscheduled .watchdog] := by
  induction m generalizing k d high with
  | zero => rfl
  | succ m ih =>
    rw [trainPlan, plus_plus, ih, List.range_succ_eq_map, List.flatMap_cons, List.flatMap_map]
    have hfirst : (if high then PinAction.setHigh else .setLow) = toggleWrite high 0 := by cases high <;> rfl
    simp only [hfirst, toggleWrite_succ, intervalSum_succ, intervalSum_zero, Nat.add_zero, Nat.succ_eq_add_one, Nat.add_assoc]

theorem trainEnd_eq (m k : Nat) (t : Cycle) (d : Nat) : trainEnd p m k (plus p t d) = plus p t (d + intervalSum p k m) := by
  induction m generalizing k d with
  | zero => rfl
  | succ m ih => rw [trainEnd, plus_plus, ih, intervalSum_succ, Nat.add_assoc]

theorem releaseCycle_eq (t0 : Nat) : releaseCycle p t0 = t0 + (cyc p p.tEntryLowUs + intervalSum p 1 (toggles p)) :=
  Nat.add_assoc ..

end

theorem wdtService_noPins (s : State) : NoPins s s.wdtService := by
  constructor
  case forward => exact (wdtService_entryFrame s).forward
  all_goals simp

/-- A watchdog service takes as many cycles as are drawn (R176). -/
theorem wdtService_time_of_draw {s : State} {n : Nat} (h : s.timing = .scripted [n]) : s.wdtService.time = s.time + n := by
  have hrest : (s.elapse.log .watchdog).timing = .scripted [] := drawOne_timing_of_scripted h
  have hdraw : drawValue (s.elapse.log .watchdog) = 0 := by unfold drawValue; rw [hrest]
  rw [State.wdtService, State.elapse_time, workDraw, hdraw, State.log_time, State.elapse_time, workDraw, drawValue_of_scripted h]
  rfl

/-- Settles O47. -/
theorem pulseTrainSchedule : Obligations.PulseTrainSchedule := by
  refine ⟨fun p t0 => ?_, fun p t0 h16 h1k h2k h500 h250 => ?_, fun s => ⟨wdtService_noPins s, State.wdtService_im s,
    State.wdtService_result s, (wdtService_plan s).acts.newActions, fun n => ⟨[n], wdtService_time_of_draw rfl⟩⟩⟩
  · rw [trainPlan_eq]
    simp only [toggleWrite, eq_comm (a := true), decide_eq_true_eq]
    rfl
  · have hshort : ∀ k, k ≤ 4 → toggleInterval p k = 500 * p.cyclesPerUs := fun k hk => by
      rw [toggleInterval, if_pos (h1k ▸ hk), cyc, h500]
    have hlong : ∀ k, 4 < k → toggleInterval p k = 250 * p.cyclesPerUs := fun k hk => by
      rw [toggleInterval, if_neg (by omega), cyc, h250]
    have h1 : toggleCycle p t0 1 = t0 + 16 * p.cyclesPerUs := by rw [toggleCycle_one, cyc, h16]
    have h2 : toggleCycle p t0 2 = toggleCycle p t0 1 + 500 * p.cyclesPerUs :=
      (toggleCycle_succ p t0 0).trans (congrArg _ (hshort 1 (by omega)))
    have h3 : toggleCycle p t0 3 = toggleCycle p t0 2 + 500 * p.cyclesPerUs :=
      (toggleCycle_succ p t0 1).trans (congrArg _ (hshort 2 (by omega)))
    have h4 : toggleCycle p t0 4 = toggleCycle p t0 3 + 500 * p.cyclesPerUs :=
      (toggleCycle_succ p t0 2).trans (congrArg _ (hshort 3 (by omega)))
    have h5 : toggleCycle p t0 5 = toggleCycle p t0 4 + 500 * p.cyclesPerUs :=
      (toggleCycle_succ p t0 3).trans (congrArg _ (hshort 4 (by omega)))
    have h6 : toggleCycle p t0 6 = toggleCycle p t0 5 + 250 * p.cyclesPerUs :=
      (toggleCycle_succ p t0 4).trans (congrArg _ (hlong 5 (by omega)))
    have h7 : toggleCycle p t0 7 = toggleCycle p t0 6 + 250 * p.cyclesPerUs :=
      (toggleCycle_succ p t0 5).trans (congrArg _ (hlong 6 (by omega)))
    have h8 : toggleCycle p t0 8 = toggleCycle p t0 7 + 250 * p.cyclesPerUs :=
      (toggleCycle_succ p t0 6).trans (congrArg _ (hlong 7 (by omega)))
    have h9 : toggleCycle p t0 9 = toggleCycle p t0 8 + 250 * p.cyclesPerUs :=
      (toggleCycle_succ p t0 7).trans (congrArg _ (hlong 8 (by omega)))
    have hcount : toggles p + 1 = 9 := by rw [toggles, h1k, h2k]
    constructor
    · simp only [List.range', List.map_cons, List.map_nil, cyc, List.cons.injEq, and_true, Nat.reduceAdd]
      omega
    · rw [releaseCycle, hcount, cyc]
      omega

/-! ### DRIVE_LOW (R175) -/

theorem pinSet_emits (a : PinAction) (s : State) (due : Option Cycle := none) :
    Emits s (s.pinSet .signal a due) [signalEvent a (s.elapse due).time] :=
  .of_forward (pinSet_wire a s due).forward (by simp [State.pinSet, signalEvent])

section
variable (s : State)

/-- DRIVE_LOW: two writes, and the first toggle scheduled from a `now()` after them. -/
theorem entryDriveLow_spec :
    EntryFrame s s.entryDriveLow ∧ s.entryDriveLow.signal = { mode := .output, latch := .low } ∧
      s.entryDriveLow.entry =
        { s.entry with
          pos := afterToggle s.params 0
          next := plus s.params (wrap s.params s.entryDriveLow.time) (cyc s.params s.params.tEntryLowUs)
          level := .low } ∧
      ∃ low out : Event, Emits s s.entryDriveLow [low, out] ∧ low.notRead = true ∧ out.notRead = true ∧
        low.action = .pin .signal .setLow ∧ out.action = .pin .signal .setOutput := by
  have hframe : EntryFrame s ((s.pinSet .signal .setLow).pinSet .signal .setOutput).elapse :=
    ((pinSet_entryFrame .setLow s).trans (pinSet_entryFrame .setOutput _)).trans (elapse_entryFrame _)
  have hevents := ((pinSet_emits .setLow s).trans (pinSet_emits .setOutput _)).trans
    (.of_quiet (elapse_forward ((s.pinSet .signal .setLow).pinSet .signal .setOutput)) (State.elapse_trace none _))
  refine ⟨hframe.trans (.setEntry _ _), ?_, ?_, _, _, hevents.of_eq rfl rfl rfl rfl, rfl, rfl, rfl, rfl⟩
  · simp [State.entryDriveLow, Pin.write]
  · simp [State.entryDriveLow, State.cc]

/-- The machine after DRIVE_LOW of `swim_entry` (R175). -/
def State.afterDriveLow : State := (s.setEntry { pos := .driveLow }).clearReply.entryDriveLow

theorem exec_swimEntry : exec .swimEntry s = .next (runEntry (toggles s.params + 5) s.afterDriveLow) := rfl

theorem entryStart_frame : EntryFrame s (s.setEntry { pos := .driveLow }).clearReply := by
  constructor
  case forward => exact .of_time le_rfl rfl
  all_goals rfl

end

/-- The release's plan at the end of the train is that of the closed form (R177). -/
theorem releasePlan_trainEnd (p : Params) (t0 : Cycle) :
    releasePlan p (trainEnd p (toggles p) 1 (plus p t0 (cyc p p.tEntryLowUs))) =
      [{ notBefore := some (p, plus p t0 (releaseCycle p 0)), action := .irqMask },
        scheduled p .setInput (plus p t0 (releaseCycle p 0))] := by
  rw [trainEnd_eq, releaseCycle_eq, Nat.zero_add]
  rfl

theorem Emits.plan_of_unscheduled {s u : State} {low out : Event} (h : Emits s u [low, out]) (hlow : low.notRead = true)
    (hout : out.notRead = true) : Plan s u [unscheduled low.action, unscheduled out.action] := by
  refine ⟨[low, out], h.trace, ?_⟩
  rw [List.filter_eq_self.2 (by simp [hlow, hout])]
  exact .cons ⟨rfl, nofun⟩ (.cons ⟨rfl, nofun⟩ .nil)

/-- Settles O44: DRIVE_LOW and then the train of `runEntry_train`, whose reads are those of `runEntry_train_read`. -/
theorem swimEntryRuns : Obligations.SwimEntryRuns := by
  intro s
  obtain ⟨hframe, hsignal, hentry, low, out, hevents, hlow, hout, hlowAct, houtAct⟩ :=
    entryDriveLow_spec (s.setEntry { pos := .driveLow }).clearReply
  have hframe : EntryFrame s s.afterDriveLow := (entryStart_frame s).trans hframe
  have hevents : Emits s s.afterDriveLow [low, out] := hevents.of_eq rfl rfl rfl rfl
  have hparams : s.afterDriveLow.params = s.params := hframe.params
  have him : s.afterDriveLow.im = s.im := hframe.im
  have hpos : s.afterDriveLow.entry.pos = afterToggle s.afterDriveLow.params 0 := by
    rw [hparams]; exact congrArg EntryRegs.pos hentry
  have hlevel : s.afterDriveLow.entry.level = .low := congrArg EntryRegs.level hentry
  have hnext : s.afterDriveLow.entry.next =
      plus s.params (wrap s.params s.afterDriveLow.time) (cyc s.params s.params.tEntryLowUs) :=
    congrArg EntryRegs.next hentry
  obtain ⟨htrain, hplan, hend, hsig, hdur⟩ := runEntry_train (m := toggles s.params) hpos (by rw [hparams, Nat.zero_add])
    ((congrArg Pin.latch hsignal).trans hlevel.symm)
  obtain ⟨r, ev, hev, hr, hread⟩ := runEntry_train_read (m := toggles s.params) hpos (by rw [hparams, Nat.zero_add])
  have hall := hevents.trans hev
  have hdrive : ∀ e ∈ [low, out], e.notRead = true := by simp [hlow, hout]
  refine ⟨_, exec_swimEntry s, hframe.trans htrain, ⟨low, out, ev.filter Event.notRead, s.afterDriveLow.time, ?_,
    (hevents.span out (by simp)).2, fun e he => (hev.span e (List.mem_of_mem_filter he)).1, ?_⟩, hend, ?_, fun d hd => ?_, r, hr, ?_⟩
  · rw [newWrites, hall.newEvents, List.filter_append, List.filter_eq_self.2 hdrive]
    rfl
  · have hfollows := (hevents.plan_of_unscheduled hlow hout).trans hplan
    rw [hparams, hnext, hlevel, him, Nat.zero_add, releasePlan_trainEnd, hlowAct, houtAct] at hfollows
    rw [entryPlan, List.append_assoc]
    exact hfollows.follows
  · rw [hsig, hlevel]; rfl
  · rw [hparams] at hdur
    rcases hdur with ⟨d', hd', hres⟩ | hres | hres
    · rw [hres] at hd; cases hd; exact hd'
    · rw [hres] at hd; cases hd
    · rw [hres] at hd; cases hd
  · rw [hparams, him] at hread
    rw [hall.newEvents]
    exact hread.after hdrive

theorem toggleInterval_lt {p : Params} {b : Nat} (h1k : cyc p p.tToggle1kUs < b) (h2k : cyc p p.tToggle2kUs < b) (j : Nat) :
    toggleInterval p j < b := by
  unfold toggleInterval; split <;> assumption

theorem swimEntry_im {s t : State} (h : exec .swimEntry s = .next t) : t.im = s.im := by
  obtain ⟨u, hu, hframe, -⟩ := swimEntryRuns s
  rw [h] at hu
  cases hu
  exact hframe.im

/-- Settles O45. -/
theorem swimEntryMeasures : Obligations.SwimEntryMeasures := by
  intro s f r hH hlow h1k h2k hsettle hf hfA hfr hrB hrW hline
  obtain ⟨u, hexec, hwent, hpos, him, hnext, hle, hlt⟩ := execSwimEntry_release hH hlow (toggleInterval_lt h1k h2k)
  have hp := hwent.params
  obtain ⟨-, hfall⟩ :=
    runEntry_tail_ran (hwent.harness hH) hpos (by rw [hp]; exact hnext) hle (by rw [hp]; exact hlt)
  rw [hp, hwent.target] at hfall
  obtain ⟨-, hrise⟩ := hfall f hf hfA (fun t h1 h2 => Bool.eq_false_iff.2 fun hl => by have := (hline t h1 (by omega)).1 hl; omega)
    ((hline f hf (by omega)).2 ⟨le_rfl, hfr⟩)
  obtain ⟨hresult, hend⟩ := hrise r hfr.le hrB (fun t h1 h2 => (hline t (by omega) h2.le).2 ⟨h1, h2⟩)
    (Bool.eq_false_iff.2 fun hl => by have := (hline r (by omega) le_rfl).1 hl; omega) hrW hsettle
  have hall := hwent.trans hend
  rw [him] at hall
  exact ⟨_, hexec, hresult, hall.time, hall.newWrites, swimEntry_im hexec⟩

/-- Settles O46. -/
theorem swimEntryTimesOut : Obligations.SwimEntryTimesOut := by
  intro s hH hlow h1k h2k
  obtain ⟨u, hexec, hwent, hpos, him, hnext, hle, hlt⟩ := execSwimEntry_release hH hlow (toggleInterval_lt h1k h2k)
  have hp := hwent.params
  obtain ⟨hnone, hfall⟩ :=
    runEntry_tail_ran (hwent.harness hH) hpos (by rw [hp]; exact hnext) hle (by rw [hp]; exact hlt)
  rw [hp, hwent.target, him] at hnone hfall
  refine ⟨fun hno => ?_, fun f hf hfA hline => ?_⟩
  · obtain ⟨hresult, hend⟩ := hnone hno
    have hall := hwent.trans hend
    exact ⟨_, hexec, hresult, swimEntry_im hexec, hall.time, hall.newWrites⟩
  · obtain ⟨hnoRise, -⟩ := hfall f hf hfA
      (fun t h1 h2 => Bool.eq_false_iff.2 fun hl => by have := (hline t h1 (by omega)).1 hl; omega)
      ((hline f hf (by omega)).2 le_rfl)
    obtain ⟨hresult, hend⟩ := hnoRise fun t h1 h2 => (hline t (by omega) (by omega)).2 h1
    have hall := hwent.trans hend
    exact ⟨_, hexec, hresult, swimEntry_im hexec, hall.time, hall.newWrites⟩

end Sys2Proof.Machine
end

section
/-!
PROOF. The machine (O52 to O59). `exec_quiet` and `exec_command` say once what a call can do: an operation that is no command leaves
the sequencers and caller memory alone, and a command loads the command sequencer (`Starts`) and lets it run. What a run of the
sequencer leaves is Laws/Commands.lean's. The invariant follows for both, and the other statements by induction over the steps of an
operation.
-/

namespace Sys2Proof

/-- The operations that load the command sequencer (R155, R159 to R161, R87). -/
def Instr.isCommand : Instr → Bool
  | .srst | .rotf _ _ | .wotf _ | .sendCommand _ _ _ | .wireSrst | .wireRotf _ _ | .wireWotf _ => true
  | _ => false

end Sys2Proof

namespace Sys2Proof.Machine

open Sys2Proof

/-! ### An operation that is no command -/

/-- What an operation that is no command leaves alone. -/
structure Quiet (i : Instr) (s t : State) : Prop where
  params : t.params = s.params
  target : t.target = s.target
  mem : t.mem = s.mem
  command : t.command = s.command
  forward : Forward s t
  entry : s.entry = {} → t.entry = {}
  frame : s.frame = {} → t.frame = {}
  signal : s.signal.mode = .input → t.signal.mode = .input
  resetPin : i ≠ .init → (∀ mode, i ≠ .reset mode) → t.resetPin = s.resetPin
  im : i ≠ .enterCritical → (∀ im, i ≠ .leaveCritical im) → t.im = s.im

namespace Quiet
variable {i : Instr} {s t : State}

theorem of_wire (h : WireOnly s t) (hframe : s.frame = {} → t.frame = {})
    (hsignal : s.signal.mode = .input → t.signal.mode = .input) : Quiet i s t :=
  ⟨h.params, h.target, h.mem, h.command, h.forward, fun he => h.entry.trans he, hframe, hsignal, fun _ _ => h.resetPin,
    fun _ _ => h.im⟩

theorem of_noPins (h : NoPins s t) (him : i ≠ .enterCritical → (∀ im, i ≠ .leaveCritical im) → t.im = s.im) : Quiet i s t :=
  ⟨h.params, h.target, h.mem, h.command, h.forward, fun he => h.entry.trans he, fun hf => h.frame.trans hf,
    fun hm => (congrArg Pin.mode h.signal).trans hm, fun _ _ => h.resetPin, him⟩

theorem of_resetOnly (h : ResetOnly s t) (hi : i = .init ∨ ∃ mode, i = .reset mode) : Quiet i s t :=
  ⟨h.params, h.target, h.mem, h.command, h.forward, fun he => h.entry.trans he, fun hf => h.frame.trans hf,
    fun hm => (congrArg Pin.mode h.signal).trans hm,
    fun hinit hreset => (hi.elim hinit fun ⟨mode, hmode⟩ => hreset mode hmode).elim, fun _ _ => h.im⟩

/-- The reply and the caller's cursor are none of the things `Quiet` speaks of. -/
theorem of_reply {r : Reply} (h : Quiet i (s.reply r) t) : Quiet i s t := { h with forward := h.forward }

theorem of_setCursor {c : Cycle} (h : Quiet i (s.setCursor c) t) : Quiet i s t := { h with forward := h.forward }

end Quiet

/-- What an operation that is no command can answer. -/
theorem exec_quiet {i : Instr} {s t : State} (hi : i.isCommand = false) (h : exec i s = .next t) : Quiet i s t := by
  cases i with
  | srst | rotf | wotf | sendCommand | wireSrst | wireRotf | wireWotf => cases hi
  | init =>
    obtain ⟨u, hu, -, hframe, -⟩ := initDrivesReset s
    cases h.symm.trans hu
    exact .of_resetOnly hframe (.inl rfl)
  | reset mode =>
    obtain ⟨u, hu, -, hframe, -⟩ := resetModes mode s
    cases h.symm.trans hu
    exact .of_resetOnly hframe (.inr ⟨mode, rfl⟩)
  | swimEntry =>
    obtain ⟨u, hu, hframe, -, hentry, hsignal, -⟩ := swimEntryRuns s
    cases h.symm.trans hu
    exact ⟨hframe.params, hframe.target, hframe.mem, hframe.command, hframe.forward, fun _ => hentry,
      fun hf => hframe.frame.trans hf, fun _ => congrArg Pin.mode hsignal, fun _ _ => hframe.resetPin, fun _ _ => hframe.im⟩
  | now =>
    obtain ⟨u, hu, -, hframe, him, -⟩ := nowReturnsTheCounter s
    cases h.symm.trans hu
    exact .of_noPins hframe fun _ _ => him
  | waitUntil c =>
    obtain ⟨u, hu, -, hframe, him, -⟩ := waitUntilReachesItsTarget c s
    cases h.symm.trans hu
    exact .of_noPins hframe fun _ _ => him
  | enterCritical =>
    obtain ⟨u, hu, -, -, hframe, -⟩ := enterCriticalMasks s
    cases h.symm.trans hu
    exact .of_noPins hframe fun hne _ => absurd rfl hne
  | leaveCritical im =>
    obtain ⟨u, hu, -, -, hframe, -⟩ := leaveCriticalRestores im s
    cases h.symm.trans hu
    exact .of_noPins hframe fun _ hne => absurd rfl (hne im)
  | sendBit start prevZero b =>
    obtain ⟨u, hu, -, hsignal, hframe, hwire⟩ := sendBitWrites start prevZero b s
    cases h.symm.trans hu
    exact (Quiet.of_wire hwire hframe.trans fun hm => by rw [hsignal]; exact hm).of_reply
  | finishFrame last =>
    obtain ⟨u, hu, -, hsignal, hframe, hwire, -⟩ := finishFrameRaises last s
    cases h.symm.trans hu
    exact (Quiet.of_wire hwire hframe.trans fun hm => by rw [hsignal]; exact hm).of_reply
  | receiveBit =>
    obtain ⟨u, hu, hframe, him, -⟩ := receiveBitResult s
    cases h.symm.trans hu
    exact (Quiet.of_noPins hframe fun _ _ => him).of_setCursor
  | sendByte c v n =>
    by_cases hn : n = 4 ∨ n = 9
    case pos =>
      obtain ⟨u, r, -, -, hu, -, -, -, -, -, hsignal, hframe, hwire⟩ := Proofs.sendByteWrites c v n s hn
      cases h.symm.trans hu
      exact (Quiet.of_wire hwire (fun _ => hframe) fun _ => congrArg Pin.mode hsignal).of_reply
    case neg =>
      have hbad : frameLengthOk n = false := by simpa [frameLengthOk] using hn
      cases h.symm.trans (exec_sendByte_of_bad hbad s)
  | receiveByte =>
    obtain ⟨u, r, hu, -, -, hwire, hframe, hsignal⟩ := receiveByteResult s
    cases h.symm.trans hu
    refine (Quiet.of_wire hwire hframe fun hm => ?_).of_reply
    rcases hsignal with ⟨-, hsignal⟩ | ⟨-, -, hsignal⟩
    · exact congrArg Pin.mode hsignal
    · exact (congrArg Pin.mode hsignal).trans hm

/-! ### A command -/

/-- How a command begins: its registers are loaded, no reply stands, and where it saved a mask IM is masked (R155, R162). -/
structure Starts (i : Instr) (s u : State) : Prop where
  resetPin : u.resetPin = s.resetPin
  params : u.params = s.params
  target : u.target = s.target
  mem : u.mem = s.mem
  entry : u.entry = s.entry
  frame : u.frame = s.frame
  signal : u.signal = s.signal
  forward : Forward s u
  result : u.result = none
  pos : u.command.pos = .cmdFrame
  im : u.command.saved.getD u.im = s.im
  critical : u.command.saved ≠ none → u.im = .masked
  noRead : (∀ d dest, i ≠ .rotf d dest) → (∀ d dest, i ≠ .wireRotf d dest) → u.command.rxLen = 0

section
variable {i : Instr} {s t : State} {c : CommandRegs}

/-- A wire transaction and `send_command` begin with IM as it is (D20, log 15). -/
theorem starts_bare (hpos : c.pos = .cmdFrame) (hsaved : c.saved = none)
    (hrx : (∀ d dest, i ≠ .rotf d dest) → (∀ d dest, i ≠ .wireRotf d dest) → c.rxLen = 0) :
    Starts i s (s.setCommand c).clearReply :=
  ⟨rfl, rfl, rfl, rfl, rfl, rfl, rfl, .of_time le_rfl rfl, rfl, hpos, by
    show c.saved.getD s.im = s.im
    rw [hsaved]; rfl, fun hne => absurd hsaved hne, hrx⟩

/-- An entry point begins inside its critical section (R162). -/
theorem starts_bracketed (hpos : c.pos = .cmdFrame) (hsaved : c.saved = some s.im)
    (hrx : (∀ d dest, i ≠ .rotf d dest) → (∀ d dest, i ≠ .wireRotf d dest) → c.rxLen = 0) :
    Starts i s (s.enterCritical.setCommand c).clearReply := by
  have hframe := enterCritical_noPins s
  exact ⟨hframe.resetPin, hframe.params, hframe.target, hframe.mem, hframe.entry, hframe.frame, hframe.signal,
    hframe.forward.trans (.of_time le_rfl rfl), rfl, hpos, by
      show c.saved.getD _ = s.im
      rw [hsaved]; rfl, fun _ => rfl, hrx⟩

theorem readTransaction_next {d dest : Buffer} {saved : Option IrqMask} (h : readTransaction d dest saved s = .next t) :
    ∃ len : Byte, readBuffer d 0 s.mem = some len ∧
      transact { sendCommandRegs s.params.cmdRotf 4 d saved with rxLen := len.toNat, dest := dest } s = .next t := by
  unfold readTransaction at h
  split at h
  · cases h
  · exact ⟨_, ‹_›, h⟩

theorem writeTransaction_next {data : Buffer} {saved : Option IrqMask} (h : writeTransaction data saved s = .next t) :
    ∃ len : Byte, readBuffer data 0 s.mem = some len ∧
      transact (sendCommandRegs s.params.cmdWotf (4 + len.toNat) data saved) s = .next t := by
  unfold writeTransaction at h
  split at h
  · cases h
  · exact ⟨_, ‹_›, h⟩

/-- What a command can answer: the end of a run of the sequencer from where it began. -/
theorem exec_command (hi : i.isCommand = true) (h : exec i s = .next t) :
    ∃ u, Starts i s u ∧ settle u.command.fits (runCommand u) = .next t := by
  cases i with
  | srst =>
    exact ⟨_, starts_bracketed (c := sendCommandRegs s.enterCritical.params.cmdSrst 0 { base := 0, size := 0 } (some s.im))
      rfl rfl fun _ _ => rfl, h⟩
  | rotf d dest =>
    obtain ⟨len, -, h⟩ := readTransaction_next h
    exact ⟨_, starts_bracketed rfl rfl fun hne _ => absurd rfl (hne d dest), h⟩
  | wotf data =>
    obtain ⟨len, -, h⟩ := writeTransaction_next h
    exact ⟨_, starts_bracketed rfl rfl fun _ _ => rfl, h⟩
  | sendCommand cmd len data =>
    cases hid : commandIdOk cmd with
    | true => exact ⟨_, starts_bare rfl rfl fun _ _ => rfl, (if_pos hid).symm.trans h⟩
    | false => cases h.symm.trans (exec_sendCommand_of_bad hid s)
  | wireSrst =>
    exact ⟨_, starts_bare (c := sendCommandRegs s.params.cmdSrst 0 { base := 0, size := 0 } none) rfl rfl fun _ _ => rfl, h⟩
  | wireRotf d dest =>
    obtain ⟨len, -, h⟩ := readTransaction_next h
    exact ⟨_, starts_bare rfl rfl fun _ hne => absurd rfl (hne d dest), h⟩
  | wireWotf data =>
    obtain ⟨len, -, h⟩ := writeTransaction_next h
    exact ⟨_, starts_bare rfl rfl fun _ _ => rfl, h⟩
  | _ => cases hi

theorem Starts.pos_ne {u : State} (h : Starts i s u) : u.command.pos ≠ .idle := by rw [h.pos]; nofun

theorem settle_commandFrame (hpos : s.command.pos ≠ .idle) (h : settle s.command.fits (runCommand s) = .next t) :
    CommandFrame s t := settle_next h ▸ (runCommand_spec s hpos).frame

theorem step_of_command (hpos : s.command.pos ≠ .idle) : step s = settle s.command.fits (runCommand s) := if_pos hpos

/-! ### The invariant -/

/-- What the invariant asks of a state in which a command runs, wherever it stands. -/
structure Running (s : State) : Prop where
  memory : Memory.wf s.mem
  frame : s.frame = {}
  entry : s.entry = {}
  signal : s.signal.mode = .input
  ordered : s.Ordered
  pos : s.command.pos ≠ .idle
  critical : s.command.saved ≠ none → s.im = .masked

theorem State.Inv.running (h : s.Inv) (hpos : s.command.pos ≠ .idle) : Running s :=
  ⟨h.memory, h.frame, h.entry, h.signal, h.ordered, hpos, h.critical⟩

theorem State.Inv.starts {u : State} (h : s.Inv) (hu : Starts i s u) : Running u :=
  ⟨hu.mem ▸ h.memory, hu.frame.trans h.frame, hu.entry.trans h.entry, hu.signal ▸ h.signal, hu.forward.ordered h.ordered,
    hu.pos_ne, hu.critical⟩

/-- A run of the sequencer ends with no register left, or at a payload byte with its mask still held (R49, R156, R162). -/
theorem Running.settle_inv (hs : Running s) (h : settle s.command.fits (runCommand s) = .next t) : t.Inv := by
  have hspec := runCommand_spec s hs.pos
  have ht := settle_next h
  rw [settle_eq hspec] at h
  subst ht
  have hentry := hspec.frame.entry.trans hs.entry
  have hordered := hspec.frame.forward.ordered hs.ordered
  have hsignal := hspec.signal.mode hs.signal
  match hend : (runCommand s).2 with
  | .finished =>
    obtain ⟨hcommand, -⟩ := hspec.finished hend
    exact ⟨hspec.wf hs.memory, hspec.regs hs.frame, hentry, hsignal, hordered, fun _ => hcommand, .inl (by rw [hcommand]),
      fun hne => absurd (by rw [hcommand]) hne⟩
  | .resend =>
    obtain ⟨⟨k, a, hk, hcommand⟩, him, -⟩ := hspec.resend hend
    exact ⟨hspec.wf hs.memory, hspec.regs hs.frame, hentry, hsignal, hordered, fun hpos => (by rw [hcommand] at hpos; cases hpos),
      .inr ⟨k, by rw [hcommand]; exact hk, by rw [hcommand]⟩,
      fun hne => him.trans (hs.critical (by rw [hcommand] at hne; exact hne))⟩
  | .stuck why => rw [hend] at h; cases h

theorem Quiet.inv (h : Quiet i s t) (hs : s.Inv) (hidle : s.command.pos = .idle) : t.Inv := by
  have hcommand : t.command = {} := h.command.trans (hs.idle hidle)
  exact ⟨h.mem ▸ hs.memory, h.frame hs.frame, h.entry hs.entry, h.signal hs.signal, h.forward.ordered hs.ordered,
    fun _ => hcommand, .inl (by rw [hcommand]), fun hne => absurd (by rw [hcommand]) hne⟩

theorem State.Inv.setCalls (h : s.Inv) (q : List (List Byte)) : (s.setCalls q).Inv :=
  { h with ordered := h.ordered }

theorem exec_inv (hs : s.Inv) (hidle : s.command.pos = .idle) (h : exec i s = .next t) : t.Inv := by
  cases hi : i.isCommand with
  | true =>
    obtain ⟨u, hu, hrun⟩ := exec_command hi h
    exact (hs.starts hu).settle_inv hrun
  | false => exact (exec_quiet hi h).inv hs hidle

/-- What a step that takes a call can answer. -/
theorem takeCall_next (h : takeCall s = .next t) :
    (s.calls = [] ∧ t = s.wait) ∨ ∃ i q, exec i (s.setCalls q) = .next t := by
  unfold takeCall at h
  split at h
  · cases h; exact .inl ⟨‹_›, rfl⟩
  · split at h
    · exact .inr ⟨_, _, h⟩
    · cases h

/-- What a step can answer: the command or the entry sequence in progress goes on, or a call is taken. -/
theorem step_cases (h : step s = .next t) :
    (s.command.pos ≠ .idle ∧ settle s.command.fits (runCommand s) = .next t) ∨
      (s.command.pos = .idle ∧ s.entry.pos ≠ .idle ∧ t = runEntry (entryLength s.params) s) ∨
      (s.command.pos = .idle ∧ s.entry.pos = .idle ∧ takeCall s = .next t) := by
  unfold step at h
  split at h
  · exact .inl ⟨‹_›, h⟩
  · rename_i hc
    split at h
    · cases h; exact .inr (.inl ⟨not_not.1 hc, ‹_›, rfl⟩)
    · rename_i he
      exact .inr (.inr ⟨not_not.1 hc, not_not.1 he, h⟩)

/-- Settles O52: a command in progress and one that begins run under `Running`, and every other operation is `Quiet`. -/
theorem stepKeepsInvariant : Obligations.StepKeepsInvariant := by
  intro s t hs h
  rcases step_cases h with ⟨hpos, hrun⟩ | ⟨-, hentry, -⟩ | ⟨hidle, -, hcall⟩
  · exact (hs.running hpos).settle_inv hrun
  · exact absurd (congrArg EntryRegs.pos hs.entry) hentry
  · rcases takeCall_next hcall with ⟨-, rfl⟩ | ⟨i, q, hexec⟩
    · exact (Quiet.of_wire (i := .now) (elapse_wire s) (State.elapse_frame none s).trans
        fun hm => (congrArg Pin.mode (State.elapse_signal none s)).trans hm).inv hs hidle
    · exact exec_inv (hs.setCalls q) hidle hexec

/-- Settles O53. -/
theorem resetMeetsInvariant : Obligations.ResetMeetsInvariant where
  memory := ⟨.nil, nofun⟩
  frame := rfl
  entry := rfl
  signal := rfl
  ordered := ⟨.nil, nofun⟩
  idle _ := rfl
  position := .inl rfl
  critical h := absurd rfl h

/-! ### The state after power-on -/

theorem config_tPeriod_ge : 3 ≤ Config.tPeriod := Nat.le_add_right _ _

theorem config_tPeriod_lt : Config.tPeriod < Config.cycleBound := by
  have h := Nat.mod_lt Config.rawTPeriod (y := Config.cycleBound - 3) (by decide)
  unfold Config.tPeriod
  omega

theorem config_tShort_pos : 0 < Config.tShort := Nat.add_pos_left Nat.one_pos _

theorem config_tShort_lt : 2 * Config.tShort < Config.tPeriod := by
  have hT := config_tPeriod_ge
  have h := Nat.mod_lt Config.rawTShort (y := (Config.tPeriod - 1) / 2) (by omega)
  unfold Config.tShort
  omega

theorem config_cyclesPerUs_lt : Config.cyclesPerUs < Config.cycleBound / 500 := Nat.mod_lt _ (by decide)

/-- Every free value behind a parameter is taken inside the limits of R10, R225 and R227 (log 2). -/
theorem config_valid : Config.params.Valid := by
  have hT := config_tPeriod_lt
  have hS := config_tShort_lt
  have hU : Config.cyclesPerUs < 2147483 := config_cyclesPerUs_lt
  have hR := Nat.mod_lt Config.rawTRxOffset config_tShort_pos
  have hRx : Config.params.tRxOffset = Config.tPeriod - Config.tShort + Config.rawTRxOffset % Config.tShort := rfl
  have hbound : ∀ n, n % Config.cycleBound < 2 ^ 30 := fun n => Nat.mod_lt n (by decide)
  constructor
  case short_pos => exact config_tShort_pos
  case short_lt => exact hS
  case rx_ge => exact hRx ▸ Nat.le_add_right _ _
  case rx_lt =>
    show Config.params.tRxOffset < Config.tPeriod
    omega
  case cyclesPerUs_lt => exact hU.trans (by decide)
  case period_lt => exact hT
  case half_lt => exact (Nat.div_le_self _ 2).trans_lt hT
  case setup_lt => exact hbound _
  case entryLow_lt =>
    show 16 * Config.cyclesPerUs < 2 ^ 30
    omega
  case toggle1k_lt =>
    show 500 * Config.cyclesPerUs < 2 ^ 30
    omega
  case toggle2k_lt =>
    show 250 * Config.cyclesPerUs < 2 ^ 30
    omega
  case settle_lt => exact hbound _
  case rise_lt => exact hbound _
  case eps_lt => exact hbound _
  case pollMin_lt => decide

/-- Settles O54: `config_valid`, the fields of `State.reset`, and R186 from there. -/
theorem powerOnState : Obligations.PowerOnState := by
  obtain ⟨t, ht, -, hframe, hpin, -⟩ := initDrivesReset State.reset
  exact ⟨rfl, rfl, rfl, rfl, config_valid, rfl, rfl, rfl, rfl, rfl, t, ht, hpin, hframe.signal, hframe.im, hframe.params⟩

/-! ### Parameters, the target's drive, and time -/

/-- What no step does, of whatever operation: to write a parameter or the target's drive, or to turn time back (R38, R50, R71). -/
structure Onward (s t : State) : Prop where
  params : t.params = s.params
  target : t.target = s.target
  forward : Forward s t

namespace Onward
variable {s t u : State}

theorem refl (s : State) : Onward s s := ⟨rfl, rfl, .refl s⟩

theorem trans (h : Onward s t) (g : Onward t u) : Onward s u :=
  ⟨g.params.trans h.params, g.target.trans h.target, h.forward.trans g.forward⟩

theorem of_wire (h : WireOnly s t) : Onward s t := ⟨h.params, h.target, h.forward⟩

theorem of_entryFrame (h : EntryFrame s t) : Onward s t := ⟨h.params, h.target, h.forward⟩

theorem of_commandFrame (h : CommandFrame s t) : Onward s t := ⟨h.params, h.target, h.forward⟩

theorem of_quiet (h : Quiet i s t) : Onward s t := ⟨h.params, h.target, h.forward⟩

theorem of_starts (h : Starts i s u) : Onward s u := ⟨h.params, h.target, h.forward⟩

theorem setEntry (e : EntryRegs) (s : State) : Onward s (s.setEntry e) := .of_entryFrame (.setEntry e s)

theorem setIm (im : IrqMask) (s : State) : Onward s (s.setIm im) := ⟨rfl, rfl, .of_time le_rfl rfl⟩

theorem setCalls (q : List (List Byte)) (s : State) : Onward s (s.setCalls q) := ⟨rfl, rfl, .of_time le_rfl rfl⟩

theorem leaveCritical (im : IrqMask) (s : State) (due : Option Cycle := none) : Onward s (s.leaveCritical im due) :=
  ⟨by simp, by simp, leaveCritical_forward im s due⟩

theorem exit (saved : Option IrqMask) (r : Reply) (s : State) : Onward s (s.exit saved r) :=
  ⟨by simp, by simp, exit_forward saved r s⟩

theorem poll (want : Level) (k : Nat) (s : State) : Onward s (poll want k s.elapse).2 :=
  (of_wire (elapse_wire s)).trans (of_wire (poll_wire want k _))

end Onward

theorem entryFall_onward (s : State) : Onward s s.entryFall := by
  unfold State.entryFall
  dsimp only
  split <;> exact (Onward.poll .low _ s).trans (.setEntry _ _)

theorem entryRise_onward (s : State) : Onward s s.entryRise := by
  unfold State.entryRise
  dsimp only
  split
  · exact (Onward.poll .high _ s).trans (.setEntry _ _)
  · exact ((Onward.poll .high _ s).trans (.leaveCritical _ _ _)).trans (.setEntry _ _)

/-- One transition of the entry sequencer, from whatever position. -/
theorem entryStep_onward (s : State) : Onward s s.entryStep := by
  unfold State.entryStep
  split
  case h_1 => exact .refl s
  case h_2 => exact .of_entryFrame (entryDriveLow_spec s).1
  case h_3 k _ => exact .of_entryFrame (entryToggle_spec k s).1
  case h_4 => exact (Onward.setIm .masked s).trans (.of_entryFrame (entryRelease_window s).1.frame)
  case h_5 => exact entryFall_onward s
  case h_6 => exact entryRise_onward s
  case h_7 => exact (Onward.of_wire (waitUntil_wire _ s)).trans (.setEntry _ _)
  all_goals exact (Onward.exit _ _ s).trans (.setEntry _ _)

theorem runEntry_onward (n : Nat) (s : State) : Onward s (runEntry n s) := by
  induction n generalizing s with
  | zero => exact .refl s
  | succ n ih =>
    unfold runEntry
    split
    · exact .refl s
    · exact (entryStep_onward s).trans (ih _)

theorem exec_onward (h : exec i s = .next t) : Onward s t := by
  cases hi : i.isCommand with
  | true =>
    obtain ⟨u, hu, hrun⟩ := exec_command hi h
    exact (Onward.of_starts hu).trans (.of_commandFrame (settle_commandFrame hu.pos_ne hrun))
  | false => exact .of_quiet (exec_quiet hi h)

theorem step_onward (h : step s = .next t) : Onward s t := by
  rcases step_cases h with ⟨hpos, hrun⟩ | ⟨-, -, rfl⟩ | ⟨-, -, hcall⟩
  · exact .of_commandFrame (settle_commandFrame hpos hrun)
  · exact runEntry_onward _ s
  · rcases takeCall_next hcall with ⟨-, rfl⟩ | ⟨i, q, hexec⟩
    · exact .of_wire (elapse_wire s)
    · exact (Onward.setCalls q s).trans (exec_onward hexec)

/-- Settles O55. -/
theorem parametersNeverChange : Obligations.ParametersNeverChange := fun _ _ h =>
  ⟨(step_onward h).params, (step_onward h).target⟩

/-- Settles O59. -/
theorem stepsRunForward : Obligations.StepsRunForward := fun _ _ h => (step_onward h).forward

/-! ### Over all the steps of an operation -/

/-- A step that resumes a command is a settled run (R156). -/
theorem step_settled (hpos : s.command.pos ≠ .idle) (h : step s = .next t) : Settled s t :=
  settle_settled hpos ((step_of_command hpos).symm.trans h)

theorem exec_resetPin (hinit : i ≠ .init) (hreset : ∀ mode, i ≠ .reset mode) (h : exec i s = .next t) :
    t.resetPin = s.resetPin := by
  cases hi : i.isCommand with
  | true =>
    obtain ⟨u, hu, hrun⟩ := exec_command hi h
    exact (settle_settled hu.pos_ne hrun).resetPin.trans hu.resetPin
  | false => exact (exec_quiet hi h).resetPin hinit hreset

/-- Settles O56, by induction on the steps that resume the operation. -/
theorem onlyResetAndInitWriteReset : Obligations.OnlyResetAndInitWriteReset := by
  refine ⟨fun i s t n hinit hreset h => ?_, fun s t hpos h => (step_settled hpos h).resetPin⟩
  induction n generalizing t with
  | zero => exact exec_resetPin hinit hreset h
  | succ n ih =>
    obtain ⟨u, hu, hpos, hstep⟩ := h
    exact (step_settled hpos hstep).resetPin.trans (ih u hu)

/-- The mask a caller gets back: IM where the operation has returned, and what it will be restored to where it has not. -/
structure MaskKept (s t : State) : Prop where
  returned : t.command.pos = .idle → t.im = s.im
  held : t.command.pos ≠ .idle → t.command.saved.getD t.im = s.im

theorem Settled.maskKept {u : State} (h : Settled u t) (hu : u.command.saved.getD u.im = s.im) : MaskKept s t :=
  ⟨fun hidle => (h.returned hidle).trans hu, fun hpos => by
    obtain ⟨him, hsaved, -⟩ := h.held hpos
    rw [him, hsaved, hu]⟩

theorem exec_maskKept (henter : i ≠ .enterCritical) (hleave : ∀ im, i ≠ .leaveCritical im) (hidle : s.command.pos = .idle)
    (h : exec i s = .next t) : MaskKept s t := by
  cases hi : i.isCommand with
  | true =>
    obtain ⟨u, hu, hrun⟩ := exec_command hi h
    exact (settle_settled hu.pos_ne hrun).maskKept hu.im
  | false =>
    have hq := exec_quiet hi h
    exact ⟨fun _ => hq.im henter hleave, fun hpos => absurd (by rw [hq.command]; exact hidle) hpos⟩

/-- Settles O57: `MaskKept` holds after the first step and is kept by every step that resumes the operation. -/
theorem operationsRestoreTheMask : Obligations.OperationsRestoreTheMask := by
  refine ⟨fun i s t n henter hleave hidle h hreturned => ?_, fun s t hpos h => ?_⟩
  · suffices hkept : MaskKept s t from hkept.returned hreturned
    clear hreturned
    induction n generalizing t with
    | zero => exact exec_maskKept henter hleave hidle h
    | succ n ih =>
      obtain ⟨u, hu, hpos, hstep⟩ := h
      exact (step_settled hpos hstep).maskKept ((ih u hu).held hpos)
  · obtain ⟨-, hreturned, hheld, -, -⟩ := step_settled hpos h
    refine ⟨hreturned, fun hne => ?_⟩
    obtain ⟨him, hsaved, -⟩ := hheld hne
    exact ⟨him, hsaved⟩

/-- Caller memory is as it was, and while the operation has not returned it has nothing to receive. -/
structure MemKept (s t : State) : Prop where
  mem : t.mem = s.mem
  noRead : t.command.pos ≠ .idle → t.command.rxLen = 0

theorem Settled.memKept {u : State} (h : Settled u t) (hmem : u.mem = s.mem) (hu : u.command.rxLen = 0) : MemKept s t :=
  ⟨(h.noRead hu).trans hmem, fun hpos => by
    obtain ⟨-, -, hrx⟩ := h.held hpos
    rw [hrx, hu]⟩

theorem exec_mem (hrotf : ∀ d dest, i ≠ .rotf d dest) (hwire : ∀ d dest, i ≠ .wireRotf d dest) (h : exec i s = .next t) :
    t.mem = s.mem := by
  cases hi : i.isCommand with
  | true =>
    obtain ⟨u, hu, hrun⟩ := exec_command hi h
    exact ((settle_settled hu.pos_ne hrun).noRead (hu.noRead hrotf hwire)).trans hu.mem
  | false => exact (exec_quiet hi h).mem

theorem exec_memKept (hrotf : ∀ d dest, i ≠ .rotf d dest) (hwire : ∀ d dest, i ≠ .wireRotf d dest)
    (hidle : s.command.pos = .idle) (h : exec i s = .next t) : MemKept s t := by
  refine ⟨exec_mem hrotf hwire h, fun hpos => ?_⟩
  cases hi : i.isCommand with
  | true =>
    obtain ⟨u, hu, hrun⟩ := exec_command hi h
    exact ((settle_settled hu.pos_ne hrun).memKept hu.mem (hu.noRead hrotf hwire)).noRead hpos
  | false => exact absurd (by rw [(exec_quiet hi h).command]; exact hidle) hpos

/-- Settles O58: `MemKept` holds after the first step and is kept by every step that resumes the operation. -/
theorem onlyReadsWriteMemory : Obligations.OnlyReadsWriteMemory := by
  refine ⟨fun i s t => exec_mem, fun i s t n hrotf hwire hidle h => ?_, fun s t hpos h => ?_⟩
  · suffices hkept : MemKept s t from hkept.mem
    induction n generalizing t with
    | zero => exact exec_memKept hrotf hwire hidle h
    | succ n ih =>
      obtain ⟨u, hu, hpos, hstep⟩ := h
      exact (step_settled hpos hstep).memKept (ih u hu).mem ((ih u hu).noRead hpos)
  · exact ⟨(step_settled hpos h).noRead, (step_settled hpos h).memory⟩

end

end Sys2Proof.Machine
end

section
/-!
PROOF. Command operations over every timing (O32 to O35, O37, O38). `transact_completes` says once what a transaction does whose
buffers hold what it needs; an operation is that transaction with its registers, inside `enter_critical` for an entry point.
-/

namespace Sys2Proof.Machine

open Sys2Proof

/-! ### What each operation loads -/

section
variable (s : State) (d dest data : Buffer) (saved : Option IrqMask)

/-- The registers of a read: the descriptor's four bytes, and as many receptions as its first byte says (R90, R159). -/
def readRegs : CommandRegs :=
  { sendCommandRegs s.params.cmdRotf 4 d saved with rxLen := (Memory.read d.base s.mem).toNat, dest := dest }

/-- The registers of a write: the 4 + L bytes of the buffer, L its first byte (R90, R160). -/
def writeRegs : CommandRegs := sendCommandRegs s.params.cmdWotf (4 + (Memory.read data.base s.mem).toNat) data saved

/-- The registers of a soft reset: a command frame and no payload (R161). -/
def resetRegs : CommandRegs := sendCommandRegs s.params.cmdSrst 0 { base := 0, size := 0 } saved

theorem readRegs_enterCritical : readRegs s.enterCritical d dest saved = readRegs s d dest saved := by simp [readRegs]

theorem writeRegs_enterCritical : writeRegs s.enterCritical data saved = writeRegs s data saved := by simp [writeRegs]

theorem resetRegs_enterCritical : resetRegs s.enterCritical saved = resetRegs s saved := by simp [resetRegs]

end

section
variable {s t u : State} {c : CommandRegs} {d dest data : Buffer} {saved : Option IrqMask} {im : IrqMask}

theorem readBuffer_zero {m : Memory} (h : 0 < d.size) : readBuffer d 0 m = some (Memory.read d.base m) := readBuffer_of_lt h

theorem readTransaction_eq (h : 0 < d.size) : readTransaction d dest saved s = transact (readRegs s d dest saved) s := by
  rw [readTransaction, readBuffer_zero h]
  rfl

theorem writeTransaction_eq (h : 0 < data.size) : writeTransaction data saved s = transact (writeRegs s data saved) s := by
  rw [writeTransaction, readBuffer_zero h]
  rfl

theorem exec_wireRotf (h : 0 < d.size) : exec (.wireRotf d dest) s = transact (readRegs s d dest none) s := readTransaction_eq h

theorem exec_rotf (h : 0 < d.size) : exec (.rotf d dest) s = transact (readRegs s d dest (some s.im)) s.enterCritical := by
  rw [← readRegs_enterCritical]
  exact readTransaction_eq h

theorem exec_wireWotf (h : 0 < data.size) : exec (.wireWotf data) s = transact (writeRegs s data none) s := writeTransaction_eq h

theorem exec_wotf (h : 0 < data.size) : exec (.wotf data) s = transact (writeRegs s data (some s.im)) s.enterCritical := by
  rw [← writeRegs_enterCritical]
  exact writeTransaction_eq h

theorem exec_wireSrst (s : State) : exec .wireSrst s = transact (resetRegs s none) s := rfl

theorem exec_srst (s : State) : exec .srst s = transact (resetRegs s (some s.im)) s.enterCritical := by
  rw [← resetRegs_enterCritical]
  rfl

theorem exec_sendCommand {cmd : Byte} {len : Nat} (h : cmd.toNat < 8) :
    exec (.sendCommand cmd len data) s = transact (sendCommandRegs (cmd.setWidth 3) len data none) s :=
  if_pos (decide_eq_true h)

theorem fits_iff : c.fits = true ↔ c.len ≤ c.data.size ∧ c.rxLen ≤ c.dest.size := by
  simp [CommandRegs.fits]

/-! ### A transaction that completes -/

theorem CommandFrame.of_noPins (h : NoPins s t) : CommandFrame s t :=
  ⟨h.resetPin, h.params, h.cursor, h.entry, h.calls, h.target, h.forward⟩

/-- What a transaction with the registers c leaves, from s to t: `transact_runs`, and the mask where none was saved (D20). -/
structure Completes (c : CommandRegs) (s t : State) : Prop where
  frame : CommandFrame s t
  signal : t.signal = releasedPin
  regs : s.frame = {} → t.frame = {}
  noRead : c.rxLen = 0 → t.mem = s.mem
  memory : ∀ a, (a < c.dest.base ∨ c.dest.base + c.rxLen ≤ a) → Memory.read a t.mem = Memory.read a s.mem
  runs : CommandRuns s.clearReply t c
  im : c.saved = none → t.im = s.im

theorem transact_settled (hpos : c.pos = .cmdFrame) (h : transact c s = .next t) : Settled (s.setCommand c).clearReply t :=
  settle_settled (show c.pos ≠ .idle by rw [hpos]; nofun) h

theorem transact_completes (hfits : c.fits = true) (hpos : c.pos = .cmdFrame) (hwf : Memory.wf s.mem) :
    ∃ t, transact c s = .next t ∧ Completes c s t := by
  obtain ⟨t, ht, hframe, hsignal, hregs, hnoRead, hmemory, hruns⟩ := transact_runs hfits hpos hwf
  refine ⟨t, ht, hframe, hsignal, hregs, hnoRead, hmemory, hruns, fun hsaved => ?_⟩
  have hsettled := transact_settled hpos ht
  by_cases hidle : t.command.pos = .idle
  · have him := hsettled.returned hidle
    rwa [show (s.setCommand c).clearReply.command.saved = none from hsaved] at him
  · obtain ⟨him, -⟩ := hsettled.held hidle
    exact him

/-- The mask is the first event of an entry point (R162). -/
theorem newActions_enterCritical (h : Forward s.enterCritical t) :
    newActions s t = .irqMask :: newActions s.enterCritical t := by
  obtain ⟨-, ev, htrace, -⟩ := h
  have hacts : Acts s.enterCritical t (newActions s.enterCritical t) :=
    ⟨ev.reverse, by simpa using htrace, by rw [newActions, newWrites, newEvents_eq (ev := ev.reverse) (by simpa using htrace)]⟩
  exact ((enterCritical_acts s).trans hacts).newActions

/-- Inside its critical section an entry point leaves alone what its transaction leaves alone. -/
theorem Completes.enterCritical_frame (h : Completes c s.enterCritical t) : CommandFrame s t :=
  (CommandFrame.of_noPins (enterCritical_noPins s)).trans h.frame

theorem Completes.enterCritical_regs (h : Completes c s.enterCritical t) (hs : s.frame = {}) : t.frame = {} :=
  h.regs ((State.enterCritical_frame s).trans hs)

/-- Settles O32. -/
theorem sendCommandRuns : Obligations.SendCommandRuns := by
  intro cmd len data s hcmd hlen hwf
  obtain ⟨t, ht, h⟩ := transact_completes (c := sendCommandRegs (cmd.setWidth 3) len data none)
    (fits_iff.2 ⟨hlen, Nat.zero_le _⟩) rfl hwf
  exact ⟨t, (exec_sendCommand hcmd).trans ht, h.frame, h.noRead rfl, h.im rfl, h.signal, h.regs, h.runs⟩

/-- Settles O34. -/
theorem writeOnTheFlyRuns : Obligations.WriteOnTheFlyRuns := by
  intro data s hwf hsize
  have hpos : 0 < data.size := by omega
  have hfits : ∀ saved, (writeRegs s data saved).fits = true := fun _ => fits_iff.2 ⟨hsize, Nat.zero_le _⟩
  constructor
  · obtain ⟨t, ht, h⟩ := transact_completes (s := s.enterCritical) (hfits (some s.im)) rfl (by rwa [State.enterCritical_mem])
    exact ⟨t, (exec_wotf hpos).trans ht, h.enterCritical_frame, (h.noRead rfl).trans (State.enterCritical_mem s), h.signal,
      h.enterCritical_regs, newActions_enterCritical h.frame.forward, h.runs⟩
  · obtain ⟨t, ht, h⟩ := transact_completes (hfits none) rfl hwf
    exact ⟨t, (exec_wireWotf hpos).trans ht, h.frame, h.noRead rfl, h.im rfl, h.signal, h.regs, h.runs⟩

/-- Settles O35. -/
theorem readOnTheFlyRuns : Obligations.ReadOnTheFlyRuns := by
  intro d dest s hwf hd hdest
  have hpos : 0 < d.size := by omega
  have hfits : ∀ saved, (readRegs s d dest saved).fits = true := fun _ => fits_iff.2 ⟨hd, hdest⟩
  constructor
  · obtain ⟨t, ht, h⟩ := transact_completes (s := s.enterCritical) (hfits (some s.im)) rfl (by rwa [State.enterCritical_mem])
    exact ⟨t, (exec_rotf hpos).trans ht, h.enterCritical_frame, h.signal, h.enterCritical_regs,
      newActions_enterCritical h.frame.forward, fun a ha => by rw [h.memory a ha, State.enterCritical_mem], h.runs⟩
  · obtain ⟨t, ht, h⟩ := transact_completes (hfits none) rfl hwf
    exact ⟨t, (exec_wireRotf hpos).trans ht, h.frame, h.im rfl, h.signal, h.regs, h.memory, h.runs⟩

/-! ### A soft reset -/

theorem endCommand_acts (r : Reply) (u : State) : Acts u (u.endCommand r) (exitActions u.command.saved) := by
  obtain ⟨last, hemits, -, -, -, hlast⟩ := endCommand_returned (s := u) (c := u.command) r rfl rfl
  refine ⟨last, hemits.trace, ?_⟩
  have hwrites : ∀ e ∈ last, e.notRead = true := by
    intro e he
    have hmem := hlast ▸ List.mem_map_of_mem (f := Event.action) he
    cases hsaved : u.command.saved with
    | none => rw [hsaved] at hmem; cases hmem
    | some im =>
      rw [hsaved] at hmem
      simp [Event.notRead, List.mem_singleton.1 hmem]
  rw [List.filter_eq_self.2 hwrites, hlast]

/-- The command frame that a command sends first (R155). -/
def sendCommandFrame (s : State) : Option (Level × Cycle) × State :=
  sendByte (plus s.elapse.params s.elapse.cc s.elapse.params.tSetup) (commandFrameValue s.elapse.params s.elapse.command.cmd) 4
    s.elapse

theorem sendCommandFrame_acts (s : State) :
    Acts s (sendCommandFrame s).2 (frameActions (commandFrameValue s.params s.command.cmd) 4) := by
  rw [← State.elapse_params none s, ← State.elapse_command none s]
  exact (Acts.of_trace (State.elapse_trace none s)).trans (sendByte_acts _ _ 4 (by decide) s.elapse)

theorem sendCommandFrame_command (s : State) : (sendCommandFrame s).2.command = s.command :=
  ((elapse_wire s).trans (sendByte_wire _ _ 4 s.elapse)).command

theorem commandPhase_of_silent (h : (sendCommandFrame s).1 = none) :
    commandPhase s = ((sendCommandFrame s).2.endCommand (.error .readBitTimeout), .finished) := by
  unfold sendCommandFrame at h ⊢
  unfold commandPhase
  dsimp only
  rw [h]
  rfl

theorem commandPhase_of_nack {level : Level} {a : Cycle} (h : (sendCommandFrame s).1 = some (level, a))
    (hl : level ≠ (sendCommandFrame s).2.params.ackLevel) :
    commandPhase s = ((sendCommandFrame s).2.endCommand (.error .nack), .finished) := by
  unfold sendCommandFrame at h hl ⊢
  unfold commandPhase
  dsimp only
  rw [h]
  exact if_neg hl

theorem commandPhase_of_ack {a : Cycle} (h : (sendCommandFrame s).1 = some ((sendCommandFrame s).2.params.ackLevel, a)) :
    commandPhase s = payloadPhase (sendCommandFrame s).2.command.len ((sendCommandFrame s).2.atPayload 0 a) := by
  unfold sendCommandFrame at h ⊢
  unfold commandPhase
  dsimp only
  rw [h]
  exact if_pos rfl

theorem payloadPhase_zero (s : State) : payloadPhase 0 s = rxPhase s.command.rxLen s := rfl

theorem rxPhase_zero (s : State) : rxPhase 0 s = (s.endCommand .ok, .finished) := rfl

/-- What is no event adds none. -/
theorem Acts.of_rest {l : List Action} (h : Acts s t l) (g : u.trace = t.trace) : Acts s u l := by
  obtain ⟨ev, htrace, hev⟩ := h
  exact ⟨ev, g.trans htrace, hev⟩

/-- The replies of a command with no payload and nothing to receive (R155, R161). -/
def frameReply (r : Reply) : Prop := r = .ok ∨ r = .error .readBitTimeout ∨ r = .error .nack

/-- A command with no payload and nothing to receive ends after its command frame, whatever the answer. -/
theorem commandPhase_alone (hlen : s.command.len = 0) (hrx : s.command.rxLen = 0) :
    ∃ r u, frameReply r ∧ Acts s u (frameActions (commandFrameValue s.params s.command.cmd) 4) ∧
      u.command.saved = s.command.saved ∧ commandPhase s = (u.endCommand r, .finished) := by
  have hacts := sendCommandFrame_acts s
  have hcommand := sendCommandFrame_command s
  match h : (sendCommandFrame s).1 with
  | none => exact ⟨_, _, .inr (.inl rfl), hacts, congrArg CommandRegs.saved hcommand, commandPhase_of_silent h⟩
  | some (level, a) =>
    by_cases hack : level = (sendCommandFrame s).2.params.ackLevel
    case neg => exact ⟨_, _, .inr (.inr rfl), hacts, congrArg CommandRegs.saved hcommand, commandPhase_of_nack h hack⟩
    case pos =>
      subst hack
      have hphase := commandPhase_of_ack h
      rw [hcommand, hlen] at hphase
      generalize (sendCommandFrame s).2 = w at hacts hcommand hphase
      have hrxw : (w.atPayload 0 a).command.rxLen = 0 := (congrArg CommandRegs.rxLen hcommand).trans hrx
      refine ⟨.ok, w.atPayload 0 a, .inl rfl, hacts.of_rest rfl, ?_, ?_⟩
      · show w.command.saved = s.command.saved
        rw [hcommand]
      · rw [hphase, payloadPhase_zero, hrxw, rxPhase_zero]

/-- A soft reset sends its command frame and returns (R161), leaving the critical section where it is in one. -/
theorem resetRegs_completes (s : State) (saved : Option IrqMask) :
    ∃ t, transact (resetRegs s saved) s = .next t ∧ CommandFrame s t ∧ t.mem = s.mem ∧ t.im = saved.getD s.im ∧
      t.signal = releasedPin ∧ t.command = {} ∧ (s.frame = {} → t.frame = {}) ∧ (∃ r, frameReply r ∧ t.result = some r) ∧
      newActions s t = frameActions (commandFrameValue s.params s.params.cmdSrst) 4 ++ exitActions saved := by
  obtain ⟨r, u, hr, hacts, hsaved, hphase⟩ := commandPhase_alone (s := (s.setCommand (resetRegs s saved)).clearReply) rfl rfl
  have hspec := commandPhase_spec (s.setCommand (resetRegs s saved)).clearReply
  have hsignal := commandPhase_released (s.setCommand (resetRegs s saved)).clearReply
  have hexit := endCommand_acts r u
  rw [hsaved] at hexit
  rw [hphase] at hspec hsignal
  obtain ⟨hcommand, him, -⟩ := hspec.finished rfl
  have hloaded : CommandFrame s (s.setCommand (resetRegs s saved)).clearReply :=
    ⟨rfl, rfl, rfl, rfl, rfl, rfl, .of_time le_rfl rfl⟩
  refine ⟨u.endCommand r, ?_, hloaded.trans hspec.frame, hspec.noRead rfl, him, hsignal, hcommand, hspec.regs,
    ⟨r, hr, endCommand_result r u⟩, ?_⟩
  · show settle true (commandPhase (s.setCommand (resetRegs s saved)).clearReply) = _
    rw [hphase]
    rfl
  · exact (((Acts.of_trace rfl).trans hacts).trans hexit).newActions

/-- Settles O33. -/
theorem softResetRuns : Obligations.SoftResetRuns := by
  intro s
  constructor
  · obtain ⟨t, ht, hframe, hmem, him, hsignal, hcommand, hregs, ⟨r, hr, hresult⟩, hacts⟩ :=
      resetRegs_completes s.enterCritical (some s.im)
    rw [resetRegs_enterCritical] at ht
    refine ⟨t, (exec_srst s).trans ht, (CommandFrame.of_noPins (enterCritical_noPins s)).trans hframe,
      hmem.trans (State.enterCritical_mem s), him, hsignal, hcommand, fun hs => hregs ((State.enterCritical_frame s).trans hs),
      ?_, ?_⟩
    · rw [hresult]
      simpa [frameReply] using hr
    · rw [newActions_enterCritical hframe.forward, hacts, State.enterCritical_params]
      rfl
  · obtain ⟨t, ht, hframe, hmem, him, hsignal, hcommand, hregs, ⟨r, hr, hresult⟩, hacts⟩ := resetRegs_completes s none
    refine ⟨t, ht, hframe, hmem, him, hsignal, hcommand, hregs, ?_, hacts.trans (List.append_nil _)⟩
    rw [hresult]
    simpa [frameReply] using hr

/-! ### A payload byte after a NACK -/

theorem runCommand_payload {i : Nat} (hpos : s.command.pos = .payload i) :
    runCommand s = payloadPhase (s.command.len - i) s := by
  unfold runCommand
  rw [hpos]

theorem settle_of_fits {r : State × Ending} (h : s.command.fits = true) : settle s.command.fits r = .next r.1 := if_pos h

/-- Settles O37: the step is the payload from byte i on, after no events. -/
theorem nackedByteIsSentAgain : Obligations.NackedByteIsSentAgain := by
  intro s i hpos hi hlen hdest hwf
  have hne : s.command.pos ≠ .idle := by rw [hpos]; nofun
  have hfits : s.command.fits = true := fits_iff.2 ⟨hlen, hdest⟩
  have hm : s.command.len - i = s.command.len - i - 1 + 1 := by omega
  have hspec := payloadPhase_spec (s.command.len - i) s (Nat.sub_le _ _)
  have hends := payloadPhase_ends (s := s) (c := s.command) (s.command.len - i) s (Nat.sub_le _ _) hwf
    ⟨_, _, rfl⟩ rfl rfl rfl rfl (hspec.fits hfits)
  rw [Nat.sub_sub_self hi.le] at hends
  have hsignal : (payloadPhase (s.command.len - i) s).1.signal = releasedPin := by
    rw [hm]
    exact payloadPhase_released _ s (by omega) hfits
  refine ⟨(payloadPhase (s.command.len - i) s).1, ?_, hspec.frame, hsignal, hspec.regs, hends.runsOn (.refl s)⟩
  rw [step_of_command hne, settle_of_fits hfits, runCommand_payload hpos]

/-! ### Entry points as bracketed transactions -/

/-- The outcome of an entry point, given that of its wire transaction (R98, R162). -/
def insideOutcome (im : IrqMask) : Host.Outcome State Fault Refusal → Host.Outcome State Fault Refusal
  | .next t => .next (insideCritical im t)
  | .fault f => .fault f
  | .refused r => .refused r

theorem runCommand_bracketed (hsaved : s.command.saved = none) (hpos : s.command.pos ≠ .idle) :
    runCommand (s.setCommand (s.command.withSaved (some im))) = bracketed im (runCommand s) := by
  have hsame : (s.setCommand (s.command.withSaved (some im))).command.pos = s.command.pos := rfl
  unfold runCommand
  rw [hsame]
  split
  · exact absurd ‹_› hpos
  · exact commandPhase_bracketed im hsaved
  · exact payloadPhase_bracketed im _ hsaved
  · exact rxPhase_bracketed im _ hsaved

theorem insideCritical_of_idle (h : t.command = {}) : insideCritical im t = t.leaveCritical im := if_pos (by rw [h])

theorem insideCritical_of_running (h : t.command.pos ≠ .idle) :
    insideCritical im t = t.setCommand (t.command.withSaved (some im)) := if_neg h

theorem settle_bracketed {r : State × Ending} (h : PhaseSpec s r) :
    settle s.command.fits (bracketed im r) = insideOutcome im (settle s.command.fits r) := by
  obtain ⟨t, e⟩ := r
  cases e with
  | finished =>
    obtain ⟨hcommand, -⟩ := h.finished rfl
    have hleft := insideCritical_of_idle (im := im) hcommand
    unfold settle
    split <;> exact congrArg Host.Outcome.next hleft.symm
  | resend =>
    obtain ⟨⟨i, a, -, hcommand⟩, -⟩ := h.resend rfl
    have hcommand : t.command = { s.command with pos := .payload i, ackStart := a } := hcommand
    have hheld := insideCritical_of_running (im := im) (t := t) (by rw [hcommand]; nofun)
    unfold settle
    split <;> exact congrArg Host.Outcome.next hheld.symm
  | stuck why =>
    have hunfit : s.command.fits = false := by
      by_contra hfits
      rcases h.fits (by simpa using hfits) with hend | hend <;> cases hend
    rw [hunfit]
    rfl

/-- A run of the sequencer with a saved mask is the run without, inside the critical section. -/
theorem settle_runCommand_bracketed (hsaved : s.command.saved = none) (hpos : s.command.pos ≠ .idle) :
    settle s.command.fits (runCommand (s.setCommand (s.command.withSaved (some im)))) =
      insideOutcome im (settle s.command.fits (runCommand s)) := by
  rw [runCommand_bracketed hsaved hpos, settle_bracketed (runCommand_spec s hpos)]

theorem transact_bracketed (hsaved : c.saved = none) (hpos : c.pos = .cmdFrame) :
    transact (c.withSaved (some im)) s = insideOutcome im (transact c s) :=
  settle_runCommand_bracketed (s := (s.setCommand c).clearReply) hsaved (show c.pos ≠ .idle by rw [hpos]; nofun)

theorem readTransaction_bracketed : readTransaction d dest (some im) s = insideOutcome im (readTransaction d dest none s) := by
  unfold readTransaction
  cases readBuffer d 0 s.mem with
  | none => rfl
  | some len =>
    exact transact_bracketed (c := { sendCommandRegs s.params.cmdRotf 4 d none with rxLen := len.toNat, dest := dest }) rfl rfl

theorem writeTransaction_bracketed : writeTransaction data (some im) s = insideOutcome im (writeTransaction data none s) := by
  unfold writeTransaction
  cases readBuffer data 0 s.mem with
  | none => rfl
  | some len => exact transact_bracketed (c := sendCommandRegs s.params.cmdWotf (4 + len.toNat) data none) rfl rfl

/-- An entry point is its wire transaction inside a critical section (R98). -/
theorem exec_bracketed {e w : Instr}
    (h : (e, w) = (.srst, .wireSrst) ∨ (e, w) = (.rotf d dest, .wireRotf d dest) ∨ (e, w) = (.wotf d, .wireWotf d)) :
    exec e s = insideOutcome s.im (exec w s.enterCritical) := by
  rcases h with h | h | h <;> cases h
  · exact transact_bracketed (c := resetRegs s.enterCritical none) rfl rfl
  · exact readTransaction_bracketed
  · exact writeTransaction_bracketed

theorem step_bracketed (hsaved : s.command.saved = none) (hpos : s.command.pos ≠ .idle) :
    step (s.setCommand (s.command.withSaved (some im))) = insideOutcome im (step s) := by
  rw [step_of_command hpos, step_of_command (s := s.setCommand (s.command.withSaved (some im))) hpos]
  exact settle_runCommand_bracketed hsaved hpos

theorem setWidth_three (cmd : BitVec 3) : (cmd.setWidth 8).setWidth 3 = cmd := by
  rw [BitVec.setWidth_setWidth_of_le _ (by decide), BitVec.setWidth_eq]

theorem toNat_setWidth_lt (cmd : BitVec 3) : (cmd.setWidth 8).toNat < 8 := by
  rw [BitVec.toNat_setWidth]
  exact (Nat.mod_le _ _).trans_lt cmd.isLt

/-- Settles O38. -/
theorem entryPointsAreBracketedTransactions : Obligations.EntryPointsAreBracketedTransactions := by
  refine ⟨fun s d dest e w h => ?_, fun s => ?_, fun s data hdata => ?_, fun s saved hsaved hpos => ?_⟩
  · rw [exec_bracketed h]
    cases exec w s.enterCritical <;> rfl
  · rw [exec_sendCommand (toNat_setWidth_lt _), setWidth_three]
    rfl
  · rw [exec_sendCommand (toNat_setWidth_lt _), setWidth_three, exec_wireWotf hdata]
    rfl
  · refine (step_bracketed hsaved hpos).trans ?_
    cases step s <;> rfl

end

end Sys2Proof.Machine
end

section
/-!
PROOF. Command operations against a target whose answers are known (O39 to O43): the silent target over every timing, the others
under HARNESS timing. Each obligation puts the frames of Laws/CommandHarness.lean together, for a transaction from the state in
which its registers are loaded (`State.load`).
-/

namespace Sys2Proof.Machine

open Sys2Proof

/-- The state in which a transaction with these registers begins to run (R155). -/
def State.load (c : CommandRegs) (s : State) : State := (s.setCommand c).clearReply

section load
variable (c : CommandRegs) (s : State)

@[simp] theorem State.load_params : (s.load c).params = s.params := rfl
@[simp] theorem State.load_target : (s.load c).target = s.target := rfl
@[simp] theorem State.load_time : (s.load c).time = s.time := rfl
@[simp] theorem State.load_trace : (s.load c).trace = s.trace := rfl
@[simp] theorem State.load_mem : (s.load c).mem = s.mem := rfl
@[simp] theorem State.load_im : (s.load c).im = s.im := rfl
@[simp] theorem State.load_command : (s.load c).command = c := rfl

end load

section
variable {s t u w : State} {c : CommandRegs} {d dest data : Buffer} {im : IrqMask}

theorem transact_eq (hpos : c.pos = .cmdFrame) : transact c s = settle c.fits (commandPhase (s.load c)) := by
  have hrun : runCommand (s.load c) = commandPhase (s.load c) := by
    unfold runCommand
    rw [show (s.load c).command.pos = .cmdFrame from hpos]
  exact congrArg (settle c.fits) hrun

/-- Whether the buffers hold what was not needed makes no difference. -/
theorem settle_finished (fits : Bool) (t : State) : settle fits (t, .finished) = .next t := by cases fits <;> rfl

theorem settle_resend (fits : Bool) (t : State) : settle fits (t, .resend) = .next t := by cases fits <;> rfl

theorem newActions_of_load {l : List Action} (h : Acts (s.load c) t l) : newActions s t = l :=
  ((Acts.of_trace (s := s) (u := s.load c) rfl).trans h).newActions

/-! ### A silent target, over every timing (R222) -/

/-- On a line with no rise time that nobody pulls, every poll for LOW times out. -/
theorem poll_silent (hrise : s.params.tRise = 0) (hlow : ∀ t, targetLow s.target t = false) (hhost : s.signal.pulls = false)
    (k : Nat) : (poll .low k s).1 = none := by
  induction k generalizing s with
  | zero => rfl
  | succ k ih =>
    have hnotRising : s.lineRising = false := by
      rw [Bool.eq_false_iff, Ne, lineRising_iff]
      rintro (⟨r, -, hle, hlt⟩ | ⟨r, hle, hlt, -⟩) <;> omega
    have hlevel := lineLevel_of_steady (linePulled_eq_false hhost (hlow s.time)) hnotRising
    rw [poll, hlevel, if_neg (by decide)]
    exact ih (by simpa using hrise) (by simpa using hlow) (by simpa using hhost)

theorem receiveBit_silent (hrise : s.params.tRise = 0) (hlow : ∀ t, targetLow s.target t = false)
    (hhost : s.signal.pulls = false) : (receiveBit s).1 = none := by
  unfold receiveBit
  dsimp only
  rw [poll_silent hrise hlow hhost]

/-- A host frame has let SIGNAL go before it reads (R140). -/
theorem sendByte_silent (hrise : s.params.tRise = 0) (hlow : ∀ t, targetLow s.target t = false) (a : Cycle) (v : BitVec 16)
    (n : Nat) : (sendByte a v n s).1 = none := by
  have hwire := (sendFrame_wire a v n s).trans (elapse_wire _)
  refine receiveBit_silent (by rw [hwire.params]; exact hrise) (by rw [hwire.target]; exact hlow) ?_
  rw [State.elapse_signal, sendFrame_signal]
  rfl

/-- A transaction against a silent target is its command frame alone (R222). -/
theorem transact_silent (hrise : s.params.tRise = 0) (hlow : ∀ t, targetLow s.target t = false) (hpos : c.pos = .cmdFrame) :
    ∃ t, transact c s = .next t ∧ t.result = some (.error .readBitTimeout) ∧ t.command = {} ∧ t.im = c.saved.getD s.im ∧
      t.mem = s.mem ∧ Forward s t ∧ newActions s t = frameActions (commandFrameValue s.params c.cmd) 4 ++ exitActions c.saved := by
  have hsilent : (sendCommandFrame (s.load c)).1 = none :=
    sendByte_silent (s := (s.load c).elapse) (by simpa using hrise) (by simpa using hlow) _ _ 4
  have hphase := commandPhase_of_silent hsilent
  have hwire : WireOnly (s.load c) (sendCommandFrame (s.load c)).2 := (elapse_wire _).trans (sendByte_wire _ _ 4 _)
  have hacts := (sendCommandFrame_acts (s.load c)).trans (endCommand_acts (.error .readBitTimeout) _)
  rw [sendCommandFrame_command] at hacts
  have hforward : Forward s (s.load c) := .of_time le_rfl rfl
  refine ⟨_, ?_, endCommand_result _ _, endCommand_command _ _, ?_, (endCommand_mem _ _).trans hwire.mem,
    (hforward.trans hwire.forward).trans (endCommand_frame _ _).forward, newActions_of_load hacts⟩
  · rw [transact_eq hpos, hphase, settle_finished]
  · rw [endCommand_im, sendCommandFrame_command, hwire.im]
    rfl

/-- How a command ends against a silent target, having entered a critical section or not. -/
def EndsSilently (id : BitVec 3) (masks : Bool) (s t : State) : Prop :=
  t.result = some (.error .readBitTimeout) ∧ t.command = {} ∧ t.im = s.im ∧ t.mem = s.mem ∧
    newActions s t =
      (if masks then [.irqMask] else []) ++ frameActions (commandFrameValue s.params id) 4 ++
        (if masks then [.irqRestore s.im] else [])

theorem transact_silent_bare (hrise : s.params.tRise = 0) (hlow : ∀ t, targetLow s.target t = false) (hpos : c.pos = .cmdFrame)
    (hsaved : c.saved = none) : ∃ t, transact c s = .next t ∧ EndsSilently c.cmd false s t := by
  obtain ⟨t, ht, hresult, hcommand, him, hmem, -, hacts⟩ := transact_silent hrise hlow hpos
  rw [hsaved] at him hacts
  exact ⟨t, ht, hresult, hcommand, him, hmem, hacts⟩

theorem transact_silent_bracketed (hrise : s.params.tRise = 0) (hlow : ∀ t, targetLow s.target t = false)
    (hpos : c.pos = .cmdFrame) (hsaved : c.saved = some s.im) :
    ∃ t, transact c s.enterCritical = .next t ∧ EndsSilently c.cmd true s t := by
  obtain ⟨t, ht, hresult, hcommand, him, hmem, hforward, hacts⟩ :=
    transact_silent (s := s.enterCritical) (c := c) (by simpa using hrise) (by simpa using hlow) hpos
  rw [hsaved] at him hacts
  refine ⟨t, ht, hresult, hcommand, him, hmem.trans (State.enterCritical_mem s), ?_⟩
  rw [newActions_enterCritical hforward, hacts, State.enterCritical_params]
  rfl

/-- Settles O43. -/
theorem silentTargetTimesOut : Obligations.SilentTargetTimesOut := by
  intro i s d dest cmd len id masks hrise hlow hcases
  rcases hcases with (h | h) | ⟨hd, h | h | h | h⟩ | ⟨hcmd, h⟩ <;> cases h
  · rw [exec_srst]
    exact transact_silent_bracketed hrise hlow rfl rfl
  · rw [exec_wireSrst]
    exact transact_silent_bare hrise hlow rfl rfl
  · rw [exec_rotf hd]
    exact transact_silent_bracketed hrise hlow rfl rfl
  · rw [exec_wireRotf hd]
    exact transact_silent_bare hrise hlow rfl rfl
  · rw [exec_wotf hd]
    exact transact_silent_bracketed hrise hlow rfl rfl
  · rw [exec_wireWotf hd]
    exact transact_silent_bare hrise hlow rfl rfl
  · rw [exec_sendCommand hcmd]
    exact transact_silent_bare hrise hlow rfl rfl

/-! ### A target that answers the command frame (R155, R158) -/

theorem load_harness (h : s.Harness) : (s.load c).Harness := ⟨h.timing, h.rise, h.pollMin⟩

theorem Went.of_load {l : List Event} {n : Nat} (h : Went (s.load c) t l n) : Went s t l n :=
  ⟨h.params, h.target, h.timing, h.trace, h.time⟩

/-- The command frame of a transaction under HARNESS timing (R155): the answer's bit decides. -/
theorem load_answer (hs : s.Harness) (hi : s.params.Ideal) {d E : Nat} {b : Bool} (hd : d < s.params.timeout)
    (hE : frameEnd s.params 4 (s.time + s.params.tSetup) = E)
    (hdrive : ∀ t, E ≤ t → t ≤ E + d + s.params.tHalf → (targetLow s.target t = true ↔ bitLow s.params b (E + d) t)) :
    ∃ w, commandPhase (s.load c) =
        (if b = bitOf s.params.ackLevel then payloadPhase c.len (w.atPayload 0 (wrap s.params (E + d)))
        else (w.endCommand (.error .nack), .finished)) ∧
      w.command = c ∧ w.mem = s.mem ∧ w.im = s.im ∧
      Went s w (sendByteWrites s.params (commandFrameValue s.params c.cmd) 4 s.time (s.time + s.params.tSetup))
        (E + d + s.params.tHalf) := by
  subst hE
  obtain ⟨w, hphase, hcommand, hmem, him, -, -, hwent⟩ := command_answer (load_harness (c := c) hs) hi hd hdrive
  exact ⟨w, hphase, hcommand, hmem, him, .of_load hwent⟩

/-- Settles O40. -/
theorem commandFrameNacked : Obligations.CommandFrameNacked := by
  intro s cmd len d data hs hi hcmd hd hdrive
  obtain ⟨w, hphase, hcommand, hmem, him, hwent⟩ := load_answer (c := sendCommandRegs (cmd.setWidth 3) len data none) hs hi hd
    rfl hdrive
  rw [if_neg (Bool.not_ne_self _)] at hphase
  have hend := endCommand_went hs hwent (.error .nack)
  rw [hcommand] at hend
  refine ⟨w.endCommand (.error .nack), ?_, endCommand_result _ _, endCommand_command _ _, ?_, (endCommand_mem _ _).trans hmem,
    hend.newWrites.trans (List.append_nil _), hend.time⟩
  · rw [exec_sendCommand hcmd, transact_eq rfl, hphase, settle_finished]
  · rw [endCommand_im, hcommand, him]
    rfl

/-- A transaction whose command frame and payload are acknowledged, up to its receptions (R155, R157, R158). -/
theorem load_acked (hs : s.Harness) (hi : s.params.Ideal) {d E : Nat} (hd : d < s.params.timeout) (hlen : c.len ≤ c.data.size)
    (hE : frameEnd s.params 4 (s.time + s.params.tSetup) = E)
    (hdrive : ∀ t, E ≤ t → t ≤ E + d + c.len * byteFrameSpan s.params d + s.params.tHalf →
      (targetLow s.target t = true ↔ acksLow s.params (byteFrameSpan s.params d) (E + d) (c.len + 1) t)) :
    ∃ y, commandPhase (s.load c) = rxPhase c.rxLen y ∧ (∃ q r, y.command = { c with pos := q, ackStart := r }) ∧
      y.mem = s.mem ∧ y.im = s.im ∧
      Went s y
        (sendByteWrites s.params (commandFrameValue s.params c.cmd) 4 s.time (s.time + s.params.tSetup) ++
          payloadWaveform s.params s.mem c.data (byteFrameSpan s.params d) (E + d) 0 c.len)
        (E + d + c.len * byteFrameSpan s.params d + s.params.tHalf) := by
  have hspan : d + s.params.tPeriod ≤ byteFrameSpan s.params d := by
    have hturn := turnaround_cases s.params
    unfold byteFrameSpan
    omega
  have hslot : ∀ k, k ≤ c.len → ∀ t, E ≤ t →
      E + d + k * byteFrameSpan s.params d + s.params.tPeriod ≤ t + byteFrameSpan s.params d →
      t ≤ E + d + k * byteFrameSpan s.params d + s.params.tHalf →
      (targetLow s.target t = true ↔ bitLow s.params (bitOf s.params.ackLevel) (E + d + k * byteFrameSpan s.params d) t) := by
    intro k hk t hge hfrom hto
    have hhalf := hi.half_lt
    have hle : k * byteFrameSpan s.params d ≤ c.len * byteFrameSpan s.params d := Nat.mul_le_mul_right _ hk
    rw [hdrive t hge (by omega), acksLow_slot hi.short_pos hi.short_lt (Nat.lt_succ_of_le hk) hfrom (by omega)]
  obtain ⟨w, hphase, hcommand, hmem, him, hwent⟩ := load_answer (c := c) (b := bitOf s.params.ackLevel) hs hi hd hE
    fun t hge hto => by simpa using hslot 0 (Nat.zero_le _) t hge (by omega) (by omega)
  rw [if_pos rfl] at hphase
  have hx : Went s (w.atPayload 0 (wrap s.params (E + d))) _ _ := hwent.setCommand _
  have hxcommand : (w.atPayload 0 (wrap s.params (E + d))).command =
      { c with pos := .payload 0, ackStart := wrap s.params (E + d) } := by rw [State.atPayload_command, hcommand]
  have hxmem : (w.atPayload 0 (wrap s.params (E + d))).mem = s.mem := hmem
  have hxim : (w.atPayload 0 (wrap s.params (E + d))).im = s.im := him
  generalize w.atPayload 0 (wrap s.params (E + d)) = x at hphase hx hxcommand hxmem hxim
  obtain ⟨y, hpayload, hymem, hyim, -, -, ⟨q, r, hycommand⟩, hywent⟩ := payloadPhase_acked (a := E + d) (d := d) (m := c.len)
    (hx.harness hs) (hx.params ▸ hi) (by rw [hxcommand]) (by rw [hxcommand]; exact hlen)
    (by rw [hxcommand, hx.params]) (by rw [hx.time, hx.params]) (hx.params ▸ hd) (by
      rw [hx.params, hx.target]
      intro j hj t hge hto
      have hsucc := Nat.add_one_mul j (byteFrameSpan s.params d)
      exact hslot (j + 1) hj t (by omega) (by omega) hto)
  rw [hxcommand] at hycommand
  rw [hx.params, hxmem, hxcommand, Nat.sub_self] at hywent
  refine ⟨y, ?_, ⟨q, r, hycommand⟩, hymem.trans hxmem, hyim.trans hxim, hx.trans hywent⟩
  rw [hphase, hpayload, hycommand]

/-- Settles O39: `load_acked` with nothing to receive. -/
theorem sendCommandAcknowledged : Obligations.SendCommandAcknowledged := by
  intro s cmd len d data hs hi hcmd hlen hd hdrive
  obtain ⟨y, hphase, ⟨q, r, hcommand⟩, hmem, him, hwent⟩ :=
    load_acked (c := sendCommandRegs (cmd.setWidth 3) len data none) hs hi hd hlen rfl hdrive
  have hend := endCommand_went hs hwent .ok
  rw [hcommand] at hend
  refine ⟨y.endCommand .ok, ?_, endCommand_result _ _, endCommand_command _ _, ?_, (endCommand_mem _ _).trans hmem,
    hend.newWrites.trans (List.append_nil _), hend.time⟩
  · rw [exec_sendCommand hcmd, transact_eq rfl, hphase]
    exact settle_finished _ _
  · rw [endCommand_im, hcommand, him]
    rfl

/-! ### A target that answers NACK for ever (R156) -/

theorem bitWaveform_action (p : Params) (start : Nat) (z b : Bool) :
    (bitWaveform p start z b).map Event.action = bitActions z b := by
  cases z <;> cases b <;> rfl

theorem bitsWaveform_action (p : Params) (v : BitVec 16) (m start : Nat) (z : Bool) :
    (bitsWaveform p v m start z).map Event.action = bitsActions v m z := by
  induction m generalizing start z with
  | zero => rfl
  | succ m ih => rw [bitsWaveform, bitsActions, List.map_append, bitWaveform_action, ih]

theorem sendByteWrites_action (p : Params) (v : BitVec 16) (n τ start : Nat) :
    (sendByteWrites p v n τ start).map Event.action = frameActions v n := by
  simp [sendByteWrites, frameWaveform, frameActions, bitWaveform_action, bitsWaveform_action, signalEvent]

/-- The sequencer stands at payload byte i, T_HALF after the start a of a NACK bit, and the target answers every further frame by
NACK, `d` cycles after it (R156). -/
structure NackedForever (i d a : Nat) (s : State) : Prop where
  harness : s.Harness
  ideal : s.params.Ideal
  pos : s.command.pos = .payload i
  lt : i < s.command.len
  len_le : s.command.len ≤ s.command.data.size
  ackStart : s.command.ackStart = wrap s.params a
  time : s.time = a + s.params.tHalf
  delay : d < s.params.timeout
  drive : ∀ t, a + s.params.tPeriod ≤ t →
    (targetLow s.target t = true ↔
      ∃ j, bitLow s.params (!bitOf s.params.ackLevel) (a + (j + 1) * byteFrameSpan s.params d) t)

/-- The state after the run of a step (R156). -/
def State.resume (s : State) : State := (runCommand s).1

/-- What stays from one such step to the next: the byte, where it comes from, and IM. -/
structure SameByte (s t : State) : Prop where
  params : t.params = s.params
  im : t.im = s.im
  mem : t.mem = s.mem
  data : t.command.data = s.command.data

theorem SameByte.trans (h : SameByte s t) (g : SameByte t u) : SameByte s u :=
  ⟨g.params.trans h.params, g.im.trans h.im, g.mem.trans h.mem, g.data.trans h.data⟩

variable {i dly a : Nat}

theorem bitLow_lt {p : Params} {b : Bool} {start x : Nat} (h : bitLow p b start x) (hshort : 2 * p.tShort < p.tPeriod)
    (hpos : 0 < p.tShort) : x < start + p.tPeriod := by
  obtain ⟨-, hlt⟩ := h
  split at hlt <;> omega

theorem byteFrameSpan_ge {p : Params} (hshort : 2 * p.tShort < p.tPeriod) : p.tPeriod + p.tPeriod ≤ byteFrameSpan p dly := by
  have hturn := turnaround_cases p
  unfold byteFrameSpan
  omega

/-- Up to the second NACK bit from here the target drives as the next one. -/
theorem NackedForever.drive_next (h : NackedForever i dly a s) {x : Nat} (hge : a + s.params.tPeriod ≤ x)
    (hto : x < a + 2 * byteFrameSpan s.params dly) :
    targetLow s.target x = true ↔ bitLow s.params (!bitOf s.params.ackLevel) (a + byteFrameSpan s.params dly) x := by
  rw [h.drive x hge]
  constructor
  · rintro ⟨j, hlow⟩
    obtain rfl : j = 0 := by
      by_contra hj
      have hle : 2 * byteFrameSpan s.params dly ≤ (j + 1) * byteFrameSpan s.params dly := Nat.mul_le_mul_right _ (by omega)
      have hafter := hlow.1
      omega
    simpa using hlow
  · exact fun hlow => ⟨0, by simpa using hlow⟩

/-- Seen from the next NACK bit the target drives as from this one. -/
theorem NackedForever.drive_shift (h : NackedForever i dly a s) {x : Nat}
    (hge : a + byteFrameSpan s.params dly + s.params.tPeriod ≤ x) :
    targetLow s.target x = true ↔ ∃ j, bitLow s.params (!bitOf s.params.ackLevel)
      (a + byteFrameSpan s.params dly + (j + 1) * byteFrameSpan s.params dly) x := by
  have hshift : ∀ j, a + byteFrameSpan s.params dly + (j + 1) * byteFrameSpan s.params dly =
      a + (j + 1 + 1) * byteFrameSpan s.params dly := fun j => by
    rw [Nat.add_one_mul (j + 1)]
    omega
  rw [h.drive x (by omega)]
  constructor
  · rintro ⟨_ | j, hlow⟩
    · have hend := bitLow_lt hlow h.ideal.short_lt h.ideal.short_pos
      rw [Nat.zero_add, Nat.one_mul] at hend
      omega
    · exact ⟨j, by rwa [hshift]⟩
  · rintro ⟨j, hlow⟩
    exact ⟨j + 1, by rwa [hshift] at hlow⟩

/-- One run of the sequencer sends the byte once and stands at it again, a span later. -/
theorem NackedForever.resume (h : NackedForever i dly a s) :
    runCommand s = (s.resume, .resend) ∧ SameByte s s.resume ∧
      s.resume.command =
        { s.command with pos := .payload i, ackStart := wrap s.params (a + byteFrameSpan s.params dly) } ∧
      Went s s.resume
        (sendByteWrites s.params (byteFrameValue s.params (Memory.read (s.command.data.base + i) s.mem)) 9
          (a + s.params.tHalf) (a + turnaround s.params))
        (a + byteFrameSpan s.params dly + s.params.tHalf) := by
  have hm : s.command.len - i = s.command.len - i - 1 + 1 := by have := h.lt; omega
  have hback : s.command.len - (s.command.len - i - 1 + 1) = i := by have := h.lt; omega
  have hspan := byteFrameSpan_ge (dly := dly) h.ideal.short_lt
  obtain ⟨w, hphase, hcommand, hmem, him, -, -, hwent⟩ := payload_answer h.harness h.ideal (m := s.command.len - i - 1)
    (b := !bitOf s.params.ackLevel) (by have := h.lt; omega) h.len_le h.ackStart h.time h.delay fun t hge hto => by
      have hhalf := h.ideal.half_lt
      have hturn := turnaround_cases s.params
      unfold frameEnd at hge hto
      unfold byteFrameSpan at hspan
      exact h.drive_next (by omega) (by unfold byteFrameSpan; omega)
  rw [hback] at hphase hcommand hwent
  rw [← hm, if_neg (Bool.not_ne_self _), ← runCommand_payload h.pos] at hphase
  have hresume : s.resume = w.atPayload i (wrap s.params (a + byteFrameSpan s.params dly)) := congrArg Prod.fst hphase
  rw [hresume]
  have hregs : (w.atPayload i (wrap s.params (a + byteFrameSpan s.params dly))).command =
      { s.command with pos := .payload i, ackStart := wrap s.params (a + byteFrameSpan s.params dly) } := by
    rw [State.atPayload_command, hcommand]
  exact ⟨hphase, ⟨hwent.params, him, hmem, by rw [hregs]⟩, hregs, hwent.setCommand _⟩

/-- One step: the byte is sent, answered by NACK, and is to be sent again. -/
theorem NackedForever.step (h : NackedForever i dly a s) :
    step s = .next s.resume ∧ NackedForever i dly (a + byteFrameSpan s.params dly) s.resume ∧ SameByte s s.resume ∧
      newActions s s.resume =
        frameActions (byteFrameValue s.params (Memory.read (s.command.data.base + i) s.mem)) 9 := by
  obtain ⟨hrun, hsame, hregs, hwent⟩ := h.resume
  refine ⟨?_, ?_, hsame, ?_⟩
  · rw [step_of_command (by rw [h.pos]; nofun), hrun, settle_resend]
  · constructor
    case harness => exact hwent.harness h.harness
    case ideal => exact hwent.params ▸ h.ideal
    case pos => rw [hregs]
    case lt => rw [hregs]; exact h.lt
    case len_le => rw [hregs]; exact h.len_le
    case ackStart => rw [hregs, hwent.params]
    case time => rw [hwent.time, hwent.params]
    case delay => exact hwent.params ▸ h.delay
    case drive =>
      rw [hwent.params, hwent.target]
      exact fun x => h.drive_shift
  · rw [newActions, hwent.newWrites, sendByteWrites_action]

theorem NackedForever.iterate (h : NackedForever i dly a s) (k : Nat) :
    (∃ x, NackedForever i dly x (State.resume^[k] s)) ∧ SameByte s (State.resume^[k] s) := by
  induction k with
  | zero => exact ⟨⟨a, h⟩, rfl, rfl, rfl, rfl⟩
  | succ k ih =>
    obtain ⟨⟨x, hx⟩, hsame⟩ := ih
    obtain ⟨-, hnext, hbyte, -⟩ := hx.step
    rw [Function.iterate_succ_apply']
    exact ⟨⟨_, hnext⟩, hsame.trans hbyte⟩

/-- Settles O42: the run is that of `State.resume`. -/
theorem nackForeverNeverEnds : Obligations.NackForeverNeverEnds := by
  intro s i a d hs hi hpos hlt hlen _ hstart htime hd hdrive n
  have h : NackedForever i d a s := ⟨hs, hi, hpos, hlt, hlen, hstart, htime, hd, hdrive⟩
  refine ⟨fun k => State.resume^[k] s, rfl, fun k _ => ?_⟩
  obtain ⟨⟨x, hx⟩, hsame⟩ := h.iterate k
  obtain ⟨hstep, hnext, hbyte, hactions⟩ := hx.step
  rw [hsame.params, hsame.mem, hsame.data] at hactions
  dsimp only
  rw [Function.iterate_succ_apply']
  exact ⟨hstep, hnext.pos, (hsame.trans hbyte).im, hactions⟩

/-! ### A read that receives every byte (R159) -/

/-- What these events do, but for the reads. -/
def writeActions (ev : List Event) : List Action := (ev.filter Event.notRead).map Event.action

theorem writeActions_append (ev ew : List Event) : writeActions (ev ++ ew) = writeActions ev ++ writeActions ew := by
  simp [writeActions]

theorem writeActions_reads {ev : List Event} (h : ∀ e ∈ ev, e.notRead = false) : writeActions ev = [] := by
  rw [writeActions, List.filter_eq_nil_iff.2 fun e he => by rw [h e he]; exact Bool.false_ne_true, List.map_nil]

theorem writeActions_of_noReads {ev : List Event} {l : List Action} (h : ev.map Event.action = l) (hl : ∀ x, Action.read x ∉ l) :
    writeActions ev = l := by
  have hwrites : ∀ e ∈ ev, e.notRead = true := by
    intro e he
    have hmem : e.action ∈ l := h ▸ List.mem_map_of_mem he
    unfold Event.notRead
    split
    · rename_i x hx
      exact absurd (hx ▸ hmem) (hl x)
    · rfl
  rw [writeActions, List.filter_eq_self.2 hwrites, h]

theorem read_notMem_bitActions (z b : Bool) (x : Level) : Action.read x ∉ bitActions z b := by
  cases z <;> cases b <;> simp [bitActions]

theorem read_notMem_bitsActions (v : BitVec 16) (m : Nat) (z : Bool) (x : Level) : Action.read x ∉ bitsActions v m z := by
  induction m generalizing z with
  | zero => exact List.not_mem_nil
  | succ m ih =>
    rw [bitsActions, List.mem_append]
    exact fun h => h.elim (read_notMem_bitActions _ _ x) (ih _)

theorem read_notMem_frameActions (v : BitVec 16) (n : Nat) (x : Level) : Action.read x ∉ frameActions v n := by
  simp [frameActions, read_notMem_bitsActions, read_notMem_bitActions]

theorem read_notMem_ackActions (b : Bool) (x : Level) : Action.read x ∉ ackActions b := by
  simp [ackActions, read_notMem_bitActions]

theorem read_notMem_exitActions (saved : Option IrqMask) (x : Level) : Action.read x ∉ exitActions saved := by
  cases saved <;> simp [exitActions]

variable {p : Params} {ev : List Event}

/-- A host frame with the reception of its ACK does the frame's writes (R140). -/
theorem FrameSent.writeActions {v : BitVec 16} {n : Nat} {start : Cycle} {answer : Option (Level × Cycle)}
    (h : FrameSent p v n start answer ev) : writeActions ev = frameActions v n := by
  obtain ⟨writes, reads, rfl, hplan, hreads⟩ := h
  have hmap := Plan.map_action hplan
  rw [framePlan_action] at hmap
  rw [writeActions_append, writeActions_reads hreads.reads, writeActions_of_noReads hmap (read_notMem_frameActions v n),
    List.append_nil]

theorem PayloadAcked.writeActions {mem : Memory} {i k since since' : Nat} {a a' : Cycle}
    (h : PayloadAcked p mem data i k a since a' since' ev) : writeActions ev = payloadActions p mem data i k := by
  induction k generalizing i a since ev with
  | zero =>
    obtain ⟨rfl, -, -⟩ := h
    rfl
  | succ k ih =>
    obtain ⟨mine, rest, b, m, rfl, ⟨n, -, -, hframe⟩, -, hrest⟩ := h
    rw [writeActions_append, hframe.writeActions, ih hrest, payloadActions]

theorem BitsRead.reads {edge : Option Cycle} {bits : List (Level × Cycle)} (h : BitsRead p edge bits ev) :
    ∀ e ∈ ev, e.notRead = false := by
  induction bits generalizing edge ev with
  | nil =>
    obtain rfl : ev = [] := h
    simp
  | cons b bits ih =>
    obtain ⟨mine, rest, rfl, -, hmine, hrest⟩ := h
    intro e he
    rcases List.mem_append.1 he with he | he
    · exact hmine.reads e he
    · exact ih hrest e he

/-- A byte that was received good is acknowledged (R146). -/
theorem ByteReceived.writeActions {v : Byte} (h : ByteReceived p (.ok v) ev) :
    writeActions ev = ackActions (ackBit p false) := by
  obtain ⟨bits, got, rest, rfl, hgot, ⟨i, hr, -⟩ | ⟨b, -, -, hr, -⟩ | ⟨v', q, c, n, -, -, hr, -, -, hplan⟩⟩ := h
  · cases hr
  · cases hr
  · have hgood : byteParity v' = q := by
      by_contra hbad
      rw [if_neg hbad] at hr
      cases hr
    rw [hgood, Bool.xor_self] at hplan
    have hmap := Plan.map_action hplan
    rw [ackPlan_action] at hmap
    rw [writeActions_append, writeActions_reads hgot.reads, writeActions_of_noReads hmap (read_notMem_ackActions _),
      List.nil_append]

theorem BytesReceived.writeActions {vs : List Byte} (h : BytesReceived p vs ev) : writeActions ev = acksActions p vs.length := by
  induction vs generalizing ev with
  | nil =>
    obtain rfl : ev = [] := h
    rfl
  | cons v vs ih =>
    obtain ⟨mine, rest, rfl, hmine, hrest⟩ := h
    rw [writeActions_append, hmine.writeActions, ih hrest]
    rfl

theorem Returned.reply_eq {r : Reply} (h : Returned s t c r ev) (hok : t.result = some .ok) : r = .ok := by
  obtain ⟨-, -, hr, -⟩ := h
  rw [hr] at hok
  exact Option.some.inj hok

/-- All the writes of a command that returned `Ok(0)` (R155, R159). -/
theorem CommandRuns.actions_of_ok (h : CommandRuns s t c) (hs : s.result = none) (hok : t.result = some .ok) :
    newActions s t = frameActions (commandFrameValue s.params c.cmd) 4 ++ payloadActions s.params s.mem c.data 0 c.len ++
      acksActions s.params c.rxLen ++ exitActions c.saved := by
  obtain ⟨frame, rest, n, m, answer, -, -, -, hframe, ⟨-, hend, -⟩ | ⟨-, -, -, -, hend, -⟩ | ⟨a, -, hruns⟩⟩ := h
  · cases hend.reply_eq hok
  · cases hend.reply_eq hok
  obtain ⟨k, acked, rest, b, m, hevents, hacked, ⟨-, ⟨-, -, -, -, -, -, hkept, -⟩ | ⟨_, _, -, -, hend, -⟩⟩ |
    ⟨hlen, vs, got, failed, last, rfl, hgot, -, ⟨hvs, rfl, hend⟩ | ⟨e, -, -, hend⟩⟩⟩ := hruns
  · rw [hkept, hs] at hok
    cases hok
  · cases hend.reply_eq hok
  · obtain ⟨-, -, -, hlast⟩ := hend
    rw [Nat.zero_add] at hlen
    show writeActions (newEvents s t) = _
    rw [hevents, writeActions_append, writeActions_append, writeActions_append, writeActions_append, hframe.writeActions,
      hacked.writeActions, hgot.writeActions, writeActions_reads (ev := []) (by simp),
      writeActions_of_noReads hlast (read_notMem_exitActions _), hlen, hvs]
    simp
  · cases hend.reply_eq hok

/-- A read of as many bytes as the target sends ends with all of them stored (R159). -/
theorem ReadScenario.received {vs : List Byte} {delay gap f : Nat} (h : ReadScenario s d vs delay gap f) (hwf : Memory.wf s.mem)
    (hrx : (Memory.read d.base s.mem).toNat = vs.length) (hsize : vs.length ≤ dest.size) :
    ∃ w : State, transact (readRegs s d dest (some s.im)) s.enterCritical = .next (w.endCommand .ok) ∧ w.command.saved = some s.im ∧
      Stored s.mem w.mem dest.base vs := by
  have henter := enterCritical_went h.harness
  obtain ⟨y, hphase, hy, hparams, htarget, hmem, hsignal, ⟨q, r, hcommand⟩, hle, hlt, hdrive⟩ :=
    h.receptions (u := s.enterCritical.load (readRegs s d dest (some s.im))) (readRegs s d dest (some s.im)) rfl rfl
      (load_harness (henter.harness h.harness)) henter.params henter.target henter.time (State.enterCritical_mem s) rfl
  have hregs : y.command.rxLen = vs.length ∧ y.command.dest = dest ∧ y.command.saved = some s.im := by
    rw [hcommand]
    exact ⟨hrx, rfl, rfl⟩
  obtain ⟨hyrx, hydest, hysaved⟩ := hregs
  obtain ⟨w, l, hrun, -, ⟨pos, hw⟩, -, hstored, -⟩ := rxPhase_received (m := 0) (f := f) (d := gap) (vs := vs) hy
    (hparams ▸ h.ideal) hsignal (by rw [hyrx, Nat.zero_add]) (by rw [hyrx, hydest]; exact hsize) hle.le (by rw [hparams]; exact hlt)
    (by rw [hparams]; exact h.gap_lt)
    (fun t hge hto => by
      rw [htarget, Bool.eq_false_iff]
      intro hlow
      have hafter := framesLow_ge ((hdrive t hge (Nat.lt_add_right _ hto)).1 hlow)
      omega)
    (fun t hge hto => by
      rw [hparams] at hto ⊢
      rw [htarget]
      exact hdrive t (hle.le.trans hge) hto)
  have hfinal := hstored (by rw [hmem]; exact hwf)
  rw [hmem, hydest, hyrx, Nat.zero_add, Nat.sub_self, Nat.add_zero] at hfinal
  refine ⟨w, ?_, by rw [hw]; exact hysaved, hfinal⟩
  have hrxLen : (readRegs s d dest (some s.im)).rxLen = 0 + vs.length := hrx.trans (Nat.zero_add _).symm
  rw [transact_eq rfl, hphase, hrxLen, hrun, rxPhase_zero, settle_finished]

/-- Settles O41: the run is that of `ReadScenario.received`, and its writes those of every command that returns `Ok(0)`. -/
theorem readOnTheFlyReceives : Obligations.ReadOnTheFlyReceives := by
  intro s d dest vs delay gap f h hwf hrx hsize
  obtain ⟨w, hw, hsaved, hstored⟩ := h.received hwf hrx hsize
  obtain ⟨t, ht, hcompletes⟩ := transact_completes (s := s.enterCritical) (c := readRegs s d dest (some s.im))
    (fits_iff.2 ⟨h.descriptor, hrx.trans_le hsize⟩) rfl (by rwa [State.enterCritical_mem])
  cases hw.symm.trans ht
  have hok : (w.endCommand .ok).result = some .ok := endCommand_result _ _
  have hactions := hcompletes.runs.actions_of_ok rfl hok
  refine ⟨_, (exec_rotf (by have := h.descriptor; omega)).trans ht, hok, endCommand_command _ _, ?_, ?_, ?_⟩
  · rw [endCommand_im, hsaved]
    rfl
  · rw [endCommand_mem]
    exact hstored
  · have hmasked := newActions_enterCritical hcompletes.frame.forward
    have hsame : newActions s.enterCritical (w.endCommand .ok) = newActions s.enterCritical.clearReply (w.endCommand .ok) := rfl
    rw [hmasked, hsame, hactions, State.clearReply_params, State.clearReply_mem, State.enterCritical_params,
      State.enterCritical_mem]
    show _ = [Action.irqMask] ++ frameActions (commandFrameValue s.params s.params.cmdRotf) 4 ++
      payloadActions s.params s.mem d 0 4 ++ acksActions s.params vs.length ++ exitActions (some s.im)
    rw [← hrx]
    rfl

end

end Sys2Proof.Machine
end

section
/-!
PROOF. Accesses past a caller buffer (O36). An access the sequencer stands at is stuck; and where the payload or the received bytes
do not fit their buffers, a run that returns `Ok(0)` would have made every one of them (`rxPhase_ok`, `payloadPhase_ok`).
-/

namespace Sys2Proof.Machine

open Sys2Proof

section
variable {s t u w : State} {c : CommandRegs} {d dest data : Buffer}

/-! ### Reads past a buffer -/

theorem readBuffer_past {b : Buffer} {i : Nat} {m : Memory} (h : b.size ≤ i) : readBuffer b i m = none := if_neg (by omega)

theorem writeBuffer_past {b : Buffer} {i : Nat} {v : Byte} {m : Memory} (h : b.size ≤ i) : writeBuffer b i v m = none :=
  if_neg (by omega)

theorem readTransaction_past {saved : Option IrqMask} (h : d.size = 0) :
    readTransaction d dest saved s = .fault .readPastBuffer := by
  rw [readTransaction, readBuffer_past h.le]

theorem writeTransaction_past {saved : Option IrqMask} (h : data.size = 0) :
    writeTransaction data saved s = .fault .readPastBuffer := by
  rw [writeTransaction, readBuffer_past h.le]

/-- A run that is stuck is a fault where its buffers do not fit. -/
theorem settle_stuck {r : State × Ending} {why : Fault} (hfits : s.command.fits = false) (h : r.2 = .stuck why) :
    settle s.command.fits r = .fault why := by
  rw [hfits, settle, if_neg Bool.false_ne_true, h]

theorem fits_eq_false (h : c.data.size < c.len ∨ c.dest.size < c.rxLen) : c.fits = false := by
  rw [Bool.eq_false_iff, Ne, fits_iff]
  omega

theorem step_payload_past {i : Nat} (hpos : s.command.pos = .payload i) (hi : i < s.command.len)
    (hsize : s.command.data.size ≤ i) : step s = .fault .readPastBuffer := by
  have hm : s.command.len - i = s.command.len - i - 1 + 1 := by omega
  have hstuck : (payloadPhase (s.command.len - i) s).2 = .stuck .readPastBuffer := by
    rw [hm, payloadPhase_succ, readBuffer_past (by omega)]
  rw [step_of_command (by rw [hpos]; nofun), runCommand_payload hpos]
  exact settle_stuck (fits_eq_false (by omega)) hstuck

/-! ### Stores past `dest`, under HARNESS timing -/

/-- One reception of a read (R159): the equation of `rxPhase`. -/
theorem rxPhase_succ (m : Nat) (s : State) :
    rxPhase (m + 1) s =
      match (receiveByte (s.atRx (s.command.rxLen - (m + 1))).elapse).1 with
      | .error e => ((receiveByte (s.atRx (s.command.rxLen - (m + 1))).elapse).2.failCommand e, .finished)
      | .ok v =>
        match writeBuffer (receiveByte (s.atRx (s.command.rxLen - (m + 1))).elapse).2.command.dest (s.command.rxLen - (m + 1)) v
            (receiveByte (s.atRx (s.command.rxLen - (m + 1))).elapse).2.mem with
        | none => ((receiveByte (s.atRx (s.command.rxLen - (m + 1))).elapse).2, .stuck .writePastBuffer)
        | some mem => rxPhase m ((receiveByte (s.atRx (s.command.rxLen - (m + 1))).elapse).2.setMem mem) := rfl

/-- The registers after a reception are those that stood at it. -/
theorem receiveByte_atRx_command (j : Nat) (s : State) :
    (receiveByte (s.atRx j).elapse).2.command = { s.command with pos := .rx j } :=
  ((elapse_wire (s.atRx j)).trans (receiveByte_wire _)).command

/-- A good byte that does not fit `dest` is stuck, on a line that the host has let go (R232). -/
theorem rxPhase_past_of_released {f m : Nat} {v : Byte} (h : s.Harness) (hi : s.params.Ideal) (hhost : s.signal.pulls = false)
    (hdest : s.command.dest.size ≤ s.command.rxLen - (m + 1)) (hle : s.time ≤ f) (hlt : f < s.time + s.params.timeout)
    (hno : ∀ t, s.time ≤ t → t < f → targetLow s.target t = false)
    (hsends : Sends s.target s.params f (targetFrame s.params v (byteParity v))) :
    (rxPhase (m + 1) s).2 = .stuck .writePastBuffer := by
  have hatRx : (s.atRx (s.command.rxLen - (m + 1))).Harness := ⟨h.timing, h.rise, h.pollMin⟩
  obtain ⟨hbyte, -⟩ := receiveByte_found hatRx (f := f) (v := v) (q := byteParity v) hi hhost hle hlt hno hsends
  rw [Bool.xor_self, if_neg Bool.false_ne_true] at hbyte
  rw [rxPhase_succ, hatRx.elapse, hbyte]
  dsimp only
  rw [← hatRx.elapse none, receiveByte_atRx_command, writeBuffer_past hdest]

theorem sends_frame {tgt : Target} {p : Params} {f : Nat} {v : Byte} (hi : p.Ideal)
    (h : ∀ t, f ≤ t → t < f + 10 * p.tPeriod →
      (targetLow tgt t = true ↔ bitsLow p (targetFrame p v (byteParity v)) f t)) :
    Sends tgt p f (targetFrame p v (byteParity v)) :=
  sends_of_bitsLow hi.short_pos hi.short_lt hi.half_ge hi.half_lt hi.rx_ge h

theorem step_rx_past {j f : Nat} {v : Byte} (hpos : s.command.pos = .rx j) (hj : j < s.command.rxLen)
    (hdest : s.command.dest.size ≤ j) (h : s.Harness) (hi : s.params.Ideal) (hhost : s.signal.pulls = false) (hle : s.time ≤ f)
    (hlt : f < s.time + s.params.timeout)
    (hdrive : ∀ t, s.time ≤ t → t < f + 10 * s.params.tPeriod →
      (targetLow s.target t = true ↔ bitsLow s.params (targetFrame s.params v (byteParity v)) f t)) :
    step s = .fault .writePastBuffer := by
  have hm : s.command.rxLen - j = s.command.rxLen - j - 1 + 1 := by omega
  have hrun : runCommand s = rxPhase (s.command.rxLen - j) s := by
    unfold runCommand
    rw [hpos]
  rw [step_of_command (by rw [hpos]; nofun), hrun, hm]
  refine settle_stuck (fits_eq_false (by omega)) (rxPhase_past_of_released h hi hhost (by omega) hle hlt ?_
    (sends_frame hi fun t hge hto => hdrive t (hle.trans hge) hto))
  intro t hge hto
  rw [Bool.eq_false_iff]
  intro hlow
  have hafter := bitsLow_ge ((hdrive t hge (by omega)).1 hlow)
  omega

/-- Before the frame of the last byte begins the target drives as the frames before it. -/
theorem framesLow_concat {p : Params} {span f t : Nat} {vs : List Byte} {v : Byte} (h : t < f + vs.length * span) :
    framesLow p span f (vs ++ [v]) t ↔ framesLow p span f vs t := by
  constructor
  · rintro ⟨j, x, hj, hlow⟩
    have hge := bitsLow_ge hlow
    have hlt : j < vs.length := by
      by_contra hj
      have hle : vs.length * span ≤ j * span := Nat.mul_le_mul_right _ (by omega)
      omega
    exact ⟨j, x, by rwa [List.getElem?_append_left hlt] at hj, hlow⟩
  · rintro ⟨j, x, hj, hlow⟩
    exact ⟨j, x, by rwa [List.getElem?_append_left (List.getElem?_eq_some_iff.1 hj).1], hlow⟩

/-- The receptions of a read against a target that sends these frames and one more, up to the one that has no room in `dest`: the
frames before it are received (`rxPhase_received`), and that one is stuck (R232). -/
theorem rxPhase_overrun {init : List Byte} {v : Byte} {gap f : Nat} (h : s.Harness) (hi : s.params.Ideal)
    (hsignal : s.signal.mode = .input) (hdest : s.command.dest.size = init.length) (hrx : init.length < s.command.rxLen)
    (hle : s.time < f) (hlt : f < s.time + s.params.timeout) (hgap : gap < s.params.timeout)
    (hdrive : ∀ t, s.time ≤ t → t < f + (init ++ [v]).length * byteFrameSpan s.params gap →
      (targetLow s.target t = true ↔ framesLow s.params (byteFrameSpan s.params gap) f (init ++ [v]) t)) :
    (rxPhase s.command.rxLen s).2 = .stuck .writePastBuffer := by
  have hspan : byteFrameSpan s.params gap = turnaround s.params + (10 * s.params.tPeriod - s.params.tShort) + gap := rfl
  have hturn := turnaround_cases s.params
  have hshort := hi.short_lt
  have htotal : (init ++ [v]).length * byteFrameSpan s.params gap =
      init.length * byteFrameSpan s.params gap + byteFrameSpan s.params gap := by
    rw [List.length_append, List.length_singleton, Nat.add_one_mul]
  rw [htotal] at hdrive
  have hlast : (init ++ [v])[init.length]? = some v := by simp
  obtain ⟨w, l, hrun, -, ⟨pos, hcommand⟩, hwsignal, -, -, hwent⟩ := rxPhase_received
    (m := s.command.rxLen - init.length) (f := f) (d := gap) (vs := init) h hi hsignal (by omega) (by omega) hle.le hlt hgap
    (fun t hge hto => by
      rw [Bool.eq_false_iff]
      intro hlow
      have hafter := framesLow_ge ((hdrive t hge (by omega)).1 hlow)
      omega)
    (fun t hge hto => by rw [hdrive t (by omega) (by omega), framesLow_concat hto])
  have hcount : s.command.rxLen - init.length + init.length = s.command.rxLen := by omega
  have hleft : s.command.rxLen - init.length = s.command.rxLen - init.length - 1 + 1 := by omega
  have htime := hwent.time
  have hbegins : s.time ≤ w.time ∧ w.time ≤ f + init.length * byteFrameSpan s.params gap ∧
      f + init.length * byteFrameSpan s.params gap < w.time + s.params.timeout ∧
      ∀ t, w.time ≤ t → t < f + init.length * byteFrameSpan s.params gap → targetLow s.target t = false := by
    cases init with
    | nil =>
      rw [if_pos rfl] at htime
      simp only [List.length_nil, Nat.zero_mul, Nat.add_zero] at hdrive ⊢
      refine ⟨by omega, by omega, by omega, fun t hge hto => ?_⟩
      rw [Bool.eq_false_iff]
      intro hlow
      have hafter := framesLow_ge ((hdrive t (by omega) (by omega)).1 hlow)
      omega
    | cons x init =>
      rw [if_neg (List.cons_ne_nil x init)] at htime
      have hone : byteFrameSpan s.params gap ≤ (x :: init).length * byteFrameSpan s.params gap :=
        Nat.le_mul_of_pos_left _ (Nat.succ_pos _)
      refine ⟨by omega, by omega, by omega, fun t hge hto => ?_⟩
      rw [Bool.eq_false_iff]
      intro hlow
      have hframes := (hdrive t (by omega) (by omega)).1 hlow
      have hafter := bitsLow_ge ((framesLow_slot hi.short_pos hshort hlast (by omega) (by omega)).1 hframes)
      omega
  obtain ⟨hwge, hwle, hwlt, hno⟩ := hbegins
  rw [← hcount, hrun, hleft]
  refine rxPhase_past_of_released (v := v) (hwent.harness h) (hwent.params ▸ hi) ?_ ?_ hwle (by rw [hwent.params]; exact hwlt)
    (by rw [hwent.target]; exact hno) ?_
  · simp [Pin.pulls, hwsignal]
  · rw [hcommand]
    dsimp only
    omega
  · rw [hwent.params, hwent.target]
    refine sends_frame hi fun t hge hto => ?_
    rw [hdrive t (by omega) (by omega), framesLow_slot hi.short_pos hshort hlast (by omega) (by omega)]

/-- A read whose target sends one good frame more than `dest` holds is stuck at it (R232). -/
theorem ReadScenario.past {vs : List Byte} {delay gap f : Nat} (h : ReadScenario s d vs delay gap f)
    (hsize : dest.size + 1 = vs.length) (hrx : vs.length ≤ (Memory.read d.base s.mem).toNat) (saved : Option IrqMask)
    (hu : u.Harness) (hparams : u.params = s.params) (htarget : u.target = s.target) (htime : u.time = s.time)
    (hmem : u.mem = s.mem) : transact (readRegs s d dest saved) u = .fault .writePastBuffer := by
  obtain ⟨init, v, rfl⟩ := List.eq_nil_or_concat' vs |>.resolve_left fun hnil => by simp [hnil] at hsize
  rw [List.length_append, List.length_singleton] at hsize hrx
  obtain ⟨y, hphase, hy, hyparams, hytarget, -, hsignal, ⟨q, r, hcommand⟩, hle, hlt, hdrive⟩ :=
    h.receptions (u := u.load (readRegs s d dest saved)) (readRegs s d dest saved) rfl rfl
      (load_harness hu) hparams htarget htime hmem rfl
  have hrxLen : y.command.rxLen = (readRegs s d dest saved).rxLen := by rw [hcommand]
  have hstuck : (rxPhase y.command.rxLen y).2 = .stuck .writePastBuffer := by
    refine rxPhase_overrun (init := init) (v := v) (gap := gap) (f := f) hy (hyparams ▸ h.ideal) hsignal ?_ ?_ hle ?_ ?_ ?_
    · rw [hcommand]
      show dest.size = init.length
      omega
    · rw [hrxLen]
      exact hrx
    · rw [hyparams]; exact hlt
    · rw [hyparams]; exact h.gap_lt
    · rw [hyparams, hytarget]; exact hdrive
  rw [transact_eq rfl, hphase, ← hrxLen]
  refine settle_stuck (s := s.load (readRegs s d dest saved)) (fits_eq_false (.inr ?_)) hstuck
  show dest.size < (Memory.read d.base s.mem).toNat
  omega

/-! ### A run that returns `Ok(0)` has made every access -/

theorem endCommand_error_ne_ok (e : Error) (u : State) : (u.endCommand (.error e)).result ≠ some .ok := by
  rw [endCommand_result]
  nofun

/-- The receptions that a run made before it returned `Ok(0)` were all inside `dest`. -/
theorem rxPhase_ok {m : Nat} (hend : (rxPhase m s).2 = .finished) (hok : (rxPhase m s).1.result = some .ok)
    (hm : m ≤ s.command.rxLen) (hpos : 0 < m) : s.command.rxLen ≤ s.command.dest.size := by
  induction m generalizing s with
  | zero => omega
  | succ m ih =>
    have hregs := receiveByte_atRx_command (s.command.rxLen - (m + 1)) s
    rw [rxPhase_succ] at hend hok
    generalize receiveByte (s.atRx (s.command.rxLen - (m + 1))).elapse = r at hregs hend hok
    obtain ⟨e | v, w⟩ := r
    · exact absurd hok (endCommand_error_ne_ok e w)
    · dsimp only at hregs hend hok
      rw [hregs] at hend hok
      dsimp only at hend hok
      cases hwrite : writeBuffer s.command.dest (s.command.rxLen - (m + 1)) v w.mem with
      | none =>
        rw [hwrite] at hend
        cases hend
      | some mem =>
        rw [hwrite] at hend hok
        obtain ⟨hlt, -⟩ := writeBuffer_cases hwrite
        by_cases hlast : m = 0
        case pos => omega
        case neg =>
          have hrest := ih (s := w.setMem mem) hend hok (by rw [State.setMem_command, hregs]; dsimp only; omega) (by omega)
          rwa [State.setMem_command, hregs] at hrest

/-- The payload bytes that a run sent before it returned `Ok(0)` were all inside their buffer, and what it received after them
inside `dest`. -/
theorem payloadPhase_ok {m : Nat} (hend : (payloadPhase m s).2 = .finished) (hok : (payloadPhase m s).1.result = some .ok)
    (hm : m ≤ s.command.len) :
    (0 < m → s.command.len ≤ s.command.data.size) ∧ (0 < s.command.rxLen → s.command.rxLen ≤ s.command.dest.size) := by
  induction m generalizing s with
  | zero => exact ⟨fun h => absurd h (lt_irrefl 0), rxPhase_ok hend hok le_rfl⟩
  | succ m ih =>
    rw [payloadPhase_succ] at hend hok
    cases hread : readBuffer s.command.data (s.command.len - (m + 1)) s.mem with
    | none =>
      rw [hread] at hend
      cases hend
    | some b =>
      obtain ⟨hlt, -⟩ := readBuffer_cases hread
      rw [hread] at hend hok
      obtain ⟨-, -, -, -, hregs⟩ := sendPayload_frame (s.command.len - (m + 1)) b s
      dsimp only at hend hok
      generalize sendPayload (s.command.len - (m + 1)) b s = r at hregs hend hok
      obtain ⟨_ | ⟨level, a⟩, w⟩ := r
      · exact absurd hok (endCommand_error_ne_ok _ w)
      · dsimp only at hregs hend hok
        by_cases hack : level = w.params.ackLevel
        case neg =>
          rw [if_neg hack] at hend
          cases hend
        case pos =>
          rw [if_pos hack] at hend hok
          have hnext : (w.atPayload (s.command.len - (m + 1) + 1) a).command =
              { s.command with pos := .payload (s.command.len - (m + 1) + 1), ackStart := a } := by
            rw [State.atPayload_command, hregs]
          have hrest := ih hend hok (by rw [hnext]; dsimp only; omega)
          rw [hnext] at hrest
          obtain ⟨hpayload, hrx⟩ := hrest
          refine ⟨fun _ => ?_, hrx⟩
          by_cases hlast : m = 0
          case pos => omega
          case neg => exact hpayload (by omega)

theorem commandPhase_ok (hend : (commandPhase s).2 = .finished) (hok : (commandPhase s).1.result = some .ok) :
    (0 < s.command.len → s.command.len ≤ s.command.data.size) ∧
      (0 < s.command.rxLen → s.command.rxLen ≤ s.command.dest.size) := by
  have hcommand := sendCommandFrame_command s
  match h : (sendCommandFrame s).1 with
  | none =>
    rw [commandPhase_of_silent h] at hok
    exact absurd hok (endCommand_error_ne_ok _ _)
  | some (level, a) =>
    by_cases hack : level = (sendCommandFrame s).2.params.ackLevel
    case neg =>
      rw [commandPhase_of_nack h hack] at hok
      exact absurd hok (endCommand_error_ne_ok _ _)
    case pos =>
      subst hack
      rw [commandPhase_of_ack h] at hend hok
      have hregs : ((sendCommandFrame s).2.atPayload 0 a).command = { s.command with pos := .payload 0, ackStart := a } := by
        rw [State.atPayload_command, hcommand]
      have hrest := payloadPhase_ok hend hok (by rw [hregs, hcommand])
      rw [hregs, hcommand] at hrest
      exact hrest

/-- A run that answers a next state with `Ok(0)` finished, unless that reply stood before it. -/
theorem settle_ok {r : State × Ending} (hspec : PhaseSpec s r) (h : settle s.command.fits r = .next t) (hs : s.result ≠ some .ok)
    (ht : t.result = some .ok) : r.2 = .finished ∧ r.1.result = some .ok := by
  have hr := settle_next h
  subst hr
  rw [settle_eq hspec] at h
  match hend : r.2 with
  | .finished => exact ⟨rfl, ht⟩
  | .resend =>
    obtain ⟨-, -, hkept, -⟩ := hspec.resend hend
    exact absurd (hkept.symm.trans ht) hs
  | .stuck why =>
    rw [hend] at h
    cases h

theorem transact_ne_ok (hpos : c.pos = .cmdFrame) (hsize : c.data.size < c.len ∨ c.dest.size < c.rxLen)
    (h : transact c s = .next t) : t.result ≠ some .ok := by
  intro ht
  rw [transact_eq hpos] at h
  obtain ⟨hend, hok⟩ := settle_ok (commandPhase_spec (s.load c)) h (show none ≠ some Reply.ok by nofun) ht
  have hin := commandPhase_ok hend hok
  rw [State.load_command] at hin
  obtain ⟨hpayload, hrx⟩ := hin
  rcases hsize with hsize | hsize
  · exact absurd (hpayload (by omega)) (by omega)
  · exact absurd (hrx (by omega)) (by omega)

theorem readTransaction_ne_ok {saved : Option IrqMask} (hsize : d.size < 4 ∨ dest.size < (Memory.read d.base s.mem).toNat)
    (h : readTransaction d dest saved s = .next t) : t.result ≠ some .ok := by
  obtain ⟨len, hread, h⟩ := readTransaction_next h
  obtain ⟨-, rfl⟩ := readBuffer_cases hread
  exact transact_ne_ok rfl hsize h

theorem writeTransaction_ne_ok {saved : Option IrqMask} (hsize : data.size < 4 + (Memory.read data.base s.mem).toNat)
    (h : writeTransaction data saved s = .next t) : t.result ≠ some .ok := by
  obtain ⟨len, hread, h⟩ := writeTransaction_next h
  obtain ⟨-, rfl⟩ := readBuffer_cases hread
  exact transact_ne_ok rfl (.inl hsize) h

/-- No operation whose payload or received bytes do not fit their buffer returns `Ok(0)` (R232). -/
theorem exec_ne_ok {i : Instr} {cmd : Byte} {len : Nat}
    (hi : (i = .sendCommand cmd len d ∧ d.size < len) ∨
      ((i = .wotf d ∨ i = .wireWotf d) ∧ d.size < 4 + (Memory.read d.base s.mem).toNat) ∨
        ((i = .rotf d dest ∨ i = .wireRotf d dest) ∧ (d.size < 4 ∨ dest.size < (Memory.read d.base s.mem).toNat)))
    (h : exec i s = .next t) : t.result ≠ some .ok := by
  rcases hi with ⟨rfl, hsize⟩ | ⟨rfl | rfl, hsize⟩ | ⟨rfl | rfl, hsize⟩
  · cases hid : commandIdOk cmd with
    | true =>
      rw [exec_sendCommand (of_decide_eq_true hid)] at h
      exact transact_ne_ok rfl (.inl hsize) h
    | false => cases h.symm.trans (exec_sendCommand_of_bad hid s)
  · exact writeTransaction_ne_ok (s := s.enterCritical) (by rwa [State.enterCritical_mem]) h
  · exact writeTransaction_ne_ok hsize h
  · exact readTransaction_ne_ok (s := s.enterCritical) (by rwa [State.enterCritical_mem]) h
  · exact readTransaction_ne_ok hsize h

/-- Nor does it when it goes on after a NACK. -/
theorem step_ne_ok {i : Nat} (hpos : s.command.pos = .payload i) (hs : s.result ≠ some .ok)
    (hsize : (i < s.command.len ∧ s.command.data.size < s.command.len) ∨ s.command.dest.size < s.command.rxLen)
    (h : step s = .next t) : t.result ≠ some .ok := by
  intro ht
  rw [step_of_command (by rw [hpos]; nofun), runCommand_payload hpos] at h
  obtain ⟨hend, hok⟩ := settle_ok (payloadPhase_spec _ s (Nat.sub_le _ _)) h hs ht
  obtain ⟨hpayload, hrx⟩ := payloadPhase_ok hend hok (Nat.sub_le _ _)
  rcases hsize with ⟨hi, hsize⟩ | hsize
  · exact absurd (hpayload (by omega)) (by omega)
  · exact absurd (hrx (by omega)) (by omega)

/-- Settles O36. -/
theorem accessPastBufferIsStuck : Obligations.AccessPastBufferIsStuck := by
  refine ⟨fun d dest s hd => ?_, fun s i => step_payload_past, fun s d dest vs delay gap f h hsize hrx => ?_,
    fun s j f v hpos hj hdest hs hi hhost hle hlt hdrive => step_rx_past hpos hj hdest hs hi hhost hle hlt hdrive,
    fun i s t d dest cmd len hi => exec_ne_ok hi, fun s t i hpos hs hsize => step_ne_ok hpos hs hsize⟩
  · exact ⟨readTransaction_past hd, readTransaction_past hd, writeTransaction_past hd, writeTransaction_past hd⟩
  · have hd : 0 < d.size := by have := h.descriptor; omega
    have henter := enterCritical_went h.harness
    rw [exec_rotf hd, exec_wireRotf hd]
    exact ⟨h.past hsize hrx _ (henter.harness h.harness) henter.params henter.target henter.time (State.enterCritical_mem s),
      h.past hsize hrx _ h.harness rfl rfl rfl rfl⟩

end

end Sys2Proof.Machine
end
